-- ==== Sys2Proof/Word.lean ====
section
/-! DEFINITION. The word types of the block (spec/00_scope.md R7, R12; spec/30_encoding.md R90, R91).
Bit 0 is the least significant bit of every value (R12). -/

namespace Sys2Proof

/-- A byte: a payload, a field of a request, a byte of a glyph table. -/
abbrev Byte := BitVec 8

/-- A 16-bit value: a transport word, a coordinate operand, a colour, a double-byte code. -/
abbrev Word16 := BitVec 16

/-- A codeword: bit 8 is the DC flag (1 = data), bits 7..0 the payload (R90). -/
abbrev Codeword := BitVec 9

/-- The 16-bit carrier of a codeword: the codeword is its upper nine bits (R91). -/
abbrev Carrier := BitVec 16

end Sys2Proof
end

