-- ==== Sys2Proof/Config.lean ====
section
/-! DEFINITION. The constants the spec fixes (spec/00_scope.md R7, R8), the parameters it leaves open (R9) and the free
values: what the spec leaves to the transport, to the glyph ROM's supplier and to the sink. -/

namespace Sys2Proof.Config

/-- `CW_BITS` (R7). -/
abbrev cwBits : Nat := 9

/-- `WORD_BITS` (R7). -/
abbrev wordBits : Nat := 16

/-- `BATCH`: codewords per flush (R7). -/
abbrev batch : Nat := 1024

/-- `OUTWORDS`: 16-bit words per flush (R7). -/
abbrev outWords : Nat := 576

/-- `XFER_BYTES`: bytes per flush (R7). -/
abbrev xferBytes : Nat := 1152

/-- `ACC_W`: width of the accumulator, 32 for this hardware (R8). -/
abbrev accW : Nat := 32

/-- `XFER_BYTE_ORDER` (R9, spec/20_memory.md R66). -/
inductive ByteOrder where
  | big
  | little
deriving DecidableEq, Repr, Inhabited

/-- `TEARDOWN_POLICY` (R9, spec/40_codec.md R125). -/
inductive TeardownPolicy where
  | drop
  | pad
deriving DecidableEq, Repr, Inhabited

/-- `SINK_ORDER`, the fill order of the reference sink (R9; spec/93_implementation_defined.md U7). -/
inductive SinkOrder where
  | rowMajor
  | columnMajor
deriving DecidableEq, Repr, Inhabited

/-- The kind of an entry of `INIT_SEQ` (R9): a register write or a data write. -/
inductive CmdKind where
  | reg
  | data
deriving DecidableEq, Repr, Inhabited

/-- `DEVCFG[o]`: the record INIT loads (R9, spec/45_system.md R231). -/
structure DevCfg where
  width : Word16
  height : Word16
  ramcmd : Byte
  colcmd : Byte
  rowcmd : Byte
deriving DecidableEq, Repr, Inhabited

/-- The open parameters of R9, as one record of plain data. `xferScript` and `openScript` are the transport's answers to
the first calls, as far as whoever supplies the board fixes them; beyond them the answers are free (log 9). -/
structure Board where
  /-- `DEVCFG[portrait]` -/
  portrait : DevCfg
  /-- `DEVCFG[landscape]` -/
  landscape : DevCfg
  /-- `INIT_SEQ[portrait]` -/
  initPortrait : List (CmdKind × Byte)
  /-- `INIT_SEQ[landscape]` -/
  initLandscape : List (CmdKind × Byte)
  /-- `ASCII_FONT[12]` -/
  ascii12 : List Byte
  /-- `ASCII_FONT[16]` -/
  ascii16 : List Byte
  /-- `DB_INDEX[16]` -/
  dbIndex16 : List Word16
  /-- `DB_INDEX[24]` -/
  dbIndex24 : List Word16
  /-- `DB_INDEX[32]` -/
  dbIndex32 : List Word16
  /-- `DB_BITMAP[16]` -/
  dbBitmap16 : List Byte
  /-- `DB_BITMAP[24]` -/
  dbBitmap24 : List Byte
  /-- `DB_BITMAP[32]` -/
  dbBitmap32 : List Byte
  /-- `FG_RESET` -/
  fgReset : Word16
  /-- `BG_RESET` -/
  bgReset : Word16
  /-- `XferResult(k)` for `k` below its length -/
  xferScript : List Int
  /-- the answers to the first calls of `Open()` -/
  openScript : List Int
deriving DecidableEq, Repr, Inhabited

/-- The tables have the sizes the spec gives them: 95 glyphs of `s` bytes in an ASCII font, one bitmap of `s × s / 8`
bytes per index entry (R9; spec/44_text.md R201, R205). -/
def Board.wf (b : Board) : Bool :=
  b.ascii12.length == 95 * 12 && b.ascii16.length == 95 * 16 &&
  b.dbBitmap16.length == 32 * b.dbIndex16.length &&
  b.dbBitmap24.length == 72 * b.dbIndex24.length &&
  b.dbBitmap32.length == 128 * b.dbIndex32.length

/-- The parameters of R9 that have a decided value and that a model may still expose. -/
structure Policy where
  byteOrder : ByteOrder
  teardown : TeardownPolicy
  padCarrier : Carrier
  sinkOrder : SinkOrder
deriving DecidableEq, Repr, Inhabited

/-- The values this hardware takes (R9: `big`, `drop`, `0x0000`, logical row-major). -/
def thisHardware : Policy :=
  { byteOrder := .big, teardown := .drop, padCarrier := 0x0000#16, sinkOrder := .rowMajor }

/-- Free value: the board, every OPEN parameter of R9 (log 3). -/
opaque board : Board

/-- Free value: `XferResult(k)` where the board's script does not reach (R255; log 9). Negative means failure. -/
opaque xferResult : Nat → Int

/-- Free value: the answer to the k-th `Open()` where the board's script does not reach (R230; log 9). -/
opaque openResult : Nat → Int

/-- Free value: the byte a glyph ROM gives at an address beyond the table supplied (log 22). -/
opaque romHole : Nat → Byte

/-- The mode of the reference sink (spec/20_memory.md R81). -/
inductive SinkMode where
  | none
  | colparams
  | rowparams
  | ram
deriving DecidableEq, Repr, Inhabited

/-- The window and mode of the reference sink (spec/20_memory.md R81): its ranges, its mode, the parameters collected, the
pixel index and the pending high byte. -/
structure SinkContext where
  cs : Word16
  ce : Word16
  rs : Word16
  re : Word16
  mode : SinkMode
  params : List Byte
  k : Nat
  hb : Option Byte
deriving DecidableEq, Repr, Inhabited

/-- Free value: the sink's window and mode where the spec leaves them indeterminate: after codeword `i` of the `n`-th Transfer
where that codeword breaks the window duty (spec/70_reset_and_hazards.md R273), and, with `i` = 1024, after the whole of a
failed batch or of the batch that follows one (spec/93_implementation_defined.md U4; logs 19, 29). -/
opaque strayContext : Nat → Nat → SinkContext

/-- Free value: the GRAM pixel hit by pixel `k` of the reversed window `(x0, y0, x1, y1)`
(spec/93_implementation_defined.md U5; log 20). -/
opaque strayPixel : Word16 → Word16 → Word16 → Word16 → Nat → Nat

end Sys2Proof.Config
end

