-- ==== Sys2Proof/Machine/Bits.lean ====
section
/-! DEFINITION. Bit fields and byte orders: the codeword and its carrier (spec/30_encoding.md R90 to R92), high byte first
(spec/20_memory.md R65), MSB-first bit strings (R64), a batch read back (R97), the transfer buffer (R66). -/

namespace Sys2Proof.Machine

open Sys2Proof.Config

/-- `v[15:8]` -/
def hiByte (w : Word16) : Byte := w.extractLsb' 8 8

/-- `v[7:0]` -/
def loByte (w : Word16) : Byte := w.extractLsb' 0 8

/-- Two bytes, high byte first (R102, R107). -/
def be16 (h l : Byte) : Word16 := h ++ l

/-- Four bytes, highest first (R102). -/
def be32 (a b c d : Byte) : BitVec 32 := (a ++ b) ++ (c ++ d)

/-- Byte `i` of a 32-bit value, byte 0 the lowest. -/
def byte32 (v : BitVec 32) (i : Nat) : Byte := v.extractLsb' (8 * i) 8

/-- `codeword = carrier[15:7]` (R91): bits 6..0 of a carrier are ignored. -/
def codewordOf (c : Carrier) : Codeword := c.extractLsb' 7 9

/-- `{dc, payload, 7 low bits}` (R91). -/
def carrierOf (cw : Codeword) (low : BitVec 7) : Carrier := cw ++ low

/-- `CW.CMD`: the command codeword of a byte (R92). -/
def cmdCodeword (b : Byte) : Codeword := 0#1 ++ b

/-- `CW.DAT`: the data codeword of a byte (R92). -/
def datCodeword (b : Byte) : Codeword := 1#1 ++ b

/-- The DC flag, bit 8 (R90): true for data. -/
def isData (cw : Codeword) : Bool := cw.getLsbD 8

/-- The payload, bits 7..0 (R90). -/
def payload (cw : Codeword) : Byte := cw.extractLsb' 0 8

/-- `trunc_16` of an `int` (spec/00_scope.md R12; spec/43_raster.md R185). -/
def trunc16 (v : Int) : Word16 := BitVec.ofInt 16 v

/-- `zext` of a 16-bit operand to an `int` (R12). -/
def zext (w : Word16) : Int := (w.toNat : Int)

/-- The bits of a value, MSB-first (R12, R64). -/
def bitsOf {n : Nat} (v : BitVec n) : List Bool := (List.range n).map v.getMsbD

/-- The value of a bit string read MSB-first. -/
def natOfBits (bs : List Bool) : Nat := bs.foldl (fun a b => 2 * a + b.toNat) 0

/-- The bit string read back nine bits at a time (R97); bits past the last whole codeword are left over. -/
def codewordsOfBits : List Bool → List Codeword
  | b8 :: b7 :: b6 :: b5 :: b4 :: b3 :: b2 :: b1 :: b0 :: rest =>
    BitVec.ofNat 9 (natOfBits [b8, b7, b6, b5, b4, b3, b2, b1, b0]) :: codewordsOfBits rest
  | _ => []

/-- A batch read back by the sink (R97): the words MSB-first in index order, then nine bits at a time. -/
def unpackBatch (words : List Word16) : List Codeword := codewordsOfBits (words.flatMap bitsOf)

/-- The byte buffer of a transfer (R66, R96): word `j` in bytes `2j` and `2j + 1`. -/
def transferBytes (order : ByteOrder) (words : List Word16) : List Byte :=
  words.flatMap fun w =>
    match order with
    | .big => [hiByte w, loByte w]
    | .little => [loByte w, hiByte w]

end Sys2Proof.Machine
end

