-- ==== Sys2Proof/Syntax.lean ====
section
/-! DEFINITION. The operations of the block: one constructor per row of spec/opcode_table.json (spec/30_encoding.md R91,
R92, R104), and the host request that carries one (R102). Operand widths: spec/10_state.md R41 and R103; a 1-bit operand
travels as one byte and is kept as that byte here, because its range is checked after the READY gate
(spec/60_exceptions.md R249; log 17). -/

namespace Sys2Proof

/-- An operation of the block; "instruction" and "operation" mean the same (spec/00_scope.md R2). -/
inductive Instr where
  /-- PUSH carrier (R122) -/
  | push (carrier : Carrier)
  /-- TEARDOWN (R125) -/
  | teardown
  /-- WRREG b (R144) -/
  | wrreg (b : Byte)
  /-- WRDAT8 b (R144) -/
  | wrdat8 (b : Byte)
  /-- WRDAT16 w (R144) -/
  | wrdat16 (w : Word16)
  /-- SETWIN x0, y0, x1, y1 (R152) -/
  | setwin (x0 y0 x1 y1 : Word16)
  /-- ARMRAM (R154) -/
  | armram
  /-- SETCUR x, y (R157) -/
  | setcur (x y : Word16)
  /-- POINT x, y, c (R171) -/
  | point (x y c : Word16)
  /-- FILL x0, y0, x1, y1, c (R172) -/
  | fill (x0 y0 x1 y1 c : Word16)
  /-- CLEAR c (R173) -/
  | clear (c : Word16)
  /-- LINE x1, y1, x2, y2 (R174) -/
  | line (x1 y1 x2 y2 : Word16)
  /-- RECT x1, y1, x2, y2 (R176) -/
  | rect (x1 y1 x2 y2 : Word16)
  /-- FRECT x1, y1, x2, y2 (R177) -/
  | frect (x1 y1 x2 y2 : Word16)
  /-- CIRCLE xc, yc, r, filled (R180) -/
  | circle (xc yc r : Word16) (filled : Byte)
  /-- CHAR x, y, fc, bc, ch, size, mode (R202) -/
  | char (x y fc bc : Word16) (ch size mode : Byte)
  /-- GLYPH x, y, fc, bc, code, size, mode (R206) -/
  | glyph (x y fc bc code : Word16) (size mode : Byte)
  /-- STRING x, y, fc, bc, size, mode, bytes (R208) -/
  | string (x y fc bc : Word16) (size mode : Byte) (bytes : List Byte)
  /-- NUMBER x, y, fc, bc, num, len, size, mode (R211) -/
  | number (x y fc bc : Word16) (num : BitVec 32) (len size mode : Byte)
  /-- INIT orient (R230) -/
  | init (orient : Byte)
  /-- SETCOLORS fg, bg (R232) -/
  | setcolors (fg bg : Word16)
  /-- CW.CMD: the command codeword `0pppppppp` (R92; log 2) -/
  | cwCmd (p : Byte)
  /-- CW.DAT: the data codeword `1pppppppp` (R92; log 2) -/
  | cwDat (p : Byte)
  /-- CARRIER.CMD: the carrier `0ppppppppxxxxxxx` (R91; log 2) -/
  | carrierCmd (p : Byte) (x : BitVec 7)
  /-- CARRIER.DAT: the carrier `1ppppppppxxxxxxx` (R91; log 2) -/
  | carrierDat (p : Byte) (x : BitVec 7)
deriving DecidableEq, Repr

/-- What the host hands over at the request port: a request as a byte string (R102), or one codeword, bare (R90) or in
its carrier (R91; log 2). -/
inductive Request where
  | bytes (bs : List Byte)
  | codeword (c : Codeword)
  | carrier (c : Carrier)
deriving DecidableEq, Repr

end Sys2Proof
end

