-- ==== Sys2Proof/WellFormed.lean ====
section
/-! DEFINITION. Which operands are legal: the operand domains of spec/30_encoding.md R108 and of the "Domain" line of each
operation's rule, as far as the operands alone decide (CLEAR's domain depends on the state, spec/43_raster.md R173). -/

namespace Sys2Proof

/-- A 1-bit operand travels as a byte that must be 0 or 1 (R102, R108). -/
def bitOk (b : Byte) : Bool := b.toNat ≤ 1

/-- The character of CHAR: printable ASCII (R202, R106). -/
def charOk (ch : Byte) : Bool := 0x20 ≤ ch.toNat && ch.toNat ≤ 0x7E

/-- Sizes of the ASCII path (R214). -/
def asciiSizeOk (size : Byte) : Bool := size.toNat == 12 || size.toNat == 16

/-- Sizes of the double-byte path (R214). -/
def wideSizeOk (size : Byte) : Bool := size.toNat == 16 || size.toNat == 24 || size.toNat == 32

/-- Sizes of STRING and NUMBER (R214). -/
def textSizeOk (size : Byte) : Bool :=
  size.toNat == 12 || size.toNat == 16 || size.toNat == 24 || size.toNat == 32

/-- The corners of FILL and FRECT in order (R172, R177). -/
def cornersOk (x0 y0 x1 y1 : Word16) : Bool := x0.toNat ≤ x1.toNat && y0.toNat ≤ y1.toNat

/-- The operand domains, constructor by constructor. -/
def Instr.wellFormed : Instr → Bool
  | .push _ => true
  | .teardown => true
  | .wrreg _ => true
  | .wrdat8 _ => true
  | .wrdat16 _ => true
  | .setwin _ _ _ _ => true
  | .armram => true
  | .setcur _ _ => true
  | .point _ _ _ => true
  | .fill x0 y0 x1 y1 _ => cornersOk x0 y0 x1 y1
  | .clear _ => true
  | .line _ _ _ _ => true
  | .rect _ _ _ _ => true
  | .frect x1 y1 x2 y2 => cornersOk x1 y1 x2 y2
  | .circle _ _ _ filled => bitOk filled
  | .char _ _ _ _ ch size mode => charOk ch && asciiSizeOk size && bitOk mode
  | .glyph _ _ _ _ _ size mode => wideSizeOk size && bitOk mode
  | .string _ _ _ _ size mode bytes => textSizeOk size && bitOk mode && bytes.length ≤ 65535
  | .number _ _ _ _ _ len size mode =>
    1 ≤ len.toNat && len.toNat ≤ 10 && textSizeOk size && bitOk mode
  | .init orient => bitOk orient
  | .setcolors _ _ => true
  | .cwCmd _ => true
  | .cwDat _ => true
  | .carrierCmd _ _ => true
  | .carrierDat _ _ => true

/-- The operation has an encoding: only STRING's 16-bit length field can fail to hold its operand (R103). Weaker than
`wellFormed`: an operation outside its domain still has an encoding, which the block answers with E_ARG. -/
def Instr.encodable : Instr → Bool
  | .string _ _ _ _ _ _ bytes => bytes.length ≤ 65535
  | .push _ | .teardown | .wrreg _ | .wrdat8 _ | .wrdat16 _ | .setwin _ _ _ _ | .armram | .setcur _ _ => true
  | .point _ _ _ | .fill _ _ _ _ _ | .clear _ | .line _ _ _ _ | .rect _ _ _ _ | .frect _ _ _ _ => true
  | .circle _ _ _ _ | .char _ _ _ _ _ _ _ | .glyph _ _ _ _ _ _ _ | .number _ _ _ _ _ _ _ _ => true
  | .init _ | .setcolors _ _ | .cwCmd _ | .cwDat _ | .carrierCmd _ _ | .carrierDat _ _ => true

end Sys2Proof
end

