-- ==== Sys2Proof/Decode.lean ====
section
/-! DEFINITION. The request decoder (spec/30_encoding.md R102 to R105, R108, R112) and, after it, the encoder. The decoder
is total and rejects by name. It checks the shape of a request only (opcode, length); operand domains are checked by the
operation, after the READY gate (spec/60_exceptions.md R249; log 17). Bytes past a request's format are not read (log 16). -/

namespace Sys2Proof

open Sys2Proof.Machine

/-- Why a request has no operation. The block answers each with E_ARG (R108, R247). -/
inductive DecodeError where
  /-- a request of no bytes is shorter than every format (log 16) -/
  | emptyRequest
  /-- the opcode is not in the table of R104 -/
  | unknownOpcode (op : Byte)
  /-- shorter than the format of the operation named -/
  | shortRequest (mnemonic : String)
deriving DecidableEq, Repr

/-- The fields after the opcode byte, by the format of the opcode's row (R103, R104). -/
def decodeFields (op : Byte) (f : List Byte) : Except DecodeError Instr :=
  match op.toNat with
  | 0x01 =>
    match f with
    | a :: b :: _ => .ok (.push (be16 a b))
    | _ => .error (.shortRequest "PUSH")
  | 0x02 => .ok .teardown
  | 0x10 =>
    match f with
    | b :: _ => .ok (.wrreg b)
    | _ => .error (.shortRequest "WRREG")
  | 0x11 =>
    match f with
    | b :: _ => .ok (.wrdat8 b)
    | _ => .error (.shortRequest "WRDAT8")
  | 0x12 =>
    match f with
    | a :: b :: _ => .ok (.wrdat16 (be16 a b))
    | _ => .error (.shortRequest "WRDAT16")
  | 0x20 =>
    match f with
    | a :: b :: c :: d :: e :: g :: h :: k :: _ => .ok (.setwin (be16 a b) (be16 c d) (be16 e g) (be16 h k))
    | _ => .error (.shortRequest "SETWIN")
  | 0x21 => .ok .armram
  | 0x22 =>
    match f with
    | a :: b :: c :: d :: _ => .ok (.setcur (be16 a b) (be16 c d))
    | _ => .error (.shortRequest "SETCUR")
  | 0x30 =>
    match f with
    | a :: b :: c :: d :: e :: g :: _ => .ok (.point (be16 a b) (be16 c d) (be16 e g))
    | _ => .error (.shortRequest "POINT")
  | 0x31 =>
    match f with
    | a :: b :: c :: d :: e :: g :: h :: k :: m :: n :: _ =>
      .ok (.fill (be16 a b) (be16 c d) (be16 e g) (be16 h k) (be16 m n))
    | _ => .error (.shortRequest "FILL")
  | 0x32 =>
    match f with
    | a :: b :: _ => .ok (.clear (be16 a b))
    | _ => .error (.shortRequest "CLEAR")
  | 0x33 =>
    match f with
    | a :: b :: c :: d :: e :: g :: h :: k :: _ => .ok (.line (be16 a b) (be16 c d) (be16 e g) (be16 h k))
    | _ => .error (.shortRequest "LINE")
  | 0x34 =>
    match f with
    | a :: b :: c :: d :: e :: g :: h :: k :: _ => .ok (.rect (be16 a b) (be16 c d) (be16 e g) (be16 h k))
    | _ => .error (.shortRequest "RECT")
  | 0x35 =>
    match f with
    | a :: b :: c :: d :: e :: g :: h :: k :: _ => .ok (.frect (be16 a b) (be16 c d) (be16 e g) (be16 h k))
    | _ => .error (.shortRequest "FRECT")
  | 0x36 =>
    match f with
    | a :: b :: c :: d :: e :: g :: fl :: _ => .ok (.circle (be16 a b) (be16 c d) (be16 e g) fl)
    | _ => .error (.shortRequest "CIRCLE")
  | 0x40 =>
    match f with
    | a :: b :: c :: d :: e :: g :: h :: k :: ch :: sz :: md :: _ =>
      .ok (.char (be16 a b) (be16 c d) (be16 e g) (be16 h k) ch sz md)
    | _ => .error (.shortRequest "CHAR")
  | 0x41 =>
    match f with
    | a :: b :: c :: d :: e :: g :: h :: k :: m :: n :: sz :: md :: _ =>
      .ok (.glyph (be16 a b) (be16 c d) (be16 e g) (be16 h k) (be16 m n) sz md)
    | _ => .error (.shortRequest "GLYPH")
  | 0x42 =>
    match f with
    | a :: b :: c :: d :: e :: g :: h :: k :: sz :: md :: m :: n :: rest =>
      let len := (be16 m n).toNat
      if rest.length < len then .error (.shortRequest "STRING")
      else .ok (.string (be16 a b) (be16 c d) (be16 e g) (be16 h k) sz md (rest.take len))
    | _ => .error (.shortRequest "STRING")
  | 0x43 =>
    match f with
    | a :: b :: c :: d :: e :: g :: h :: k :: n3 :: n2 :: n1 :: n0 :: len :: sz :: md :: _ =>
      .ok (.number (be16 a b) (be16 c d) (be16 e g) (be16 h k) (be32 n3 n2 n1 n0) len sz md)
    | _ => .error (.shortRequest "NUMBER")
  | 0x50 =>
    match f with
    | o :: _ => .ok (.init o)
    | _ => .error (.shortRequest "INIT")
  | 0x51 =>
    match f with
    | a :: b :: c :: d :: _ => .ok (.setcolors (be16 a b) (be16 c d))
    | _ => .error (.shortRequest "SETCOLORS")
  | _ => .error (.unknownOpcode op)

/-- A request as a byte string (R102, R112): byte 0 is the opcode. -/
def decodeBytes : List Byte → Except DecodeError Instr
  | [] => .error .emptyRequest
  | op :: f => decodeFields op f

/-- The kind of a codeword is its bit 8 (R92). -/
def decodeCodeword (c : Codeword) : Instr :=
  if isData c then .cwDat (payload c) else .cwCmd (payload c)

/-- The kind of a carrier is its bit 15; bits 6..0 are not significant and kept only as written (R91). -/
def decodeCarrier (c : Carrier) : Instr :=
  if isData (codewordOf c) then .carrierDat (payload (codewordOf c)) (c.extractLsb' 0 7)
  else .carrierCmd (payload (codewordOf c)) (c.extractLsb' 0 7)

/-- What the host hands over, decoded. -/
def decode : Request → Except DecodeError Instr
  | .bytes bs => decodeBytes bs
  | .codeword c => .ok (decodeCodeword c)
  | .carrier c => .ok (decodeCarrier c)

/-! ### The encoder -/

/-- A 16-bit operand field: two bytes, high byte first (R102). -/
def field16 (w : Word16) : List Byte := [hiByte w, loByte w]

/-- A 32-bit operand field: four bytes, highest first (R102). -/
def field32 (v : BitVec 32) : List Byte := [byte32 v 3, byte32 v 2, byte32 v 1, byte32 v 0]

/-- Four 16-bit fields in order (formats FR, FRC, FCH, FGL, FSTR, FNUM of R103). -/
def fields4 (a b c d : Word16) : List Byte := field16 a ++ field16 b ++ field16 c ++ field16 d

/-- The request that carries an operation (R102 to R104; R91, R92 for the four codeword and carrier kinds). -/
def encode : Instr → Request
  | .push c => .bytes (0x01#8 :: field16 c)
  | .teardown => .bytes [0x02#8]
  | .wrreg b => .bytes [0x10#8, b]
  | .wrdat8 b => .bytes [0x11#8, b]
  | .wrdat16 w => .bytes (0x12#8 :: field16 w)
  | .setwin x0 y0 x1 y1 => .bytes (0x20#8 :: fields4 x0 y0 x1 y1)
  | .armram => .bytes [0x21#8]
  | .setcur x y => .bytes (0x22#8 :: (field16 x ++ field16 y))
  | .point x y c => .bytes (0x30#8 :: (field16 x ++ field16 y ++ field16 c))
  | .fill x0 y0 x1 y1 c => .bytes (0x31#8 :: (fields4 x0 y0 x1 y1 ++ field16 c))
  | .clear c => .bytes (0x32#8 :: field16 c)
  | .line x1 y1 x2 y2 => .bytes (0x33#8 :: fields4 x1 y1 x2 y2)
  | .rect x1 y1 x2 y2 => .bytes (0x34#8 :: fields4 x1 y1 x2 y2)
  | .frect x1 y1 x2 y2 => .bytes (0x35#8 :: fields4 x1 y1 x2 y2)
  | .circle xc yc r filled => .bytes (0x36#8 :: (field16 xc ++ field16 yc ++ field16 r ++ [filled]))
  | .char x y fc bc ch size mode => .bytes (0x40#8 :: (fields4 x y fc bc ++ [ch, size, mode]))
  | .glyph x y fc bc code size mode => .bytes (0x41#8 :: (fields4 x y fc bc ++ field16 code ++ [size, mode]))
  | .string x y fc bc size mode bytes =>
    .bytes (0x42#8 :: (fields4 x y fc bc ++ [size, mode] ++ field16 (BitVec.ofNat 16 bytes.length) ++ bytes))
  | .number x y fc bc num len size mode =>
    .bytes (0x43#8 :: (fields4 x y fc bc ++ field32 num ++ [len, size, mode]))
  | .init orient => .bytes [0x50#8, orient]
  | .setcolors fg bg => .bytes (0x51#8 :: (field16 fg ++ field16 bg))
  | .cwCmd p => .codeword (cmdCodeword p)
  | .cwDat p => .codeword (datCodeword p)
  | .carrierCmd p x => .carrier (carrierOf (cmdCodeword p) x)
  | .carrierDat p x => .carrier (carrierOf (datCodeword p) x)

/-! ### Words of the opcode table -/

/-- The bytes of a table word, byte 0 from bits 7..0, `n` bytes. -/
def tableBytes (w : Nat) : Nat → List Byte
  | 0 => []
  | n + 1 => BitVec.ofNat 8 w :: tableBytes (w / 256) n

/-- The length of the request whose first bytes are given (R103): FSTR's from its `len` field at bytes 11 and 12. -/
def requestLength (bs : List Byte) : Nat :=
  match (bs.getD 0 0#8).toNat with
  | 0x01 | 0x12 | 0x32 => 3
  | 0x02 | 0x21 => 1
  | 0x10 | 0x11 | 0x50 => 2
  | 0x20 | 0x33 | 0x34 | 0x35 => 9
  | 0x22 | 0x51 => 5
  | 0x30 => 7
  | 0x31 => 11
  | 0x36 => 8
  | 0x40 => 12
  | 0x41 => 13
  | 0x42 => 13 + (be16 (bs.getD 11 0#8) (bs.getD 12 0#8)).toNat
  | 0x43 => 16
  | _ => bs.length

/-- The request an opcode-table word stands for. The table gives a carrier row 16 bits and a codeword row 9, which are
handed over bare; every other row is a request by bytes, byte 0 in bits 7..0, zeros above the bits given. -/
def requestOfTableWord (nbits w : Nat) : Request :=
  if nbits = 9 then .codeword (BitVec.ofNat 9 w)
  else if nbits = 16 then .carrier (BitVec.ofNat 16 w)
  else
    let given := tableBytes w ((nbits + 7) / 8)
    let n := requestLength given
    .bytes ((given ++ List.replicate n 0#8).take n)

/-- The operation the decoder reads from an opcode-table word. -/
def decodeTableWord (nbits w : Nat) : Option Instr :=
  match decode (requestOfTableWord nbits w) with
  | .ok i => some i
  | .error _ => none

end Sys2Proof
end

