-- ==== Sys2Proof/Machine/State.lean ====
section
/-! DEFINITION. The state of the block (spec/10_state.md), its ports, the ghost traces (R47), the reference sink beside it
(spec/20_memory.md R81), and the state after reset (R45). Plain data throughout. -/

namespace Sys2Proof.Machine

open Sys2Proof.Config

/-- Why the machine stops. -/
inductive Fault where
  /-- A push began with the batch already full, CNT ≥ 1024. Raised by `push` only. The spec declares it unreachable and
  asks a model to fault (spec/40_codec.md R126, spec/93_implementation_defined.md U1). Safe: the machine stops. -/
  | batchOverfull
deriving DecidableEq, Repr

/-- Why the machine gives no meaning. -/
inductive Refusal where
  /-- An instruction without a meaning in this model, by its mnemonic. Raised by no arm of `exec`: every instruction has
  its meaning. Safe: the machine stops. -/
  | notModelled (mnemonic : String)
deriving DecidableEq, Repr

/-- The signed status every operation returns (spec/60_exceptions.md R241). -/
inductive Status where
  | ok
  | eXfer
  | eOpen
  | eArg
deriving DecidableEq, Repr

/-- `ASM`, the addressing state (spec/10_state.md R26). -/
inductive AddrState where
  | idle
  | windowProgrammed
  | ramStreaming
deriving DecidableEq, Repr

/-- `ORIENT` (spec/10_state.md R28): portrait is 0, landscape is 1. -/
inductive Orient where
  | portrait
  | landscape
deriving DecidableEq, Repr

/-- The GPIO lines the block drives (spec/60_exceptions.md R257). -/
inductive GpioLine where
  | reset
  | backlight
  | cs
deriving DecidableEq, Repr

/-- The abstract levels of the GPIO lines (spec/60_exceptions.md R257). -/
inductive GpioLevel where
  | asserted
  | released
  | on
  | off
  | selected
  | deselected
deriving DecidableEq, Repr

/-- The Pack Buffer (spec/10_state.md R31 to R34). -/
structure PackBuffer where
  /-- `ACC`: pending bits left-aligned, the oldest in the top bit -/
  acc : BitVec 32
  /-- `NBITS`: number of pending bits -/
  nbits : Nat
  /-- `CNT`: codewords since the last flush or reset -/
  cnt : Nat
  /-- `OUT[0..575]` -/
  out : Vector Word16 576
  /-- `OUTCNT`: number of valid entries of `out` -/
  outcnt : Nat
deriving DecidableEq, Repr

/-- `WIN` (spec/10_state.md R27). -/
structure Window where
  x0 : Word16
  y0 : Word16
  x1 : Word16
  y1 : Word16
deriving DecidableEq, Repr

/-- Display Device State (spec/10_state.md R28). -/
structure DeviceState where
  width : Word16
  height : Word16
  orient : Orient
  ramcmd : Byte
  colcmd : Byte
  rowcmd : Byte
deriving DecidableEq, Repr

/-- Line engine registers (spec/10_state.md R21), each an `int` (log 12). -/
structure LineEngine where
  dx : Int
  dy : Int
  incx : Int
  incy : Int
  dist : Int
  xerr : Int
  yerr : Int
  lx : Int
  ly : Int
  t : Int
deriving DecidableEq, Repr

/-- Circle engine registers (spec/10_state.md R22), each an `int` (log 12). -/
structure CircleEngine where
  cx : Int
  cy : Int
  d : Int
  yi : Int
deriving DecidableEq, Repr

/-- Text engine registers (spec/10_state.md R23), `int` but for `fgsave` (log 12). -/
structure TextEngine where
  tx : Int
  ty : Int
  xs : Int
  si : Int
  gp : Int
  gt : Int
  px : Int
  py : Int
  fgsave : Word16
deriving DecidableEq, Repr

/-- The reference sink (spec/20_memory.md R81), outside the block: its window and mode, GRAM, and whether the batch before
was a failed one, so that the next may be misread (spec/70_reset_and_hazards.md R277). `gram` lists pixels as
(y * 65536 + x, colour), strictly rising; an unlisted pixel has no value: nothing is claimed about it (log 23). -/
structure Sink extends SinkContext where
  gram : List (Nat × Word16)
  misread : Bool
deriving DecidableEq, Repr

/-- The whole state: the block's registers, its ports, the ghost traces and the reference sink. INVENTORY.md lists each
field with the rule that names it. -/
structure State where
  /-- the Pack Buffer (R31 to R34) -/
  pack : PackBuffer
  /-- `ASM` (R26) -/
  asm : AddrState
  /-- `WIN` (R27) -/
  win : Window
  /-- Display Device State (R28) -/
  dev : DeviceState
  /-- `FG` (R29) -/
  fg : Word16
  /-- `BG` (R29) -/
  bg : Word16
  /-- `READY` (R30) -/
  ready : Bool
  /-- line engine (R21) -/
  line : LineEngine
  /-- circle engine (R22) -/
  circle : CircleEngine
  /-- text engine (R23) -/
  text : TextEngine
  /-- the board: open parameters of spec/00_scope.md R9; no step changes it -/
  board : Board
  /-- decided parameters of spec/00_scope.md R9; no step changes them -/
  policy : Policy
  /-- requests issued by the host and not yet taken, oldest first (log 1) -/
  requests : List Request
  /-- the transfer buffer: the bytes last handed to the transport (spec/20_memory.md R60, R66; log 25) -/
  xferBuf : List Byte
  /-- calls of `Transfer` since reset: the k of `XferResult(k)` (R255) -/
  xferCalls : Nat
  /-- calls of `Open` since reset (log 9) -/
  openCalls : Nat
  /-- ghost `CWTRACE` (R47), oldest first -/
  cwTrace : List Codeword
  /-- ghost `XFERTRACE` (R47), oldest first -/
  xferTrace : List (List Word16 × Int)
  /-- ghost `PLOTTRACE` (R47), oldest first -/
  plotTrace : List (Int × Int × Word16)
  /-- the `GpioSet` calls since reset, oldest first (log 10) -/
  gpioTrace : List (GpioLine × GpioLevel)
  /-- the statuses answered since reset, oldest first (R25; log 10) -/
  respTrace : List Status
  /-- ghost: the places in the pending batch of the codewords that break the window duty of
  spec/70_reset_and_hazards.md R273 (log 29) -/
  strays : List Nat
  /-- the reference sink (spec/20_memory.md R81), read by nothing of the block (log 18) -/
  sink : Sink
deriving DecidableEq, Repr

/-- The empty Pack Buffer (R45); OUT holds no defined value then (log 5). -/
def PackBuffer.reset : PackBuffer :=
  { acc := 0#32, nbits := 0, cnt := 0, out := Vector.replicate 576 0#16, outcnt := 0 }

/-- The reference sink before anything reached it (log 21). -/
def Sink.reset : Sink :=
  { cs := 0#16, ce := 0#16, rs := 0#16, re := 0#16, mode := .none, params := [], k := 0, hb := none, gram := [],
    misread := false }

/-- The state after power-on reset (R45, spec/70_reset_and_hazards.md R270) of a block with the board `b` and the decided
parameters `p`. -/
def State.resetWith (b : Board) (p : Policy) : State :=
  { pack := PackBuffer.reset
    asm := .idle
    win := { x0 := 0#16, y0 := 0#16, x1 := 0#16, y1 := 0#16 }
    dev := { width := 0#16, height := 0#16, orient := .portrait, ramcmd := 0#8, colcmd := 0#8, rowcmd := 0#8 }
    fg := b.fgReset
    bg := b.bgReset
    ready := false
    line := { dx := 0, dy := 0, incx := 0, incy := 0, dist := 0, xerr := 0, yerr := 0, lx := 0, ly := 0, t := 0 }
    circle := { cx := 0, cy := 0, d := 0, yi := 0 }
    text := { tx := 0, ty := 0, xs := 0, si := 0, gp := 0, gt := 0, px := 0, py := 0, fgsave := 0#16 }
    board := b
    policy := p
    requests := []
    xferBuf := List.replicate 1152 0#8
    xferCalls := 0
    openCalls := 0
    cwTrace := []
    xferTrace := []
    plotTrace := []
    gpioTrace := []
    respTrace := []
    strays := []
    sink := Sink.reset }

/-- The machine right after reset (R45): this hardware's decided parameters, every open parameter left open. -/
def State.reset : State := State.resetWith Config.board Config.thisHardware

end Sys2Proof.Machine
end

