-- ==== Sys2Proof/Machine/Flags.lean ====
section
/-! DEFINITION. Status codes, the READY gate and the transitions of ASM (spec/10_state.md R25, R26, R30;
spec/60_exceptions.md R241; spec/45_system.md R233; spec/42_addressing.md R158). The block has no condition codes (R25). -/

namespace Sys2Proof.Machine

/-- The number of a status (R241). -/
def statusValue : Status → Int
  | .ok => 0
  | .eXfer => -1
  | .eOpen => -2
  | .eArg => -3

/-- The response byte: the status in two's complement (spec/30_encoding.md R102). -/
def statusByte (st : Status) : Byte := BitVec.ofInt 8 (statusValue st)

/-- The operation ends and the host receives its status (R25); the trace of statuses is the model's (log 10). -/
def respond (st : Status) (s : State) : State := { s with respTrace := s.respTrace ++ [st] }

/-- The operation ends with a status and no other effect: a request turned away (R233, R247). -/
def reject (st : Status) (s : State) : Host.Outcome State Fault Refusal := .next (respond st s)

/-- The READY gate (R233): every operation but INIT and SETCOLORS begins with it. -/
def gated (s : State) (op : State → Host.Outcome State Fault Refusal) : Host.Outcome State Fault Refusal :=
  if s.ready then op s else reject .eOpen s

/-- ASM after a codeword the host pushes itself: a command leaves the machine in Idle, data leaves it as it is (R122,
R144, R158). -/
def asmAfterRaw (cw : Codeword) (a : AddrState) : AddrState := if isData cw then a else .idle

/-- The number of an orientation (R28). -/
def orientBit : Orient → Nat
  | .portrait => 0
  | .landscape => 1

end Sys2Proof.Machine
end

