-- ==== Sys2Proof/Machine/Sink.lean ====
section
/-! DEFINITION. The reference sink (spec/20_memory.md R81): how the word stream is interpreted in pixels; and around
it what the spec refuses or leaves indeterminate (spec/70_reset_and_hazards.md R273, R277, R281; logs 19, 20, 29). Outside
the block: no rule of the block reads it (log 18). -/

namespace Sys2Proof.Machine

open Sys2Proof.Config

/-! ### GRAM: pixels by number, strictly rising, an unlisted pixel without a value (log 23) -/

/-- The number of the pixel `(x, y)`. -/
def gramAddr (x y : Nat) : Nat := y * 65536 + x

/-- One pixel of GRAM; none where nothing was written. -/
def gramRead : List (Nat × Word16) → Nat → Option Word16
  | [], _ => none
  | (b, v) :: rest, a => if a = b then some v else if a < b then none else gramRead rest a

/-- Writes one pixel and keeps the list strictly rising. -/
def gramWrite : List (Nat × Word16) → Nat → Word16 → List (Nat × Word16)
  | [], a, c => [(a, c)]
  | (b, v) :: rest, a, c =>
    if a = b then (a, c) :: rest
    else if a < b then (a, c) :: (b, v) :: rest
    else (b, v) :: gramWrite rest a c

/-- Every listed pixel number is above `lo`, and they rise strictly. -/
def gramRising : Nat → List (Nat × Word16) → Bool
  | _, [] => true
  | lo, (b, _) :: rest => lo < b && gramRising b rest

/-- The canonical form of GRAM: pixel numbers strictly rising. Nothing listed equals what an unlisted pixel reads as,
because an unlisted pixel reads as no value. -/
def gramWf : List (Nat × Word16) → Bool
  | [] => true
  | (b, _) :: rest => gramRising b rest

/-! ### The automaton of R81 -/

/-- A command codeword arrives (R81, "on command codeword"). -/
def sinkCommand (d : DeviceState) (b : Byte) (k : Sink) : Sink :=
  let k := { k with hb := none, params := [] }
  if b = d.colcmd then { k with mode := .colparams }
  else if b = d.rowcmd then { k with mode := .rowparams }
  else if b = d.ramcmd then { k with mode := .ram, k := 0 }
  else { k with mode := .none }

/-- A range parameter arrives: the fourth completes the range (R81). -/
def sinkParam (b : Byte) (k : Sink) : Sink :=
  let k := { k with params := k.params ++ [b] }
  match k.params with
  | [p0, p1, p2, p3] =>
    if k.mode = .colparams then { k with cs := be16 p0 p1, ce := be16 p2 p3 }
    else { k with rs := be16 p0 p1, re := be16 p2 p3 }
  | _ => k

/-- The window in the block's logical frame, `(x0, x1, y0, y1)` (R81). -/
def sinkWindow (d : DeviceState) (k : Sink) : Word16 × Word16 × Word16 × Word16 :=
  match d.orient with
  | .landscape => (k.cs, k.ce, k.rs, k.re)
  | .portrait => (k.rs, k.re, k.cs, k.ce)

/-- The pixel number of pixel `n` of the window (R81): x runs fastest in logical row-major order; the column-major order is
the other value of SINK_ORDER (spec/93_implementation_defined.md U7). In a reversed window the place is a free value (U5;
log 20). -/
def sinkAddr (order : SinkOrder) (d : DeviceState) (k : Sink) (n : Nat) : Nat :=
  let (x0, x1, y0, y1) := sinkWindow d k
  if x1.toNat < x0.toNat ∨ y1.toNat < y0.toNat then strayPixel x0 y0 x1 y1 n
  else
    let w := x1.toNat - x0.toNat + 1
    let h := y1.toNat - y0.toNat + 1
    match order with
    | .rowMajor => gramAddr (x0.toNat + n % w) (y0.toNat + n / w % h)
    | .columnMajor => gramAddr (x0.toNat + n / h % w) (y0.toNat + n % h)

/-- A data byte arrives in RAM mode: the second of a pair completes a pixel (R81). -/
def sinkRamByte (order : SinkOrder) (d : DeviceState) (b : Byte) (k : Sink) : Sink :=
  match k.hb with
  | none => { k with hb := some b }
  | some h => { k with hb := none, gram := gramWrite k.gram (sinkAddr order d k k.k) (be16 h b), k := k.k + 1 }

/-- A data codeword arrives (R81, "on data codeword"). -/
def sinkData (order : SinkOrder) (d : DeviceState) (b : Byte) (k : Sink) : Sink :=
  match k.mode with
  | .colparams => sinkParam b k
  | .rowparams => sinkParam b k
  | .ram => sinkRamByte order d b k
  | .none => k

/-- One codeword of an unpacked batch. -/
def sinkFeed (order : SinkOrder) (d : DeviceState) (k : Sink) (cw : Codeword) : Sink :=
  if isData cw then sinkData order d (payload cw) k else sinkCommand d (payload cw) k

/-! ### Where the spec does not stand behind the automaton: no pixel is claimed to hold a value -/

/-- The window is not reversed and lies on the panel (spec/93_implementation_defined.md U5; spec/70_reset_and_hazards.md
R281). DESIGN CHOICE: the window is looked at as it was sent, truncated to 16 bits, so a point off the panel whose truncated
coordinates lie on it is written there (log 31). -/
def sinkOnPanel (d : DeviceState) (k : Sink) : Bool :=
  let (x0, x1, y0, y1) := sinkWindow d k
  x0.toNat ≤ x1.toNat && x1.toNat < d.width.toNat && y0.toNat ≤ y1.toNat && y1.toNat < d.height.toNat

/-- How many pixels the window holds. -/
def sinkArea (d : DeviceState) (k : Sink) : Nat :=
  let (x0, x1, y0, y1) := sinkWindow d k
  (x1.toNat - x0.toNat + 1) * (y1.toNat - y0.toNat + 1)

/-- What the codeword does to GRAM is defined: not a pixel in a window off the panel or reversed (U5), not a pixel more than
the window holds, and not a command after an odd number of data bytes (U6; log 20). -/
def sinkDefined (d : DeviceState) (k : Sink) (cw : Codeword) : Bool :=
  match k.mode, k.hb with
  | .ram, some _ => isData cw && sinkOnPanel d k && decide (k.k < sinkArea d k)
  | _, _ => true

/-- One codeword as the automaton takes it; where its effect on GRAM is not defined, no pixel keeps a value (U5, U6). -/
def sinkRead (order : SinkOrder) (d : DeviceState) (k : Sink) (cw : Codeword) : Sink :=
  if sinkDefined d k cw then sinkFeed order d k cw else { sinkFeed order d k cw with gram := [] }

/-- The sink where the spec leaves its window and mode indeterminate, after codeword `i` of transfer `n`: any window, any mode,
and no pixel with a value (spec/93_implementation_defined.md U4; spec/70_reset_and_hazards.md R273, R277). -/
def sinkStray (n i : Nat) (k : Sink) : Sink := { k with toSinkContext := strayContext n i, gram := [] }

/-- Codeword `e.2` of transfer `n`: one of the `strays` breaks the window duty and has no defined effect (R273, R280). -/
def sinkTake (n : Nat) (order : SinkOrder) (d : DeviceState) (strays : List Nat) (k : Sink) (e : Codeword × Nat) : Sink :=
  if strays.contains e.2 then sinkStray n e.2 k else sinkRead order d k e.1

/-- The sink takes transfer `n`, a batch of 1024 codewords (R81). -/
def sinkBatch (n : Nat) (order : SinkOrder) (d : DeviceState) (strays : List Nat) (words : List Word16) (k : Sink) : Sink :=
  (unpackBatch words).zipIdx.foldl (sinkTake n order d strays) k

/-- Of transfer `n`, a failed one, the sink took an unknown number of bits (spec/20_memory.md R72; U3): its window and mode are
any (U4), no pixel keeps a value, and the batch to come may be misread (R277; log 19). -/
def sinkFailed (n : Nat) (k : Sink) : Sink := { sinkStray n 1024 k with misread := true }

/-- Transfer `n` follows a failed one: even its window frames can be misread, so nothing is claimed about the pixels it writes
(R277, spec/60_exceptions.md R251; log 19). -/
def sinkMisread (n : Nat) (k : Sink) : Sink := { sinkStray n 1024 k with misread := false }

/-- The controller's reset line is asserted: the command context is lost, ranges and GRAM stay, and the next batch is read
from its start (R251; log 21). -/
def sinkReset (k : Sink) : Sink := { k with mode := .none, params := [], hb := none, misread := false }

end Sys2Proof.Machine
end

