-- ==== Sys2Proof/Machine/Ops.lean ====
section
/-! DEFINITION. The shared operations of the block: sequencing with abort (spec/00_scope.md R12), the ports
(spec/60_exceptions.md R255, R257; spec/20_memory.md R63), the Pack Buffer (spec/40_codec.md R120, R123), taking the abort
(spec/60_exceptions.md R244), the host request port (spec/10_state.md R24). -/

namespace Sys2Proof.Machine

open Sys2Proof.Config

/-! ### Sequencing -/

/-- How a micro-operation ends. -/
inductive Res where
  /-- it ran to its end -/
  | ok (s : State)
  /-- it raised `Abort(E_XFER)` (R12, R243): no later micro-operation of the host operation runs -/
  | abort (s : State)
  /-- a push began with the batch full, which the spec declares unreachable (R126, U1) -/
  | overfull (s : State)
deriving DecidableEq, Repr

/-- The state a micro-operation leaves, however it ended. -/
def Res.state : Res → State
  | .ok s => s
  | .abort s => s
  | .overfull s => s

/-- The next micro-operation runs only after a normal end (R12, "Exceptions"). -/
def Res.andThen (r : Res) (f : State → Res) : Res :=
  match r with
  | .ok s => f s
  | .abort s => .abort s
  | .overfull s => .overfull s

/-- A register write done on every exit, normal or by abort (spec/44_text.md R212). -/
def Res.onExit (r : Res) (f : State → State) : Res :=
  match r with
  | .ok s => .ok (f s)
  | .abort s => .abort (f s)
  | .overfull s => .overfull (f s)

/-- `repeat n times` (R172). -/
def repeatN : Nat → (State → Res) → State → Res
  | 0, _, s => .ok s
  | n + 1, f, s => (f s).andThen (repeatN n f)

/-- `for i in list, in order` (R12). -/
def forEach {α : Type} : List α → (α → State → Res) → State → Res
  | [], _, s => .ok s
  | a :: rest, f, s => (f a s).andThen (forEach rest f)

/-- `for i in 0..n-1` (R12). -/
def forRange (n : Nat) (f : Nat → State → Res) (s : State) : Res := forEach (List.range n) f s

/-! ### Taking the abort, and the end of an operation -/

/-- `Abort(E_XFER)` reaches the host operation (R244): the flush has already emptied the Pack Buffer, text has already
restored FG; ASM goes to Idle, WIN keeps its value, the host receives E_XFER. Nothing is saved and nothing is returned to
later: the block has no return instruction (R251). -/
def takeAbort (s : State) : State := respond .eXfer { s with asm := .idle }

/-- The end of a host operation (R12, R25): OK, or the abort, or the model's one fault (U1). -/
def finish (r : Res) : Host.Outcome State Fault Refusal :=
  match r with
  | .ok s => .next (respond .ok s)
  | .abort s => .next (takeAbort s)
  | .overfull _ => .fault .batchOverfull

/-! ### Ports -/

/-- `XferResult(k)` (R255): from the board's script, beyond it free (log 9). -/
def xferStatus (b : Board) (k : Nat) : Int := (b.xferScript[k]?).getD (xferResult k)

/-- `OpenResult` of the k-th call of `Open()` (R230): from the board's script, beyond it free (log 9). -/
def openStatus (b : Board) (k : Nat) : Int := (b.openScript[k]?).getD (openResult k)

/-- The status `Open()` will answer next. -/
def nextOpen (s : State) : Int := openStatus s.board s.openCalls

/-- `Open()` was called (R230). -/
def countOpen (s : State) : State := { s with openCalls := s.openCalls + 1 }

/-- `GpioSet(line, level)` (R257). Asserting RESET resets the controller's command context (log 21). -/
def gpioSet (line : GpioLine) (level : GpioLevel) (s : State) : State :=
  { s with
    gpioTrace := s.gpioTrace ++ [(line, level)]
    sink := if line = .reset ∧ level = .asserted then sinkReset s.sink else s.sink }

/-- What the sink makes of a transfer with status `st` (R72, R81; spec/70_reset_and_hazards.md R277; logs 18, 19). -/
def sinkAfter (s : State) (words : List Word16) (st : Int) : Sink :=
  if st < 0 then sinkFailed s.xferCalls s.sink
  else if s.sink.misread then sinkMisread s.xferCalls s.sink
  else sinkBatch s.xferCalls s.policy.sinkOrder s.dev s.strays words s.sink

/-- `Transfer(words)` answered with `st` (R255, R66): one indivisible event; read data is discarded. The
next batch starts with no codeword that breaks the window duty. -/
def transferred (words : List Word16) (st : Int) (s : State) : State :=
  { s with
    xferCalls := s.xferCalls + 1
    xferBuf := transferBytes s.policy.byteOrder words
    xferTrace := s.xferTrace ++ [(words, st)]
    sink := sinkAfter s words st
    strays := [] }

/-- `MemRead(space, addr, n)` on a glyph ROM space (R63, R12): `n` bytes, lowest address first, no side effect. Beyond the
table supplied a byte is free (log 22). -/
def memRead (space : List Byte) (addr n : Nat) : List Byte :=
  (List.range n).map fun j => (space[addr + j]?).getD (romHole (addr + j))

/-! ### The Pack Buffer -/

/-- The Pack Buffer's return to empty (R123, R271): OUT keeps its old content, which is dead. -/
def emptyPack (p : PackBuffer) : PackBuffer := { p with acc := 0#32, nbits := 0, cnt := 0, outcnt := 0 }

/-- The Pack Buffer empties without a transfer (spec/45_system.md R230, R125): the pending codewords are lost. -/
def dropPack (s : State) : State := { s with pack := emptyPack s.pack, strays := [] }

/-- The packing of one codeword (R120): left-align it after the pending bits, count it, emit the top 16 bits when at least
16 are pending. -/
def packCodeword (cw : Codeword) (p : PackBuffer) : PackBuffer :=
  let acc := p.acc ||| (cw.setWidth 32 <<< (accW - 9 - p.nbits))
  let nbits := p.nbits + 9
  if nbits ≥ 16 then
    { acc := acc <<< 16
      nbits := nbits - 16
      cnt := p.cnt + 1
      out := p.out.setIfInBounds p.outcnt (acc.extractLsb' (accW - 16) 16)
      outcnt := p.outcnt + 1 }
  else { p with acc := acc, nbits := nbits, cnt := p.cnt + 1 }

/-- `Flush()` (R123): hand the 576 words to the transport, empty the Pack Buffer whatever the status, raise the abort if
the status is negative (R124). -/
def flush (s : State) : Res :=
  let words := s.pack.out.toList
  let st := xferStatus s.board s.xferCalls
  let s' := { transferred words st s with pack := emptyPack s.pack }
  if st < 0 then .abort s' else .ok s'

/-- `Push(carrier)` (R120). With CNT already 1024 or more it is a bug, not a wrap (R126, U1). -/
def push (c : Carrier) (s : State) : Res :=
  if s.pack.cnt ≥ batch then .overfull s
  else
    let s' := { s with
      cwTrace := s.cwTrace ++ [codewordOf c]
      pack := packCodeword (codewordOf c) s.pack }
    if s'.pack.cnt = batch then flush s' else .ok s'

/-! ### The window duty (spec/70_reset_and_hazards.md R273, R280) -/

/-- The codeword to be pushed next breaks the window duty: what it does to GRAM is not defined (R273; log 29). The block
refuses nothing and pushes it all the same. -/
def markStray (s : State) : State := { s with strays := s.strays ++ [s.pack.cnt] }

/-- Before a data codeword of the host's own: pixel data belongs where the RAM is streaming (R273, R280). -/
def noteData (s : State) : State := if s.asm = .ramStreaming then s else markStray s

/-- Before an ARMRAM of the host's own: a window comes first (R273). -/
def noteArm (s : State) : State := if s.asm = .idle then markStray s else s

/-- Before a codeword the host pushes itself. -/
def noteRaw (cw : Codeword) (s : State) : State := if isData cw then noteData s else s

/-! ### The host request port -/

/-- The oldest request the host has issued and the block has not taken (R24, R78; log 1). -/
def nextRequest (s : State) : Option Request := s.requests.head?

/-- The request is taken. -/
def takeRequest (s : State) : State := { s with requests := s.requests.tail }

end Sys2Proof.Machine
end

