-- ==== Sys2Proof/Machine/Operands.lean ====
section
/-! DEFINITION. The operand forms and their domains (spec/10_state.md R41; spec/30_encoding.md R102, R106, R108; the "Domain"
line of each operation's rule). Every operand is an immediate of the request (R20). -/

namespace Sys2Proof.Machine

open Sys2Proof.Config

/-- A size of the ASCII path (spec/44_text.md R214). -/
inductive AsciiSize where
  | s12
  | s16
deriving DecidableEq, Repr

/-- A size of the double-byte path (spec/44_text.md R214). -/
inductive WideSize where
  | s16
  | s24
  | s32
deriving DecidableEq, Repr

/-- The height in pixels of an ASCII size; the cell is half as wide (R214). -/
def asciiPx : AsciiSize → Nat
  | .s12 => 12
  | .s16 => 16

/-- The height and width in pixels of a double-byte size (R214). -/
def widePx : WideSize → Nat
  | .s16 => 16
  | .s24 => 24
  | .s32 => 32

/-- A 1-bit operand: 0 or 1, any other value is illegal (R102, R108). -/
def bitOperand (b : Byte) : Option Bool :=
  if b = 0#8 then some false else if b = 1#8 then some true else none

/-- The size operand of CHAR (R202). -/
def asciiSize (b : Byte) : Option AsciiSize :=
  if b = 12#8 then some .s12 else if b = 16#8 then some .s16 else none

/-- The size operand of GLYPH (R206). -/
def wideSize (b : Byte) : Option WideSize :=
  if b = 16#8 then some .s16 else if b = 24#8 then some .s24 else if b = 32#8 then some .s32 else none

/-- The size operand of STRING and NUMBER (R208, R211). -/
def textSize (b : Byte) : Option Nat :=
  if b = 12#8 then some 12 else if b = 16#8 then some 16 else if b = 24#8 then some 24
  else if b = 32#8 then some 32 else none

/-- A printable ASCII character (R106, R209). -/
def isAscii (b : Byte) : Bool := 0x20 ≤ b.toNat && b.toNat ≤ 0x7E

/-- The orientation operand of INIT (R230). -/
def orientOperand (b : Byte) : Option Orient :=
  if b = 0#8 then some .portrait else if b = 1#8 then some .landscape else none

/-- The corners of FILL and FRECT are in order (R172, R177). -/
def ordered (x0 y0 x1 y1 : Word16) : Bool := x0.toNat ≤ x1.toNat && y0.toNat ≤ y1.toNat

/-- `ASCII_FONT[s]` (R201). -/
def asciiFont (b : Board) : AsciiSize → List Byte
  | .s12 => b.ascii12
  | .s16 => b.ascii16

/-- `DB_INDEX[s]` (R204). -/
def dbIndex (b : Board) : WideSize → List Word16
  | .s16 => b.dbIndex16
  | .s24 => b.dbIndex24
  | .s32 => b.dbIndex32

/-- `DB_BITMAP[s]` (R205). -/
def dbBitmap (b : Board) : WideSize → List Byte
  | .s16 => b.dbBitmap16
  | .s24 => b.dbBitmap24
  | .s32 => b.dbBitmap32

/-- `DEVCFG[o]` (spec/45_system.md R231). -/
def devCfg (b : Board) : Orient → DevCfg
  | .portrait => b.portrait
  | .landscape => b.landscape

/-- `INIT_SEQ[o]` (R230). -/
def initSeq (b : Board) : Orient → List (CmdKind × Byte)
  | .portrait => b.initPortrait
  | .landscape => b.initLandscape

end Sys2Proof.Machine
end

