-- ==== Sys2Proof/Machine/Codec.lean ====
section
/-! DEFINITION. The Codec's operations (spec/40_codec.md): PUSH, TEARDOWN; and the four codeword and carrier kinds of the
opcode table (spec/30_encoding.md R91, R92), each the host handing exactly that codeword to the Codec (log 2). `Push` and
`Flush` themselves are in Ops. -/

namespace Sys2Proof.Machine

open Sys2Proof.Config

/-- A codeword the host pushes itself, in its carrier (R122): a command leaves ASM in Idle, data leaves it as it is
and is marked where it breaks the window duty (log 29). -/
def rawPush (c : Carrier) (s : State) : Host.Outcome State Fault Refusal :=
  gated s fun s => finish ((push c (noteRaw (codewordOf c) s)).andThen fun s => .ok { s with asm := asmAfterRaw (codewordOf c) s.asm })

/-- PUSH carrier (R122). -/
def execPush (c : Carrier) (s : State) : Host.Outcome State Fault Refusal := rawPush c s

/-- CW.CMD (R92): the command codeword of `p`, carried with low bits 0 as FramerReg produces it (log 2). -/
def execCwCmd (p : Byte) (s : State) : Host.Outcome State Fault Refusal := rawPush (carrierOf (cmdCodeword p) 0#7) s

/-- CW.DAT (R92): the data codeword of `p`, carried with low bits 0 as FramerData8 produces it (log 2). -/
def execCwDat (p : Byte) (s : State) : Host.Outcome State Fault Refusal := rawPush (carrierOf (datCodeword p) 0#7) s

/-- CARRIER.CMD (R91): the carrier `0ppppppppxxxxxxx` (log 2). -/
def execCarrierCmd (p : Byte) (x : BitVec 7) (s : State) : Host.Outcome State Fault Refusal :=
  rawPush (carrierOf (cmdCodeword p) x) s

/-- CARRIER.DAT (R91): the carrier `1ppppppppxxxxxxx` (log 2). -/
def execCarrierDat (p : Byte) (x : BitVec 7) (s : State) : Host.Outcome State Fault Refusal :=
  rawPush (carrierOf (datCodeword p) x) s

/-- `while CNT != 0: Push(PAD_CARRIER)` (R125): `n` bounds the pushes, and 1024 always suffice (log 27).
DESIGN CHOICE: where the padding carrier holds a data codeword, the padding is not marked as breaking the window duty, and the
sink reads it as spec/20_memory.md R81 says (log 32). -/
def padBatch : Nat → State → Res
  | 0, s => .ok s
  | n + 1, s => if s.pack.cnt = 0 then .ok s else (push s.policy.padCarrier s).andThen (padBatch n)

/-- What becomes of the partial batch at teardown (R125): dropped by this hardware, padded and sent under the other
policy. -/
def teardownPack (s : State) : Res :=
  match s.policy.teardown with
  | .drop => .ok (dropPack s)
  | .pad => padBatch batch s

/-- TEARDOWN (R125). READY is cleared also when the padding batch fails. -/
def execTeardown (s : State) : Host.Outcome State Fault Refusal :=
  gated s fun s => finish ((teardownPack s).onExit fun s => { s with asm := .idle, ready := false })

end Sys2Proof.Machine
end

