-- ==== Sys2Proof/Machine/Framer.lean ====
section
/-! DEFINITION. The Command/Data Framer (spec/41_framer.md): FramerReg, FramerData8, FramerData16 and the operations WRREG,
WRDAT8, WRDAT16. -/

namespace Sys2Proof.Machine

/-- `FramerReg(b)` (R140): the command codeword of `b`, low carrier bits 0. -/
def framerReg (b : Byte) (s : State) : Res := push (carrierOf (cmdCodeword b) 0#7) s

/-- `FramerData8(b)` (R141): the data codeword of `b`, low carrier bits 0. -/
def framerData8 (b : Byte) (s : State) : Res := push (carrierOf (datCodeword b) 0#7) s

/-- `FramerData16(w)` (R142): high byte, then low byte. -/
def framerData16 (w : Word16) (s : State) : Res := (framerData8 (hiByte w) s).andThen (framerData8 (loByte w))

/-- A data byte of the host's own: as FramerData8, its place marked where it breaks the window duty
(spec/70_reset_and_hazards.md R273, R280; log 29). -/
def hostData8 (b : Byte) (s : State) : Res := framerData8 b (noteData s)

/-- WRREG b (R144): a raw command leaves ASM in Idle. -/
def execWrreg (b : Byte) (s : State) : Host.Outcome State Fault Refusal :=
  gated s fun s => finish ((framerReg b s).andThen fun s => .ok { s with asm := .idle })

/-- WRDAT8 b (R144): ASM unchanged. -/
def execWrdat8 (b : Byte) (s : State) : Host.Outcome State Fault Refusal :=
  gated s fun s => finish (hostData8 b s)

/-- WRDAT16 w (R144): high byte, then low byte (R142); ASM unchanged. -/
def execWrdat16 (w : Word16) (s : State) : Host.Outcome State Fault Refusal :=
  gated s fun s => finish ((hostData8 (hiByte w) s).andThen (hostData8 (loByte w)))

end Sys2Proof.Machine
end

