-- ==== Sys2Proof/Machine/System.lean ====
section
/-! DEFINITION. System operations (spec/45_system.md): INIT, SETCOLORS. -/

namespace Sys2Proof.Machine

open Sys2Proof.Config

/-- The device state INIT loads (R231). -/
def deviceOf (b : Board) (o : Orient) : DeviceState :=
  let c := devCfg b o
  { width := c.width, height := c.height, orient := o, ramcmd := c.ramcmd, colcmd := c.colcmd, rowcmd := c.rowcmd }

/-- INIT between `Open()` and the initialization sequence (R230): the lines CS and RESET, the empty Pack Buffer, ASM Idle,
the device state. -/
def initLoad (o : Orient) (s : State) : State :=
  let s := gpioSet .reset .released (gpioSet .reset .asserted (gpioSet .cs .selected s))
  { dropPack s with asm := .idle, dev := deviceOf s.board o }

/-- One entry of `INIT_SEQ` (R230). DESIGN CHOICE: its data codewords, pushed while ASM is Idle, are not marked as breaking the
window duty; the sink reads them as spec/20_memory.md R81 says (log 30). -/
def initItem (it : CmdKind × Byte) (s : State) : Res :=
  match it.1 with
  | .reg => framerReg it.2 s
  | .data => framerData8 it.2 s

/-- INIT after a successful `Open()` (R230). -/
def initRun (o : Orient) (s : State) : Res :=
  (forEach (initSeq s.board o) initItem (initLoad o s)).andThen fun s =>
    .ok { gpioSet .backlight .on s with ready := true }

/-- How INIT ends (R230): OK, or the abort with READY still 0. Its pushes start from the empty Pack Buffer, so the batch is
never overfull: `initRun_ne_overfull` in Laws. -/
def initEnd (r : Res) : State :=
  match r with
  | .ok s => respond .ok s
  | .abort s => takeAbort s
  | .overfull s => takeAbort s

/-- INIT with a legal orientation (R230): READY cleared, the transport opened, the rest only if that succeeds (R242). -/
def initState (o : Orient) (s : State) : State :=
  let s' := countOpen { s with ready := false }
  if nextOpen s < 0 then respond .eOpen s' else initEnd (initRun o s')

/-- INIT orient (R230): any orientation but 0 and 1 is E_ARG, before anything else (R249). -/
def execInit (orient : Byte) (s : State) : Host.Outcome State Fault Refusal :=
  match orientOperand orient with
  | some o => .next (initState o s)
  | none => reject .eArg s

/-- SETCOLORS fg, bg (R232): not gated, cannot fail. -/
def execSetcolors (fg bg : Word16) (s : State) : Host.Outcome State Fault Refusal :=
  finish (.ok { s with fg := fg, bg := bg })

end Sys2Proof.Machine
end

