-- ==== Sys2Proof/Machine/Addressing.lean ====
section
/-! DEFINITION. The Addressing State Machine (spec/42_addressing.md): RangeCmd, DoSetWindow, DoArm, OpenWindow, RestoreFull
and the operations SETWIN, ARMRAM, SETCUR. -/

namespace Sys2Proof.Machine

/-- `RangeCmd(code, s, e)` (R150). -/
def rangeCmd (code : Byte) (b e : Word16) (s : State) : Res :=
  ((framerReg code s).andThen (framerData16 b)).andThen (framerData16 e)

/-- The ten codewords of `DoSetWindow` (R151): in landscape the row command with the y range, then the column command
with the x range; in portrait the column command with the y range, then the row command with the x range. -/
def windowCmds (x0 y0 x1 y1 : Word16) (s : State) : Res :=
  match s.dev.orient with
  | .landscape => (rangeCmd s.dev.rowcmd y0 y1 s).andThen fun s => rangeCmd s.dev.colcmd x0 x1 s
  | .portrait => (rangeCmd s.dev.colcmd y0 y1 s).andThen fun s => rangeCmd s.dev.rowcmd x0 x1 s

/-- `DoSetWindow(x0, y0, x1, y1)` (R151): coordinates truncated to 16 bits; WIN and ASM written after the codewords. No
operand is checked (R160). -/
def doSetWindow (x0 y0 x1 y1 : Int) (s : State) : Res :=
  (windowCmds (trunc16 x0) (trunc16 y0) (trunc16 x1) (trunc16 y1) s).andThen fun s =>
    .ok { s with
      win := { x0 := trunc16 x0, y0 := trunc16 y0, x1 := trunc16 x1, y1 := trunc16 y1 }
      asm := .windowProgrammed }

/-- `DoArm()` (R153). -/
def doArm (s : State) : Res := (framerReg s.dev.ramcmd s).andThen fun s => .ok { s with asm := .ramStreaming }

/-- `OpenWindow(x0, y0, x1, y1)` (R155). -/
def openWindow (x0 y0 x1 y1 : Int) (s : State) : Res := (doSetWindow x0 y0 x1 y1 s).andThen doArm

/-- `RestoreFull()` (R156): computed in `int`, so a width of 0 gives -1. -/
def restoreFull (s : State) : Res := openWindow 0 0 (zext s.dev.width - 1) (zext s.dev.height - 1) s

/-- SETWIN x0, y0, x1, y1 (R152): it does not arm. -/
def execSetwin (x0 y0 x1 y1 : Word16) (s : State) : Host.Outcome State Fault Refusal :=
  gated s fun s => finish (doSetWindow (zext x0) (zext y0) (zext x1) (zext y1) s)

/-- ARMRAM (R154): armed whatever ASM was; without a window it breaks the window duty (R153; log 29). -/
def execArmram (s : State) : Host.Outcome State Fault Refusal := gated s fun s => finish (doArm (noteArm s))

/-- SETCUR x, y (R157): the opening of the 1×1 window at `(x, y)`. -/
def execSetcur (x y : Word16) (s : State) : Host.Outcome State Fault Refusal :=
  gated s fun s => finish (openWindow (zext x) (zext y) (zext x) (zext y) s)

end Sys2Proof.Machine
end

