-- ==== Sys2Proof/Machine/Raster.lean ====
section
/-! DEFINITION. The Rasterizer (spec/43_raster.md): POINT, FILL, CLEAR, LINE, RECT, FRECT, CIRCLE. Nothing here clips
(R185). -/

namespace Sys2Proof.Machine

/-! ### Point -/

/-- `Plot(x, y, c)` (R170). -/
def plot (x y : Int) (c : Word16) (s : State) : Res :=
  (openWindow x y x y { s with plotTrace := s.plotTrace ++ [(x, y, c)] }).andThen (framerData16 c)

/-- POINT x, y, c (R171). -/
def execPoint (x y c : Word16) (s : State) : Host.Outcome State Fault Refusal :=
  gated s fun s => finish (plot (zext x) (zext y) c s)

/-! ### Fill and clear -/

/-- `(x1 - x0 + 1) × (y1 - y0 + 1)`, a natural number (R172). -/
def fillCount (x0 y0 x1 y1 : Word16) : Nat := (x1.toNat - x0.toNat + 1) * (y1.toNat - y0.toNat + 1)

/-- The effect of FILL, its corners in order (R172). -/
def doFill (x0 y0 x1 y1 c : Word16) (s : State) : Res :=
  ((openWindow (zext x0) (zext y0) (zext x1) (zext y1) s).andThen
    (repeatN (fillCount x0 y0 x1 y1) (framerData16 c))).andThen restoreFull

/-- FILL x0, y0, x1, y1, c (R172). -/
def execFill (x0 y0 x1 y1 c : Word16) (s : State) : Host.Outcome State Fault Refusal :=
  gated s fun s => if ordered x0 y0 x1 y1 then finish (doFill x0 y0 x1 y1 c s) else reject .eArg s

/-- CLEAR c (R173): the fill of the whole screen. -/
def execClear (c : Word16) (s : State) : Host.Outcome State Fault Refusal :=
  gated s fun s =>
    if s.dev.width = 0#16 ∨ s.dev.height = 0#16 then reject .eArg s
    else finish (doFill 0#16 0#16 (s.dev.width - 1#16) (s.dev.height - 1#16) c s)

/-- FRECT x1, y1, x2, y2 (R177): FILL in the colour FG. -/
def execFrect (x1 y1 x2 y2 : Word16) (s : State) : Host.Outcome State Fault Refusal :=
  gated s fun s => if ordered x1 y1 x2 y2 then finish (doFill x1 y1 x2 y2 s.fg s) else reject .eArg s

/-! ### Line -/

/-- The sign increment of a difference (R174). -/
def signInc (d : Int) : Int := if d > 0 then 1 else if d = 0 then 0 else -1

/-- The line engine before the first iteration (R174). -/
def lineSetup (x1 y1 x2 y2 : Int) : LineEngine :=
  let dx := x2 - x1
  let dy := y2 - y1
  let adx : Int := dx.natAbs
  let ady : Int := dy.natAbs
  { dx := adx, dy := ady, incx := signInc dx, incy := signInc dy, dist := max adx ady
    xerr := 0, yerr := 0, lx := x1, ly := y1, t := 0 }

/-- Iteration `t` of the line engine before its plot (R174): accumulate both, step x, step y; the comparison is strict. -/
def lineAdvance (t : Nat) (e : LineEngine) : LineEngine :=
  let xerr := e.xerr + e.dx
  let yerr := e.yerr + e.dy
  { e with
    xerr := if xerr > e.dist then xerr - e.dist else xerr
    lx := if xerr > e.dist then e.lx + e.incx else e.lx
    yerr := if yerr > e.dist then yerr - e.dist else yerr
    ly := if yerr > e.dist then e.ly + e.incy else e.ly
    t := t }

/-- One iteration: advance, then plot in FG (R174, R186). -/
def lineStep (t : Nat) (s : State) : Res :=
  let s := { s with line := lineAdvance t s.line }
  plot s.line.lx s.line.ly s.fg s

/-- `DoLine(x1, y1, x2, y2)` (R174): `dist + 1` iterations. -/
def doLine (x1 y1 x2 y2 : Int) (s : State) : Res :=
  let e := lineSetup x1 y1 x2 y2
  forRange (e.dist.toNat + 1) lineStep { s with line := e }

/-- LINE x1, y1, x2, y2 (R174). -/
def execLine (x1 y1 x2 y2 : Word16) (s : State) : Host.Outcome State Fault Refusal :=
  gated s fun s => finish (doLine (zext x1) (zext y1) (zext x2) (zext y2) s)

/-- The four lines of a rectangle, in order (R176). -/
def doRect (x1 y1 x2 y2 : Int) (s : State) : Res :=
  (((doLine x1 y1 x2 y1 s).andThen (doLine x1 y1 x1 y2)).andThen (doLine x1 y2 x2 y2)).andThen (doLine x2 y1 x2 y2)

/-- RECT x1, y1, x2, y2 (R176). -/
def execRect (x1 y1 x2 y2 : Word16) (s : State) : Host.Outcome State Fault Refusal :=
  gated s fun s => finish (doRect (zext x1) (zext y1) (zext x2) (zext y2) s)

/-! ### Circle -/

/-- `Plot8(xc, yc, u, v)` (R183): the eight reflections, in order, each in FG. -/
def plot8 (xc yc u v : Int) (s : State) : Res :=
  forEach [(xc + u, yc + v), (xc - u, yc + v), (xc + u, yc - v), (xc - u, yc - v),
    (xc + v, yc + u), (xc - v, yc + u), (xc + v, yc - u), (xc - v, yc - u)]
    (fun p s => plot p.1 p.2 s.fg s) s

/-- What one iteration plots (R181, R182): the outline's eight points, or those of every `yi` from `cx` to `cy`. -/
def circlePlots (xc yc : Int) (filled : Bool) (s : State) : Res :=
  if filled then
    forRange (s.circle.cy - s.circle.cx + 1).toNat
      (fun j s =>
        let s := { s with circle := { s.circle with yi := s.circle.cx + j } }
        plot8 xc yc s.circle.cx s.circle.yi s) s
  else plot8 xc yc s.circle.cx s.circle.cy s

/-- The update at the end of an iteration (R180), with `cx` and `cy` as they are before it. -/
def circleAdvance (e : CircleEngine) : CircleEngine :=
  if e.d < 0 then { e with d := e.d + 4 * e.cx + 6, cx := e.cx + 1 }
  else { e with d := e.d + 4 * (e.cx - e.cy) + 10, cy := e.cy - 1, cx := e.cx + 1 }

/-- `while cx <= cy` (R180): `n` bounds the iterations, and `r + 1` always suffice (R184; log 26). -/
def circleLoop (xc yc : Int) (filled : Bool) : Nat → State → Res
  | 0, s => .ok s
  | n + 1, s =>
    if s.circle.cx ≤ s.circle.cy then
      (circlePlots xc yc filled s).andThen fun s =>
        circleLoop xc yc filled n { s with circle := circleAdvance s.circle }
    else .ok s

/-- The circle engine before the first iteration (R180); `yi` is written by filled mode only. -/
def circleSetup (r : Nat) (e : CircleEngine) : CircleEngine := { e with cx := 0, cy := r, d := 3 - 2 * r }

/-- The effect of CIRCLE, its flag legal (R180). -/
def doCircle (xc yc : Int) (r : Nat) (filled : Bool) (s : State) : Res :=
  circleLoop xc yc filled (r + 1) { s with circle := circleSetup r s.circle }

/-- CIRCLE xc, yc, r, filled (R180). -/
def execCircle (xc yc r : Word16) (filled : Byte) (s : State) : Host.Outcome State Fault Refusal :=
  gated s fun s =>
    match bitOperand filled with
    | some f => finish (doCircle (zext xc) (zext yc) r.toNat f s)
    | none => reject .eArg s

end Sys2Proof.Machine
end

