-- ==== Sys2Proof/Machine/Text.lean ====
section
/-! DEFINITION. Font and text blitting (spec/44_text.md): CHAR, GLYPH, STRING, NUMBER. -/

namespace Sys2Proof.Machine

open Sys2Proof.Config

/-- `Fits(x, y, adv, size)` (R200): the whole cell lies on the panel. -/
def fits (x y : Int) (adv size : Nat) (d : DeviceState) : Bool :=
  x + adv ≤ zext d.width && y + size ≤ zext d.height

/-- Entry to `DoChar` or `DoGlyph` (R212): FG saved, the operation's foreground in its place. -/
def enterText (fc : Word16) (s : State) : State := { s with text := { s.text with fgsave := s.fg }, fg := fc }

/-- Every exit from `DoChar` or `DoGlyph`, normal or by abort (R212). -/
def leaveText (s : State) : State := { s with fg := s.text.fgsave }

/-- A block-mode pixel (R203, R207): FG for a set bit, the background operand for a clear one. -/
def blockPixel (bc : Word16) (bit : Bool) (s : State) : Res := framerData16 (if bit then s.fg else bc) s

/-- A point-mode pixel (R203, R207): a plot in FG for a set bit, nothing for a clear one. -/
def pointPixel (x y : Int) (bit : Bool) (s : State) : Res := if bit then plot x y s.fg s else .ok s

/-! ### ASCII path -/

/-- The rows of the glyph of `ch` (R201): `size` bytes at `(ch - 0x20) × size`. -/
def asciiRows (b : Board) (sz : AsciiSize) (ch : Byte) : List Byte :=
  memRead (asciiFont b sz) ((ch.toNat - 0x20) * asciiPx sz) (asciiPx sz)

/-- `row[gp][7 - gt]` (R201): MSB-first rows. -/
def rowBit (rows : List Byte) (gp gt : Nat) : Bool := (rows.getD gp 0#8).getLsbD (7 - gt)

/-- The row and column counters of a glyph (spec/10_state.md R23). -/
def setCell (gp gt : Nat) (s : State) : State := { s with text := { s.text with gp := gp, gt := gt } }

/-- The cells of an ASCII glyph, row by row, `f` at each (R203). -/
def asciiCells (sz : AsciiSize) (f : Nat → Nat → State → Res) (s : State) : Res :=
  forRange (asciiPx sz) (fun gp s => forRange (asciiPx sz / 2) (fun gt s => f gp gt (setCell gp gt s)) s) s

/-- The blit of an ASCII glyph between entry and exit (R203): `point` is mode 1. -/
def asciiBlit (x y : Int) (bc : Word16) (rows : List Byte) (sz : AsciiSize) (point : Bool) (s : State) : Res :=
  if point then
    asciiCells sz (fun gp gt s => pointPixel (x + gt) (y + gp) (rowBit rows gp gt) s) s
  else
    ((openWindow x y (x + (asciiPx sz / 2 : Nat) - 1) (y + (asciiPx sz : Nat) - 1) s).andThen
      (asciiCells sz fun gp gt s => blockPixel bc (rowBit rows gp gt) s)).andThen restoreFull

/-- `DoChar(x, y, fc, bc, ch, size, mode)` (R203). -/
def doChar (x y : Int) (fc bc : Word16) (ch : Byte) (sz : AsciiSize) (point : Bool) (s : State) : Res :=
  (asciiBlit x y bc (asciiRows s.board sz ch) sz point (enterText fc s)).onExit leaveText

/-- CHAR x, y, fc, bc, ch, size, mode (R202). -/
def execChar (x y fc bc : Word16) (ch size mode : Byte) (s : State) : Host.Outcome State Fault Refusal :=
  gated s fun s =>
    match isAscii ch, asciiSize size, bitOperand mode with
    | true, some sz, some point =>
      if fits (zext x) (zext y) (asciiPx sz / 2) (asciiPx sz) s.dev then
        finish (doChar (zext x) (zext y) fc bc ch sz point s)
      else finish (.ok s)
    | _, _, _ => reject .eArg s

/-! ### Double-byte path -/

/-- The linear scan of `DB_INDEX` (R204): the least index whose entry is the code. -/
def scanIndex (code : Word16) : List Word16 → Option Nat
  | [] => none
  | c :: rest => if c = code then some 0 else (scanIndex code rest).map (· + 1)

/-- Bytes in one double-byte bitmap, `size × size / 8` (R205). -/
def wideBytes (sz : WideSize) : Nat := widePx sz * widePx sz / 8

/-- The bitmap of index entry `k` (R205). -/
def wideBitmap (b : Board) (sz : WideSize) (k : Nat) : List Byte :=
  memRead (dbBitmap b sz) (k * wideBytes sz) (wideBytes sz)

/-- The bits of a bitmap, byte by byte, MSB-first (R205, R207): the pixels in reading order. -/
def bitmapBits (bm : List Byte) : List Bool := bm.flatMap bitsOf

/-- The running position before the first pixel (R207). -/
def startPos (x y : Int) (s : State) : State := { s with text := { s.text with px := x, py := y } }

/-- The running position after a pixel, with the explicit line wrap (R207). -/
def advancePos (x : Int) (sz : WideSize) (s : State) : State :=
  if s.text.px + 1 - x = (widePx sz : Nat) then { s with text := { s.text with px := x, py := s.text.py + 1 } }
  else { s with text := { s.text with px := s.text.px + 1 } }

/-- The blit of a double-byte glyph between entry and exit (R207). -/
def wideBlit (x y : Int) (bc : Word16) (bm : List Byte) (sz : WideSize) (point : Bool) (s : State) : Res :=
  if point then
    forEach (bitmapBits bm)
      (fun bit s => (pointPixel s.text.px s.text.py bit s).andThen fun s => .ok (advancePos x sz s)) (startPos x y s)
  else
    ((openWindow x y (x + (widePx sz : Nat) - 1) (y + (widePx sz : Nat) - 1) s).andThen
      (forEach (bitmapBits bm) (blockPixel bc))).andThen restoreFull

/-- `DoGlyph(x, y, fc, bc, code, size, mode)` (R207): an unmatched code does nothing (R213). -/
def doGlyph (x y : Int) (fc bc code : Word16) (sz : WideSize) (point : Bool) (s : State) : Res :=
  match scanIndex code (dbIndex s.board sz) with
  | none => .ok s
  | some k => (wideBlit x y bc (wideBitmap s.board sz k) sz point (enterText fc s)).onExit leaveText

/-- GLYPH x, y, fc, bc, code, size, mode (R206). -/
def execGlyph (x y fc bc code : Word16) (size mode : Byte) (s : State) : Host.Outcome State Fault Refusal :=
  gated s fun s =>
    match wideSize size, bitOperand mode with
    | some sz, some point =>
      if fits (zext x) (zext y) (widePx sz) (widePx sz) s.dev then
        finish (doGlyph (zext x) (zext y) fc bc code sz point s)
      else finish (.ok s)
    | _, _ => reject .eArg s

/-! ### Strings -/

/-- The cursor moves right by `adv` past `n` bytes of the string (R208). -/
def advanceCursor (adv n : Nat) (s : State) : State :=
  { s with text := { s.text with tx := s.text.tx + adv, si := s.text.si + n } }

/-- A carriage return (R208, R209): x to the line start, y down by the size. -/
def carriageReturn (size : Nat) (s : State) : State :=
  { s with text := { s.text with tx := s.text.xs, ty := s.text.ty + size, si := s.text.si + 1 } }

/-- A byte of class "other" (R209): consumed, nothing else. -/
def skipByte (s : State) : State := { s with text := { s.text with si := s.text.si + 1 } }

/-- An ASCII character of a string (R208): drawn where the path has a font of the size, skipped where it has none
(R214). -/
def stringChar (fc bc : Word16) (size : Byte) (point : Bool) (b : Byte) (s : State) : Res :=
  match asciiSize size with
  | some sz => doChar s.text.tx s.text.ty fc bc b sz point s
  | none => .ok s

/-- A double-byte character of a string (R208): drawn where the path has a font of the size, skipped where it has none
(R214). -/
def stringGlyph (fc bc : Word16) (size : Byte) (point : Bool) (code : Word16) (s : State) : Res :=
  match wideSize size with
  | some sz => doGlyph s.text.tx s.text.ty fc bc code sz point s
  | none => .ok s

/-- The loop of STRING over the unread bytes (R208, R209). A failed bound check, and a lead byte with nothing after it, end
the operation. -/
def stringLoop (fc bc : Word16) (size : Byte) (point : Bool) : List Byte → State → Res
  | [], s => .ok s
  | b :: rest, s =>
    if isAscii b then
      if fits s.text.tx s.text.ty (size.toNat / 2) size.toNat s.dev then
        (stringChar fc bc size point b s).andThen fun s =>
          stringLoop fc bc size point rest (advanceCursor (size.toNat / 2) 1 s)
      else .ok s
    else if b = 0x0D#8 then stringLoop fc bc size point rest (carriageReturn size.toNat s)
    else if b.toNat ≥ 0x80 then
      match rest with
      | [] => .ok s
      | b1 :: rest' =>
        if fits s.text.tx s.text.ty size.toNat size.toNat s.dev then
          (stringGlyph fc bc size point (be16 b b1) s).andThen fun s =>
            stringLoop fc bc size point rest' (advanceCursor size.toNat 2 s)
        else .ok s
    else stringLoop fc bc size point rest (skipByte s)

/-- The cursor before the first byte (R208). -/
def startCursor (x y : Int) (s : State) : State :=
  { s with text := { s.text with tx := x, ty := y, xs := x, si := 0 } }

/-- The effect of STRING, its operands legal (R208). -/
def doString (x y : Int) (fc bc : Word16) (size : Byte) (point : Bool) (bytes : List Byte) (s : State) : Res :=
  stringLoop fc bc size point bytes (startCursor x y s)

/-- STRING x, y, fc, bc, size, mode, bytes (R208). -/
def execString (x y fc bc : Word16) (size mode : Byte) (bytes : List Byte) (s : State) :
    Host.Outcome State Fault Refusal :=
  gated s fun s =>
    match textSize size, bitOperand mode, decide (bytes.length ≤ 65535) with
    | some _, some point, true => finish (doString (zext x) (zext y) fc bc size point bytes s)
    | _, _, _ => reject .eArg s

/-! ### Numbers -/

/-- The digit in cell `k` of `len` (R211). -/
def digitAt (num len k : Nat) : Nat := num / 10 ^ (len - 1 - k) % 10

/-- The cells of a number from cell `k` on, `n` of them (R211): spaces until the first digit that is not 0 or the units
digit. -/
def numberCells (num len : Nat) : Nat → Nat → Bool → List Byte
  | 0, _, _ => []
  | n + 1, k, seen =>
    let dgt := digitAt num len k
    let seen := seen || dgt != 0 || k + 1 == len
    (if seen then BitVec.ofNat 8 (0x30 + dgt) else 0x20#8) :: numberCells num len n (k + 1) seen

/-- The string NUMBER shows (R211). -/
def numberString (num len : Nat) : List Byte := numberCells num len len 0 false

/-- NUMBER x, y, fc, bc, num, len, size, mode (R211). -/
def execNumber (x y fc bc : Word16) (num : BitVec 32) (len size mode : Byte) (s : State) :
    Host.Outcome State Fault Refusal :=
  gated s fun s =>
    match textSize size, bitOperand mode, decide (1 ≤ len.toNat ∧ len.toNat ≤ 10) with
    | some _, some point, true =>
      finish (doString (zext x) (zext y) fc bc size point (numberString num.toNat len.toNat) s)
    | _, _, _ => reject .eArg s

end Sys2Proof.Machine
end

