-- ==== Sys2Proof/Machine/Dispatch.lean ====
section
/-! DEFINITION. The dispatch: one arm per operation. -/

namespace Sys2Proof.Machine

def exec (i : Instr) (s : State) : Host.Outcome State Fault Refusal :=
  match i with
  | .push carrier => Sys2Proof.Machine.execPush carrier s
  | .teardown => Sys2Proof.Machine.execTeardown s
  | .wrreg b => Sys2Proof.Machine.execWrreg b s
  | .wrdat8 b => Sys2Proof.Machine.execWrdat8 b s
  | .wrdat16 w => Sys2Proof.Machine.execWrdat16 w s
  | .setwin x0 y0 x1 y1 => Sys2Proof.Machine.execSetwin x0 y0 x1 y1 s
  | .armram => Sys2Proof.Machine.execArmram s
  | .setcur x y => Sys2Proof.Machine.execSetcur x y s
  | .point x y c => Sys2Proof.Machine.execPoint x y c s
  | .fill x0 y0 x1 y1 c => Sys2Proof.Machine.execFill x0 y0 x1 y1 c s
  | .clear c => Sys2Proof.Machine.execClear c s
  | .line x1 y1 x2 y2 => Sys2Proof.Machine.execLine x1 y1 x2 y2 s
  | .rect x1 y1 x2 y2 => Sys2Proof.Machine.execRect x1 y1 x2 y2 s
  | .frect x1 y1 x2 y2 => Sys2Proof.Machine.execFrect x1 y1 x2 y2 s
  | .circle xc yc r filled => Sys2Proof.Machine.execCircle xc yc r filled s
  | .char x y fc bc ch size mode => Sys2Proof.Machine.execChar x y fc bc ch size mode s
  | .glyph x y fc bc code size mode => Sys2Proof.Machine.execGlyph x y fc bc code size mode s
  | .string x y fc bc size mode bytes => Sys2Proof.Machine.execString x y fc bc size mode bytes s
  | .number x y fc bc num len size mode => Sys2Proof.Machine.execNumber x y fc bc num len size mode s
  | .init orient => Sys2Proof.Machine.execInit orient s
  | .setcolors fg bg => Sys2Proof.Machine.execSetcolors fg bg s
  | .cwCmd p => Sys2Proof.Machine.execCwCmd p s
  | .cwDat p => Sys2Proof.Machine.execCwDat p s
  | .carrierCmd p x => Sys2Proof.Machine.execCarrierCmd p x s
  | .carrierDat p x => Sys2Proof.Machine.execCarrierDat p x s

end Sys2Proof.Machine
end

