-- ==== Sys2Proof/Machine/Step.lean ====
section
/-! DEFINITION. One step of the block: it takes one request of the host and runs it to its end (spec/00_scope.md R10, R11;
spec/10_state.md R24; spec/30_encoding.md R112). -/

namespace Sys2Proof.Machine

/-- With no request pending the block does nothing (R251: "the block does nothing between operations"; log 1). A request
that decodes to no operation is answered with E_ARG and has no other effect (R247). -/
def step (s : State) : Host.Outcome State Fault Refusal :=
  match nextRequest s with
  | none => .next s
  | some r =>
    match decode r with
    | .ok i => exec i (takeRequest s)
    | .error _ => reject .eArg (takeRequest s)

/-- The request of an opcode-table word, placed where the next step takes its request (log 1). -/
def State.withFetchWord (s : State) (nbits w : Nat) : State :=
  { s with requests := requestOfTableWord nbits w :: s.requests }

end Sys2Proof.Machine
end

