-- ==== Sys2Proof/Machine/Stream.lean ====
section
/-! DEFINITION. The block seen from outside: the frames of spec/30_encoding.md R98 to R101, the stream of draws each
operation stands for (spec/00_scope.md R11: the sequence is exact), and what a stream of draws leaves in the state when every
transfer in it succeeds. Nothing of the machine calls this file: Safety and the obligations state the machine against it. -/

namespace Sys2Proof.Machine

open Sys2Proof.Config

/-! ### Frames (R98 to R101) -/

/-- 16-bit data frame, 2 codewords (R98). -/
def frameData16 (w : Word16) : List Codeword := [datCodeword (hiByte w), datCodeword (loByte w)]

/-- Range-command frame, 5 codewords (R99). -/
def frameRange (code : Byte) (b e : Word16) : List Codeword := cmdCodeword code :: (frameData16 b ++ frameData16 e)

/-- Window frame, 10 codewords, by orientation (R100). -/
def frameWindow (d : DeviceState) (x0 y0 x1 y1 : Word16) : List Codeword :=
  match d.orient with
  | .landscape => frameRange d.rowcmd y0 y1 ++ frameRange d.colcmd x0 x1
  | .portrait => frameRange d.colcmd y0 y1 ++ frameRange d.rowcmd x0 x1

/-! ### Draws -/

/-- What an operation sends, in the terms of the components above the Codec. -/
inductive Draw where
  /-- a codeword pushed as it is: the host's own, or an entry of INIT_SEQ -/
  | raw (cw : Codeword)
  /-- `DoSetWindow` (R151) -/
  | setWindow (x0 y0 x1 y1 : Int)
  /-- `DoArm` (R153) -/
  | arm
  /-- one pixel streamed into the open window (R142) -/
  | pixel (c : Word16)
  /-- `Plot` (R170) -/
  | plot (x y : Int) (c : Word16)
deriving DecidableEq, Repr

/-- The codewords of a draw (R98 to R101). -/
def drawCodewords (d : DeviceState) : Draw → List Codeword
  | .raw cw => [cw]
  | .setWindow x0 y0 x1 y1 => frameWindow d (trunc16 x0) (trunc16 y0) (trunc16 x1) (trunc16 y1)
  | .arm => [cmdCodeword d.ramcmd]
  | .pixel c => frameData16 c
  | .plot x y c =>
    frameWindow d (trunc16 x) (trunc16 y) (trunc16 x) (trunc16 y) ++ [cmdCodeword d.ramcmd] ++ frameData16 c

/-- The entry of PLOTTRACE a draw makes (spec/10_state.md R47). -/
def drawPlot : Draw → Option (Int × Int × Word16)
  | .raw _ => none
  | .setWindow _ _ _ _ => none
  | .arm => none
  | .pixel _ => none
  | .plot x y c => some (x, y, c)

/-- WIN after a draw (spec/10_state.md R27). -/
def drawWin (w : Window) : Draw → Window
  | .raw _ => w
  | .setWindow x0 y0 x1 y1 => { x0 := trunc16 x0, y0 := trunc16 y0, x1 := trunc16 x1, y1 := trunc16 y1 }
  | .arm => w
  | .pixel _ => w
  | .plot x y _ => { x0 := trunc16 x, y0 := trunc16 y, x1 := trunc16 x, y1 := trunc16 y }

/-- ASM after a draw (spec/42_addressing.md R158). -/
def drawAsm (a : AddrState) : Draw → AddrState
  | .raw cw => asmAfterRaw cw a
  | .setWindow _ _ _ _ => .windowProgrammed
  | .arm => .ramStreaming
  | .pixel _ => a
  | .plot _ _ _ => .ramStreaming

/-- The codewords of a stream of draws. -/
def codewordsOf (d : DeviceState) (ds : List Draw) : List Codeword := ds.flatMap (drawCodewords d)

/-- `OpenWindow` as draws (R155). -/
def drawOpen (x0 y0 x1 y1 : Int) : List Draw := [.setWindow x0 y0 x1 y1, .arm]

/-- `RestoreFull` as draws (R156). -/
def drawRestore (d : DeviceState) : List Draw := drawOpen 0 0 (zext d.width - 1) (zext d.height - 1)

/-! ### The draws of each operation -/

/-- FILL (R172). -/
def drawFill (d : DeviceState) (x0 y0 x1 y1 c : Word16) : List Draw :=
  drawOpen (zext x0) (zext y0) (zext x1) (zext y1) ++ List.replicate (fillCount x0 y0 x1 y1) (.pixel c) ++ drawRestore d

/-- Steps an axis of magnitude `m` has made after `k` accumulations over the distance `dist`: `⌈k × m / dist⌉ - 1` for
`m > 0`, none for `m = 0` (R175). -/
def axisSteps (m dist k : Nat) : Nat := (k * m + dist - 1) / dist - 1

/-- The points of a line in closed form (R175). -/
def linePoints (x1 y1 x2 y2 : Int) : List (Int × Int) :=
  let dx := (x2 - x1).natAbs
  let dy := (y2 - y1).natAbs
  let dist := max dx dy
  (List.range (dist + 1)).map fun t =>
    (x1 + (x2 - x1).sign * axisSteps dx dist (t + 1), y1 + (y2 - y1).sign * axisSteps dy dist (t + 1))

/-- The points of a rectangle's outline: four lines (R176). -/
def rectPoints (x1 y1 x2 y2 : Int) : List (Int × Int) :=
  linePoints x1 y1 x2 y1 ++ linePoints x1 y1 x1 y2 ++ linePoints x1 y2 x2 y2 ++ linePoints x2 y1 x2 y2

/-- The eight reflections of `(u, v)` about the centre, in order (R183). -/
def octants (xc yc u v : Int) : List (Int × Int) :=
  [(xc + u, yc + v), (xc - u, yc + v), (xc + u, yc - v), (xc - u, yc - v),
   (xc + v, yc + u), (xc - v, yc + u), (xc + v, yc - u), (xc - v, yc - u)]

/-- The pairs `(cx, cy)` of the circle's iterations, at most `n`, from the decision value `d` on (R180). -/
def circleSteps : Nat → Int → Int → Int → List (Int × Int)
  | 0, _, _, _ => []
  | n + 1, cx, cy, d =>
    if cx ≤ cy then
      (cx, cy) ::
        (if d < 0 then circleSteps n (cx + 1) cy (d + 4 * cx + 6)
         else circleSteps n (cx + 1) (cy - 1) (d + 4 * (cx - cy) + 10))
    else []

/-- What one iteration plots (R181, R182). -/
def circleSpan (xc yc : Int) (filled : Bool) (p : Int × Int) : List (Int × Int) :=
  if filled then (List.range (p.2 - p.1 + 1).toNat).flatMap fun j : Nat => octants xc yc p.1 (p.1 + j)
  else octants xc yc p.1 p.2

/-- The points of a circle (R180). -/
def circlePoints (xc yc : Int) (r : Nat) (filled : Bool) : List (Int × Int) :=
  (circleSteps (r + 1) 0 r (3 - 2 * r)).flatMap (circleSpan xc yc filled)

/-- Points plotted in one colour. -/
def drawPoints (c : Word16) (ps : List (Int × Int)) : List Draw := ps.map fun p => .plot p.1 p.2 c

/-- A block-mode glyph: its window, one pixel per bit, the restore (R203, R207). -/
def drawBlock (d : DeviceState) (x y : Int) (w h : Nat) (fc bc : Word16) (bits : List Bool) : List Draw :=
  drawOpen x y (x + w - 1) (y + h - 1) ++ bits.map (fun b => .pixel (if b then fc else bc)) ++ drawRestore d

/-- A point-mode glyph: bit `n`, where set, at column `n mod w` of row `n / w` (R203, R207). -/
def drawSetBits (x y : Int) (w : Nat) (fc : Word16) (bits : List Bool) : List Draw :=
  bits.zipIdx.filterMap fun p => if p.1 then some (.plot (x + (p.2 % w : Nat)) (y + (p.2 / w : Nat)) fc) else none

/-- A glyph in either mode. -/
def drawGlyphBits (d : DeviceState) (x y : Int) (w h : Nat) (fc bc : Word16) (point : Bool) (bits : List Bool) :
    List Draw :=
  if point then drawSetBits x y w fc bits else drawBlock d x y w h fc bc bits

/-- The pixels of an ASCII cell in reading order (R201). -/
def asciiBits (b : Board) (sz : AsciiSize) (ch : Byte) : List Bool :=
  (List.range (asciiPx sz)).flatMap fun gp =>
    (List.range (asciiPx sz / 2)).map fun gt => rowBit (asciiRows b sz ch) gp gt

/-- `DoChar` (R203). -/
def drawChar (b : Board) (d : DeviceState) (x y : Int) (fc bc : Word16) (ch : Byte) (sz : AsciiSize) (point : Bool) :
    List Draw :=
  drawGlyphBits d x y (asciiPx sz / 2) (asciiPx sz) fc bc point (asciiBits b sz ch)

/-- `DoGlyph` (R207); nothing for an unmatched code (R213). -/
def drawGlyph (b : Board) (d : DeviceState) (x y : Int) (fc bc code : Word16) (sz : WideSize) (point : Bool) :
    List Draw :=
  match scanIndex code (dbIndex b sz) with
  | none => []
  | some k => drawGlyphBits d x y (widePx sz) (widePx sz) fc bc point (bitmapBits (wideBitmap b sz k))

/-- What a string draws from the cursor `(tx, ty)` on, its line start at `xs` (R208, R209). -/
def drawString (b : Board) (d : DeviceState) (fc bc : Word16) (size : Byte) (point : Bool) (xs : Int) :
    List Byte → Int → Int → List Draw
  | [], _, _ => []
  | c :: rest, tx, ty =>
    if isAscii c then
      if fits tx ty (size.toNat / 2) size.toNat d then
        (match asciiSize size with
         | some sz => drawChar b d tx ty fc bc c sz point
         | none => []) ++ drawString b d fc bc size point xs rest (tx + (size.toNat / 2 : Nat)) ty
      else []
    else if c = 0x0D#8 then drawString b d fc bc size point xs rest xs (ty + size.toNat)
    else if c.toNat ≥ 0x80 then
      match rest with
      | [] => []
      | c1 :: rest' =>
        if fits tx ty size.toNat size.toNat d then
          (match wideSize size with
           | some sz => drawGlyph b d tx ty fc bc (be16 c c1) sz point
           | none => []) ++ drawString b d fc bc size point xs rest' (tx + size.toNat) ty
        else []
    else drawString b d fc bc size point xs rest tx ty

/-- The final cursor of a string (R208, R210). -/
def stringCursor (d : DeviceState) (size : Byte) (xs : Int) : List Byte → Int → Int → Int × Int
  | [], tx, ty => (tx, ty)
  | c :: rest, tx, ty =>
    if isAscii c then
      if fits tx ty (size.toNat / 2) size.toNat d then stringCursor d size xs rest (tx + (size.toNat / 2 : Nat)) ty
      else (tx, ty)
    else if c = 0x0D#8 then stringCursor d size xs rest xs (ty + size.toNat)
    else if c.toNat ≥ 0x80 then
      match rest with
      | [] => (tx, ty)
      | _ :: rest' =>
        if fits tx ty size.toNat size.toNat d then stringCursor d size xs rest' (tx + size.toNat) ty else (tx, ty)
    else stringCursor d size xs rest tx ty

/-- The draws of an operation in a state, its operands legal (R11). INIT's are those of its sequence alone, TEARDOWN's the
padding of the policy. -/
def drawsOf (i : Instr) (s : State) : List Draw :=
  match i with
  | .push c => [.raw (codewordOf c)]
  | .teardown =>
    match s.policy.teardown with
    | .drop => []
    | .pad => List.replicate (if s.pack.cnt = 0 then 0 else batch - s.pack.cnt) (.raw (codewordOf s.policy.padCarrier))
  | .wrreg b => [.raw (cmdCodeword b)]
  | .wrdat8 b => [.raw (datCodeword b)]
  | .wrdat16 w => [.raw (datCodeword (hiByte w)), .raw (datCodeword (loByte w))]
  | .setwin x0 y0 x1 y1 => [.setWindow (zext x0) (zext y0) (zext x1) (zext y1)]
  | .armram => [.arm]
  | .setcur x y => drawOpen (zext x) (zext y) (zext x) (zext y)
  | .point x y c => [.plot (zext x) (zext y) c]
  | .fill x0 y0 x1 y1 c => drawFill s.dev x0 y0 x1 y1 c
  | .clear c => drawFill s.dev 0#16 0#16 (s.dev.width - 1#16) (s.dev.height - 1#16) c
  | .line x1 y1 x2 y2 => drawPoints s.fg (linePoints (zext x1) (zext y1) (zext x2) (zext y2))
  | .rect x1 y1 x2 y2 => drawPoints s.fg (rectPoints (zext x1) (zext y1) (zext x2) (zext y2))
  | .frect x1 y1 x2 y2 => drawFill s.dev x1 y1 x2 y2 s.fg
  | .circle xc yc r filled => drawPoints s.fg (circlePoints (zext xc) (zext yc) r.toNat (filled = 1#8))
  | .char x y fc bc ch size mode =>
    match asciiSize size with
    | some sz =>
      if fits (zext x) (zext y) (asciiPx sz / 2) (asciiPx sz) s.dev then
        drawChar s.board s.dev (zext x) (zext y) fc bc ch sz (mode = 1#8)
      else []
    | none => []
  | .glyph x y fc bc code size mode =>
    match wideSize size with
    | some sz =>
      if fits (zext x) (zext y) (widePx sz) (widePx sz) s.dev then
        drawGlyph s.board s.dev (zext x) (zext y) fc bc code sz (mode = 1#8)
      else []
    | none => []
  | .string x y fc bc size mode bytes =>
    drawString s.board s.dev fc bc size (mode = 1#8) (zext x) bytes (zext x) (zext y)
  | .number x y fc bc num len size mode =>
    drawString s.board s.dev fc bc size (mode = 1#8) (zext x) (numberString num.toNat len.toNat) (zext x) (zext y)
  | .init orient =>
    match orientOperand orient with
    | some o => (initSeq s.board o).map fun it =>
        match it.1 with
        | .reg => .raw (cmdCodeword it.2)
        | .data => .raw (datCodeword it.2)
    | none => []
  | .setcolors _ _ => []
  | .cwCmd p => [.raw (cmdCodeword p)]
  | .cwDat p => [.raw (datCodeword p)]
  | .carrierCmd p _ => [.raw (cmdCodeword p)]
  | .carrierDat p _ => [.raw (datCodeword p)]

/-! ### A stream through the Pack Buffer -/

/-- The Pack Buffer after one codeword, the flush included (R120, R123). -/
def packNext (p : PackBuffer) (cw : Codeword) : PackBuffer :=
  let q := packCodeword cw p
  if q.cnt = batch then emptyPack q else q

/-- The Pack Buffer after a list of codewords. -/
def packAll (p : PackBuffer) (ws : List Codeword) : PackBuffer := ws.foldl packNext p

/-- The batches a list of codewords fills, each as its 576 words (R95, R123). -/
def batchesOf : PackBuffer → List Codeword → List (List Word16)
  | _, [] => []
  | p, cw :: rest =>
    let q := packCodeword cw p
    if q.cnt = batch then q.out.toList :: batchesOf (emptyPack q) rest else batchesOf q rest

/-- The state after the batches `bs` were handed to the transport, from the next call on (R255, R66): each with the status
the transport gives it, the sink as `sinkAfter` makes it batch by batch. -/
def sentFrom : State → List (List Word16) → State
  | s, [] => s
  | s, b :: rest => sentFrom (transferred b (xferStatus s.board s.xferCalls) s) rest

/-- The state a list of codewords leaves when every transfer in it succeeds: the codewords pushed in order, the batches
sent, the Pack Buffer; every other field as it was. -/
def sendAll (s : State) (ws : List Codeword) : State :=
  { sentFrom s (batchesOf s.pack ws) with cwTrace := s.cwTrace ++ ws, pack := packAll s.pack ws }

/-- Every transfer the list of codewords makes succeeds: a condition on the state and the transport's answers (R255). -/
def WordsOk (s : State) (ws : List Codeword) : Prop :=
  ∀ j, j < (batchesOf s.pack ws).length → 0 ≤ xferStatus s.board (s.xferCalls + j)

/-- The `j`-th transfer of the list is the first to fail. -/
def FirstFailure (s : State) (ws : List Codeword) (j : Nat) : Prop :=
  j < (batchesOf s.pack ws).length ∧ xferStatus s.board (s.xferCalls + j) < 0 ∧
  ∀ k, k < j → 0 ≤ xferStatus s.board (s.xferCalls + k)

/-- The codewords pushed up to and with the last of the `j`-th batch the list fills (spec/60_exceptions.md R250). -/
def cutWords (s : State) (ws : List Codeword) (j : Nat) : List Codeword := ws.take (batch * (j + 1) - s.pack.cnt)

/-- The state a stream of draws leaves when every transfer in it succeeds: its codewords sent, its points plotted, WIN and
ASM as the draws leave them; every other field as it was. -/
def streamed (s : State) (ds : List Draw) : State :=
  { sendAll s (codewordsOf s.dev ds) with
    plotTrace := s.plotTrace ++ ds.filterMap drawPlot
    win := ds.foldl drawWin s.win
    asm := ds.foldl drawAsm s.asm }

/-! ### A stream cut short by a failed transfer (spec/60_exceptions.md R243, R244, R250) -/

/-- The draws begun when `k` codewords of the stream have been pushed. -/
def begun (d : DeviceState) : List Draw → Nat → List Draw
  | [], _ => []
  | x :: rest, k => if k = 0 then [] else x :: begun d rest (k - (drawCodewords d x).length)

/-- WIN when the stream ends at its `k`-th codeword: a window's ten codewords precede its write of WIN (R151), so a window
that ends there has not written it. -/
def winCut (d : DeviceState) : Window → List Draw → Nat → Window
  | w, [], _ => w
  | w, x :: rest, k =>
    if k ≤ (drawCodewords d x).length then (if 10 < k then drawWin w x else w)
    else winCut d (drawWin w x) rest (k - (drawCodewords d x).length)

/-- The state a stream of draws leaves when its `j`-th transfer is the first to fail, ASM Idle as the abort leaves it: the
codewords up to that batch's last pushed, the batches sent, the Pack Buffer empty, the points of the draws begun plotted;
every other field as it was. -/
def cutShort (s : State) (ds : List Draw) (j : Nat) : State :=
  let ws := cutWords s (codewordsOf s.dev ds) j
  { sendAll s ws with
    plotTrace := s.plotTrace ++ (begun s.dev ds ws.length).filterMap drawPlot
    win := winCut s.dev s.win ds ws.length
    asm := .idle }

end Sys2Proof.Machine
end

