-- ==== Sys2Proof/Safety.lean ====
section
/-! DEFINITION. What counts as a sound state and a safe use, in the terms the obligations use: the invariants of the Pack
Buffer (spec/10_state.md R35), of the ports and of the engines (R40); legal operands (spec/30_encoding.md R108); the duties
of the host (spec/70_reset_and_hazards.md R273, R280, R281); what the block does not read. -/

namespace Sys2Proof.Safety

open Sys2Proof.Machine Sys2Proof.Config

/-! ### Invariants -/

/-- The pending bit string of the Pack Buffer: the valid entries of OUT, then the top NBITS bits of ACC (R35 (e)). -/
def pendingBits (p : PackBuffer) : List Bool :=
  (p.out.toList.take p.outcnt).flatMap bitsOf ++ (bitsOf p.acc).take p.nbits

/-- The codewords pushed since the Pack Buffer was last empty: the last CNT of CWTRACE (R33). -/
def pendingCodewords (s : State) : List Codeword := s.cwTrace.drop (s.cwTrace.length - s.pack.cnt)

/-- The invariants (a) to (e) of R35. -/
def PackInv (s : State) : Prop :=
  s.pack.outcnt = s.pack.cnt * 9 / 16 ∧
  s.pack.nbits = s.pack.cnt * 9 % 16 ∧
  s.pack.cnt < batch ∧
  (∀ i, s.pack.nbits ≤ i → s.pack.acc.getMsbD i = false) ∧
  s.pack.cnt ≤ s.cwTrace.length ∧
  pendingBits s.pack = (pendingCodewords s).flatMap bitsOf

/-- The ports and the reference sink stay in form: a transfer buffer of 1152 bytes (R66), every transfer 576 words (R69),
as many entries of XFERTRACE as calls (R47), GRAM in its canonical form (log 23), every marked place that of a pending
codeword (log 29). -/
def PortInv (s : State) : Prop :=
  s.xferBuf.length = xferBytes ∧
  (∀ e, e ∈ s.xferTrace → e.1.length = outWords) ∧
  s.xferTrace.length = s.xferCalls ∧
  gramWf s.sink.gram = true ∧
  ∀ i, i ∈ s.strays → i < s.pack.cnt

/-- A value within the 32 bits of an `int` (spec/00_scope.md R12, spec/10_state.md R40). -/
def FitsInt (v : Int) : Prop := -2147483648 ≤ v ∧ v < 2147483648

/-- Every `int` engine register is within 32 bits (R40). -/
def EngineInv (s : State) : Prop :=
  (FitsInt s.line.dx ∧ FitsInt s.line.dy ∧ FitsInt s.line.incx ∧ FitsInt s.line.incy ∧ FitsInt s.line.dist ∧
    FitsInt s.line.xerr ∧ FitsInt s.line.yerr ∧ FitsInt s.line.lx ∧ FitsInt s.line.ly ∧ FitsInt s.line.t) ∧
  (FitsInt s.circle.cx ∧ FitsInt s.circle.cy ∧ FitsInt s.circle.d ∧ FitsInt s.circle.yi) ∧
  (FitsInt s.text.tx ∧ FitsInt s.text.ty ∧ FitsInt s.text.xs ∧ FitsInt s.text.si ∧ FitsInt s.text.gp ∧
    FitsInt s.text.gt ∧ FitsInt s.text.px ∧ FitsInt s.text.py)

/-! ### Legal operations -/

/-- INIT and SETCOLORS, the two operations without the READY gate (spec/45_system.md R233). -/
def ungated : Instr → Bool
  | .init _ => true
  | .setcolors _ _ => true
  | .push _ | .teardown | .wrreg _ | .wrdat8 _ | .wrdat16 _ | .setwin _ _ _ _ | .armram | .setcur _ _ => false
  | .point _ _ _ | .fill _ _ _ _ _ | .clear _ | .line _ _ _ _ | .rect _ _ _ _ | .frect _ _ _ _ => false
  | .circle _ _ _ _ | .char _ _ _ _ _ _ _ | .glyph _ _ _ _ _ _ _ | .string _ _ _ _ _ _ _ => false
  | .number _ _ _ _ _ _ _ _ | .cwCmd _ | .cwDat _ | .carrierCmd _ _ | .carrierDat _ _ => false

/-- The engine an operation runs on (spec/10_state.md R21 to R23). -/
inductive Engine where
  | none
  | line
  | circle
  | text
deriving DecidableEq, Repr

/-- The engine of each operation. -/
def engineOf : Instr → Engine
  | .line _ _ _ _ | .rect _ _ _ _ => .line
  | .circle _ _ _ _ => .circle
  | .char _ _ _ _ _ _ _ | .glyph _ _ _ _ _ _ _ | .string _ _ _ _ _ _ _ | .number _ _ _ _ _ _ _ _ => .text
  | .push _ | .teardown | .wrreg _ | .wrdat8 _ | .wrdat16 _ | .setwin _ _ _ _ | .armram | .setcur _ _ => .none
  | .point _ _ _ | .fill _ _ _ _ _ | .clear _ | .frect _ _ _ _ | .init _ | .setcolors _ _ => .none
  | .cwCmd _ | .cwDat _ | .carrierCmd _ _ | .carrierDat _ _ => .none

/-- INIT. -/
def isInit : Instr → Bool
  | .init _ => true
  | .push _ | .teardown | .wrreg _ | .wrdat8 _ | .wrdat16 _ | .setwin _ _ _ _ | .armram | .setcur _ _ => false
  | .point _ _ _ | .fill _ _ _ _ _ | .clear _ | .line _ _ _ _ | .rect _ _ _ _ | .frect _ _ _ _ => false
  | .circle _ _ _ _ | .char _ _ _ _ _ _ _ | .glyph _ _ _ _ _ _ _ | .string _ _ _ _ _ _ _ => false
  | .number _ _ _ _ _ _ _ _ | .setcolors _ _ | .cwCmd _ | .cwDat _ | .carrierCmd _ _ | .carrierDat _ _ => false

/-- SETCOLORS. -/
def isSetcolors (i : Instr) : Bool := ungated i && !isInit i

/-- TEARDOWN. -/
def isTeardown (i : Instr) : Bool := i == .teardown

/-- The operations that open a window, and so write WIN (spec/10_state.md R27; spec/42_addressing.md R151). -/
def opensWindow : Instr → Bool
  | .setwin _ _ _ _ | .setcur _ _ | .point _ _ _ | .fill _ _ _ _ _ | .clear _ | .line _ _ _ _ => true
  | .rect _ _ _ _ | .frect _ _ _ _ | .circle _ _ _ _ | .char _ _ _ _ _ _ _ | .glyph _ _ _ _ _ _ _ => true
  | .string _ _ _ _ _ _ _ | .number _ _ _ _ _ _ _ _ => true
  | .push _ | .teardown | .wrreg _ | .wrdat8 _ | .wrdat16 _ | .armram | .init _ | .setcolors _ _ => false
  | .cwCmd _ | .cwDat _ | .carrierCmd _ _ | .carrierDat _ _ => false

/-- The operations that push data codewords and nothing else, and so leave ASM (spec/42_addressing.md R158). -/
def sendsDataOnly : Instr → Bool
  | .push c => isData (codewordOf c)
  | .wrdat8 _ | .wrdat16 _ | .cwDat _ | .carrierDat _ _ => true
  | .teardown | .wrreg _ | .setwin _ _ _ _ | .armram | .setcur _ _ | .point _ _ _ | .fill _ _ _ _ _ => false
  | .clear _ | .line _ _ _ _ | .rect _ _ _ _ | .frect _ _ _ _ | .circle _ _ _ _ | .init _ => false
  | .char _ _ _ _ _ _ _ | .glyph _ _ _ _ _ _ _ | .string _ _ _ _ _ _ _ | .number _ _ _ _ _ _ _ _ => false
  | .setcolors _ _ | .cwCmd _ | .carrierCmd _ _ => false

/-- The operands are in their domain in this state (R108; CLEAR's domain depends on the device state, R173). -/
def legal (i : Instr) (s : State) : Bool :=
  match i with
  | .clear _ => s.dev.width != 0#16 && s.dev.height != 0#16
  | i => i.wellFormed

/-! ### Duties of the host -/

/-- The window duty (R273, R280): data codewords of the host's own only while the RAM is streaming, ARMRAM only after a
window. The block refuses nothing; what a violation does to GRAM is not defined (log 29). INIT and
TEARDOWN keep the duty: the initialization sequence (log 30) and the padding (log 32) are not the host's. -/
def keepsWindowDuty (i : Instr) (s : State) : Bool :=
  match i with
  | .armram => s.asm != .idle
  | i => !sendsDataOnly i || s.asm == .ramStreaming

/-- A pixel on the panel (spec/20_memory.md R73). -/
def OnPanel (d : DeviceState) (x y : Int) : Prop := 0 ≤ x ∧ x < zext d.width ∧ 0 ≤ y ∧ y < zext d.height

/-- R281: every point plotted and every window opened lies on the panel. -/
def DrawOnPanel (d : DeviceState) : Draw → Prop
  | .raw _ => True
  | .setWindow x0 y0 x1 y1 => OnPanel d x0 y0 ∧ OnPanel d x1 y1 ∧ x0 ≤ x1 ∧ y0 ≤ y1
  | .arm => True
  | .pixel _ => True
  | .plot x y _ => OnPanel d x y

/-! ### What the block does not read -/

/-- The state without what no rule of the block reads in a later operation: ASM and WIN (spec/10_state.md R26, R27), BG
(R29), the engine registers, which are written before they are read (R20), the ghost traces (R47), the statuses answered
(R25), the GPIO calls (R46), the transfer buffer, the reference sink (spec/20_memory.md R62) and the marks made for it
(log 29). -/
def core (s : State) : State :=
  { s with
    asm := .idle
    win := { x0 := 0#16, y0 := 0#16, x1 := 0#16, y1 := 0#16 }
    bg := 0#16
    line := { dx := 0, dy := 0, incx := 0, incy := 0, dist := 0, xerr := 0, yerr := 0, lx := 0, ly := 0, t := 0 }
    circle := { cx := 0, cy := 0, d := 0, yi := 0 }
    text := { tx := 0, ty := 0, xs := 0, si := 0, gp := 0, gt := 0, px := 0, py := 0, fgsave := 0#16 }
    xferBuf := []
    cwTrace := []
    xferTrace := []
    plotTrace := []
    gpioTrace := []
    respTrace := []
    strays := []
    sink := Sink.reset }

/-- What the block sent the world between `s` and `t`: codewords pushed, transfers with their statuses, GPIO calls, statuses
answered. -/
def Emitted (s t : State) (cws : List Codeword) (xs : List (List Word16 × Int)) (gs : List (GpioLine × GpioLevel))
    (rs : List Status) : Prop :=
  t.cwTrace = s.cwTrace ++ cws ∧ t.xferTrace = s.xferTrace ++ xs ∧ t.gpioTrace = s.gpioTrace ++ gs ∧
  t.respTrace = s.respTrace ++ rs

end Sys2Proof.Safety
end

