-- ==== Sys2Proof/Certificates/Slice0/Obligations.lean ====
section
/-! DEFINITION. The statements for the provers, each about the machine of Sys2Proof/Machine as spec/ describes it. Where a
statement rests on a choice of the model its docstring names the log entry. `respond st s` is `s` with the status `st`
added to the model's trace of statuses and nothing else (log 10); `sendAll s ws` is `s` after the codewords `ws` went through
the Pack Buffer, every transfer succeeding, and nothing else; `streamed s ds` the same for a stream of draws, with PLOTTRACE,
WIN and ASM as the draws leave them. `noteData`, `noteArm` and `noteRaw` mark, in the ghost list `strays`, a codeword of the
host's own that breaks the window duty (log 29), and change nothing else. -/

open Sys2Proof Sys2Proof.Machine Sys2Proof.Config Sys2Proof.Safety

/-! ### Encoding (spec/30_encoding.md) -/

/-- Section 4: a request holds every operand, and the decoder reads each back. -/
def Obligations.DecodeEncodeRoundTrip : Prop :=
  ∀ i : Instr, i.encodable = true → decode (encode i) = .ok i

/-- Sections 1 and 4: what the decoder reads, the encoder writes back: the request itself for a codeword or a carrier, and
for a request by bytes its first bytes; what follows the format is not read (log 16). -/
def Obligations.DecodedRequestReencodes : Prop :=
  ∀ (r : Request) (i : Instr), decode r = .ok i →
    i.encodable = true ∧
    match r with
    | .bytes bs => ∃ e tail, encode i = .bytes e ∧ bs = e ++ tail
    | .codeword c => encode i = .codeword c
    | .carrier c => encode i = .carrier c

/-- Section 4, one request of each component, and a codeword and a carrier, written out from the tables of the spec. -/
def Obligations.RequestWordsDecode : Prop :=
  decode (.bytes [0x01#8, 0x15#8, 0x00#8]) = .ok (.push 0x1500#16) ∧
  decode (.bytes [0x12#8, 0x12#8, 0x34#8]) = .ok (.wrdat16 0x1234#16) ∧
  decode (.bytes [0x22#8, 0x00#8, 0x03#8, 0x00#8, 0x04#8]) = .ok (.setcur 3#16 4#16) ∧
  decode (.bytes [0x30#8, 0x00#8, 0x03#8, 0x00#8, 0x04#8, 0xF8#8, 0x00#8]) = .ok (.point 3#16 4#16 0xF800#16) ∧
  decode (.bytes [0x36#8, 0x00#8, 0x32#8, 0x00#8, 0x32#8, 0x00#8, 0x0A#8, 0x00#8]) =
    .ok (.circle 50#16 50#16 10#16 0#8) ∧
  decode (.bytes [0x43#8, 0#8, 0#8, 0#8, 1#8, 0#8, 2#8, 0#8, 3#8, 0x00#8, 0x01#8, 0xE2#8, 0x40#8, 4#8, 16#8, 1#8]) =
    .ok (.number 0#16 1#16 2#16 3#16 123456#32 4#8 16#8 1#8) ∧
  decode (.bytes [0x51#8, 0xF8#8, 0x00#8, 0xFF#8, 0xFF#8]) = .ok (.setcolors 0xF800#16 0xFFFF#16) ∧
  decode (.codeword 0x1F8#9) = .ok (.cwDat 0xF8#8) ∧
  decode (.carrier 0x1600#16) = .ok (.carrierCmd 0x2C#8 0#7)

/-- Section 7 (reserved opcodes) and spec/60_exceptions.md section 1 (illegal request): a request whose opcode is not one of
the 21 is answered with E_ARG and changes nothing. -/
def Obligations.ReservedOpcodesAreIllegal : Prop :=
  ∀ (op : Byte) (f : List Byte) (rest : List Request) (s : State),
    op.toNat ∉ [0x01, 0x02, 0x10, 0x11, 0x12, 0x20, 0x21, 0x22, 0x30, 0x31, 0x32, 0x33, 0x34, 0x35, 0x36, 0x40, 0x41,
      0x42, 0x43, 0x50, 0x51] →
    step { s with requests := .bytes (op :: f) :: rest } = .next (respond .eArg { s with requests := rest })

/-- Section 7: a request shorter than its format, wherever it is cut, is answered with E_ARG and changes nothing. -/
def Obligations.ShortRequestsAreIllegal : Prop :=
  ∀ (i : Instr) (e : List Byte) (n : Nat) (rest : List Request) (s : State),
    i.encodable = true → encode i = .bytes e → n < e.length →
    step { s with requests := .bytes (e.take n) :: rest } = .next (respond .eArg { s with requests := rest })

/-! ### The step (spec/00_scope.md R10, R11; spec/10_state.md R24; log 1) -/

/-- The oldest request, where it decodes to an operation, is run to its end, and nothing else happens in the step. -/
def Obligations.StepRunsDecodedRequest : Prop :=
  ∀ (s : State) (r : Request) (rest : List Request) (i : Instr), decode r = .ok i →
    step { s with requests := r :: rest } = exec i { s with requests := rest }

/-- The model's own choices (log 1): with no request the block does nothing; an opcode-table word placed by withFetchWord is
the very next operation. -/
def Obligations.IdleStepAndTableWord : Prop :=
  (∀ s : State, s.requests = [] → step s = .next s) ∧
  ∀ (s : State) (nbits w : Nat) (i : Instr), decodeTableWord nbits w = some i → step (s.withFetchWord nbits w) = exec i s

/-- One request a step (spec/10_state.md R24), answered with exactly one status (R25); the parameters of R46 never change,
the glyph tables among them (spec/70_reset_and_hazards.md R279). -/
def Obligations.StepTakesOneRequest : Prop :=
  ∀ s t : State, step s = .next t →
    t.requests = s.requests.tail ∧ t.board = s.board ∧ t.policy = s.policy ∧
    (s.requests ≠ [] → ∃ st, t.respTrace = s.respTrace ++ [st])

/-! ### Checks before an operation (spec/45_system.md R233; spec/60_exceptions.md R247, R249) -/

/-- R233. The READY gate, before the operand checks: every operation but INIT and SETCOLORS, whatever its operands, answers
E_OPEN while READY is 0 and changes nothing; READY is 0 after reset, after an INIT that failed (the transport did not open,
or a transfer failed: an INIT of a wrong orientation is turned away before it begins, R247) and after TEARDOWN, and 1
after an INIT that answered OK. -/
def Obligations.ReadyGate : Prop :=
  (∀ (i : Instr) (s : State), ungated i = false → s.ready = false → exec i s = .next (respond .eOpen s)) ∧
  State.reset.ready = false ∧
  (∀ (o : Byte) (s t : State), exec (.init o) s = .next t →
    (t.respTrace = s.respTrace ++ [.ok] → t.ready = true) ∧
    (t.respTrace = s.respTrace ++ [.eOpen] → t.ready = false) ∧
    (t.respTrace = s.respTrace ++ [.eXfer] → t.ready = false)) ∧
  ∀ s t : State, exec .teardown s = .next t → t.ready = false

/-- An operand outside its domain: E_ARG, and nothing changes (R247); for a gated operation only once READY is 1 (R249). That
an INIT so answered leaves READY as it is is the model's own reading of R247 against R233 (log 28). -/
def Obligations.IllegalOperandsReturnEArg : Prop :=
  ∀ (i : Instr) (s : State), ungated i = true ∨ s.ready = true → legal i s = false →
    exec i s = .next (respond .eArg s)

/-! ### The Codec's and the Framer's operations -/

/-- PUSH: the gate; the push; ASM to Idle for a command; E_XFER when this push filled the batch and the transfer failed, ASM
then Idle by the abort. The mark of a data codeword outside the RAM stream is the model's own (log 29). -/
def Obligations.PushOperation : Prop :=
  ∀ (c : Carrier) (s : State),
    encode (.push c) = .bytes [0x01#8, c.extractLsb' 8 8, c.extractLsb' 0 8] ∧
    (s.ready = false → exec (.push c) s = .next (respond .eOpen s)) ∧
    (s.ready = true → s.pack.cnt < batch → WordsOk s [c.extractLsb' 7 9] →
      exec (.push c) s =
        .next (respond .ok { sendAll (noteRaw (c.extractLsb' 7 9) s) [c.extractLsb' 7 9] with
          asm := if c.getLsbD 15 then s.asm else .idle })) ∧
    (s.ready = true → s.pack.cnt < batch → ¬WordsOk s [c.extractLsb' 7 9] →
      exec (.push c) s = .next (respond .eXfer { sendAll s [c.extractLsb' 7 9] with asm := .idle }))

/-- The four codeword and carrier kinds of spec/30_encoding.md section 1, as the model lets the host push them (log 2),
data outside the RAM stream marked (log 29). -/
def Obligations.CodewordKindsComplete : Prop :=
  ∀ (p : Byte) (x : BitVec 7) (s : State), s.ready = true → s.pack.cnt < batch →
    (WordsOk s [BitVec.ofNat 9 p.toNat] →
      exec (.cwCmd p) s = .next (respond .ok { sendAll s [BitVec.ofNat 9 p.toNat] with asm := .idle }) ∧
      exec (.carrierCmd p x) s = .next (respond .ok { sendAll s [BitVec.ofNat 9 p.toNat] with asm := .idle })) ∧
    (WordsOk s [BitVec.ofNat 9 (0x100 + p.toNat)] →
      exec (.cwDat p) s = .next (respond .ok (sendAll (noteData s) [BitVec.ofNat 9 (0x100 + p.toNat)])) ∧
      exec (.carrierDat p x) s = .next (respond .ok (sendAll (noteData s) [BitVec.ofNat 9 (0x100 + p.toNat)])))

/-- spec/41_framer.md section 2: the codewords of WRREG, WRDAT8 and WRDAT16, high byte first, and ASM after each;
each data byte outside the RAM stream is marked (log 29). -/
def Obligations.FramerOperationsComplete : Prop :=
  ∀ (b : Byte) (w : Word16) (s : State), s.ready = true → s.pack.cnt < batch →
    (WordsOk s [BitVec.ofNat 9 b.toNat] →
      exec (.wrreg b) s = .next (respond .ok { sendAll s [BitVec.ofNat 9 b.toNat] with asm := .idle })) ∧
    (WordsOk s [BitVec.ofNat 9 (0x100 + b.toNat)] →
      exec (.wrdat8 b) s = .next (respond .ok (sendAll (noteData s) [BitVec.ofNat 9 (0x100 + b.toNat)]))) ∧
    (WordsOk s [BitVec.ofNat 9 (0x100 + w.toNat / 256), BitVec.ofNat 9 (0x100 + w.toNat % 256)] →
      exec (.wrdat16 w) s =
        .next (respond .ok (sendAll (noteData (sendAll (noteData s) [BitVec.ofNat 9 (0x100 + w.toNat / 256)]))
          [BitVec.ofNat 9 (0x100 + w.toNat % 256)])))

/-- spec/41_framer.md section 2, last rule: with 1023 codewords pending the high byte of WRDAT16 fills the batch; if its
transfer succeeds the low byte alone is pending; if it fails the low byte is never pushed and the Pack Buffer is empty. -/
def Obligations.FlushBetweenTheTwoBytes : Prop :=
  ∀ (w : Word16) (s t : State), s.ready = true → PackInv s → s.pack.cnt = 1023 → exec (.wrdat16 w) s = .next t →
    t.xferCalls = s.xferCalls + 1 ∧
    (0 ≤ xferStatus s.board s.xferCalls →
      t.respTrace = s.respTrace ++ [.ok] ∧ t.pack.cnt = 1 ∧
      t.cwTrace = s.cwTrace ++ [datCodeword (hiByte w), datCodeword (loByte w)] ∧
      pendingBits t.pack = bitsOf (datCodeword (loByte w))) ∧
    (xferStatus s.board s.xferCalls < 0 →
      t.respTrace = s.respTrace ++ [.eXfer] ∧ t.pack.cnt = 0 ∧ t.asm = .idle ∧
      t.cwTrace = s.cwTrace ++ [datCodeword (hiByte w)] ∧ pendingBits t.pack = [])

/-- TEARDOWN: the gate; under `drop` the pending codewords are discarded and nothing is sent; under `pad` the batch is
filled with copies of the padding codeword and sent as one ordinary batch, nothing if none is pending, and READY is cleared
also if that transfer fails; afterwards every operation but INIT and SETCOLORS answers E_OPEN. Two things are
the model's own: the marks discarded with the codewords (log 29), and that padding by data codewords is not marked (log
32). -/
def Obligations.TeardownOperation : Prop :=
  ∀ s : State,
    let pads := List.replicate (if s.pack.cnt = 0 then 0 else 1024 - s.pack.cnt) (s.policy.padCarrier.extractLsb' 7 9)
    encode .teardown = .bytes [0x02#8] ∧
    (s.ready = false → exec .teardown s = .next (respond .eOpen s)) ∧
    (s.ready = true → s.policy.teardown = .drop →
      exec .teardown s = .next (respond .ok
        { s with
          pack := { s.pack with acc := 0#32, nbits := 0, cnt := 0, outcnt := 0 }
          strays := []
          asm := .idle
          ready := false })) ∧
    (s.ready = true → s.policy.teardown = .pad → s.pack.cnt < batch → WordsOk s pads →
      exec .teardown s = .next (respond .ok { sendAll s pads with asm := .idle, ready := false }) ∧
      (sendAll s pads).pack.cnt = 0) ∧
    (s.ready = true → s.policy.teardown = .pad → s.pack.cnt < batch → ¬WordsOk s pads →
      exec .teardown s = .next (respond .eXfer { sendAll s pads with asm := .idle, ready := false })) ∧
    ∀ (t : State) (i : Instr), exec .teardown s = .next t → ungated i = false → exec i t = .next (respond .eOpen t)

/-! ### Addressing (spec/42_addressing.md) -/

/-- The window frame, written out: landscape sends the row command with the y range, then the column command with the x
range; portrait the column command with the y range, then the row command with the x range (spec/30_encoding.md section 3,
spec/42_addressing.md section 1). -/
def Obligations.WindowFrameByOrientation : Prop :=
  ∀ (d : DeviceState) (x0 y0 x1 y1 : Word16),
    let cmd := fun b : Byte => BitVec.ofNat 9 b.toNat
    let hi := fun v : Word16 => BitVec.ofNat 9 (0x100 + v.toNat / 256)
    let lo := fun v : Word16 => BitVec.ofNat 9 (0x100 + v.toNat % 256)
    (d.orient = .landscape → frameWindow d x0 y0 x1 y1 =
      [cmd d.rowcmd, hi y0, lo y0, hi y1, lo y1, cmd d.colcmd, hi x0, lo x0, hi x1, lo x1]) ∧
    (d.orient = .portrait → frameWindow d x0 y0 x1 y1 =
      [cmd d.colcmd, hi y0, lo y0, hi y1, lo y1, cmd d.rowcmd, hi x0, lo x0, hi x1, lo x1])

/-- SETWIN programs and does not arm; ARMRAM arms, marked where no window was set (log 29); SETCUR opens the 1×1 window; no
operand is checked. -/
def Obligations.AddressingOperationsComplete : Prop :=
  ∀ (x0 y0 x1 y1 : Word16) (s : State), s.ready = true → s.pack.cnt < batch →
    (WordsOk s (frameWindow s.dev x0 y0 x1 y1) →
      exec (.setwin x0 y0 x1 y1) s =
        .next (respond .ok { sendAll s (frameWindow s.dev x0 y0 x1 y1) with
          win := { x0 := x0, y0 := y0, x1 := x1, y1 := y1 }, asm := .windowProgrammed })) ∧
    (WordsOk s [cmdCodeword s.dev.ramcmd] →
      exec .armram s = .next (respond .ok { sendAll (noteArm s) [cmdCodeword s.dev.ramcmd] with asm := .ramStreaming })) ∧
    (WordsOk s (frameWindow s.dev x0 y0 x0 y0 ++ [cmdCodeword s.dev.ramcmd]) →
      exec (.setcur x0 y0) s =
        .next (respond .ok { sendAll s (frameWindow s.dev x0 y0 x0 y0 ++ [cmdCodeword s.dev.ramcmd]) with
          win := { x0 := x0, y0 := y0, x1 := x0, y1 := y0 }, asm := .ramStreaming }))

/-- R158, whole: the transitions of ASM, event by event. -/
def Obligations.AddressingStateTransitions : Prop :=
  (∀ (x0 y0 x1 y1 : Int) (s t : State), doSetWindow x0 y0 x1 y1 s = .ok t → t.asm = .windowProgrammed) ∧
  (∀ s t : State, doArm s = .ok t → t.asm = .ramStreaming) ∧
  (∀ (b : Byte) (s t : State), framerData8 b s = .ok t → t.asm = s.asm) ∧
  (∀ (b : Byte) (s t : State), exec (.wrreg b) s = .next t → t.respTrace = s.respTrace ++ [.ok] → t.asm = .idle) ∧
  (∀ (c : Carrier) (s t : State), c.getLsbD 15 = false → exec (.push c) s = .next t →
    t.respTrace = s.respTrace ++ [.ok] → t.asm = .idle) ∧
  (∀ (i : Instr) (s t : State), exec i s = .next t → t.respTrace = s.respTrace ++ [.eXfer] → t.asm = .idle) ∧
  (∀ (o : Byte) (s t : State), exec (.init o) s = .next t → t.respTrace = s.respTrace ++ [.ok] → t.asm = .idle) ∧
  ∀ s t : State, exec .teardown s = .next t → t.respTrace = s.respTrace ++ [.ok] → t.asm = .idle

/-- R159, whole. Two SETWINs: the second window only. The block sends both frames, twenty codewords, and WIN is the second;
a reference sink fed both, from whatever state it was in, ends with the second's ranges and an untouched GRAM, where the two
range commands differ. -/
def Obligations.SecondSetwinReplacesFirst : Prop :=
  ∀ (a0 b0 a1 b1 x0 y0 x1 y1 : Word16) (s t u : State) (o : SinkOrder) (k : Sink), s.ready = true →
    exec (.setwin a0 b0 a1 b1) s = .next t → exec (.setwin x0 y0 x1 y1) t = .next u →
    u.respTrace = s.respTrace ++ [.ok, .ok] →
    u.cwTrace = s.cwTrace ++ (frameWindow s.dev a0 b0 a1 b1 ++ frameWindow s.dev x0 y0 x1 y1) ∧
    u.cwTrace.length = s.cwTrace.length + 20 ∧
    u.win = { x0 := x0, y0 := y0, x1 := x1, y1 := y1 } ∧ u.asm = .windowProgrammed ∧
    (s.dev.colcmd ≠ s.dev.rowcmd →
      let k' := (frameWindow s.dev a0 b0 a1 b1 ++ frameWindow s.dev x0 y0 x1 y1).foldl (sinkFeed o s.dev) k
      sinkWindow s.dev k' = (x0, x1, y0, y1) ∧ k'.gram = k.gram)

/-! ### The Rasterizer (spec/43_raster.md) -/

/-- POINT: its window, the arm, its colour; thirteen codewords; the colour is the operand, not FG. -/
def Obligations.PointCompletes : Prop :=
  ∀ (x y c : Word16) (s : State), s.ready = true → s.pack.cnt < batch →
    let ws := frameWindow s.dev x y x y ++ [cmdCodeword s.dev.ramcmd, datCodeword (hiByte c), datCodeword (loByte c)]
    WordsOk s ws →
      exec (.point x y c) s =
        .next (respond .ok { sendAll s ws with
          plotTrace := s.plotTrace ++ [((x.toNat : Int), (y.toNat : Int), c)]
          win := { x0 := x, y0 := y, x1 := x, y1 := y }, asm := .ramStreaming })

/-- FILL, FRECT and CLEAR: the window, the arm, `(x1 - x0 + 1) × (y1 - y0 + 1)` copies of the colour, the restore of the full
screen; FRECT in FG, CLEAR over the whole screen. -/
def Obligations.FillOperationsComplete : Prop :=
  ∀ (x0 y0 x1 y1 c : Word16) (s : State), s.ready = true → s.pack.cnt < batch →
    let full : Window := { x0 := 0#16, y0 := 0#16, x1 := s.dev.width - 1#16, y1 := s.dev.height - 1#16 }
    let fill := fun (a b e f c : Word16) =>
      frameWindow s.dev a b e f ++ [cmdCodeword s.dev.ramcmd] ++
      (List.replicate ((e.toNat - a.toNat + 1) * (f.toNat - b.toNat + 1)) (frameData16 c)).flatten ++
      frameWindow s.dev 0#16 0#16 (s.dev.width - 1#16) (s.dev.height - 1#16) ++ [cmdCodeword s.dev.ramcmd]
    (x0.toNat ≤ x1.toNat → y0.toNat ≤ y1.toNat → WordsOk s (fill x0 y0 x1 y1 c) →
      exec (.fill x0 y0 x1 y1 c) s =
        .next (respond .ok { sendAll s (fill x0 y0 x1 y1 c) with win := full, asm := .ramStreaming })) ∧
    (x0.toNat ≤ x1.toNat → y0.toNat ≤ y1.toNat → WordsOk s (fill x0 y0 x1 y1 s.fg) →
      exec (.frect x0 y0 x1 y1) s =
        .next (respond .ok { sendAll s (fill x0 y0 x1 y1 s.fg) with win := full, asm := .ramStreaming })) ∧
    (s.dev.width ≠ 0#16 → s.dev.height ≠ 0#16 →
      WordsOk s (fill 0#16 0#16 (s.dev.width - 1#16) (s.dev.height - 1#16) c) →
      exec (.clear c) s =
        .next (respond .ok { sendAll s (fill 0#16 0#16 (s.dev.width - 1#16) (s.dev.height - 1#16) c) with
          win := full, asm := .ramStreaming }))

/-- LINE: the recurrence of the line engine plots, in order and in FG, the points of its closed form: after `k`
accumulations an axis of magnitude `m > 0` has stepped `⌈k × m / dist⌉ - 1` times. The line engine's registers are dead
afterwards (log 14). -/
def Obligations.LineCompletes : Prop :=
  ∀ (x1 y1 x2 y2 : Word16) (s : State), s.ready = true → s.pack.cnt < batch →
    let ds := drawPoints s.fg (linePoints (x1.toNat : Int) (y1.toNat : Int) (x2.toNat : Int) (y2.toNat : Int))
    WordsOk s (codewordsOf s.dev ds) →
      ∃ e : LineEngine, exec (.line x1 y1 x2 y2) s = .next (respond .ok { streamed s ds with line := e })

/-- What LINE plots: `dist + 1` points, none twice, the first `(x1, y1)`, the last `(x2, y2)`, each one within one step of the
one before it and the major axis stepping every time; all in FG. -/
def Obligations.LinePlotsOncePerStep : Prop :=
  ∀ (x1 y1 x2 y2 : Word16) (s t : State), s.ready = true → exec (.line x1 y1 x2 y2) s = .next t →
    t.respTrace = s.respTrace ++ [.ok] →
    let dx := ((x2.toNat : Int) - x1.toNat).natAbs
    let dy := ((y2.toNat : Int) - y1.toNat).natAbs
    ∃ ps : List (Int × Int),
      t.plotTrace = s.plotTrace ++ ps.map (fun p => (p.1, p.2, s.fg)) ∧
      ps.length = max dx dy + 1 ∧ ps.Nodup ∧
      ps.head? = some ((x1.toNat : Int), (y1.toNat : Int)) ∧ ps.getLast? = some ((x2.toNat : Int), (y2.toNat : Int)) ∧
      ∀ k p q, ps[k]? = some p → ps[k + 1]? = some q →
        (dy ≤ dx → (q.1 - p.1).natAbs = 1) ∧ (dx ≤ dy → (q.2 - p.2).natAbs = 1) ∧
        (q.1 - p.1).natAbs ≤ 1 ∧ (q.2 - p.2).natAbs ≤ 1

/-- RECT: the points of four lines, in the order top, left, bottom, right, in FG. -/
def Obligations.RectCompletes : Prop :=
  ∀ (x1 y1 x2 y2 : Word16) (s : State), s.ready = true → s.pack.cnt < batch →
    let a : Int := x1.toNat
    let b : Int := y1.toNat
    let c : Int := x2.toNat
    let d : Int := y2.toNat
    let ps := linePoints a b c b ++ linePoints a b a d ++ linePoints a d c d ++ linePoints c b c d
    WordsOk s (codewordsOf s.dev (drawPoints s.fg ps)) →
      ps.length = 2 * ((c - a).natAbs + 1) + 2 * ((d - b).natAbs + 1) ∧
      ∃ e : LineEngine, exec (.rect x1 y1 x2 y2) s =
        .next (respond .ok { streamed s (drawPoints s.fg ps) with line := e })

/-- CIRCLE, outline and filled: the iterations of the midpoint recurrence from `(0, r, 3 - 2r)`; each plots the eight
reflections of `(cx, cy)`, or of `(cx, yi)` for every `yi` from `cx` to `cy`, in order and in FG. -/
def Obligations.CircleCompletes : Prop :=
  ∀ (xc yc r : Word16) (filled : Bool) (s : State), s.ready = true → s.pack.cnt < batch →
    let ds := drawPoints s.fg (circlePoints (xc.toNat : Int) (yc.toNat : Int) r.toNat filled)
    WordsOk s (codewordsOf s.dev ds) →
      ∃ e : CircleEngine,
        exec (.circle xc yc r (if filled then 1#8 else 0#8)) s = .next (respond .ok { streamed s ds with circle := e })

/-- The circle's loop ends by itself within `r + 1` iterations, so the model's bound on them cuts nothing off (log 26), and
the set of points it plots is closed under the eight reflections about the centre. -/
def Obligations.CircleEndsAndIsSymmetric : Prop :=
  (∀ r n : Nat, r + 1 ≤ n → circleSteps n 0 r (3 - 2 * r) = circleSteps (r + 1) 0 r (3 - 2 * r)) ∧
  ∀ (xc yc : Int) (r : Nat) (filled : Bool) (u v : Int), (xc + u, yc + v) ∈ circlePoints xc yc r filled →
    (xc - u, yc + v) ∈ circlePoints xc yc r filled ∧ (xc + u, yc - v) ∈ circlePoints xc yc r filled ∧
    (xc + v, yc + u) ∈ circlePoints xc yc r filled

/-- spec/30_encoding.md section 3: how many codewords the composite frames have. -/
def Obligations.CompositeFrameLengths : Prop :=
  ∀ (d : DeviceState) (x y : Int) (c fc bc x0 y0 x1 y1 : Word16),
    (codewordsOf d (drawOpen x y x y)).length = 11 ∧
    (codewordsOf d [.plot x y c]).length = 13 ∧
    (codewordsOf d (drawFill d x0 y0 x1 y1 c)).length =
      22 + 2 * ((x1.toNat - x0.toNat + 1) * (y1.toNat - y0.toNat + 1)) ∧
    (∀ (w h : Nat) (bits : List Bool), bits.length = w * h →
      (codewordsOf d (drawBlock d x y w h fc bc bits)).length = 22 + 2 * (w * h)) ∧
    (∀ (w : Nat) (bits : List Bool),
      (codewordsOf d (drawSetBits x y w fc bits)).length = 13 * bits.countP (fun b => b)) ∧
    ∀ x' y' : Int, (codewordsOf d (drawPoints c (linePoints x y x' y'))).length =
      13 * (max (x' - x).natAbs (y' - y).natAbs + 1)

/-- spec/30_encoding.md section 8: the operations defined by expansion into others' effects. -/
def Obligations.PseudoOperationsExpand : Prop :=
  ∀ (x0 y0 x1 y1 c : Word16) (s : State), s.ready = true →
    exec (.frect x0 y0 x1 y1) s = exec (.fill x0 y0 x1 y1 s.fg) s ∧
    (s.dev.width ≠ 0#16 → s.dev.height ≠ 0#16 →
      exec (.clear c) s = exec (.fill 0#16 0#16 (s.dev.width - 1#16) (s.dev.height - 1#16) c) s) ∧
    ∀ (fc bc : Word16) (num : BitVec 32) (len size mode : Byte), 1 ≤ len.toNat → len.toNat ≤ 10 →
      exec (.number x0 y0 fc bc num len size mode) s =
        exec (.string x0 y0 fc bc size mode (numberString num.toNat len.toNat)) s

/-! ### Text (spec/44_text.md) -/

/-- CHAR: the glyph's cell in block or point mode where the cell fits the panel; clipped, it answers OK and draws nothing.
FG is as before. The text engine's registers are dead afterwards (log 14). -/
def Obligations.CharCompletes : Prop :=
  ∀ (x y fc bc : Word16) (ch size mode : Byte) (sz : AsciiSize) (s : State), s.ready = true → s.pack.cnt < batch →
    0x20 ≤ ch.toNat → ch.toNat ≤ 0x7E → size.toNat = asciiPx sz → mode.toNat ≤ 1 →
    (x.toNat + asciiPx sz / 2 ≤ s.dev.width.toNat ∧ y.toNat + asciiPx sz ≤ s.dev.height.toNat →
      let ds := drawChar s.board s.dev (x.toNat : Int) (y.toNat : Int) fc bc ch sz (mode.toNat = 1)
      WordsOk s (codewordsOf s.dev ds) →
        ∃ e : TextEngine, exec (.char x y fc bc ch size mode) s = .next (respond .ok { streamed s ds with text := e })) ∧
    (¬(x.toNat + asciiPx sz / 2 ≤ s.dev.width.toNat ∧ y.toNat + asciiPx sz ≤ s.dev.height.toNat) →
      exec (.char x y fc bc ch size mode) s = .next (respond .ok s))

/-- GLYPH: the bitmap of the first index entry that is the code, in block or point mode, where the cell fits; clipped or
unmatched, it answers OK and draws nothing. -/
def Obligations.GlyphCompletes : Prop :=
  ∀ (x y fc bc code : Word16) (size mode : Byte) (sz : WideSize) (s : State), s.ready = true → s.pack.cnt < batch →
    size.toNat = widePx sz → mode.toNat ≤ 1 →
    (x.toNat + widePx sz ≤ s.dev.width.toNat ∧ y.toNat + widePx sz ≤ s.dev.height.toNat →
      (code ∉ dbIndex s.board sz → exec (.glyph x y fc bc code size mode) s = .next (respond .ok s)) ∧
      ∀ k, scanIndex code (dbIndex s.board sz) = some k →
        let ds := drawGlyphBits s.dev (x.toNat : Int) (y.toNat : Int) (widePx sz) (widePx sz) fc bc (mode.toNat = 1)
          (bitmapBits (wideBitmap s.board sz k))
        WordsOk s (codewordsOf s.dev ds) →
          ∃ e : TextEngine,
            exec (.glyph x y fc bc code size mode) s = .next (respond .ok { streamed s ds with text := e })) ∧
    (¬(x.toNat + widePx sz ≤ s.dev.width.toNat ∧ y.toNat + widePx sz ≤ s.dev.height.toNat) →
      exec (.glyph x y fc bc code size mode) s = .next (respond .ok s))

/-- STRING and NUMBER: the characters of the string drawn in turn from the cursor on, and the final cursor; NUMBER's string
is its digits. FG is as before. -/
def Obligations.StringAndNumberComplete : Prop :=
  ∀ (x y fc bc : Word16) (size mode : Byte) (s : State), s.ready = true → s.pack.cnt < batch →
    size.toNat ∈ [12, 16, 24, 32] → mode.toNat ≤ 1 →
    let ds := fun bytes => drawString s.board s.dev fc bc size (mode.toNat = 1) (x.toNat : Int) bytes (x.toNat : Int)
      (y.toNat : Int)
    let cur := fun bytes => stringCursor s.dev size (x.toNat : Int) bytes (x.toNat : Int) (y.toNat : Int)
    (∀ bytes : List Byte, bytes.length ≤ 65535 → WordsOk s (codewordsOf s.dev (ds bytes)) →
      ∃ e : TextEngine, (e.tx, e.ty) = cur bytes ∧
        exec (.string x y fc bc size mode bytes) s = .next (respond .ok { streamed s (ds bytes) with text := e })) ∧
    ∀ (num : BitVec 32) (len : Byte), 1 ≤ len.toNat → len.toNat ≤ 10 →
      WordsOk s (codewordsOf s.dev (ds (numberString num.toNat len.toNat))) →
      ∃ e : TextEngine, (e.tx, e.ty) = cur (numberString num.toNat len.toNat) ∧
        exec (.number x y fc bc num len size mode) s =
          .next (respond .ok { streamed s (ds (numberString num.toNat len.toNat)) with text := e })

/-- The advance law, first form: a string of printable ASCII that fits its line moves the cursor right by half the size per
byte and not down. -/
def Obligations.AsciiStringAdvance : Prop :=
  ∀ (x y fc bc : Word16) (size mode : Byte) (bytes : List Byte) (s t : State), s.ready = true →
    size.toNat ∈ [12, 16, 24, 32] → mode.toNat ≤ 1 → bytes.length ≤ 65535 →
    (∀ b ∈ bytes, 0x20 ≤ b.toNat ∧ b.toNat ≤ 0x7E) →
    x.toNat + bytes.length * (size.toNat / 2) ≤ s.dev.width.toNat → y.toNat + size.toNat ≤ s.dev.height.toNat →
    exec (.string x y fc bc size mode bytes) s = .next t → t.respTrace = s.respTrace ++ [.ok] →
    t.text.tx = x.toNat + (bytes.length * (size.toNat / 2) : Nat) ∧ t.text.ty = y.toNat

/-- No text operation plots a point or opens a window off the panel, however it ends: the codewords it pushed begin the
codewords of its draws, the points it plotted begin their points, and each of those draws, and so each of those points, lies
on the panel. -/
def Obligations.TextStaysOnThePanel : Prop :=
  ∀ (i : Instr) (s t : State), engineOf i = .text → legal i s = true → exec i s = .next t →
    (∀ dr ∈ drawsOf i s, DrawOnPanel s.dev dr) ∧
    (∃ ws, t.cwTrace = s.cwTrace ++ ws ∧ ws <+: codewordsOf s.dev (drawsOf i s)) ∧
    ∃ ps, t.plotTrace = s.plotTrace ++ ps ∧ ps <+: (drawsOf i s).filterMap drawPlot ∧ ∀ p ∈ ps, OnPanel s.dev p.1 p.2.1

/-- R204, whole: the lookup finds the least entry that is the code, and fails exactly when there is none. -/
def Obligations.LookupFindsFirstEntry : Prop :=
  ∀ (code : Word16) (index : List Word16),
    (∀ k, scanIndex code index = some k ↔
      index[k]? = some code ∧ ∀ m, m < k → index[m]? ≠ some code) ∧
    (scanIndex code index = none ↔ code ∉ index)

/-- Glyph reads stay inside tables of the stated sizes (so that the free byte of log 22 is never read), and lie where the
layouts say: row `p` of an ASCII glyph is byte `(ch - 0x20) × s + p`; pixel `(p, q)` of a bitmap is bit `7 - q mod 8` of byte
`⌊q / 8⌋` of row `p`. -/
def Obligations.GlyphTablesAreReadAsLaidOut : Prop :=
  ∀ b : Board, b.wf = true →
    (∀ (sz : AsciiSize) (ch : Byte) (p t : Nat), 0x20 ≤ ch.toNat → ch.toNat ≤ 0x7E → p < asciiPx sz →
      t < asciiPx sz / 2 →
      ∃ row, (asciiFont b sz)[(ch.toNat - 0x20) * asciiPx sz + p]? = some row ∧
        (asciiBits b sz ch)[p * (asciiPx sz / 2) + t]? = some (row.getLsbD (7 - t))) ∧
    ∀ (sz : WideSize) (k p q : Nat), k < (dbIndex b sz).length → p < widePx sz → q < widePx sz →
      ∃ byte, (dbBitmap b sz)[k * (widePx sz * widePx sz / 8) + p * (widePx sz / 8) + q / 8]? = some byte ∧
        (bitmapBits (wideBitmap b sz k))[p * widePx sz + q]? = some (byte.getLsbD (7 - q % 8))

/-- The string NUMBER shows: `len` cells; a space in every cell before the first digit that is not 0 and before the units
digit, the decimal digit in every other. -/
def Obligations.NumberIsRightAlignedDecimal : Prop :=
  ∀ num len : Nat, 1 ≤ len → len ≤ 10 →
    (numberString num len).length = len ∧
    ∀ k, k < len →
      (numberString num len)[k]? =
        some (if k + 1 < len ∧ num % 10 ^ len < 10 ^ (len - 1 - k) then 0x20#8
          else BitVec.ofNat 8 (0x30 + num / 10 ^ (len - 1 - k) % 10))

/-! ### The system operations (spec/45_system.md) -/

/-- INIT: E_ARG for a wrong orientation; READY cleared; E_OPEN if the transport does not open; else CS selected,
RESET asserted and released, the Pack Buffer empty, ASM Idle, the device state of the orientation (R231), the initialization
sequence, BACKLIGHT on, READY set; E_XFER with READY 0 if a transfer of the sequence fails. FG and BG are not touched. Four
things are the model's own: RESET makes the reference sink lose its command context and leaves its ranges and GRAM (log 21),
an INIT answered E_ARG leaves READY as it is (log 28), the marks of the codewords lost are dropped with
them (log 29), the sink reads the data entries of the sequence, which are not marked, as it reads other data (log 30). -/
def Obligations.InitOperation : Prop :=
  ∀ (b : Byte) (s : State),
    encode (.init b) = .bytes [0x50#8, b] ∧
    (1 < b.toNat → exec (.init b) s = .next (respond .eArg s)) ∧
    ∀ o : Orient, b.toNat = orientBit o →
      let cfg := match o with | .portrait => s.board.portrait | .landscape => s.board.landscape
      let seq := match o with | .portrait => s.board.initPortrait | .landscape => s.board.initLandscape
      let ds := seq.map fun it => Draw.raw (BitVec.ofNat 9 ((if it.1 = .reg then 0 else 0x100) + it.2.toNat))
      let opened := { s with ready := false, openCalls := s.openCalls + 1 }
      let u := { opened with
        gpioTrace := s.gpioTrace ++ [(.cs, .selected), (.reset, .asserted), (.reset, .released)]
        sink := sinkReset s.sink
        pack := { s.pack with acc := 0#32, nbits := 0, cnt := 0, outcnt := 0 }
        strays := []
        asm := .idle
        dev := { width := cfg.width, height := cfg.height, orient := o, ramcmd := cfg.ramcmd, colcmd := cfg.colcmd,
                 rowcmd := cfg.rowcmd } }
      (openStatus s.board s.openCalls < 0 → exec (.init b) s = .next (respond .eOpen opened)) ∧
      (0 ≤ openStatus s.board s.openCalls → WordsOk u (codewordsOf u.dev ds) →
        exec (.init b) s = .next (respond .ok
          { streamed u ds with ready := true, gpioTrace := u.gpioTrace ++ [(.backlight, .on)] })) ∧
      ∀ j, 0 ≤ openStatus s.board s.openCalls → FirstFailure u (codewordsOf u.dev ds) j →
        exec (.init b) s = .next (respond .eXfer (cutShort u ds j))

/-- R242, whole: a transport that does not open: INIT answers E_OPEN, READY is 0, no line is driven, nothing is pushed, no
device state is loaded; and READY stays 0, every gated operation answering E_OPEN, until an INIT answers OK. -/
def Obligations.OpenFailureIsFatalUntilInit : Prop :=
  (∀ (b : Byte) (s : State), b.toNat ≤ 1 → openStatus s.board s.openCalls < 0 →
    ∃ t, exec (.init b) s = .next t ∧ t.respTrace = s.respTrace ++ [.eOpen] ∧ t.ready = false ∧
      t.gpioTrace = s.gpioTrace ∧ t.cwTrace = s.cwTrace ∧ t.dev = s.dev) ∧
  (∀ (i : Instr) (s : State), ungated i = false → s.ready = false →
    ∃ t, exec i s = .next t ∧ t.respTrace = s.respTrace ++ [.eOpen]) ∧
  ∀ (i : Instr) (s t : State), s.ready = false → exec i s = .next t → t.ready = true →
    isInit i = true ∧ t.respTrace = s.respTrace ++ [.ok]

/-- R232, whole: SETCOLORS writes FG and BG and nothing else, READY or not, and cannot fail. -/
def Obligations.SetcolorsOperation : Prop :=
  ∀ (fg bg : Word16) (s : State),
    encode (.setcolors fg bg) = .bytes [0x51#8, fg.extractLsb' 8 8, fg.extractLsb' 0 8, bg.extractLsb' 8 8,
      bg.extractLsb' 0 8] ∧
    exec (.setcolors fg bg) s = .next (respond .ok { s with fg := fg, bg := bg })

/-! ### A failed transfer (spec/60_exceptions.md R243, R244, R250) -/

/-- Whatever the operation, the first failing transfer ends it with E_XFER: of its codewords exactly those up to and with the
last of the failed batch were pushed; the points of the draws begun are plotted, WIN is that of the last window completed,
ASM is Idle; FG, BG, READY, the device state and the lines are as before. Only the operation's own engine registers, which
are dead, may differ (log 14). INIT and TEARDOWN have statements of their own. -/
def Obligations.FailedTransferCutsShort : Prop :=
  ∀ (i : Instr) (s : State) (j : Nat), ungated i = false → isTeardown i = false → s.ready = true →
    s.pack.cnt < batch → legal i s = true → FirstFailure s (codewordsOf s.dev (drawsOf i s)) j →
    ∃ (l : LineEngine) (c : CircleEngine) (x : TextEngine),
      exec i s = .next (respond .eXfer { cutShort s (drawsOf i s) j with line := l, circle := c, text := x }) ∧
      (engineOf i ≠ .line → l = s.line) ∧ (engineOf i ≠ .circle → c = s.circle) ∧ (engineOf i ≠ .text → x = s.text)

/-- The state after any operation that answered E_XFER: the Pack Buffer empty, ASM Idle, the last transfer a failed one, FG
and BG as before; READY 0 after INIT and TEARDOWN and as before otherwise; device state and lines as before but for what
INIT had already written. Of the reference sink no pixel keeps a value and the next batch may be misread (log 19). -/
def Obligations.AbortLeavesAnEmptyPackBuffer : Prop :=
  ∀ (i : Instr) (s t : State), exec i s = .next t → t.respTrace = s.respTrace ++ [.eXfer] →
    (t.pack.cnt = 0 ∧ t.pack.outcnt = 0 ∧ t.pack.acc = 0#32 ∧ t.pack.nbits = 0) ∧ t.asm = .idle ∧
    (∃ words st, t.xferTrace.getLast? = some (words, st) ∧ st < 0) ∧ t.fg = s.fg ∧ t.bg = s.bg ∧
    (isInit i = false → isTeardown i = false → t.ready = s.ready) ∧
    (isInit i = true ∨ isTeardown i = true → t.ready = false) ∧
    (isInit i = false → t.dev = s.dev ∧ t.gpioTrace = s.gpioTrace) ∧
    t.strays = [] ∧ t.sink.gram = [] ∧ t.sink.misread = true

/-! ### The Pack Buffer and the transport -/

/-- R126, whole: no operation of a caller reaches an overfull batch, wherever CNT is below 1024; met all the same, a push
that begins with the batch full faults and does not wrap. -/
def Obligations.BatchIsNeverOverfull : Prop :=
  (∀ (i : Instr) (s : State), s.pack.cnt < 1024 → ∃ t, exec i s = .next t ∧ t.pack.cnt < 1024) ∧
  (∀ (c : Carrier) (s : State), 1024 ≤ s.pack.cnt → push c s = .overfull s) ∧
  ∀ (c : Carrier) (s : State), s.ready = true → 1024 ≤ s.pack.cnt → exec (.push c) s = .fault .batchOverfull

/-- R127, whole: 1024 codewords pushed into an empty Pack Buffer make exactly one transfer, at the last push, of 576 words
that unpack to those codewords. -/
def Obligations.BatchRoundTrip : Prop :=
  ∀ (cs : List Carrier) (s : State), cs.length = 1024 →
    s.pack.cnt = 0 → s.pack.outcnt = 0 → s.pack.nbits = 0 → s.pack.acc = 0#32 →
    ∃ words : List Word16, words.length = 576 ∧ unpackBatch words = cs.map codewordOf ∧
      (forEach (cs.take 1023) push s).state.xferTrace = s.xferTrace ∧
      (forEach cs push s).state.xferTrace = s.xferTrace ++ [(words, xferStatus s.board s.xferCalls)] ∧
      (forEach cs push s).state.pack.cnt = 0

/-- The layout of a batch in closed form: bit `15 - m` of word `j` is stream bit `16j + m`, bit `8 - k` of codeword `i` is
stream bit `9i + k`. -/
def Obligations.BatchLayoutInClosedForm : Prop :=
  ∀ (p : PackBuffer) (ws : List Codeword), ws.length = 1024 →
    p.cnt = 0 → p.outcnt = 0 → p.nbits = 0 → p.acc = 0#32 →
    ∃ words : List Word16, batchesOf p ws = [words] ∧ words.length = 576 ∧
      ∀ (i k : Nat) (cw : Codeword), ws[i]? = some cw → k < 9 →
        ∃ w, words[(9 * i + k) / 16]? = some w ∧ w.getLsbD (15 - (9 * i + k) % 16) = cw.getLsbD (8 - k)

/-- The invariants of the Pack Buffer hold after every step from a state where they hold. -/
def Obligations.PackInvariantKept : Prop :=
  ∀ s t : State, PackInv s → step s = .next t → PackInv t

/-- They hold after reset. -/
def Obligations.PackInvariantAtReset : Prop := PackInv State.reset

/-- What reaches the transport is the packing of what was pushed: of the codewords an operation pushes (INIT and TEARDOWN
apart, which empty the Pack Buffer) none is reordered, merged or dropped; the batches they fill are handed over in the order
they fill, failed or not, and the rest is pending. -/
def Obligations.TransfersArePackingOfTrace : Prop :=
  ∀ (i : Instr) (s t : State), isInit i = false → isTeardown i = false → s.pack.cnt < batch → exec i s = .next t →
    ∃ ws, t.cwTrace = s.cwTrace ++ ws ∧ t.pack = packAll s.pack ws ∧
      t.xferTrace.map Prod.fst = s.xferTrace.map Prod.fst ++ batchesOf s.pack ws ∧
      t.xferCalls = s.xferCalls + (batchesOf s.pack ws).length

/-- R66: the 576 words handed to the transport, as its byte buffer: word `j` in bytes `2j` and `2j + 1`, high byte first under
`big`, the order of this hardware, the reverse under `little`. Under `big` the bytes in index order are the bit stream. -/
def Obligations.TransferBufferLayout : Prop :=
  (∀ (words : List Word16) (j : Nat) (w : Word16), words[j]? = some w →
    (transferBytes .big words)[2 * j]? = some (w.extractLsb' 8 8) ∧
    (transferBytes .big words)[2 * j + 1]? = some (w.extractLsb' 0 8) ∧
    (transferBytes .little words)[2 * j]? = some (w.extractLsb' 0 8) ∧
    (transferBytes .little words)[2 * j + 1]? = some (w.extractLsb' 8 8)) ∧
  (∀ words : List Word16, (transferBytes .big words).flatMap bitsOf = words.flatMap bitsOf) ∧
  (∀ s : State, (flush s).state.xferBuf = transferBytes s.policy.byteOrder s.pack.out.toList ∧
    (flush s).state.xferBuf.length = 1152) ∧
  State.reset.policy.byteOrder = .big

/-- The ports stay in form in every step: each transfer is 576 words, its buffer 1152 bytes, one entry of XFERTRACE a call;
GRAM of the reference sink keeps its canonical form (log 23), and every mark of log 29 stands for a pending codeword. -/
def Obligations.PortInvariantKept : Prop :=
  ∀ s t : State, PortInv s → step s = .next t → PortInv t

/-- They are in form after reset; the transfer buffer's 1152 zero bytes are the model's choice (log 25). -/
def Obligations.PortInvariantAtReset : Prop := PortInv State.reset

/-! ### Registers, status, reset -/

/-- Who writes what: the device state, the lines and Open() belong to INIT; FG and BG, over a whole operation, to SETCOLORS;
READY to INIT and TEARDOWN; each engine's registers to the operations that run on it; WIN to those that open a window. An
operation that sends data alone leaves ASM, but for its abort; one that pushes no codeword leaves ASM, WIN, the Pack Buffer
and the transport's side as they are, INIT and TEARDOWN apart. The requests and the parameters belong to none. -/
def Obligations.RegistersHaveTheirWriters : Prop :=
  ∀ (i : Instr) (s t : State), exec i s = .next t →
    (isInit i = false → t.dev = s.dev ∧ t.gpioTrace = s.gpioTrace ∧ t.openCalls = s.openCalls) ∧
    (isSetcolors i = false → t.fg = s.fg ∧ t.bg = s.bg) ∧
    (isInit i = false → isTeardown i = false → t.ready = s.ready) ∧
    (engineOf i ≠ .line → t.line = s.line) ∧ (engineOf i ≠ .circle → t.circle = s.circle) ∧
    (engineOf i ≠ .text → t.text = s.text) ∧
    (opensWindow i = false → t.win = s.win) ∧
    (sendsDataOnly i = true → t.asm = s.asm ∨ t.respTrace = s.respTrace ++ [.eXfer] ∧ t.asm = .idle) ∧
    (isInit i = false → isTeardown i = false → t.cwTrace = s.cwTrace →
      t.asm = s.asm ∧ t.win = s.win ∧ t.pack = s.pack ∧ t.xferBuf = s.xferBuf ∧ t.xferCalls = s.xferCalls ∧
      t.xferTrace = s.xferTrace ∧ t.strays = s.strays ∧ t.sink = s.sink) ∧
    t.requests = s.requests ∧ t.board = s.board ∧ t.policy = s.policy

/-- Every engine register stays within the 32 bits of an `int`, from any state where it is. -/
def Obligations.EngineRegistersStayInRange : Prop :=
  ∀ s t : State, EngineInv s → step s = .next t → EngineInv t

/-- So they are after reset, where the model gives each 0 (log 8). -/
def Obligations.EngineRegistersInRangeAtReset : Prop := EngineInv State.reset

/-- The status codes and the response byte, in two's complement. -/
def Obligations.StatusCodes : Prop :=
  statusValue .ok = 0 ∧ statusValue .eXfer = -1 ∧ statusValue .eOpen = -2 ∧ statusValue .eArg = -3 ∧
  ∀ st, (statusByte st).toInt = statusValue st

/-- R45, whole: what the spec states of the state after reset. Of what it leaves unspecified nothing is said here but that FG
and BG are the parameters FG_RESET and BG_RESET. -/
def Obligations.ResetState : Prop :=
  State.reset.pack.acc = 0#32 ∧ State.reset.pack.nbits = 0 ∧ State.reset.pack.cnt = 0 ∧ State.reset.pack.outcnt = 0 ∧
  State.reset.asm = .idle ∧ State.reset.ready = false ∧
  State.reset.fg = State.reset.board.fgReset ∧ State.reset.bg = State.reset.board.bgReset ∧
  State.reset.cwTrace = [] ∧ State.reset.xferTrace = [] ∧ State.reset.plotTrace = []

/-- ASM, WIN, BG, the engine registers between operations, the traces, the marks and the sink decide nothing: two states that
differ in these alone answer every operation alike, push the same codewords, make the same transfers, drive the same lines,
and again differ in these alone. -/
def Obligations.UnreadStateDecidesNothing : Prop :=
  ∀ (i : Instr) (s t s' : State), Safety.core s = Safety.core t → exec i s = .next s' →
    ∃ t', exec i t = .next t' ∧ Safety.core s' = Safety.core t' ∧
      ∃ cws xs gs rs, Emitted s s' cws xs gs rs ∧ Emitted t t' cws xs gs rs

/-! ### What the reference sink shows (spec/20_memory.md section 7; the sink is outside the block, log 18)

`sinkRead` is the automaton of R81, with no pixel keeping a value after a codeword whose effect U5 or U6 refuses to define
(log 20): the pixel claims are about windows on the panel (spec/70_reset_and_hazards.md section 3), from a sink with no half
pixel pending. -/

/-- The thirteen codewords of a plot on the panel, whatever command the sink was in, write exactly the pixel `(x, y)`, in
either orientation. -/
def Obligations.SinkShowsPoint : Prop :=
  ∀ (o : SinkOrder) (d : DeviceState) (k : Sink) (x y c : Word16),
    d.colcmd ≠ d.rowcmd → d.ramcmd ≠ d.colcmd → d.ramcmd ≠ d.rowcmd → gramWf k.gram = true → k.hb = none →
    DrawOnPanel d (.plot (zext x) (zext y) c) →
    ∀ a, gramRead ((drawCodewords d (.plot (zext x) (zext y) c)).foldl (sinkRead o d) k).gram a =
      if a = gramAddr x.toNat y.toNat then some c else gramRead k.gram a

/-- The codewords of a fill on the panel write exactly the pixels of the rectangle, whatever the fill order, and the restore
writes none. -/
def Obligations.SinkShowsFill : Prop :=
  ∀ (o : SinkOrder) (d : DeviceState) (k : Sink) (x0 y0 x1 y1 c : Word16),
    d.colcmd ≠ d.rowcmd → d.ramcmd ≠ d.colcmd → d.ramcmd ≠ d.rowcmd → gramWf k.gram = true → k.hb = none →
    DrawOnPanel d (.setWindow (zext x0) (zext y0) (zext x1) (zext y1)) →
    ∀ x y : Nat, x < 65536 → y < 65536 →
      gramRead ((codewordsOf d (drawFill d x0 y0 x1 y1 c)).foldl (sinkRead o d) k).gram (gramAddr x y) =
        if x0.toNat ≤ x ∧ x ≤ x1.toNat ∧ y0.toNat ≤ y ∧ y ≤ y1.toNat then some c else gramRead k.gram (gramAddr x y)

/-- A block-mode glyph whose cell lies on the panel appears upright under the row-major order of this hardware's reference
sink: pixel `(col, row)` of its cell has the foreground colour where the bit of that pixel is set, else the background
colour; nothing outside the cell changes. -/
def Obligations.SinkShowsBlockGlyph : Prop :=
  ∀ (d : DeviceState) (k : Sink) (x y w h : Nat) (fc bc : Word16) (bits : List Bool),
    d.colcmd ≠ d.rowcmd → d.ramcmd ≠ d.colcmd → d.ramcmd ≠ d.rowcmd → gramWf k.gram = true → k.hb = none →
    DrawOnPanel d (.setWindow x y (x + w - 1) (y + h - 1)) → bits.length = w * h →
    ∀ u v : Nat, u < 65536 → v < 65536 →
      gramRead ((codewordsOf d (drawBlock d x y w h fc bc bits)).foldl (sinkRead .rowMajor d) k).gram (gramAddr u v) =
        if x ≤ u ∧ u < x + w ∧ y ≤ v ∧ v < y + h then
          some (if bits.getD ((v - y) * w + (u - x)) false then fc else bc)
        else gramRead k.gram (gramAddr u v)

/-- What nothing may be claimed about holds no value in GRAM. An operation that keeps the window duty marks no codeword, and
neither do INIT and TEARDOWN, whose data entries (log 30) and padding (log 32) are not the host's; one that breaks it marks
each codeword it pushes, and pushes it all the same. A batch with a marked codeword leaves what the
rest of the batch makes of an empty GRAM in a window and mode that are free (log 29). A failed batch, and the batch after
it whatever it holds, leave an empty GRAM and a free window and mode (log 19). -/
def Obligations.UndefinedPixelsHoldNoValue : Prop :=
  (∀ (i : Instr) (s t : State), keepsWindowDuty i s = true → exec i s = .next t →
    t.strays = s.strays ∨ t.strays = []) ∧
  (∀ (i : Instr) (s t : State), s.ready = true → s.pack.cnt + 2 < batch → keepsWindowDuty i s = false →
    exec i s = .next t →
    t.cwTrace = s.cwTrace ++ codewordsOf s.dev (drawsOf i s) ∧ 0 < (codewordsOf s.dev (drawsOf i s)).length ∧
    t.pack = packAll s.pack (codewordsOf s.dev (drawsOf i s)) ∧
    t.strays = s.strays ++ (List.range (codewordsOf s.dev (drawsOf i s)).length).map fun j => s.pack.cnt + j) ∧
  (∀ (words : List Word16) (st : Int) (s : State) (i : Nat), 0 ≤ st → s.sink.misread = false → i ∈ s.strays →
    i < (unpackBatch words).length →
    (transferred words st s).sink =
      ((unpackBatch words).zipIdx.drop (i + 1)).foldl (sinkTake s.xferCalls s.policy.sinkOrder s.dev s.strays)
        { s.sink with toSinkContext := strayContext s.xferCalls i, gram := [] }) ∧
  ∀ (words : List Word16) (st : Int) (s : State), st < 0 ∨ s.sink.misread = true →
    (transferred words st s).sink =
      { toSinkContext := strayContext s.xferCalls 1024, gram := [], misread := decide (st < 0) }
end

