-- ==== Sys2Proof/Laws/Bits.lean ====
section
/-! SUPPORT. Bit fields: splitting and joining bytes and codewords (spec/30_encoding.md R90 to R92, R102). -/

namespace Sys2Proof.Machine

open Sys2Proof.Config

theorem hiByte_toNat (w : Word16) : (hiByte w).toNat = w.toNat / 256 := by
  have h := w.isLt
  simp only [hiByte, BitVec.extractLsb'_toNat, Nat.shiftRight_eq_div_pow]
  exact Nat.mod_eq_of_lt (by omega)

theorem loByte_toNat (w : Word16) : (loByte w).toNat = w.toNat % 256 := by
  simp only [loByte, BitVec.extractLsb'_toNat, Nat.shiftRight_zero]

theorem be16_toNat (h l : Byte) : (be16 h l).toNat = 256 * h.toNat + l.toNat := by
  have e : (be16 h l).toNat = h.toNat <<< 8 ||| l.toNat := BitVec.toNat_append (x := h) (y := l)
  rw [e, ← Nat.shiftLeft_add_eq_or_of_lt l.isLt, Nat.shiftLeft_eq, Nat.mul_comm]

@[simp] theorem be16_hi_lo (w : Word16) : be16 (hiByte w) (loByte w) = w := by
  apply BitVec.eq_of_toNat_eq
  rw [be16_toNat, hiByte_toNat, loByte_toNat]
  omega

@[simp] theorem hiByte_be16 (h l : Byte) : hiByte (be16 h l) = h :=
  BitVec.extractLsb'_append_eq_left (a := h) (b := l)

@[simp] theorem loByte_be16 (h l : Byte) : loByte (be16 h l) = l :=
  BitVec.extractLsb'_append_eq_right (a := h) (b := l)

theorem byte32_toNat (v : BitVec 32) (i : Nat) : (byte32 v i).toNat = v.toNat / 256 ^ i % 256 := by
  simp only [byte32, BitVec.extractLsb'_toNat, Nat.shiftRight_eq_div_pow, pow_mul]
  rfl

theorem be32_toNat (a b c d : Byte) : (be32 a b c d).toNat = 65536 * (be16 a b).toNat + (be16 c d).toNat := by
  have e : (be32 a b c d).toNat = (be16 a b).toNat <<< 16 ||| (be16 c d).toNat :=
    BitVec.toNat_append (x := be16 a b) (y := be16 c d)
  rw [e, ← Nat.shiftLeft_add_eq_or_of_lt (be16 c d).isLt, Nat.shiftLeft_eq]
  omega

@[simp] theorem be32_bytes (v : BitVec 32) : be32 (byte32 v 3) (byte32 v 2) (byte32 v 1) (byte32 v 0) = v := by
  apply BitVec.eq_of_toNat_eq
  have h := v.isLt
  simp only [be32_toNat, be16_toNat, byte32_toNat]
  omega

theorem codeword_append_msb (x : BitVec 1) (b : Byte) (i : Nat) :
    (x ++ b : BitVec (1 + 8)).getLsbD i = if i < 8 then b.getLsbD i else x.getLsbD (i - 8) :=
  BitVec.getLsbD_append

@[simp] theorem isData_cmdCodeword (b : Byte) : isData (cmdCodeword b) = false :=
  (codeword_append_msb 0#1 b 8).trans rfl

@[simp] theorem isData_datCodeword (b : Byte) : isData (datCodeword b) = true :=
  (codeword_append_msb 1#1 b 8).trans rfl

@[simp] theorem payload_cmdCodeword (b : Byte) : payload (cmdCodeword b) = b :=
  BitVec.extractLsb'_append_eq_right (a := 0#1) (b := b)

@[simp] theorem payload_datCodeword (b : Byte) : payload (datCodeword b) = b :=
  BitVec.extractLsb'_append_eq_right (a := 1#1) (b := b)

@[simp] theorem bitsOf_length {n : Nat} (v : BitVec n) : (bitsOf v).length = n := by
  simp [bitsOf]

end Sys2Proof.Machine
end

