-- ==== Sys2Proof/Laws/State.lean ====
section
/-! SUPPORT. One lemma per field per named state update: what each update writes and what it leaves, so that no later proof
unfolds a record update. -/

namespace Sys2Proof.Machine

/-! ### respond -/

@[simp] theorem respond_pack (st : Status) (s : State) : (respond st s).pack = s.pack := rfl

@[simp] theorem respond_asm (st : Status) (s : State) : (respond st s).asm = s.asm := rfl

@[simp] theorem respond_win (st : Status) (s : State) : (respond st s).win = s.win := rfl

@[simp] theorem respond_dev (st : Status) (s : State) : (respond st s).dev = s.dev := rfl

@[simp] theorem respond_fg (st : Status) (s : State) : (respond st s).fg = s.fg := rfl

@[simp] theorem respond_bg (st : Status) (s : State) : (respond st s).bg = s.bg := rfl

@[simp] theorem respond_ready (st : Status) (s : State) : (respond st s).ready = s.ready := rfl

@[simp] theorem respond_line (st : Status) (s : State) : (respond st s).line = s.line := rfl

@[simp] theorem respond_circle (st : Status) (s : State) : (respond st s).circle = s.circle := rfl

@[simp] theorem respond_text (st : Status) (s : State) : (respond st s).text = s.text := rfl

@[simp] theorem respond_board (st : Status) (s : State) : (respond st s).board = s.board := rfl

@[simp] theorem respond_policy (st : Status) (s : State) : (respond st s).policy = s.policy := rfl

@[simp] theorem respond_requests (st : Status) (s : State) : (respond st s).requests = s.requests := rfl

@[simp] theorem respond_xferBuf (st : Status) (s : State) : (respond st s).xferBuf = s.xferBuf := rfl

@[simp] theorem respond_xferCalls (st : Status) (s : State) : (respond st s).xferCalls = s.xferCalls := rfl

@[simp] theorem respond_openCalls (st : Status) (s : State) : (respond st s).openCalls = s.openCalls := rfl

@[simp] theorem respond_cwTrace (st : Status) (s : State) : (respond st s).cwTrace = s.cwTrace := rfl

@[simp] theorem respond_xferTrace (st : Status) (s : State) : (respond st s).xferTrace = s.xferTrace := rfl

@[simp] theorem respond_plotTrace (st : Status) (s : State) : (respond st s).plotTrace = s.plotTrace := rfl

@[simp] theorem respond_gpioTrace (st : Status) (s : State) : (respond st s).gpioTrace = s.gpioTrace := rfl

@[simp] theorem respond_respTrace (st : Status) (s : State) : (respond st s).respTrace = s.respTrace ++ [st] := rfl

@[simp] theorem respond_sink (st : Status) (s : State) : (respond st s).sink = s.sink := rfl

@[simp] theorem respond_strays (st : Status) (s : State) : (respond st s).strays = s.strays := rfl

/-! ### takeAbort -/

@[simp] theorem takeAbort_pack (s : State) : (takeAbort s).pack = s.pack := rfl

@[simp] theorem takeAbort_asm (s : State) : (takeAbort s).asm = .idle := rfl

@[simp] theorem takeAbort_win (s : State) : (takeAbort s).win = s.win := rfl

@[simp] theorem takeAbort_dev (s : State) : (takeAbort s).dev = s.dev := rfl

@[simp] theorem takeAbort_fg (s : State) : (takeAbort s).fg = s.fg := rfl

@[simp] theorem takeAbort_bg (s : State) : (takeAbort s).bg = s.bg := rfl

@[simp] theorem takeAbort_ready (s : State) : (takeAbort s).ready = s.ready := rfl

@[simp] theorem takeAbort_line (s : State) : (takeAbort s).line = s.line := rfl

@[simp] theorem takeAbort_circle (s : State) : (takeAbort s).circle = s.circle := rfl

@[simp] theorem takeAbort_text (s : State) : (takeAbort s).text = s.text := rfl

@[simp] theorem takeAbort_board (s : State) : (takeAbort s).board = s.board := rfl

@[simp] theorem takeAbort_policy (s : State) : (takeAbort s).policy = s.policy := rfl

@[simp] theorem takeAbort_requests (s : State) : (takeAbort s).requests = s.requests := rfl

@[simp] theorem takeAbort_xferBuf (s : State) : (takeAbort s).xferBuf = s.xferBuf := rfl

@[simp] theorem takeAbort_xferCalls (s : State) : (takeAbort s).xferCalls = s.xferCalls := rfl

@[simp] theorem takeAbort_openCalls (s : State) : (takeAbort s).openCalls = s.openCalls := rfl

@[simp] theorem takeAbort_cwTrace (s : State) : (takeAbort s).cwTrace = s.cwTrace := rfl

@[simp] theorem takeAbort_xferTrace (s : State) : (takeAbort s).xferTrace = s.xferTrace := rfl

@[simp] theorem takeAbort_plotTrace (s : State) : (takeAbort s).plotTrace = s.plotTrace := rfl

@[simp] theorem takeAbort_gpioTrace (s : State) : (takeAbort s).gpioTrace = s.gpioTrace := rfl

@[simp] theorem takeAbort_respTrace (s : State) : (takeAbort s).respTrace = s.respTrace ++ [.eXfer] := rfl

@[simp] theorem takeAbort_sink (s : State) : (takeAbort s).sink = s.sink := rfl

@[simp] theorem takeAbort_strays (s : State) : (takeAbort s).strays = s.strays := rfl

/-! ### takeRequest -/

@[simp] theorem takeRequest_pack (s : State) : (takeRequest s).pack = s.pack := rfl

@[simp] theorem takeRequest_asm (s : State) : (takeRequest s).asm = s.asm := rfl

@[simp] theorem takeRequest_win (s : State) : (takeRequest s).win = s.win := rfl

@[simp] theorem takeRequest_dev (s : State) : (takeRequest s).dev = s.dev := rfl

@[simp] theorem takeRequest_fg (s : State) : (takeRequest s).fg = s.fg := rfl

@[simp] theorem takeRequest_bg (s : State) : (takeRequest s).bg = s.bg := rfl

@[simp] theorem takeRequest_ready (s : State) : (takeRequest s).ready = s.ready := rfl

@[simp] theorem takeRequest_line (s : State) : (takeRequest s).line = s.line := rfl

@[simp] theorem takeRequest_circle (s : State) : (takeRequest s).circle = s.circle := rfl

@[simp] theorem takeRequest_text (s : State) : (takeRequest s).text = s.text := rfl

@[simp] theorem takeRequest_board (s : State) : (takeRequest s).board = s.board := rfl

@[simp] theorem takeRequest_policy (s : State) : (takeRequest s).policy = s.policy := rfl

@[simp] theorem takeRequest_requests (s : State) : (takeRequest s).requests = s.requests.tail := rfl

@[simp] theorem takeRequest_xferBuf (s : State) : (takeRequest s).xferBuf = s.xferBuf := rfl

@[simp] theorem takeRequest_xferCalls (s : State) : (takeRequest s).xferCalls = s.xferCalls := rfl

@[simp] theorem takeRequest_openCalls (s : State) : (takeRequest s).openCalls = s.openCalls := rfl

@[simp] theorem takeRequest_cwTrace (s : State) : (takeRequest s).cwTrace = s.cwTrace := rfl

@[simp] theorem takeRequest_xferTrace (s : State) : (takeRequest s).xferTrace = s.xferTrace := rfl

@[simp] theorem takeRequest_plotTrace (s : State) : (takeRequest s).plotTrace = s.plotTrace := rfl

@[simp] theorem takeRequest_gpioTrace (s : State) : (takeRequest s).gpioTrace = s.gpioTrace := rfl

@[simp] theorem takeRequest_respTrace (s : State) : (takeRequest s).respTrace = s.respTrace := rfl

@[simp] theorem takeRequest_sink (s : State) : (takeRequest s).sink = s.sink := rfl

@[simp] theorem takeRequest_strays (s : State) : (takeRequest s).strays = s.strays := rfl

/-! ### countOpen -/

@[simp] theorem countOpen_pack (s : State) : (countOpen s).pack = s.pack := rfl

@[simp] theorem countOpen_asm (s : State) : (countOpen s).asm = s.asm := rfl

@[simp] theorem countOpen_win (s : State) : (countOpen s).win = s.win := rfl

@[simp] theorem countOpen_dev (s : State) : (countOpen s).dev = s.dev := rfl

@[simp] theorem countOpen_fg (s : State) : (countOpen s).fg = s.fg := rfl

@[simp] theorem countOpen_bg (s : State) : (countOpen s).bg = s.bg := rfl

@[simp] theorem countOpen_ready (s : State) : (countOpen s).ready = s.ready := rfl

@[simp] theorem countOpen_line (s : State) : (countOpen s).line = s.line := rfl

@[simp] theorem countOpen_circle (s : State) : (countOpen s).circle = s.circle := rfl

@[simp] theorem countOpen_text (s : State) : (countOpen s).text = s.text := rfl

@[simp] theorem countOpen_board (s : State) : (countOpen s).board = s.board := rfl

@[simp] theorem countOpen_policy (s : State) : (countOpen s).policy = s.policy := rfl

@[simp] theorem countOpen_requests (s : State) : (countOpen s).requests = s.requests := rfl

@[simp] theorem countOpen_xferBuf (s : State) : (countOpen s).xferBuf = s.xferBuf := rfl

@[simp] theorem countOpen_xferCalls (s : State) : (countOpen s).xferCalls = s.xferCalls := rfl

@[simp] theorem countOpen_openCalls (s : State) : (countOpen s).openCalls = s.openCalls + 1 := rfl

@[simp] theorem countOpen_cwTrace (s : State) : (countOpen s).cwTrace = s.cwTrace := rfl

@[simp] theorem countOpen_xferTrace (s : State) : (countOpen s).xferTrace = s.xferTrace := rfl

@[simp] theorem countOpen_plotTrace (s : State) : (countOpen s).plotTrace = s.plotTrace := rfl

@[simp] theorem countOpen_gpioTrace (s : State) : (countOpen s).gpioTrace = s.gpioTrace := rfl

@[simp] theorem countOpen_respTrace (s : State) : (countOpen s).respTrace = s.respTrace := rfl

@[simp] theorem countOpen_sink (s : State) : (countOpen s).sink = s.sink := rfl

@[simp] theorem countOpen_strays (s : State) : (countOpen s).strays = s.strays := rfl

/-! ### gpioSet -/

@[simp] theorem gpioSet_pack (l : GpioLine) (v : GpioLevel) (s : State) : (gpioSet l v s).pack = s.pack := rfl

@[simp] theorem gpioSet_asm (l : GpioLine) (v : GpioLevel) (s : State) : (gpioSet l v s).asm = s.asm := rfl

@[simp] theorem gpioSet_win (l : GpioLine) (v : GpioLevel) (s : State) : (gpioSet l v s).win = s.win := rfl

@[simp] theorem gpioSet_dev (l : GpioLine) (v : GpioLevel) (s : State) : (gpioSet l v s).dev = s.dev := rfl

@[simp] theorem gpioSet_fg (l : GpioLine) (v : GpioLevel) (s : State) : (gpioSet l v s).fg = s.fg := rfl

@[simp] theorem gpioSet_bg (l : GpioLine) (v : GpioLevel) (s : State) : (gpioSet l v s).bg = s.bg := rfl

@[simp] theorem gpioSet_ready (l : GpioLine) (v : GpioLevel) (s : State) : (gpioSet l v s).ready = s.ready := rfl

@[simp] theorem gpioSet_line (l : GpioLine) (v : GpioLevel) (s : State) : (gpioSet l v s).line = s.line := rfl

@[simp] theorem gpioSet_circle (l : GpioLine) (v : GpioLevel) (s : State) : (gpioSet l v s).circle = s.circle := rfl

@[simp] theorem gpioSet_text (l : GpioLine) (v : GpioLevel) (s : State) : (gpioSet l v s).text = s.text := rfl

@[simp] theorem gpioSet_board (l : GpioLine) (v : GpioLevel) (s : State) : (gpioSet l v s).board = s.board := rfl

@[simp] theorem gpioSet_policy (l : GpioLine) (v : GpioLevel) (s : State) : (gpioSet l v s).policy = s.policy := rfl

@[simp] theorem gpioSet_requests (l : GpioLine) (v : GpioLevel) (s : State) : (gpioSet l v s).requests = s.requests := rfl

@[simp] theorem gpioSet_xferBuf (l : GpioLine) (v : GpioLevel) (s : State) : (gpioSet l v s).xferBuf = s.xferBuf := rfl

@[simp] theorem gpioSet_xferCalls (l : GpioLine) (v : GpioLevel) (s : State) : (gpioSet l v s).xferCalls = s.xferCalls := rfl

@[simp] theorem gpioSet_openCalls (l : GpioLine) (v : GpioLevel) (s : State) : (gpioSet l v s).openCalls = s.openCalls := rfl

@[simp] theorem gpioSet_cwTrace (l : GpioLine) (v : GpioLevel) (s : State) : (gpioSet l v s).cwTrace = s.cwTrace := rfl

@[simp] theorem gpioSet_xferTrace (l : GpioLine) (v : GpioLevel) (s : State) : (gpioSet l v s).xferTrace = s.xferTrace := rfl

@[simp] theorem gpioSet_plotTrace (l : GpioLine) (v : GpioLevel) (s : State) : (gpioSet l v s).plotTrace = s.plotTrace := rfl

@[simp] theorem gpioSet_gpioTrace (l : GpioLine) (v : GpioLevel) (s : State) : (gpioSet l v s).gpioTrace = s.gpioTrace ++ [(l, v)] := rfl

@[simp] theorem gpioSet_respTrace (l : GpioLine) (v : GpioLevel) (s : State) : (gpioSet l v s).respTrace = s.respTrace := rfl

@[simp] theorem gpioSet_sink (l : GpioLine) (v : GpioLevel) (s : State) : (gpioSet l v s).sink = if l = .reset ∧ v = .asserted then sinkReset s.sink else s.sink := rfl

@[simp] theorem gpioSet_strays (l : GpioLine) (v : GpioLevel) (s : State) : (gpioSet l v s).strays = s.strays := rfl

/-! ### transferred -/

@[simp] theorem transferred_pack (ws : List Word16) (st : Int) (s : State) : (transferred ws st s).pack = s.pack := rfl

@[simp] theorem transferred_asm (ws : List Word16) (st : Int) (s : State) : (transferred ws st s).asm = s.asm := rfl

@[simp] theorem transferred_win (ws : List Word16) (st : Int) (s : State) : (transferred ws st s).win = s.win := rfl

@[simp] theorem transferred_dev (ws : List Word16) (st : Int) (s : State) : (transferred ws st s).dev = s.dev := rfl

@[simp] theorem transferred_fg (ws : List Word16) (st : Int) (s : State) : (transferred ws st s).fg = s.fg := rfl

@[simp] theorem transferred_bg (ws : List Word16) (st : Int) (s : State) : (transferred ws st s).bg = s.bg := rfl

@[simp] theorem transferred_ready (ws : List Word16) (st : Int) (s : State) : (transferred ws st s).ready = s.ready := rfl

@[simp] theorem transferred_line (ws : List Word16) (st : Int) (s : State) : (transferred ws st s).line = s.line := rfl

@[simp] theorem transferred_circle (ws : List Word16) (st : Int) (s : State) : (transferred ws st s).circle = s.circle := rfl

@[simp] theorem transferred_text (ws : List Word16) (st : Int) (s : State) : (transferred ws st s).text = s.text := rfl

@[simp] theorem transferred_board (ws : List Word16) (st : Int) (s : State) : (transferred ws st s).board = s.board := rfl

@[simp] theorem transferred_policy (ws : List Word16) (st : Int) (s : State) : (transferred ws st s).policy = s.policy := rfl

@[simp] theorem transferred_requests (ws : List Word16) (st : Int) (s : State) : (transferred ws st s).requests = s.requests := rfl

@[simp] theorem transferred_xferBuf (ws : List Word16) (st : Int) (s : State) : (transferred ws st s).xferBuf = transferBytes s.policy.byteOrder ws := rfl

@[simp] theorem transferred_xferCalls (ws : List Word16) (st : Int) (s : State) : (transferred ws st s).xferCalls = s.xferCalls + 1 := rfl

@[simp] theorem transferred_openCalls (ws : List Word16) (st : Int) (s : State) : (transferred ws st s).openCalls = s.openCalls := rfl

@[simp] theorem transferred_cwTrace (ws : List Word16) (st : Int) (s : State) : (transferred ws st s).cwTrace = s.cwTrace := rfl

@[simp] theorem transferred_xferTrace (ws : List Word16) (st : Int) (s : State) : (transferred ws st s).xferTrace = s.xferTrace ++ [(ws, st)] := rfl

@[simp] theorem transferred_plotTrace (ws : List Word16) (st : Int) (s : State) : (transferred ws st s).plotTrace = s.plotTrace := rfl

@[simp] theorem transferred_gpioTrace (ws : List Word16) (st : Int) (s : State) : (transferred ws st s).gpioTrace = s.gpioTrace := rfl

@[simp] theorem transferred_respTrace (ws : List Word16) (st : Int) (s : State) : (transferred ws st s).respTrace = s.respTrace := rfl

@[simp] theorem transferred_sink (ws : List Word16) (st : Int) (s : State) : (transferred ws st s).sink = sinkAfter s ws st := rfl

@[simp] theorem transferred_strays (ws : List Word16) (st : Int) (s : State) : (transferred ws st s).strays = [] := rfl

/-! ### enterText -/

@[simp] theorem enterText_pack (fc : Word16) (s : State) : (enterText fc s).pack = s.pack := rfl

@[simp] theorem enterText_asm (fc : Word16) (s : State) : (enterText fc s).asm = s.asm := rfl

@[simp] theorem enterText_win (fc : Word16) (s : State) : (enterText fc s).win = s.win := rfl

@[simp] theorem enterText_dev (fc : Word16) (s : State) : (enterText fc s).dev = s.dev := rfl

@[simp] theorem enterText_fg (fc : Word16) (s : State) : (enterText fc s).fg = fc := rfl

@[simp] theorem enterText_bg (fc : Word16) (s : State) : (enterText fc s).bg = s.bg := rfl

@[simp] theorem enterText_ready (fc : Word16) (s : State) : (enterText fc s).ready = s.ready := rfl

@[simp] theorem enterText_line (fc : Word16) (s : State) : (enterText fc s).line = s.line := rfl

@[simp] theorem enterText_circle (fc : Word16) (s : State) : (enterText fc s).circle = s.circle := rfl

@[simp] theorem enterText_text (fc : Word16) (s : State) : (enterText fc s).text = { s.text with fgsave := s.fg } := rfl

@[simp] theorem enterText_board (fc : Word16) (s : State) : (enterText fc s).board = s.board := rfl

@[simp] theorem enterText_policy (fc : Word16) (s : State) : (enterText fc s).policy = s.policy := rfl

@[simp] theorem enterText_requests (fc : Word16) (s : State) : (enterText fc s).requests = s.requests := rfl

@[simp] theorem enterText_xferBuf (fc : Word16) (s : State) : (enterText fc s).xferBuf = s.xferBuf := rfl

@[simp] theorem enterText_xferCalls (fc : Word16) (s : State) : (enterText fc s).xferCalls = s.xferCalls := rfl

@[simp] theorem enterText_openCalls (fc : Word16) (s : State) : (enterText fc s).openCalls = s.openCalls := rfl

@[simp] theorem enterText_cwTrace (fc : Word16) (s : State) : (enterText fc s).cwTrace = s.cwTrace := rfl

@[simp] theorem enterText_xferTrace (fc : Word16) (s : State) : (enterText fc s).xferTrace = s.xferTrace := rfl

@[simp] theorem enterText_plotTrace (fc : Word16) (s : State) : (enterText fc s).plotTrace = s.plotTrace := rfl

@[simp] theorem enterText_gpioTrace (fc : Word16) (s : State) : (enterText fc s).gpioTrace = s.gpioTrace := rfl

@[simp] theorem enterText_respTrace (fc : Word16) (s : State) : (enterText fc s).respTrace = s.respTrace := rfl

@[simp] theorem enterText_sink (fc : Word16) (s : State) : (enterText fc s).sink = s.sink := rfl

@[simp] theorem enterText_strays (fc : Word16) (s : State) : (enterText fc s).strays = s.strays := rfl

/-! ### leaveText -/

@[simp] theorem leaveText_pack (s : State) : (leaveText s).pack = s.pack := rfl

@[simp] theorem leaveText_asm (s : State) : (leaveText s).asm = s.asm := rfl

@[simp] theorem leaveText_win (s : State) : (leaveText s).win = s.win := rfl

@[simp] theorem leaveText_dev (s : State) : (leaveText s).dev = s.dev := rfl

@[simp] theorem leaveText_fg (s : State) : (leaveText s).fg = s.text.fgsave := rfl

@[simp] theorem leaveText_bg (s : State) : (leaveText s).bg = s.bg := rfl

@[simp] theorem leaveText_ready (s : State) : (leaveText s).ready = s.ready := rfl

@[simp] theorem leaveText_line (s : State) : (leaveText s).line = s.line := rfl

@[simp] theorem leaveText_circle (s : State) : (leaveText s).circle = s.circle := rfl

@[simp] theorem leaveText_text (s : State) : (leaveText s).text = s.text := rfl

@[simp] theorem leaveText_board (s : State) : (leaveText s).board = s.board := rfl

@[simp] theorem leaveText_policy (s : State) : (leaveText s).policy = s.policy := rfl

@[simp] theorem leaveText_requests (s : State) : (leaveText s).requests = s.requests := rfl

@[simp] theorem leaveText_xferBuf (s : State) : (leaveText s).xferBuf = s.xferBuf := rfl

@[simp] theorem leaveText_xferCalls (s : State) : (leaveText s).xferCalls = s.xferCalls := rfl

@[simp] theorem leaveText_openCalls (s : State) : (leaveText s).openCalls = s.openCalls := rfl

@[simp] theorem leaveText_cwTrace (s : State) : (leaveText s).cwTrace = s.cwTrace := rfl

@[simp] theorem leaveText_xferTrace (s : State) : (leaveText s).xferTrace = s.xferTrace := rfl

@[simp] theorem leaveText_plotTrace (s : State) : (leaveText s).plotTrace = s.plotTrace := rfl

@[simp] theorem leaveText_gpioTrace (s : State) : (leaveText s).gpioTrace = s.gpioTrace := rfl

@[simp] theorem leaveText_respTrace (s : State) : (leaveText s).respTrace = s.respTrace := rfl

@[simp] theorem leaveText_sink (s : State) : (leaveText s).sink = s.sink := rfl

@[simp] theorem leaveText_strays (s : State) : (leaveText s).strays = s.strays := rfl

/-! ### setCell -/

@[simp] theorem setCell_pack (gp gt : Nat) (s : State) : (setCell gp gt s).pack = s.pack := rfl

@[simp] theorem setCell_asm (gp gt : Nat) (s : State) : (setCell gp gt s).asm = s.asm := rfl

@[simp] theorem setCell_win (gp gt : Nat) (s : State) : (setCell gp gt s).win = s.win := rfl

@[simp] theorem setCell_dev (gp gt : Nat) (s : State) : (setCell gp gt s).dev = s.dev := rfl

@[simp] theorem setCell_fg (gp gt : Nat) (s : State) : (setCell gp gt s).fg = s.fg := rfl

@[simp] theorem setCell_bg (gp gt : Nat) (s : State) : (setCell gp gt s).bg = s.bg := rfl

@[simp] theorem setCell_ready (gp gt : Nat) (s : State) : (setCell gp gt s).ready = s.ready := rfl

@[simp] theorem setCell_line (gp gt : Nat) (s : State) : (setCell gp gt s).line = s.line := rfl

@[simp] theorem setCell_circle (gp gt : Nat) (s : State) : (setCell gp gt s).circle = s.circle := rfl

@[simp] theorem setCell_text (gp gt : Nat) (s : State) : (setCell gp gt s).text = { s.text with gp := gp, gt := gt } := rfl

@[simp] theorem setCell_board (gp gt : Nat) (s : State) : (setCell gp gt s).board = s.board := rfl

@[simp] theorem setCell_policy (gp gt : Nat) (s : State) : (setCell gp gt s).policy = s.policy := rfl

@[simp] theorem setCell_requests (gp gt : Nat) (s : State) : (setCell gp gt s).requests = s.requests := rfl

@[simp] theorem setCell_xferBuf (gp gt : Nat) (s : State) : (setCell gp gt s).xferBuf = s.xferBuf := rfl

@[simp] theorem setCell_xferCalls (gp gt : Nat) (s : State) : (setCell gp gt s).xferCalls = s.xferCalls := rfl

@[simp] theorem setCell_openCalls (gp gt : Nat) (s : State) : (setCell gp gt s).openCalls = s.openCalls := rfl

@[simp] theorem setCell_cwTrace (gp gt : Nat) (s : State) : (setCell gp gt s).cwTrace = s.cwTrace := rfl

@[simp] theorem setCell_xferTrace (gp gt : Nat) (s : State) : (setCell gp gt s).xferTrace = s.xferTrace := rfl

@[simp] theorem setCell_plotTrace (gp gt : Nat) (s : State) : (setCell gp gt s).plotTrace = s.plotTrace := rfl

@[simp] theorem setCell_gpioTrace (gp gt : Nat) (s : State) : (setCell gp gt s).gpioTrace = s.gpioTrace := rfl

@[simp] theorem setCell_respTrace (gp gt : Nat) (s : State) : (setCell gp gt s).respTrace = s.respTrace := rfl

@[simp] theorem setCell_sink (gp gt : Nat) (s : State) : (setCell gp gt s).sink = s.sink := rfl

@[simp] theorem setCell_strays (gp gt : Nat) (s : State) : (setCell gp gt s).strays = s.strays := rfl

/-! ### startPos -/

@[simp] theorem startPos_pack (x y : Int) (s : State) : (startPos x y s).pack = s.pack := rfl

@[simp] theorem startPos_asm (x y : Int) (s : State) : (startPos x y s).asm = s.asm := rfl

@[simp] theorem startPos_win (x y : Int) (s : State) : (startPos x y s).win = s.win := rfl

@[simp] theorem startPos_dev (x y : Int) (s : State) : (startPos x y s).dev = s.dev := rfl

@[simp] theorem startPos_fg (x y : Int) (s : State) : (startPos x y s).fg = s.fg := rfl

@[simp] theorem startPos_bg (x y : Int) (s : State) : (startPos x y s).bg = s.bg := rfl

@[simp] theorem startPos_ready (x y : Int) (s : State) : (startPos x y s).ready = s.ready := rfl

@[simp] theorem startPos_line (x y : Int) (s : State) : (startPos x y s).line = s.line := rfl

@[simp] theorem startPos_circle (x y : Int) (s : State) : (startPos x y s).circle = s.circle := rfl

@[simp] theorem startPos_text (x y : Int) (s : State) : (startPos x y s).text = { s.text with px := x, py := y } := rfl

@[simp] theorem startPos_board (x y : Int) (s : State) : (startPos x y s).board = s.board := rfl

@[simp] theorem startPos_policy (x y : Int) (s : State) : (startPos x y s).policy = s.policy := rfl

@[simp] theorem startPos_requests (x y : Int) (s : State) : (startPos x y s).requests = s.requests := rfl

@[simp] theorem startPos_xferBuf (x y : Int) (s : State) : (startPos x y s).xferBuf = s.xferBuf := rfl

@[simp] theorem startPos_xferCalls (x y : Int) (s : State) : (startPos x y s).xferCalls = s.xferCalls := rfl

@[simp] theorem startPos_openCalls (x y : Int) (s : State) : (startPos x y s).openCalls = s.openCalls := rfl

@[simp] theorem startPos_cwTrace (x y : Int) (s : State) : (startPos x y s).cwTrace = s.cwTrace := rfl

@[simp] theorem startPos_xferTrace (x y : Int) (s : State) : (startPos x y s).xferTrace = s.xferTrace := rfl

@[simp] theorem startPos_plotTrace (x y : Int) (s : State) : (startPos x y s).plotTrace = s.plotTrace := rfl

@[simp] theorem startPos_gpioTrace (x y : Int) (s : State) : (startPos x y s).gpioTrace = s.gpioTrace := rfl

@[simp] theorem startPos_respTrace (x y : Int) (s : State) : (startPos x y s).respTrace = s.respTrace := rfl

@[simp] theorem startPos_sink (x y : Int) (s : State) : (startPos x y s).sink = s.sink := rfl

@[simp] theorem startPos_strays (x y : Int) (s : State) : (startPos x y s).strays = s.strays := rfl

/-! ### advanceCursor -/

@[simp] theorem advanceCursor_pack (adv n : Nat) (s : State) : (advanceCursor adv n s).pack = s.pack := rfl

@[simp] theorem advanceCursor_asm (adv n : Nat) (s : State) : (advanceCursor adv n s).asm = s.asm := rfl

@[simp] theorem advanceCursor_win (adv n : Nat) (s : State) : (advanceCursor adv n s).win = s.win := rfl

@[simp] theorem advanceCursor_dev (adv n : Nat) (s : State) : (advanceCursor adv n s).dev = s.dev := rfl

@[simp] theorem advanceCursor_fg (adv n : Nat) (s : State) : (advanceCursor adv n s).fg = s.fg := rfl

@[simp] theorem advanceCursor_bg (adv n : Nat) (s : State) : (advanceCursor adv n s).bg = s.bg := rfl

@[simp] theorem advanceCursor_ready (adv n : Nat) (s : State) : (advanceCursor adv n s).ready = s.ready := rfl

@[simp] theorem advanceCursor_line (adv n : Nat) (s : State) : (advanceCursor adv n s).line = s.line := rfl

@[simp] theorem advanceCursor_circle (adv n : Nat) (s : State) : (advanceCursor adv n s).circle = s.circle := rfl

@[simp] theorem advanceCursor_text (adv n : Nat) (s : State) : (advanceCursor adv n s).text = { s.text with tx := s.text.tx + adv, si := s.text.si + n } := rfl

@[simp] theorem advanceCursor_board (adv n : Nat) (s : State) : (advanceCursor adv n s).board = s.board := rfl

@[simp] theorem advanceCursor_policy (adv n : Nat) (s : State) : (advanceCursor adv n s).policy = s.policy := rfl

@[simp] theorem advanceCursor_requests (adv n : Nat) (s : State) : (advanceCursor adv n s).requests = s.requests := rfl

@[simp] theorem advanceCursor_xferBuf (adv n : Nat) (s : State) : (advanceCursor adv n s).xferBuf = s.xferBuf := rfl

@[simp] theorem advanceCursor_xferCalls (adv n : Nat) (s : State) : (advanceCursor adv n s).xferCalls = s.xferCalls := rfl

@[simp] theorem advanceCursor_openCalls (adv n : Nat) (s : State) : (advanceCursor adv n s).openCalls = s.openCalls := rfl

@[simp] theorem advanceCursor_cwTrace (adv n : Nat) (s : State) : (advanceCursor adv n s).cwTrace = s.cwTrace := rfl

@[simp] theorem advanceCursor_xferTrace (adv n : Nat) (s : State) : (advanceCursor adv n s).xferTrace = s.xferTrace := rfl

@[simp] theorem advanceCursor_plotTrace (adv n : Nat) (s : State) : (advanceCursor adv n s).plotTrace = s.plotTrace := rfl

@[simp] theorem advanceCursor_gpioTrace (adv n : Nat) (s : State) : (advanceCursor adv n s).gpioTrace = s.gpioTrace := rfl

@[simp] theorem advanceCursor_respTrace (adv n : Nat) (s : State) : (advanceCursor adv n s).respTrace = s.respTrace := rfl

@[simp] theorem advanceCursor_sink (adv n : Nat) (s : State) : (advanceCursor adv n s).sink = s.sink := rfl

@[simp] theorem advanceCursor_strays (adv n : Nat) (s : State) : (advanceCursor adv n s).strays = s.strays := rfl

/-! ### carriageReturn -/

@[simp] theorem carriageReturn_pack (size : Nat) (s : State) : (carriageReturn size s).pack = s.pack := rfl

@[simp] theorem carriageReturn_asm (size : Nat) (s : State) : (carriageReturn size s).asm = s.asm := rfl

@[simp] theorem carriageReturn_win (size : Nat) (s : State) : (carriageReturn size s).win = s.win := rfl

@[simp] theorem carriageReturn_dev (size : Nat) (s : State) : (carriageReturn size s).dev = s.dev := rfl

@[simp] theorem carriageReturn_fg (size : Nat) (s : State) : (carriageReturn size s).fg = s.fg := rfl

@[simp] theorem carriageReturn_bg (size : Nat) (s : State) : (carriageReturn size s).bg = s.bg := rfl

@[simp] theorem carriageReturn_ready (size : Nat) (s : State) : (carriageReturn size s).ready = s.ready := rfl

@[simp] theorem carriageReturn_line (size : Nat) (s : State) : (carriageReturn size s).line = s.line := rfl

@[simp] theorem carriageReturn_circle (size : Nat) (s : State) : (carriageReturn size s).circle = s.circle := rfl

@[simp] theorem carriageReturn_text (size : Nat) (s : State) : (carriageReturn size s).text = { s.text with tx := s.text.xs, ty := s.text.ty + size, si := s.text.si + 1 } := rfl

@[simp] theorem carriageReturn_board (size : Nat) (s : State) : (carriageReturn size s).board = s.board := rfl

@[simp] theorem carriageReturn_policy (size : Nat) (s : State) : (carriageReturn size s).policy = s.policy := rfl

@[simp] theorem carriageReturn_requests (size : Nat) (s : State) : (carriageReturn size s).requests = s.requests := rfl

@[simp] theorem carriageReturn_xferBuf (size : Nat) (s : State) : (carriageReturn size s).xferBuf = s.xferBuf := rfl

@[simp] theorem carriageReturn_xferCalls (size : Nat) (s : State) : (carriageReturn size s).xferCalls = s.xferCalls := rfl

@[simp] theorem carriageReturn_openCalls (size : Nat) (s : State) : (carriageReturn size s).openCalls = s.openCalls := rfl

@[simp] theorem carriageReturn_cwTrace (size : Nat) (s : State) : (carriageReturn size s).cwTrace = s.cwTrace := rfl

@[simp] theorem carriageReturn_xferTrace (size : Nat) (s : State) : (carriageReturn size s).xferTrace = s.xferTrace := rfl

@[simp] theorem carriageReturn_plotTrace (size : Nat) (s : State) : (carriageReturn size s).plotTrace = s.plotTrace := rfl

@[simp] theorem carriageReturn_gpioTrace (size : Nat) (s : State) : (carriageReturn size s).gpioTrace = s.gpioTrace := rfl

@[simp] theorem carriageReturn_respTrace (size : Nat) (s : State) : (carriageReturn size s).respTrace = s.respTrace := rfl

@[simp] theorem carriageReturn_sink (size : Nat) (s : State) : (carriageReturn size s).sink = s.sink := rfl

@[simp] theorem carriageReturn_strays (size : Nat) (s : State) : (carriageReturn size s).strays = s.strays := rfl

/-! ### skipByte -/

@[simp] theorem skipByte_pack (s : State) : (skipByte s).pack = s.pack := rfl

@[simp] theorem skipByte_asm (s : State) : (skipByte s).asm = s.asm := rfl

@[simp] theorem skipByte_win (s : State) : (skipByte s).win = s.win := rfl

@[simp] theorem skipByte_dev (s : State) : (skipByte s).dev = s.dev := rfl

@[simp] theorem skipByte_fg (s : State) : (skipByte s).fg = s.fg := rfl

@[simp] theorem skipByte_bg (s : State) : (skipByte s).bg = s.bg := rfl

@[simp] theorem skipByte_ready (s : State) : (skipByte s).ready = s.ready := rfl

@[simp] theorem skipByte_line (s : State) : (skipByte s).line = s.line := rfl

@[simp] theorem skipByte_circle (s : State) : (skipByte s).circle = s.circle := rfl

@[simp] theorem skipByte_text (s : State) : (skipByte s).text = { s.text with si := s.text.si + 1 } := rfl

@[simp] theorem skipByte_board (s : State) : (skipByte s).board = s.board := rfl

@[simp] theorem skipByte_policy (s : State) : (skipByte s).policy = s.policy := rfl

@[simp] theorem skipByte_requests (s : State) : (skipByte s).requests = s.requests := rfl

@[simp] theorem skipByte_xferBuf (s : State) : (skipByte s).xferBuf = s.xferBuf := rfl

@[simp] theorem skipByte_xferCalls (s : State) : (skipByte s).xferCalls = s.xferCalls := rfl

@[simp] theorem skipByte_openCalls (s : State) : (skipByte s).openCalls = s.openCalls := rfl

@[simp] theorem skipByte_cwTrace (s : State) : (skipByte s).cwTrace = s.cwTrace := rfl

@[simp] theorem skipByte_xferTrace (s : State) : (skipByte s).xferTrace = s.xferTrace := rfl

@[simp] theorem skipByte_plotTrace (s : State) : (skipByte s).plotTrace = s.plotTrace := rfl

@[simp] theorem skipByte_gpioTrace (s : State) : (skipByte s).gpioTrace = s.gpioTrace := rfl

@[simp] theorem skipByte_respTrace (s : State) : (skipByte s).respTrace = s.respTrace := rfl

@[simp] theorem skipByte_sink (s : State) : (skipByte s).sink = s.sink := rfl

@[simp] theorem skipByte_strays (s : State) : (skipByte s).strays = s.strays := rfl

/-! ### startCursor -/

@[simp] theorem startCursor_pack (x y : Int) (s : State) : (startCursor x y s).pack = s.pack := rfl

@[simp] theorem startCursor_asm (x y : Int) (s : State) : (startCursor x y s).asm = s.asm := rfl

@[simp] theorem startCursor_win (x y : Int) (s : State) : (startCursor x y s).win = s.win := rfl

@[simp] theorem startCursor_dev (x y : Int) (s : State) : (startCursor x y s).dev = s.dev := rfl

@[simp] theorem startCursor_fg (x y : Int) (s : State) : (startCursor x y s).fg = s.fg := rfl

@[simp] theorem startCursor_bg (x y : Int) (s : State) : (startCursor x y s).bg = s.bg := rfl

@[simp] theorem startCursor_ready (x y : Int) (s : State) : (startCursor x y s).ready = s.ready := rfl

@[simp] theorem startCursor_line (x y : Int) (s : State) : (startCursor x y s).line = s.line := rfl

@[simp] theorem startCursor_circle (x y : Int) (s : State) : (startCursor x y s).circle = s.circle := rfl

@[simp] theorem startCursor_text (x y : Int) (s : State) : (startCursor x y s).text = { s.text with tx := x, ty := y, xs := x, si := 0 } := rfl

@[simp] theorem startCursor_board (x y : Int) (s : State) : (startCursor x y s).board = s.board := rfl

@[simp] theorem startCursor_policy (x y : Int) (s : State) : (startCursor x y s).policy = s.policy := rfl

@[simp] theorem startCursor_requests (x y : Int) (s : State) : (startCursor x y s).requests = s.requests := rfl

@[simp] theorem startCursor_xferBuf (x y : Int) (s : State) : (startCursor x y s).xferBuf = s.xferBuf := rfl

@[simp] theorem startCursor_xferCalls (x y : Int) (s : State) : (startCursor x y s).xferCalls = s.xferCalls := rfl

@[simp] theorem startCursor_openCalls (x y : Int) (s : State) : (startCursor x y s).openCalls = s.openCalls := rfl

@[simp] theorem startCursor_cwTrace (x y : Int) (s : State) : (startCursor x y s).cwTrace = s.cwTrace := rfl

@[simp] theorem startCursor_xferTrace (x y : Int) (s : State) : (startCursor x y s).xferTrace = s.xferTrace := rfl

@[simp] theorem startCursor_plotTrace (x y : Int) (s : State) : (startCursor x y s).plotTrace = s.plotTrace := rfl

@[simp] theorem startCursor_gpioTrace (x y : Int) (s : State) : (startCursor x y s).gpioTrace = s.gpioTrace := rfl

@[simp] theorem startCursor_respTrace (x y : Int) (s : State) : (startCursor x y s).respTrace = s.respTrace := rfl

@[simp] theorem startCursor_sink (x y : Int) (s : State) : (startCursor x y s).sink = s.sink := rfl

@[simp] theorem startCursor_strays (x y : Int) (s : State) : (startCursor x y s).strays = s.strays := rfl

/-! ### initLoad -/

@[simp] theorem initLoad_pack (o : Orient) (s : State) : (initLoad o s).pack = emptyPack s.pack := rfl

@[simp] theorem initLoad_asm (o : Orient) (s : State) : (initLoad o s).asm = .idle := rfl

@[simp] theorem initLoad_win (o : Orient) (s : State) : (initLoad o s).win = s.win := rfl

@[simp] theorem initLoad_dev (o : Orient) (s : State) : (initLoad o s).dev = deviceOf s.board o := rfl

@[simp] theorem initLoad_fg (o : Orient) (s : State) : (initLoad o s).fg = s.fg := rfl

@[simp] theorem initLoad_bg (o : Orient) (s : State) : (initLoad o s).bg = s.bg := rfl

@[simp] theorem initLoad_ready (o : Orient) (s : State) : (initLoad o s).ready = s.ready := rfl

@[simp] theorem initLoad_line (o : Orient) (s : State) : (initLoad o s).line = s.line := rfl

@[simp] theorem initLoad_circle (o : Orient) (s : State) : (initLoad o s).circle = s.circle := rfl

@[simp] theorem initLoad_text (o : Orient) (s : State) : (initLoad o s).text = s.text := rfl

@[simp] theorem initLoad_board (o : Orient) (s : State) : (initLoad o s).board = s.board := rfl

@[simp] theorem initLoad_policy (o : Orient) (s : State) : (initLoad o s).policy = s.policy := rfl

@[simp] theorem initLoad_requests (o : Orient) (s : State) : (initLoad o s).requests = s.requests := rfl

@[simp] theorem initLoad_xferBuf (o : Orient) (s : State) : (initLoad o s).xferBuf = s.xferBuf := rfl

@[simp] theorem initLoad_xferCalls (o : Orient) (s : State) : (initLoad o s).xferCalls = s.xferCalls := rfl

@[simp] theorem initLoad_openCalls (o : Orient) (s : State) : (initLoad o s).openCalls = s.openCalls := rfl

@[simp] theorem initLoad_cwTrace (o : Orient) (s : State) : (initLoad o s).cwTrace = s.cwTrace := rfl

@[simp] theorem initLoad_xferTrace (o : Orient) (s : State) : (initLoad o s).xferTrace = s.xferTrace := rfl

@[simp] theorem initLoad_plotTrace (o : Orient) (s : State) : (initLoad o s).plotTrace = s.plotTrace := rfl

@[simp] theorem initLoad_gpioTrace (o : Orient) (s : State) : (initLoad o s).gpioTrace = s.gpioTrace ++ [(.cs, .selected)] ++ [(.reset, .asserted)] ++ [(.reset, .released)] := rfl

@[simp] theorem initLoad_respTrace (o : Orient) (s : State) : (initLoad o s).respTrace = s.respTrace := rfl

@[simp] theorem initLoad_sink (o : Orient) (s : State) : (initLoad o s).sink = sinkReset s.sink := rfl

@[simp] theorem initLoad_strays (o : Orient) (s : State) : (initLoad o s).strays = [] := rfl

/-! ### advancePos writes `text` only -/

@[simp] theorem advancePos_pack (x : Int) (sz : WideSize) (s : State) : (advancePos x sz s).pack = s.pack := by
  unfold advancePos; split <;> rfl

@[simp] theorem advancePos_asm (x : Int) (sz : WideSize) (s : State) : (advancePos x sz s).asm = s.asm := by
  unfold advancePos; split <;> rfl

@[simp] theorem advancePos_win (x : Int) (sz : WideSize) (s : State) : (advancePos x sz s).win = s.win := by
  unfold advancePos; split <;> rfl

@[simp] theorem advancePos_dev (x : Int) (sz : WideSize) (s : State) : (advancePos x sz s).dev = s.dev := by
  unfold advancePos; split <;> rfl

@[simp] theorem advancePos_fg (x : Int) (sz : WideSize) (s : State) : (advancePos x sz s).fg = s.fg := by
  unfold advancePos; split <;> rfl

@[simp] theorem advancePos_bg (x : Int) (sz : WideSize) (s : State) : (advancePos x sz s).bg = s.bg := by
  unfold advancePos; split <;> rfl

@[simp] theorem advancePos_ready (x : Int) (sz : WideSize) (s : State) : (advancePos x sz s).ready = s.ready := by
  unfold advancePos; split <;> rfl

@[simp] theorem advancePos_line (x : Int) (sz : WideSize) (s : State) : (advancePos x sz s).line = s.line := by
  unfold advancePos; split <;> rfl

@[simp] theorem advancePos_circle (x : Int) (sz : WideSize) (s : State) : (advancePos x sz s).circle = s.circle := by
  unfold advancePos; split <;> rfl

@[simp] theorem advancePos_board (x : Int) (sz : WideSize) (s : State) : (advancePos x sz s).board = s.board := by
  unfold advancePos; split <;> rfl

@[simp] theorem advancePos_policy (x : Int) (sz : WideSize) (s : State) : (advancePos x sz s).policy = s.policy := by
  unfold advancePos; split <;> rfl

@[simp] theorem advancePos_requests (x : Int) (sz : WideSize) (s : State) : (advancePos x sz s).requests = s.requests := by
  unfold advancePos; split <;> rfl

@[simp] theorem advancePos_xferBuf (x : Int) (sz : WideSize) (s : State) : (advancePos x sz s).xferBuf = s.xferBuf := by
  unfold advancePos; split <;> rfl

@[simp] theorem advancePos_xferCalls (x : Int) (sz : WideSize) (s : State) : (advancePos x sz s).xferCalls = s.xferCalls := by
  unfold advancePos; split <;> rfl

@[simp] theorem advancePos_openCalls (x : Int) (sz : WideSize) (s : State) : (advancePos x sz s).openCalls = s.openCalls := by
  unfold advancePos; split <;> rfl

@[simp] theorem advancePos_cwTrace (x : Int) (sz : WideSize) (s : State) : (advancePos x sz s).cwTrace = s.cwTrace := by
  unfold advancePos; split <;> rfl

@[simp] theorem advancePos_xferTrace (x : Int) (sz : WideSize) (s : State) : (advancePos x sz s).xferTrace = s.xferTrace := by
  unfold advancePos; split <;> rfl

@[simp] theorem advancePos_plotTrace (x : Int) (sz : WideSize) (s : State) : (advancePos x sz s).plotTrace = s.plotTrace := by
  unfold advancePos; split <;> rfl

@[simp] theorem advancePos_gpioTrace (x : Int) (sz : WideSize) (s : State) : (advancePos x sz s).gpioTrace = s.gpioTrace := by
  unfold advancePos; split <;> rfl

@[simp] theorem advancePos_respTrace (x : Int) (sz : WideSize) (s : State) : (advancePos x sz s).respTrace = s.respTrace := by
  unfold advancePos; split <;> rfl

@[simp] theorem advancePos_sink (x : Int) (sz : WideSize) (s : State) : (advancePos x sz s).sink = s.sink := by
  unfold advancePos; split <;> rfl

@[simp] theorem advancePos_strays (x : Int) (sz : WideSize) (s : State) : (advancePos x sz s).strays = s.strays := by
  unfold advancePos; split <;> rfl

/-! ### emptyPack -/

@[simp] theorem emptyPack_acc (p : PackBuffer) : (emptyPack p).acc = 0#32 := rfl

@[simp] theorem emptyPack_nbits (p : PackBuffer) : (emptyPack p).nbits = 0 := rfl

@[simp] theorem emptyPack_cnt (p : PackBuffer) : (emptyPack p).cnt = 0 := rfl

@[simp] theorem emptyPack_out (p : PackBuffer) : (emptyPack p).out = p.out := rfl

@[simp] theorem emptyPack_outcnt (p : PackBuffer) : (emptyPack p).outcnt = 0 := rfl

/-! ### dropPack -/

@[simp] theorem dropPack_pack (s : State) : (dropPack s).pack = emptyPack s.pack := rfl

@[simp] theorem dropPack_asm (s : State) : (dropPack s).asm = s.asm := rfl

@[simp] theorem dropPack_win (s : State) : (dropPack s).win = s.win := rfl

@[simp] theorem dropPack_dev (s : State) : (dropPack s).dev = s.dev := rfl

@[simp] theorem dropPack_fg (s : State) : (dropPack s).fg = s.fg := rfl

@[simp] theorem dropPack_bg (s : State) : (dropPack s).bg = s.bg := rfl

@[simp] theorem dropPack_ready (s : State) : (dropPack s).ready = s.ready := rfl

@[simp] theorem dropPack_line (s : State) : (dropPack s).line = s.line := rfl

@[simp] theorem dropPack_circle (s : State) : (dropPack s).circle = s.circle := rfl

@[simp] theorem dropPack_text (s : State) : (dropPack s).text = s.text := rfl

@[simp] theorem dropPack_board (s : State) : (dropPack s).board = s.board := rfl

@[simp] theorem dropPack_policy (s : State) : (dropPack s).policy = s.policy := rfl

@[simp] theorem dropPack_requests (s : State) : (dropPack s).requests = s.requests := rfl

@[simp] theorem dropPack_xferBuf (s : State) : (dropPack s).xferBuf = s.xferBuf := rfl

@[simp] theorem dropPack_xferCalls (s : State) : (dropPack s).xferCalls = s.xferCalls := rfl

@[simp] theorem dropPack_openCalls (s : State) : (dropPack s).openCalls = s.openCalls := rfl

@[simp] theorem dropPack_cwTrace (s : State) : (dropPack s).cwTrace = s.cwTrace := rfl

@[simp] theorem dropPack_xferTrace (s : State) : (dropPack s).xferTrace = s.xferTrace := rfl

@[simp] theorem dropPack_plotTrace (s : State) : (dropPack s).plotTrace = s.plotTrace := rfl

@[simp] theorem dropPack_gpioTrace (s : State) : (dropPack s).gpioTrace = s.gpioTrace := rfl

@[simp] theorem dropPack_respTrace (s : State) : (dropPack s).respTrace = s.respTrace := rfl

@[simp] theorem dropPack_strays (s : State) : (dropPack s).strays = [] := rfl

@[simp] theorem dropPack_sink (s : State) : (dropPack s).sink = s.sink := rfl

/-! ### markStray, noteData, noteArm, noteRaw write `strays` only -/

@[simp] theorem markStray_pack (s : State) : (markStray s).pack = s.pack := rfl

@[simp] theorem markStray_asm (s : State) : (markStray s).asm = s.asm := rfl

@[simp] theorem markStray_win (s : State) : (markStray s).win = s.win := rfl

@[simp] theorem markStray_dev (s : State) : (markStray s).dev = s.dev := rfl

@[simp] theorem markStray_fg (s : State) : (markStray s).fg = s.fg := rfl

@[simp] theorem markStray_bg (s : State) : (markStray s).bg = s.bg := rfl

@[simp] theorem markStray_ready (s : State) : (markStray s).ready = s.ready := rfl

@[simp] theorem markStray_line (s : State) : (markStray s).line = s.line := rfl

@[simp] theorem markStray_circle (s : State) : (markStray s).circle = s.circle := rfl

@[simp] theorem markStray_text (s : State) : (markStray s).text = s.text := rfl

@[simp] theorem markStray_board (s : State) : (markStray s).board = s.board := rfl

@[simp] theorem markStray_policy (s : State) : (markStray s).policy = s.policy := rfl

@[simp] theorem markStray_requests (s : State) : (markStray s).requests = s.requests := rfl

@[simp] theorem markStray_xferBuf (s : State) : (markStray s).xferBuf = s.xferBuf := rfl

@[simp] theorem markStray_xferCalls (s : State) : (markStray s).xferCalls = s.xferCalls := rfl

@[simp] theorem markStray_openCalls (s : State) : (markStray s).openCalls = s.openCalls := rfl

@[simp] theorem markStray_cwTrace (s : State) : (markStray s).cwTrace = s.cwTrace := rfl

@[simp] theorem markStray_xferTrace (s : State) : (markStray s).xferTrace = s.xferTrace := rfl

@[simp] theorem markStray_plotTrace (s : State) : (markStray s).plotTrace = s.plotTrace := rfl

@[simp] theorem markStray_gpioTrace (s : State) : (markStray s).gpioTrace = s.gpioTrace := rfl

@[simp] theorem markStray_respTrace (s : State) : (markStray s).respTrace = s.respTrace := rfl

@[simp] theorem markStray_strays (s : State) : (markStray s).strays = s.strays ++ [s.pack.cnt] := rfl

@[simp] theorem markStray_sink (s : State) : (markStray s).sink = s.sink := rfl

@[simp] theorem noteData_pack (s : State) : (noteData s).pack = s.pack := by
  unfold noteData; split <;> rfl

@[simp] theorem noteData_asm (s : State) : (noteData s).asm = s.asm := by
  unfold noteData; split <;> rfl

@[simp] theorem noteData_win (s : State) : (noteData s).win = s.win := by
  unfold noteData; split <;> rfl

@[simp] theorem noteData_dev (s : State) : (noteData s).dev = s.dev := by
  unfold noteData; split <;> rfl

@[simp] theorem noteData_fg (s : State) : (noteData s).fg = s.fg := by
  unfold noteData; split <;> rfl

@[simp] theorem noteData_bg (s : State) : (noteData s).bg = s.bg := by
  unfold noteData; split <;> rfl

@[simp] theorem noteData_ready (s : State) : (noteData s).ready = s.ready := by
  unfold noteData; split <;> rfl

@[simp] theorem noteData_line (s : State) : (noteData s).line = s.line := by
  unfold noteData; split <;> rfl

@[simp] theorem noteData_circle (s : State) : (noteData s).circle = s.circle := by
  unfold noteData; split <;> rfl

@[simp] theorem noteData_text (s : State) : (noteData s).text = s.text := by
  unfold noteData; split <;> rfl

@[simp] theorem noteData_board (s : State) : (noteData s).board = s.board := by
  unfold noteData; split <;> rfl

@[simp] theorem noteData_policy (s : State) : (noteData s).policy = s.policy := by
  unfold noteData; split <;> rfl

@[simp] theorem noteData_requests (s : State) : (noteData s).requests = s.requests := by
  unfold noteData; split <;> rfl

@[simp] theorem noteData_xferBuf (s : State) : (noteData s).xferBuf = s.xferBuf := by
  unfold noteData; split <;> rfl

@[simp] theorem noteData_xferCalls (s : State) : (noteData s).xferCalls = s.xferCalls := by
  unfold noteData; split <;> rfl

@[simp] theorem noteData_openCalls (s : State) : (noteData s).openCalls = s.openCalls := by
  unfold noteData; split <;> rfl

@[simp] theorem noteData_cwTrace (s : State) : (noteData s).cwTrace = s.cwTrace := by
  unfold noteData; split <;> rfl

@[simp] theorem noteData_xferTrace (s : State) : (noteData s).xferTrace = s.xferTrace := by
  unfold noteData; split <;> rfl

@[simp] theorem noteData_plotTrace (s : State) : (noteData s).plotTrace = s.plotTrace := by
  unfold noteData; split <;> rfl

@[simp] theorem noteData_gpioTrace (s : State) : (noteData s).gpioTrace = s.gpioTrace := by
  unfold noteData; split <;> rfl

@[simp] theorem noteData_respTrace (s : State) : (noteData s).respTrace = s.respTrace := by
  unfold noteData; split <;> rfl

@[simp] theorem noteData_sink (s : State) : (noteData s).sink = s.sink := by
  unfold noteData; split <;> rfl

@[simp] theorem noteArm_pack (s : State) : (noteArm s).pack = s.pack := by
  unfold noteArm; split <;> rfl

@[simp] theorem noteArm_asm (s : State) : (noteArm s).asm = s.asm := by
  unfold noteArm; split <;> rfl

@[simp] theorem noteArm_win (s : State) : (noteArm s).win = s.win := by
  unfold noteArm; split <;> rfl

@[simp] theorem noteArm_dev (s : State) : (noteArm s).dev = s.dev := by
  unfold noteArm; split <;> rfl

@[simp] theorem noteArm_fg (s : State) : (noteArm s).fg = s.fg := by
  unfold noteArm; split <;> rfl

@[simp] theorem noteArm_bg (s : State) : (noteArm s).bg = s.bg := by
  unfold noteArm; split <;> rfl

@[simp] theorem noteArm_ready (s : State) : (noteArm s).ready = s.ready := by
  unfold noteArm; split <;> rfl

@[simp] theorem noteArm_line (s : State) : (noteArm s).line = s.line := by
  unfold noteArm; split <;> rfl

@[simp] theorem noteArm_circle (s : State) : (noteArm s).circle = s.circle := by
  unfold noteArm; split <;> rfl

@[simp] theorem noteArm_text (s : State) : (noteArm s).text = s.text := by
  unfold noteArm; split <;> rfl

@[simp] theorem noteArm_board (s : State) : (noteArm s).board = s.board := by
  unfold noteArm; split <;> rfl

@[simp] theorem noteArm_policy (s : State) : (noteArm s).policy = s.policy := by
  unfold noteArm; split <;> rfl

@[simp] theorem noteArm_requests (s : State) : (noteArm s).requests = s.requests := by
  unfold noteArm; split <;> rfl

@[simp] theorem noteArm_xferBuf (s : State) : (noteArm s).xferBuf = s.xferBuf := by
  unfold noteArm; split <;> rfl

@[simp] theorem noteArm_xferCalls (s : State) : (noteArm s).xferCalls = s.xferCalls := by
  unfold noteArm; split <;> rfl

@[simp] theorem noteArm_openCalls (s : State) : (noteArm s).openCalls = s.openCalls := by
  unfold noteArm; split <;> rfl

@[simp] theorem noteArm_cwTrace (s : State) : (noteArm s).cwTrace = s.cwTrace := by
  unfold noteArm; split <;> rfl

@[simp] theorem noteArm_xferTrace (s : State) : (noteArm s).xferTrace = s.xferTrace := by
  unfold noteArm; split <;> rfl

@[simp] theorem noteArm_plotTrace (s : State) : (noteArm s).plotTrace = s.plotTrace := by
  unfold noteArm; split <;> rfl

@[simp] theorem noteArm_gpioTrace (s : State) : (noteArm s).gpioTrace = s.gpioTrace := by
  unfold noteArm; split <;> rfl

@[simp] theorem noteArm_respTrace (s : State) : (noteArm s).respTrace = s.respTrace := by
  unfold noteArm; split <;> rfl

@[simp] theorem noteArm_sink (s : State) : (noteArm s).sink = s.sink := by
  unfold noteArm; split <;> rfl

@[simp] theorem noteRaw_pack (cw : Codeword) (s : State) : (noteRaw cw s).pack = s.pack := by
  unfold noteRaw noteData; split_ifs <;> rfl

@[simp] theorem noteRaw_asm (cw : Codeword) (s : State) : (noteRaw cw s).asm = s.asm := by
  unfold noteRaw noteData; split_ifs <;> rfl

@[simp] theorem noteRaw_win (cw : Codeword) (s : State) : (noteRaw cw s).win = s.win := by
  unfold noteRaw noteData; split_ifs <;> rfl

@[simp] theorem noteRaw_dev (cw : Codeword) (s : State) : (noteRaw cw s).dev = s.dev := by
  unfold noteRaw noteData; split_ifs <;> rfl

@[simp] theorem noteRaw_fg (cw : Codeword) (s : State) : (noteRaw cw s).fg = s.fg := by
  unfold noteRaw noteData; split_ifs <;> rfl

@[simp] theorem noteRaw_bg (cw : Codeword) (s : State) : (noteRaw cw s).bg = s.bg := by
  unfold noteRaw noteData; split_ifs <;> rfl

@[simp] theorem noteRaw_ready (cw : Codeword) (s : State) : (noteRaw cw s).ready = s.ready := by
  unfold noteRaw noteData; split_ifs <;> rfl

@[simp] theorem noteRaw_line (cw : Codeword) (s : State) : (noteRaw cw s).line = s.line := by
  unfold noteRaw noteData; split_ifs <;> rfl

@[simp] theorem noteRaw_circle (cw : Codeword) (s : State) : (noteRaw cw s).circle = s.circle := by
  unfold noteRaw noteData; split_ifs <;> rfl

@[simp] theorem noteRaw_text (cw : Codeword) (s : State) : (noteRaw cw s).text = s.text := by
  unfold noteRaw noteData; split_ifs <;> rfl

@[simp] theorem noteRaw_board (cw : Codeword) (s : State) : (noteRaw cw s).board = s.board := by
  unfold noteRaw noteData; split_ifs <;> rfl

@[simp] theorem noteRaw_policy (cw : Codeword) (s : State) : (noteRaw cw s).policy = s.policy := by
  unfold noteRaw noteData; split_ifs <;> rfl

@[simp] theorem noteRaw_requests (cw : Codeword) (s : State) : (noteRaw cw s).requests = s.requests := by
  unfold noteRaw noteData; split_ifs <;> rfl

@[simp] theorem noteRaw_xferBuf (cw : Codeword) (s : State) : (noteRaw cw s).xferBuf = s.xferBuf := by
  unfold noteRaw noteData; split_ifs <;> rfl

@[simp] theorem noteRaw_xferCalls (cw : Codeword) (s : State) : (noteRaw cw s).xferCalls = s.xferCalls := by
  unfold noteRaw noteData; split_ifs <;> rfl

@[simp] theorem noteRaw_openCalls (cw : Codeword) (s : State) : (noteRaw cw s).openCalls = s.openCalls := by
  unfold noteRaw noteData; split_ifs <;> rfl

@[simp] theorem noteRaw_cwTrace (cw : Codeword) (s : State) : (noteRaw cw s).cwTrace = s.cwTrace := by
  unfold noteRaw noteData; split_ifs <;> rfl

@[simp] theorem noteRaw_xferTrace (cw : Codeword) (s : State) : (noteRaw cw s).xferTrace = s.xferTrace := by
  unfold noteRaw noteData; split_ifs <;> rfl

@[simp] theorem noteRaw_plotTrace (cw : Codeword) (s : State) : (noteRaw cw s).plotTrace = s.plotTrace := by
  unfold noteRaw noteData; split_ifs <;> rfl

@[simp] theorem noteRaw_gpioTrace (cw : Codeword) (s : State) : (noteRaw cw s).gpioTrace = s.gpioTrace := by
  unfold noteRaw noteData; split_ifs <;> rfl

@[simp] theorem noteRaw_respTrace (cw : Codeword) (s : State) : (noteRaw cw s).respTrace = s.respTrace := by
  unfold noteRaw noteData; split_ifs <;> rfl

@[simp] theorem noteRaw_sink (cw : Codeword) (s : State) : (noteRaw cw s).sink = s.sink := by
  unfold noteRaw noteData; split_ifs <;> rfl

end Sys2Proof.Machine
end

