-- ==== Sys2Proof/Laws/Sequencing.lean ====
section
/-! SUPPORT. How micro-operations compose: the laws of `andThen`, `onExit`, `forEach`, `repeatN`, `finish`, `gated`, and one
package for a property that every micro-operation of a sequence keeps. -/

namespace Sys2Proof.Machine

@[simp] theorem andThen_ok (s : State) (f : State → Res) : (Res.ok s).andThen f = f s := rfl
@[simp] theorem andThen_abort (s : State) (f : State → Res) : (Res.abort s).andThen f = .abort s := rfl
@[simp] theorem andThen_overfull (s : State) (f : State → Res) : (Res.overfull s).andThen f = .overfull s := rfl

theorem andThen_assoc (r : Res) (f g : State → Res) : (r.andThen f).andThen g = r.andThen fun s => (f s).andThen g := by
  cases r <;> rfl

@[simp] theorem onExit_ok (s : State) (f : State → State) : (Res.ok s).onExit f = .ok (f s) := rfl
@[simp] theorem onExit_abort (s : State) (f : State → State) : (Res.abort s).onExit f = .abort (f s) := rfl
@[simp] theorem onExit_overfull (s : State) (f : State → State) : (Res.overfull s).onExit f = .overfull (f s) := rfl

@[simp] theorem finish_ok (s : State) : finish (.ok s) = .next (respond .ok s) := rfl
@[simp] theorem finish_abort (s : State) : finish (.abort s) = .next (takeAbort s) := rfl
@[simp] theorem finish_overfull (s : State) : finish (.overfull s) = .fault .batchOverfull := rfl

theorem gated_ready {s : State} (h : s.ready = true) (op : State → Host.Outcome State Fault Refusal) :
    gated s op = op s := by
  simp [gated, h]

theorem gated_notReady {s : State} (h : s.ready = false) (op : State → Host.Outcome State Fault Refusal) :
    gated s op = .next (respond .eOpen s) := by
  simp [gated, h, reject]

@[simp] theorem repeatN_zero (f : State → Res) (s : State) : repeatN 0 f s = .ok s := rfl

theorem repeatN_succ (n : Nat) (f : State → Res) (s : State) :
    repeatN (n + 1) f s = (f s).andThen (repeatN n f) := rfl

section
variable {α : Type}

@[simp] theorem forEach_nil (f : α → State → Res) (s : State) : forEach [] f s = .ok s := rfl

theorem forEach_cons (a : α) (l : List α) (f : α → State → Res) (s : State) :
    forEach (a :: l) f s = (f a s).andThen (forEach l f) := rfl

theorem forEach_append (l m : List α) (f : α → State → Res) (s : State) :
    forEach (l ++ m) f s = (forEach l f s).andThen (forEach m f) := by
  induction l generalizing s with
  | nil => rfl
  | cons a l ih =>
    rw [List.cons_append, forEach_cons, forEach_cons, andThen_assoc]
    exact congrArg _ (funext ih)

/-- `repeat n times` is a loop over any list of that length. -/
theorem repeatN_eq_forEach (n : Nat) (f : State → Res) (s : State) :
    repeatN n f s = forEach (List.replicate n ()) (fun _ => f) s := by
  induction n generalizing s with
  | zero => rfl
  | succ n ih =>
    rw [repeatN_succ, List.replicate_succ, forEach_cons]
    exact congrArg _ (funext ih)

end

/-! ### A property every micro-operation keeps -/

/-- The micro-operation ends, normally or by abort, in a state with the property, and never finds the batch overfull. -/
def Res.Ends (P : State → Prop) : Res → Prop
  | .ok s => P s
  | .abort s => P s
  | .overfull _ => False

/-- From every state with the property, the micro-operation ends in one. -/
def KeepsFrom (P : State → Prop) (f : State → Res) : Prop := ∀ s, P s → (f s).Ends P

theorem KeepsFrom.andThen {P : State → Prop} {f g : State → Res} (hf : KeepsFrom P f) (hg : KeepsFrom P g) :
    KeepsFrom P fun s => (f s).andThen g := by
  intro s hs
  have h := hf s hs
  show ((f s).andThen g).Ends P
  cases hr : f s with
  | ok t => rw [hr] at h; exact hg t h
  | abort t => rw [hr] at h; exact h
  | overfull t => rw [hr] at h; exact h

theorem KeepsFrom.update {P : State → Prop} {u : State → State} (h : ∀ s, P s → P (u s)) :
    KeepsFrom P fun s => .ok (u s) :=
  h

theorem KeepsFrom.after {P : State → Prop} {u : State → State} {f : State → Res} (h : ∀ s, P s → P (u s))
    (hf : KeepsFrom P f) : KeepsFrom P fun s => f (u s) :=
  fun s hs => hf (u s) (h s hs)

theorem KeepsFrom.onExit {P : State → Prop} {u : State → State} {f : State → Res} (hf : KeepsFrom P f)
    (h : ∀ s, P s → P (u s)) : KeepsFrom P fun s => (f s).onExit u := by
  intro s hs
  have h' := hf s hs
  show ((f s).onExit u).Ends P
  cases hr : f s with
  | ok t => rw [hr] at h'; exact h t h'
  | abort t => rw [hr] at h'; exact h t h'
  | overfull t => rw [hr] at h'; exact h'

theorem KeepsFrom.forEach {α : Type} {P : State → Prop} {f : α → State → Res} (l : List α)
    (hf : ∀ a, KeepsFrom P (f a)) : KeepsFrom P (forEach l f) := by
  induction l with
  | nil => exact fun _ hs => hs
  | cons a l ih => exact (hf a).andThen ih

theorem KeepsFrom.forRange {P : State → Prop} {f : Nat → State → Res} (n : Nat) (hf : ∀ k, KeepsFrom P (f k)) :
    KeepsFrom P (forRange n f) :=
  KeepsFrom.forEach _ hf

theorem KeepsFrom.repeatN {P : State → Prop} {f : State → Res} (n : Nat) (hf : KeepsFrom P f) :
    KeepsFrom P (repeatN n f) := by
  induction n with
  | zero => exact fun _ hs => hs
  | succ n ih => exact hf.andThen ih

end Sys2Proof.Machine
end

