-- ==== Sys2Proof/Laws/Pack.lean ====
section
/-! SUPPORT. The Pack Buffer under pushes (spec/40_codec.md R120, R123): what one push can do, and how a list of codewords
composes. -/

namespace Sys2Proof.Machine

open Sys2Proof.Config

@[simp] theorem packCodeword_cnt (cw : Codeword) (p : PackBuffer) : (packCodeword cw p).cnt = p.cnt + 1 := by
  unfold packCodeword
  dsimp only
  split <;> rfl

theorem packNext_cnt (cw : Codeword) (p : PackBuffer) (h : p.cnt < batch) :
    (packNext p cw).cnt = (p.cnt + 1) % batch := by
  unfold packNext
  dsimp only
  rw [packCodeword_cnt]
  split
  · next h' => rw [h']; rfl
  · rw [packCodeword_cnt, Nat.mod_eq_of_lt]; omega

@[simp] theorem packAll_nil (p : PackBuffer) : packAll p [] = p := rfl

theorem packAll_cons (p : PackBuffer) (cw : Codeword) (ws : List Codeword) :
    packAll p (cw :: ws) = packAll (packNext p cw) ws := rfl

theorem packAll_append (p : PackBuffer) (a b : List Codeword) : packAll p (a ++ b) = packAll (packAll p a) b := by
  simp [packAll]

theorem packAll_cnt (p : PackBuffer) (ws : List Codeword) (h : p.cnt < batch) :
    (packAll p ws).cnt = (p.cnt + ws.length) % batch := by
  induction ws generalizing p with
  | nil => simp [Nat.mod_eq_of_lt h]
  | cons cw ws ih =>
    rw [packAll_cons, ih, packNext_cnt cw p h, List.length_cons]
    · rw [Nat.mod_add_mod, Nat.add_assoc, Nat.add_comm 1]
    · rw [packNext_cnt cw p h]; exact Nat.mod_lt _ (by decide)

theorem packAll_cnt_lt (p : PackBuffer) (ws : List Codeword) (h : p.cnt < batch) : (packAll p ws).cnt < batch := by
  rw [packAll_cnt p ws h]
  exact Nat.mod_lt _ (by decide)

@[simp] theorem batchesOf_nil (p : PackBuffer) : batchesOf p [] = [] := rfl

theorem batchesOf_cons (p : PackBuffer) (cw : Codeword) (ws : List Codeword) :
    batchesOf p (cw :: ws) =
      (if (packCodeword cw p).cnt = batch then [(packCodeword cw p).out.toList] else []) ++
        batchesOf (packNext p cw) ws := by
  unfold packNext
  conv => lhs; unfold batchesOf
  dsimp only
  split <;> rfl

theorem batchesOf_append (p : PackBuffer) (a b : List Codeword) :
    batchesOf p (a ++ b) = batchesOf p a ++ batchesOf (packAll p a) b := by
  induction a generalizing p with
  | nil => rfl
  | cons cw a ih => rw [List.cons_append, batchesOf_cons, batchesOf_cons, ih, packAll_cons, List.append_assoc]

theorem batchesOf_length (p : PackBuffer) (ws : List Codeword) (h : p.cnt < batch) :
    (batchesOf p ws).length = (p.cnt + ws.length) / batch := by
  induction ws generalizing p with
  | nil => simp [Nat.div_eq_of_lt h]
  | cons cw ws ih =>
    rw [batchesOf_cons, List.length_append, ih, packNext_cnt cw p h, packCodeword_cnt, List.length_cons]
    · have hb : batch = 1024 := rfl
      rw [hb] at h ⊢
      split <;> simp <;> omega
    · rw [packNext_cnt cw p h]; exact Nat.mod_lt _ (by decide)

/-! ### Batches handed to the transport -/

@[simp] theorem sentFrom_nil (s : State) : sentFrom s [] = s := rfl

theorem sentFrom_append (s : State) (a b : List (List Word16)) : sentFrom s (a ++ b) = sentFrom (sentFrom s a) b := by
  induction a generalizing s with
  | nil => rfl
  | cons x a ih => exact ih _

theorem sentFrom_xferCalls (s : State) (bs : List (List Word16)) : (sentFrom s bs).xferCalls = s.xferCalls + bs.length := by
  induction bs generalizing s with
  | nil => rfl
  | cons b bs ih =>
    rw [sentFrom, ih, transferred_xferCalls, List.length_cons]
    omega

/-- A transfer neither reads nor writes a field that is not a port's, the sink's or a parameter's: replacing the others
before it is replacing them after it. -/
theorem sentFrom_with (s : State) (bs : List (List Word16)) (p : PackBuffer) (a : AddrState) (w : Window) (f g : Word16)
    (r : Bool) (l : LineEngine) (c : CircleEngine) (t : TextEngine) (cw : List Codeword)
    (pl : List (Int × Int × Word16)) :
    sentFrom { s with pack := p, asm := a, win := w, fg := f, bg := g, ready := r, line := l, circle := c, text := t,
                      cwTrace := cw, plotTrace := pl } bs =
      { sentFrom s bs with pack := p, asm := a, win := w, fg := f, bg := g, ready := r, line := l, circle := c,
                           text := t, cwTrace := cw, plotTrace := pl } := by
  induction bs generalizing s with
  | nil => rfl
  | cons b bs ih => exact ih (transferred b (xferStatus s.board s.xferCalls) s)

/-- The fields a list of batches leaves as they are. -/
theorem sentFrom_frame (s : State) (bs : List (List Word16)) :
    sentFrom s bs =
      { s with xferCalls := (sentFrom s bs).xferCalls, xferBuf := (sentFrom s bs).xferBuf,
               xferTrace := (sentFrom s bs).xferTrace, strays := (sentFrom s bs).strays,
               sink := (sentFrom s bs).sink } := by
  induction bs generalizing s with
  | nil => rfl
  | cons b bs ih => rw [sentFrom, ih]; rfl

@[simp] theorem sentFrom_asm (s : State) (bs : List (List Word16)) : (sentFrom s bs).asm = s.asm := by
  rw [sentFrom_frame]

@[simp] theorem sentFrom_win (s : State) (bs : List (List Word16)) : (sentFrom s bs).win = s.win := by
  rw [sentFrom_frame]

@[simp] theorem sentFrom_dev (s : State) (bs : List (List Word16)) : (sentFrom s bs).dev = s.dev := by
  rw [sentFrom_frame]

@[simp] theorem sentFrom_fg (s : State) (bs : List (List Word16)) : (sentFrom s bs).fg = s.fg := by
  rw [sentFrom_frame]

@[simp] theorem sentFrom_bg (s : State) (bs : List (List Word16)) : (sentFrom s bs).bg = s.bg := by
  rw [sentFrom_frame]

@[simp] theorem sentFrom_ready (s : State) (bs : List (List Word16)) : (sentFrom s bs).ready = s.ready := by
  rw [sentFrom_frame]

@[simp] theorem sentFrom_line (s : State) (bs : List (List Word16)) : (sentFrom s bs).line = s.line := by
  rw [sentFrom_frame]

@[simp] theorem sentFrom_circle (s : State) (bs : List (List Word16)) : (sentFrom s bs).circle = s.circle := by
  rw [sentFrom_frame]

@[simp] theorem sentFrom_text (s : State) (bs : List (List Word16)) : (sentFrom s bs).text = s.text := by
  rw [sentFrom_frame]

@[simp] theorem sentFrom_board (s : State) (bs : List (List Word16)) : (sentFrom s bs).board = s.board := by
  rw [sentFrom_frame]

@[simp] theorem sentFrom_policy (s : State) (bs : List (List Word16)) : (sentFrom s bs).policy = s.policy := by
  rw [sentFrom_frame]

@[simp] theorem sentFrom_requests (s : State) (bs : List (List Word16)) : (sentFrom s bs).requests = s.requests := by
  rw [sentFrom_frame]

@[simp] theorem sentFrom_openCalls (s : State) (bs : List (List Word16)) : (sentFrom s bs).openCalls = s.openCalls := by
  rw [sentFrom_frame]

@[simp] theorem sentFrom_plotTrace (s : State) (bs : List (List Word16)) : (sentFrom s bs).plotTrace = s.plotTrace := by
  rw [sentFrom_frame]

@[simp] theorem sentFrom_gpioTrace (s : State) (bs : List (List Word16)) : (sentFrom s bs).gpioTrace = s.gpioTrace := by
  rw [sentFrom_frame]

@[simp] theorem sentFrom_respTrace (s : State) (bs : List (List Word16)) : (sentFrom s bs).respTrace = s.respTrace := by
  rw [sentFrom_frame]

@[simp] theorem sentFrom_pack (s : State) (bs : List (List Word16)) : (sentFrom s bs).pack = s.pack := by
  rw [sentFrom_frame]

@[simp] theorem sentFrom_cwTrace (s : State) (bs : List (List Word16)) : (sentFrom s bs).cwTrace = s.cwTrace := by
  rw [sentFrom_frame]

/-- The marks of the window duty belong to the pending batch: a transfer clears them (log 29). -/
theorem sentFrom_strays (s : State) (bs : List (List Word16)) :
    (sentFrom s bs).strays = if bs = [] then s.strays else [] := by
  induction bs generalizing s with
  | nil => rfl
  | cons b bs ih =>
    rw [sentFrom, ih, transferred_strays, ite_self, if_neg (List.cons_ne_nil b bs)]

/-- What a failed batch does to the sink does not depend on the marks (R277). -/
theorem sentFrom_failed_strays (s : State) (b : List Word16) (bs : List (List Word16)) (l : List Nat)
    (h : xferStatus s.board s.xferCalls < 0) : sentFrom { s with strays := l } (b :: bs) = sentFrom s (b :: bs) := by
  unfold sentFrom
  congr 1
  simp only [transferred, sinkAfter, h, if_true]

/-! ### A list of codewords sent -/

theorem sendAll_strays (s : State) (ws : List Codeword) :
    (sendAll s ws).strays = if batchesOf s.pack ws = [] then s.strays else [] :=
  sentFrom_strays s _

theorem sendAll_failed_strays (s : State) (ws : List Codeword) (l : List Nat) (hb : batchesOf s.pack ws ≠ [])
    (h : xferStatus s.board s.xferCalls < 0) : sendAll { s with strays := l } ws = sendAll s ws := by
  obtain ⟨b, bs, e⟩ := List.exists_cons_of_ne_nil hb
  have hs := sentFrom_failed_strays s b bs l h
  unfold sendAll
  dsimp only
  rw [e, hs]

@[simp] theorem sendAll_asm (s : State) (ws : List Codeword) : (sendAll s ws).asm = s.asm :=
  sentFrom_asm s _

@[simp] theorem sendAll_win (s : State) (ws : List Codeword) : (sendAll s ws).win = s.win :=
  sentFrom_win s _

@[simp] theorem sendAll_dev (s : State) (ws : List Codeword) : (sendAll s ws).dev = s.dev :=
  sentFrom_dev s _

@[simp] theorem sendAll_fg (s : State) (ws : List Codeword) : (sendAll s ws).fg = s.fg :=
  sentFrom_fg s _

@[simp] theorem sendAll_bg (s : State) (ws : List Codeword) : (sendAll s ws).bg = s.bg :=
  sentFrom_bg s _

@[simp] theorem sendAll_ready (s : State) (ws : List Codeword) : (sendAll s ws).ready = s.ready :=
  sentFrom_ready s _

@[simp] theorem sendAll_line (s : State) (ws : List Codeword) : (sendAll s ws).line = s.line :=
  sentFrom_line s _

@[simp] theorem sendAll_circle (s : State) (ws : List Codeword) : (sendAll s ws).circle = s.circle :=
  sentFrom_circle s _

@[simp] theorem sendAll_text (s : State) (ws : List Codeword) : (sendAll s ws).text = s.text :=
  sentFrom_text s _

@[simp] theorem sendAll_board (s : State) (ws : List Codeword) : (sendAll s ws).board = s.board :=
  sentFrom_board s _

@[simp] theorem sendAll_policy (s : State) (ws : List Codeword) : (sendAll s ws).policy = s.policy :=
  sentFrom_policy s _

@[simp] theorem sendAll_requests (s : State) (ws : List Codeword) : (sendAll s ws).requests = s.requests :=
  sentFrom_requests s _

@[simp] theorem sendAll_openCalls (s : State) (ws : List Codeword) : (sendAll s ws).openCalls = s.openCalls :=
  sentFrom_openCalls s _

@[simp] theorem sendAll_plotTrace (s : State) (ws : List Codeword) : (sendAll s ws).plotTrace = s.plotTrace :=
  sentFrom_plotTrace s _

@[simp] theorem sendAll_gpioTrace (s : State) (ws : List Codeword) : (sendAll s ws).gpioTrace = s.gpioTrace :=
  sentFrom_gpioTrace s _

@[simp] theorem sendAll_respTrace (s : State) (ws : List Codeword) : (sendAll s ws).respTrace = s.respTrace :=
  sentFrom_respTrace s _

@[simp] theorem sendAll_pack (s : State) (ws : List Codeword) : (sendAll s ws).pack = packAll s.pack ws := rfl

@[simp] theorem sendAll_cwTrace (s : State) (ws : List Codeword) : (sendAll s ws).cwTrace = s.cwTrace ++ ws := rfl

@[simp] theorem sendAll_xferCalls (s : State) (ws : List Codeword) :
    (sendAll s ws).xferCalls = s.xferCalls + (batchesOf s.pack ws).length :=
  sentFrom_xferCalls s _

@[simp] theorem sendAll_nil (s : State) : sendAll s [] = s := by
  simp [sendAll]

theorem sendAll_append (s : State) (a b : List Codeword) : sendAll (sendAll s a) b = sendAll s (a ++ b) := by
  have h := sentFrom_with (sentFrom s (batchesOf s.pack a)) (batchesOf (packAll s.pack a) b) (packAll s.pack a) s.asm s.win
    s.fg s.bg s.ready s.line s.circle s.text (s.cwTrace ++ a) s.plotTrace
  have e : sendAll s a =
      { sentFrom s (batchesOf s.pack a) with
        pack := packAll s.pack a, asm := s.asm, win := s.win, fg := s.fg, bg := s.bg, ready := s.ready, line := s.line,
        circle := s.circle, text := s.text, cwTrace := s.cwTrace ++ a, plotTrace := s.plotTrace } := by
    rw [sendAll, sentFrom_frame]
  have l : sendAll (sendAll s a) b =
      { sentFrom (sendAll s a) (batchesOf (packAll s.pack a) b) with
        cwTrace := (s.cwTrace ++ a) ++ b, pack := packAll (packAll s.pack a) b } := rfl
  rw [l, e, h, sendAll, batchesOf_append, sentFrom_append, packAll_append, ← List.append_assoc,
    sentFrom_frame (sentFrom s (batchesOf s.pack a))]
  simp

theorem sendAll_cnt_lt {s : State} (ws : List Codeword) (h : s.pack.cnt < batch) : (sendAll s ws).pack.cnt < batch :=
  packAll_cnt_lt _ _ h

theorem wordsOk_append (s : State) (a b : List Codeword) :
    WordsOk s (a ++ b) ↔ WordsOk s a ∧ WordsOk (sendAll s a) b := by
  unfold WordsOk
  simp only [batchesOf_append, List.length_append, sendAll_pack, sendAll_xferCalls, sendAll_board]
  constructor
  · intro h
    refine ⟨fun j hj => h j (by omega), fun j hj => ?_⟩
    have := h ((batchesOf s.pack a).length + j) (by omega)
    rwa [← Nat.add_assoc] at this
  · rintro ⟨h1, h2⟩ j hj
    by_cases hlt : j < (batchesOf s.pack a).length
    · exact h1 j hlt
    · have := h2 (j - (batchesOf s.pack a).length) (by omega)
      rwa [show s.xferCalls + (batchesOf s.pack a).length + (j - (batchesOf s.pack a).length) = s.xferCalls + j by
        omega] at this

/-- The first failure of a longer list falls in its first part or after it. -/
theorem firstFailure_append {s : State} {a b : List Codeword} {j : Nat} (h : FirstFailure s (a ++ b) j) :
    FirstFailure s a j ∨ (WordsOk s a ∧ (batchesOf s.pack a).length ≤ j ∧
      FirstFailure (sendAll s a) b (j - (batchesOf s.pack a).length)) := by
  obtain ⟨h1, h2, h3⟩ := h
  by_cases hlt : j < (batchesOf s.pack a).length
  · exact .inl ⟨hlt, h2, h3⟩
  · refine .inr ⟨fun k hk => h3 k (by omega), by omega, ?_, ?_, ?_⟩
    · rw [batchesOf_append, List.length_append] at h1
      rw [sendAll_pack]
      omega
    · rw [sendAll_xferCalls, sendAll_board,
        show s.xferCalls + (batchesOf s.pack a).length + (j - (batchesOf s.pack a).length) = s.xferCalls + j by omega]
      exact h2
    · intro k hk
      rw [sendAll_xferCalls, sendAll_board, Nat.add_assoc]
      exact h3 _ (by omega)

theorem cutWords_append_left {s : State} {a : List Codeword} (b : List Codeword) {j : Nat} (hc : s.pack.cnt < batch)
    (h : j < (batchesOf s.pack a).length) : cutWords s (a ++ b) j = cutWords s a j := by
  rw [batchesOf_length _ _ hc] at h
  unfold cutWords
  rw [List.take_append_of_le_length]
  simp only [show batch = 1024 from rfl] at *
  omega

theorem cutWords_append_right {s : State} {a : List Codeword} (b : List Codeword) {j : Nat} (hc : s.pack.cnt < batch)
    (h : (batchesOf s.pack a).length ≤ j) :
    cutWords s (a ++ b) j = a ++ cutWords (sendAll s a) b (j - (batchesOf s.pack a).length) := by
  have hl := batchesOf_length s.pack a hc
  have hn := packAll_cnt s.pack a hc
  unfold cutWords
  rw [sendAll_pack, hn, hl]
  rw [hl] at h
  simp only [show batch = 1024 from rfl] at *
  have e : 1024 * (j + 1) - s.pack.cnt =
      a.length + (1024 * (j - (s.pack.cnt + a.length) / 1024 + 1) - (s.pack.cnt + a.length) % 1024) := by
    omega
  rw [e, List.take_length_add_append]

/-! ### One push -/

/-- What one push can do (R120, R123, R126): with the batch already full it is overfull; otherwise it sends its codeword,
and it aborts exactly when that fills the batch and the transfer fails. -/
theorem push_eq (c : Carrier) (s : State) :
    push c s =
      if s.pack.cnt ≥ batch then .overfull s
      else if s.pack.cnt + 1 = batch ∧ xferStatus s.board s.xferCalls < 0 then .abort (sendAll s [codewordOf c])
      else .ok (sendAll s [codewordOf c]) := by
  unfold push flush sendAll
  simp only [batchesOf_cons, batchesOf_nil, packAll_cons, packAll_nil, List.append_nil, packNext, packCodeword_cnt]
  by_cases h : s.pack.cnt ≥ batch
  · simp [h]
  · by_cases hb : s.pack.cnt + 1 = batch
    · simp only [hb, if_true, true_and]
      rw [if_neg h, if_neg h]
      rfl
    · simp only [hb, if_false, false_and, sentFrom_nil]

theorem push_ok {c : Carrier} {s : State} (h : s.pack.cnt < batch) (ok : WordsOk s [codewordOf c]) :
    push c s = .ok (sendAll s [codewordOf c]) := by
  rw [push_eq, if_neg (by omega), if_neg]
  rintro ⟨h1, h2⟩
  have := ok 0 (by rw [batchesOf_length _ _ h, List.length_singleton, h1]; decide)
  exact absurd this (by simpa using h2)

theorem push_fails {c : Carrier} {s : State} (h : s.pack.cnt < batch) {j : Nat} (hf : FirstFailure s [codewordOf c] j) :
    push c s = .abort (sendAll s (cutWords s [codewordOf c] j)) := by
  obtain ⟨h1, h2, -⟩ := hf
  rw [batchesOf_length _ _ h, List.length_singleton] at h1
  have hb : batch = 1024 := rfl
  rw [hb] at h h1
  obtain rfl : j = 0 := by omega
  rw [push_eq, hb, if_neg (by omega), if_pos ⟨by omega, by simpa using h2⟩]
  unfold cutWords
  rw [hb, show 1024 * (0 + 1) - s.pack.cnt = 1 by omega]
  rfl

/-- Whatever the transport answers, a push from below the batch size is not overfull and stays below it (R35 (c),
R126). -/
theorem push_keeps_cnt (c : Carrier) : KeepsFrom (fun s => s.pack.cnt < batch) (push c) := by
  intro s hs
  rw [push_eq, if_neg (by omega)]
  split <;> exact sendAll_cnt_lt _ hs

end Sys2Proof.Machine
end

