-- ==== Sys2Proof/Laws/Stream.lean ====
section
/-! SUPPORT. What a stream of draws does, whole or cut short, and the shared operations of the block as streams of draws: the
Framer (spec/41_framer.md), the windows (spec/42_addressing.md R150 to R156), `Plot` and the fill (spec/43_raster.md R170,
R172). One lemma per operation says everything it can do. -/

namespace Sys2Proof.Machine

open Sys2Proof.Config

/-! ### Codewords of a stream -/

@[simp] theorem codewordsOf_nil (d : DeviceState) : codewordsOf d [] = [] := rfl

theorem codewordsOf_cons (d : DeviceState) (x : Draw) (ds : List Draw) :
    codewordsOf d (x :: ds) = drawCodewords d x ++ codewordsOf d ds := rfl

theorem codewordsOf_append (d : DeviceState) (a b : List Draw) :
    codewordsOf d (a ++ b) = codewordsOf d a ++ codewordsOf d b := by
  simp [codewordsOf]

@[simp] theorem codewordsOf_singleton (d : DeviceState) (x : Draw) : codewordsOf d [x] = drawCodewords d x := by
  simp [codewordsOf]

theorem frameWindow_length (d : DeviceState) (x0 y0 x1 y1 : Word16) : (frameWindow d x0 y0 x1 y1).length = 10 := by
  unfold frameWindow
  cases d.orient <;> rfl

/-- Every draw has a codeword. -/
theorem drawCodewords_pos (d : DeviceState) (x : Draw) : 0 < (drawCodewords d x).length := by
  cases x <;> simp [drawCodewords, frameWindow_length, frameData16]

theorem begun_append_left (d : DeviceState) (a b : List Draw) (k : Nat) (h : k ≤ (codewordsOf d a).length) :
    begun d (a ++ b) k = begun d a k := by
  induction a generalizing k with
  | nil =>
    obtain rfl : k = 0 := by simpa using h
    cases b <;> rfl
  | cons x a ih =>
    rw [codewordsOf_cons, List.length_append] at h
    simp only [List.cons_append, begun]
    rw [ih _ (by omega)]

theorem begun_append_right (d : DeviceState) (a b : List Draw) (k : Nat) (hk : 0 < k) :
    begun d (a ++ b) ((codewordsOf d a).length + k) = a ++ begun d b k := by
  induction a with
  | nil => simp
  | cons x a ih =>
    rw [codewordsOf_cons, List.length_append]
    simp only [List.cons_append, begun]
    rw [if_neg (by omega), show (drawCodewords d x).length + (codewordsOf d a).length + k - (drawCodewords d x).length =
      (codewordsOf d a).length + k by omega, ih]

theorem winCut_append_left (d : DeviceState) (w : Window) (a b : List Draw) (k : Nat) (hk : 0 < k)
    (h : k ≤ (codewordsOf d a).length) : winCut d w (a ++ b) k = winCut d w a k := by
  induction a generalizing w k with
  | nil => simp at h; omega
  | cons x a ih =>
    rw [codewordsOf_cons, List.length_append] at h
    simp only [List.cons_append, winCut]
    split
    · rfl
    · rw [ih _ _ (by omega) (by omega)]

theorem winCut_append_right (d : DeviceState) (w : Window) (a b : List Draw) (k : Nat) (hk : 0 < k) :
    winCut d w (a ++ b) ((codewordsOf d a).length + k) = winCut d (a.foldl drawWin w) b k := by
  induction a generalizing w with
  | nil => simp
  | cons x a ih =>
    rw [codewordsOf_cons, List.length_append]
    simp only [List.cons_append, winCut, List.foldl_cons]
    rw [if_neg (by omega), show (drawCodewords d x).length + (codewordsOf d a).length + k - (drawCodewords d x).length =
      (codewordsOf d a).length + k by omega, ih]

/-! ### Streams in a state -/

@[simp] theorem streamed_dev (s : State) (ds : List Draw) : (streamed s ds).dev = s.dev := sendAll_dev s _
@[simp] theorem streamed_fg (s : State) (ds : List Draw) : (streamed s ds).fg = s.fg := sendAll_fg s _
@[simp] theorem streamed_bg (s : State) (ds : List Draw) : (streamed s ds).bg = s.bg := sendAll_bg s _
@[simp] theorem streamed_ready (s : State) (ds : List Draw) : (streamed s ds).ready = s.ready := sendAll_ready s _
@[simp] theorem streamed_line (s : State) (ds : List Draw) : (streamed s ds).line = s.line := sendAll_line s _
@[simp] theorem streamed_circle (s : State) (ds : List Draw) : (streamed s ds).circle = s.circle := sendAll_circle s _
@[simp] theorem streamed_text (s : State) (ds : List Draw) : (streamed s ds).text = s.text := sendAll_text s _
@[simp] theorem streamed_board (s : State) (ds : List Draw) : (streamed s ds).board = s.board := sendAll_board s _
@[simp] theorem streamed_policy (s : State) (ds : List Draw) : (streamed s ds).policy = s.policy := sendAll_policy s _
@[simp] theorem streamed_requests (s : State) (ds : List Draw) : (streamed s ds).requests = s.requests :=
  sendAll_requests s _
@[simp] theorem streamed_openCalls (s : State) (ds : List Draw) : (streamed s ds).openCalls = s.openCalls :=
  sendAll_openCalls s _
@[simp] theorem streamed_gpioTrace (s : State) (ds : List Draw) : (streamed s ds).gpioTrace = s.gpioTrace :=
  sendAll_gpioTrace s _
@[simp] theorem streamed_respTrace (s : State) (ds : List Draw) : (streamed s ds).respTrace = s.respTrace :=
  sendAll_respTrace s _
@[simp] theorem streamed_pack (s : State) (ds : List Draw) :
    (streamed s ds).pack = packAll s.pack (codewordsOf s.dev ds) := rfl
@[simp] theorem streamed_cwTrace (s : State) (ds : List Draw) :
    (streamed s ds).cwTrace = s.cwTrace ++ codewordsOf s.dev ds := rfl
@[simp] theorem streamed_xferCalls (s : State) (ds : List Draw) :
    (streamed s ds).xferCalls = s.xferCalls + (batchesOf s.pack (codewordsOf s.dev ds)).length := sendAll_xferCalls s _
@[simp] theorem streamed_plotTrace (s : State) (ds : List Draw) :
    (streamed s ds).plotTrace = s.plotTrace ++ ds.filterMap drawPlot := rfl
@[simp] theorem streamed_win (s : State) (ds : List Draw) : (streamed s ds).win = ds.foldl drawWin s.win := rfl
@[simp] theorem streamed_asm (s : State) (ds : List Draw) : (streamed s ds).asm = ds.foldl drawAsm s.asm := rfl

/-- A list of codewords sent neither reads nor writes these fields: replacing them before is replacing them after. -/
theorem sendAll_with (s : State) (ws : List Codeword) (a : AddrState) (w : Window) (f g : Word16) (r : Bool)
    (l : LineEngine) (c : CircleEngine) (t : TextEngine) (pl : List (Int × Int × Word16)) :
    sendAll { s with asm := a, win := w, fg := f, bg := g, ready := r, line := l, circle := c, text := t,
                     plotTrace := pl } ws =
      { sendAll s ws with asm := a, win := w, fg := f, bg := g, ready := r, line := l, circle := c, text := t,
                          plotTrace := pl } := by
  have h := sentFrom_with s (batchesOf s.pack ws) s.pack a w f g r l c t s.cwTrace pl
  unfold sendAll
  rw [h]

/-- A stream neither reads nor writes these fields. -/
theorem streamed_with (s : State) (ds : List Draw) (f g : Word16) (r : Bool) (l : LineEngine) (c : CircleEngine)
    (t : TextEngine) :
    streamed { s with fg := f, bg := g, ready := r, line := l, circle := c, text := t } ds =
      { streamed s ds with fg := f, bg := g, ready := r, line := l, circle := c, text := t } := by
  have h := sendAll_with s (codewordsOf s.dev ds) s.asm s.win f g r l c t s.plotTrace
  unfold streamed
  rw [h]

@[simp] theorem streamed_nil (s : State) : streamed s [] = s := by
  simp [streamed]

theorem streamed_append (s : State) (a b : List Draw) : streamed (streamed s a) b = streamed s (a ++ b) := by
  have h := sendAll_with (sendAll s (codewordsOf s.dev a)) (codewordsOf s.dev b) (a.foldl drawAsm s.asm)
    (a.foldl drawWin s.win) s.fg s.bg s.ready s.line s.circle s.text (s.plotTrace ++ a.filterMap drawPlot)
  have e : streamed s a =
      { sendAll s (codewordsOf s.dev a) with
        asm := a.foldl drawAsm s.asm, win := a.foldl drawWin s.win, fg := s.fg, bg := s.bg, ready := s.ready,
        line := s.line, circle := s.circle, text := s.text, plotTrace := s.plotTrace ++ a.filterMap drawPlot } := by
    rw [streamed, sendAll, sentFrom_frame]
  have l : streamed (streamed s a) b =
      { sendAll (streamed s a) (codewordsOf s.dev b) with
        plotTrace := (s.plotTrace ++ a.filterMap drawPlot) ++ b.filterMap drawPlot
        win := b.foldl drawWin (a.foldl drawWin s.win)
        asm := b.foldl drawAsm (a.foldl drawAsm s.asm) } := by
    rw [streamed, streamed_dev]; rfl
  rw [l, e, h, sendAll_append, ← codewordsOf_append]
  simp only [streamed, List.foldl_append, List.filterMap_append, List.append_assoc]
  rw [sendAll, sentFrom_frame]

theorem streamed_cnt_lt {s : State} (ds : List Draw) (h : s.pack.cnt < batch) : (streamed s ds).pack.cnt < batch :=
  packAll_cnt_lt _ _ h

/-! ### An operation as a stream -/

/-- The operation `f`, begun in `s`, is the stream `ds`: if every transfer of the stream succeeds it ends normally in
`streamed s ds`; if the `j`-th is the first to fail it aborts in `cutShort s ds j`, but for ASM, which the abort then
writes. -/
structure IsStream (f : State → Res) (s : State) (ds : List Draw) : Prop where
  ok : WordsOk s (codewordsOf s.dev ds) → f s = .ok (streamed s ds)
  cut : ∀ j, FirstFailure s (codewordsOf s.dev ds) j → ∃ a, f s = .abort { cutShort s ds j with asm := a }

/-- Codewords sent after a stream. -/
theorem sendAll_streamed (s : State) (ds : List Draw) (ws : List Codeword) :
    sendAll (streamed s ds) ws =
      { sendAll s (codewordsOf s.dev ds ++ ws) with
        plotTrace := s.plotTrace ++ ds.filterMap drawPlot
        win := ds.foldl drawWin s.win
        asm := ds.foldl drawAsm s.asm } := by
  have h := sendAll_with (sendAll s (codewordsOf s.dev ds)) ws (ds.foldl drawAsm s.asm) (ds.foldl drawWin s.win)
    s.fg s.bg s.ready s.line s.circle s.text (s.plotTrace ++ ds.filterMap drawPlot)
  have e : streamed s ds =
      { sendAll s (codewordsOf s.dev ds) with
        asm := ds.foldl drawAsm s.asm, win := ds.foldl drawWin s.win, fg := s.fg, bg := s.bg, ready := s.ready,
        line := s.line, circle := s.circle, text := s.text, plotTrace := s.plotTrace ++ ds.filterMap drawPlot } := by
    rw [streamed, sendAll, sentFrom_frame]
  rw [e, h, sendAll_append]
  rw [sendAll, sentFrom_frame]

theorem wordsOk_streamed (s : State) (ds : List Draw) (ws : List Codeword) :
    WordsOk (streamed s ds) ws ↔ WordsOk (sendAll s (codewordsOf s.dev ds)) ws := by
  unfold WordsOk
  simp

theorem firstFailure_streamed (s : State) (ds : List Draw) (ws : List Codeword) (j : Nat) :
    FirstFailure (streamed s ds) ws j ↔ FirstFailure (sendAll s (codewordsOf s.dev ds)) ws j := by
  unfold FirstFailure
  simp

/-- The words a cut keeps: as many as fill the failing batch. -/
theorem cutWords_length {s : State} {ws : List Codeword} {j : Nat} (hc : s.pack.cnt < batch) (h : FirstFailure s ws j) :
    (cutWords s ws j).length = batch * (j + 1) - s.pack.cnt ∧ 0 < (cutWords s ws j).length := by
  have h1 := h.1
  rw [batchesOf_length _ _ hc] at h1
  unfold cutWords
  rw [List.length_take]
  simp only [show batch = 1024 from rfl] at *
  omega

theorem cutWords_length_le (s : State) (ws : List Codeword) (j : Nat) : (cutWords s ws j).length ≤ ws.length := by
  unfold cutWords
  rw [List.length_take]
  omega

theorem cutShort_append_left {s : State} {a : List Draw} (b : List Draw) {j : Nat} (hc : s.pack.cnt < batch)
    (h : FirstFailure s (codewordsOf s.dev a) j) : cutShort s (a ++ b) j = cutShort s a j := by
  unfold cutShort
  rw [codewordsOf_append, cutWords_append_left _ hc h.1]
  have hl := cutWords_length_le s (codewordsOf s.dev a) j
  dsimp only
  rw [begun_append_left _ _ _ _ hl, winCut_append_left _ _ _ _ _ (cutWords_length hc h).2 hl]

theorem cutShort_append_right {s : State} {a b : List Draw} {j : Nat} (hc : s.pack.cnt < batch)
    (hj : (batchesOf s.pack (codewordsOf s.dev a)).length ≤ j)
    (h : FirstFailure (streamed s a) (codewordsOf s.dev b) (j - (batchesOf s.pack (codewordsOf s.dev a)).length)) :
    cutShort s (a ++ b) j = cutShort (streamed s a) b (j - (batchesOf s.pack (codewordsOf s.dev a)).length) := by
  have hp := (cutWords_length (streamed_cnt_lt a hc) h).2
  have e : cutWords (streamed s a) = cutWords (sendAll s (codewordsOf s.dev a)) := by
    funext ws k
    unfold cutWords
    rw [streamed_pack, sendAll_pack]
  unfold cutShort
  rw [codewordsOf_append, cutWords_append_right _ hc hj, streamed_dev, e]
  rw [e] at hp
  dsimp only
  rw [List.length_append, begun_append_right _ _ _ _ hp, winCut_append_right _ _ _ _ _ hp, sendAll_streamed]
  simp only [List.filterMap_append, List.append_assoc, streamed_plotTrace, streamed_win]

/-- Two operations in sequence are their streams in sequence. -/
theorem IsStream.andThen {f g : State → Res} {s : State} {a b : List Draw} (hc : s.pack.cnt < batch)
    (hf : IsStream f s a) (hg : IsStream g (streamed s a) b) : IsStream (fun s => (f s).andThen g) s (a ++ b) := by
  constructor
  · intro h
    rw [codewordsOf_append, wordsOk_append] at h
    show (f s).andThen g = _
    rw [hf.ok h.1, andThen_ok, hg.ok (by rw [streamed_dev]; exact (wordsOk_streamed s a _).2 h.2), streamed_append]
  · intro j h
    rw [codewordsOf_append] at h
    rcases firstFailure_append h with h1 | ⟨h1, h2, h3⟩
    · obtain ⟨m, e⟩ := hf.cut j h1
      refine ⟨m, ?_⟩
      show (f s).andThen g = _
      rw [e, andThen_abort, cutShort_append_left b hc h1]
    · rw [← firstFailure_streamed] at h3
      obtain ⟨m, e⟩ := hg.cut _ (by rw [streamed_dev]; exact h3)
      refine ⟨m, ?_⟩
      show (f s).andThen g = _
      rw [hf.ok h1, andThen_ok, e, cutShort_append_right hc h2 h3]

theorem isStream_nil (s : State) : IsStream .ok s [] :=
  ⟨fun _ => by rw [streamed_nil], fun j h => by simpa [FirstFailure] using h.1⟩

/-- A loop over a list is the streams of its elements in order, if each element's operation is a stream wherever the loop
reaches it. -/
theorem isStream_forEach {α : Type} {f : α → State → Res} {s : State} (d : α → List Draw) (l : List α)
    (hc : s.pack.cnt < batch)
    (h : ∀ a t, t.pack.cnt < batch → t.dev = s.dev → t.fg = s.fg → IsStream (f a) t (d a)) :
    IsStream (forEach l f) s (l.flatMap d) := by
  induction l generalizing s with
  | nil => exact isStream_nil s
  | cons a l ih =>
    rw [List.flatMap_cons]
    exact IsStream.andThen hc (h a s hc rfl rfl)
      (ih (streamed_cnt_lt _ hc) fun b t ht hd hf => h b t ht (by rw [hd, streamed_dev]) (by rw [hf, streamed_fg]))

/-! ### The shared operations -/

theorem codewordOf_carrierOf (cw : Codeword) (x : BitVec 7) : codewordOf (carrierOf cw x) = cw := by
  unfold codewordOf carrierOf
  ext i hi
  have h : (cw ++ x : BitVec (9 + 7)).getLsbD (7 + i) = cw[i] := by
    rw [BitVec.getLsbD_append, if_neg (by omega), Nat.add_sub_cancel_left, BitVec.getLsbD_eq_getElem hi]
  simpa using h

/-- A push, ASM as R122 leaves it, is the stream of its codeword. -/
theorem isStream_rawPush (c : Carrier) {s : State} (hc : s.pack.cnt < batch) :
    IsStream (fun s => (push c s).andThen fun s => .ok { s with asm := asmAfterRaw (codewordOf c) s.asm }) s
      [.raw (codewordOf c)] := by
  constructor
  · intro h
    rw [codewordsOf_singleton] at h
    show (push c s).andThen _ = _
    rw [push_ok hc h, andThen_ok, sendAll_asm]
    unfold streamed
    simp only [codewordsOf_singleton, drawCodewords, drawPlot, drawWin, drawAsm, List.filterMap_cons, List.filterMap_nil,
      List.append_nil, List.foldl_cons, List.foldl_nil]
    rw [sendAll, sentFrom_frame]
  · intro j h
    rw [codewordsOf_singleton] at h
    refine ⟨s.asm, ?_⟩
    show (push c s).andThen _ = _
    have hl := cutWords_length hc h
    have hle := cutWords_length_le s (drawCodewords s.dev (.raw (codewordOf c))) j
    have hk : (cutWords s [codewordOf c] j).length = 1 := by
      have : ([codewordOf c] : List Codeword).length = 1 := rfl
      simp only [drawCodewords] at hl hle
      omega
    rw [push_fails hc h, andThen_abort]
    unfold cutShort
    rw [codewordsOf_singleton]
    simp only [drawCodewords] at *
    rw [hk]
    simp only [begun, winCut, drawCodewords, drawPlot, List.length_singleton, Nat.one_ne_zero, if_false, Nat.le_refl,
       if_true, List.filterMap_cons, List.filterMap_nil, List.append_nil]
    rw [if_neg (by decide), sendAll, sentFrom_frame]

/-- The stream of an operation decides what it does: it aborts exactly when a transfer of the stream fails, and otherwise
ends normally. -/
theorem IsStream.cases {f : State → Res} {s : State} {ds : List Draw} (h : IsStream f s ds) :
    (WordsOk s (codewordsOf s.dev ds) ∧ f s = .ok (streamed s ds)) ∨
    ∃ j a, FirstFailure s (codewordsOf s.dev ds) j ∧ f s = .abort { cutShort s ds j with asm := a } := by
  by_cases hw : WordsOk s (codewordsOf s.dev ds)
  · exact .inl ⟨hw, h.ok hw⟩
  · right
    have hex : ∃ k, k < (batchesOf s.pack (codewordsOf s.dev ds)).length ∧
        xferStatus s.board (s.xferCalls + k) < 0 := by
      by_contra hn
      exact hw fun j hj => not_lt.1 fun hlt => hn ⟨j, hj, hlt⟩
    have hf := Nat.find_spec hex
    have hj : FirstFailure s (codewordsOf s.dev ds) (Nat.find hex) :=
      ⟨hf.1, hf.2, fun m hm => not_lt.1 fun hn => Nat.find_min hex hm ⟨hm.trans hf.1, hn⟩⟩
    obtain ⟨a, e⟩ := h.cut _ hj
    exact ⟨_, a, hj, e⟩

/-- A codeword the block pushes for a component: a push that leaves ASM alone, written as a list of codewords. -/
structure IsPushes (f : State → Res) (s : State) (ws : List Codeword) : Prop where
  ok : WordsOk s ws → f s = .ok (sendAll s ws)
  cut : ∀ j, FirstFailure s ws j → f s = .abort (sendAll s (cutWords s ws j))

theorem isPushes_push (c : Carrier) {s : State} (hc : s.pack.cnt < batch) : IsPushes (push c) s [codewordOf c] :=
  ⟨push_ok hc, fun _ => push_fails hc⟩

theorem IsPushes.andThen {f g : State → Res} {s : State} {a b : List Codeword} (hc : s.pack.cnt < batch)
    (hf : IsPushes f s a) (hg : IsPushes g (sendAll s a) b) : IsPushes (fun s => (f s).andThen g) s (a ++ b) := by
  constructor
  · intro h
    rw [wordsOk_append] at h
    show (f s).andThen g = _
    rw [hf.ok h.1, andThen_ok, hg.ok h.2, sendAll_append]
  · intro j h
    show (f s).andThen g = _
    rcases firstFailure_append h with h1 | ⟨h1, h2, h3⟩
    · rw [hf.cut j h1, andThen_abort, cutWords_append_left b hc h1.1]
    · rw [hf.ok h1, andThen_ok, hg.cut _ h3, sendAll_append, cutWords_append_right b hc h2]

theorem isPushes_framerReg (b : Byte) {s : State} (hc : s.pack.cnt < batch) :
    IsPushes (framerReg b) s [cmdCodeword b] := by
  have h := isPushes_push (carrierOf (cmdCodeword b) 0#7) hc
  rwa [codewordOf_carrierOf] at h

theorem isPushes_framerData8 (b : Byte) {s : State} (hc : s.pack.cnt < batch) :
    IsPushes (framerData8 b) s [datCodeword b] := by
  have h := isPushes_push (carrierOf (datCodeword b) 0#7) hc
  rwa [codewordOf_carrierOf] at h

theorem isPushes_framerData16 (w : Word16) {s : State} (hc : s.pack.cnt < batch) :
    IsPushes (framerData16 w) s (frameData16 w) :=
  (isPushes_framerData8 (hiByte w) hc).andThen hc (isPushes_framerData8 (loByte w) (sendAll_cnt_lt _ hc))

theorem isPushes_rangeCmd (code : Byte) (b e : Word16) {s : State} (hc : s.pack.cnt < batch) :
    IsPushes (rangeCmd code b e) s (frameRange code b e) :=
  (((isPushes_framerReg code hc).andThen hc (isPushes_framerData16 b (sendAll_cnt_lt _ hc))).andThen hc
    (isPushes_framerData16 e (sendAll_cnt_lt _ hc)) :)

theorem IsPushes.congr {f g : State → Res} {s : State} {ws : List Codeword} (h : IsPushes f s ws) (e : g s = f s) :
    IsPushes g s ws :=
  ⟨fun hw => e ▸ h.ok hw, fun j hj => e ▸ h.cut j hj⟩

/-- A data byte of the host's own is pushed like any other, from the state with its mark (log 29). -/
theorem isPushes_hostData8 (b : Byte) {s : State} (hc : s.pack.cnt < batch) :
    IsPushes (fun _ => hostData8 b s) (noteData s) [datCodeword b] :=
  (isPushes_framerData8 b (s := noteData s) (by rwa [noteData_pack])).congr rfl

theorem isPushes_windowCmds (x0 y0 x1 y1 : Word16) {s : State} (hc : s.pack.cnt < batch) :
    IsPushes (windowCmds x0 y0 x1 y1) s (frameWindow s.dev x0 y0 x1 y1) := by
  unfold frameWindow
  cases ho : s.dev.orient with
  | portrait =>
    refine IsPushes.congr (IsPushes.andThen hc (isPushes_rangeCmd s.dev.colcmd y0 y1 hc)
      (IsPushes.congr (g := fun t => rangeCmd t.dev.rowcmd x0 x1 t)
        (isPushes_rangeCmd s.dev.rowcmd x0 x1 (sendAll_cnt_lt _ hc)) ?_)) ?_
    · rw [sendAll_dev]
    · unfold windowCmds; rw [ho]
  | landscape =>
    refine IsPushes.congr (IsPushes.andThen hc (isPushes_rangeCmd s.dev.rowcmd y0 y1 hc)
      (IsPushes.congr (g := fun t => rangeCmd t.dev.colcmd x0 x1 t)
        (isPushes_rangeCmd s.dev.colcmd x0 x1 (sendAll_cnt_lt _ hc)) ?_)) ?_
    · rw [sendAll_dev]
    · unfold windowCmds; rw [ho]

/-- What a draw writes besides the codewords it pushes: ASM and WIN after them. -/
theorem streamed_singleton (s : State) (x : Draw) :
    streamed s [x] =
      { sendAll s (drawCodewords s.dev x) with
        plotTrace := s.plotTrace ++ [x].filterMap drawPlot
        win := drawWin s.win x
        asm := drawAsm s.asm x } := by
  rw [streamed, codewordsOf_singleton]
  rfl

/-- Pushes followed by register writes of ASM and WIN, at most ten codewords of one draw. -/
theorem isStream_of_pushes {f g : State → Res} {s : State} (x : Draw) (hc : s.pack.cnt < batch)
    (hp : IsPushes f s (drawCodewords s.dev x)) (hl : (drawCodewords s.dev x).length ≤ 10) (hx : drawPlot x = none)
    (hg : ∀ t, t = sendAll s (drawCodewords s.dev x) →
      g t = .ok { t with win := drawWin s.win x, asm := drawAsm s.asm x }) :
    IsStream (fun s => (f s).andThen g) s [x] := by
  constructor
  · intro h
    rw [codewordsOf_singleton] at h
    show (f s).andThen g = _
    rw [hp.ok h, andThen_ok, hg _ rfl, streamed_singleton]
    simp only [hx, List.filterMap_cons, List.filterMap_nil, List.append_nil]
    rw [sendAll, sentFrom_frame]
  · intro j h
    rw [codewordsOf_singleton] at h
    refine ⟨s.asm, ?_⟩
    show (f s).andThen g = _
    have hk := (cutWords_length hc h).2
    have hle := cutWords_length_le s (drawCodewords s.dev x) j
    rw [hp.cut j h, andThen_abort]
    unfold cutShort
    rw [codewordsOf_singleton]
    generalize cutWords s (drawCodewords s.dev x) j = ws at *
    simp only [begun, winCut]
    rw [if_neg (show ¬ws.length = 0 by omega), if_pos hle, if_neg (show ¬10 < ws.length by omega)]
    simp only [hx, List.filterMap_cons, List.filterMap_nil, List.append_nil]
    rw [sendAll, sentFrom_frame]

theorem IsStream.congr {f g : State → Res} {s : State} {ds : List Draw} (h : IsStream f s ds) (e : g s = f s) :
    IsStream g s ds :=
  ⟨fun hw => e ▸ h.ok hw, fun j hj => e ▸ h.cut j hj⟩

theorem isStream_doSetWindow (x0 y0 x1 y1 : Int) {s : State} (hc : s.pack.cnt < batch) :
    IsStream (doSetWindow x0 y0 x1 y1) s [.setWindow x0 y0 x1 y1] :=
  isStream_of_pushes (.setWindow x0 y0 x1 y1) hc (isPushes_windowCmds _ _ _ _ hc)
    (by simp [drawCodewords, frameWindow_length]) rfl (fun _ _ => rfl)

theorem isStream_doArm {s : State} (hc : s.pack.cnt < batch) : IsStream doArm s [.arm] :=
  isStream_of_pushes (f := fun t => framerReg t.dev.ramcmd t) .arm hc
    (IsPushes.congr (isPushes_framerReg s.dev.ramcmd hc) rfl) (by simp [drawCodewords]) rfl
    (fun t h => by subst h; simp [drawWin, drawAsm])

/-- `OpenWindow` (R155). -/
theorem isStream_openWindow (x0 y0 x1 y1 : Int) {s : State} (hc : s.pack.cnt < batch) :
    IsStream (openWindow x0 y0 x1 y1) s (drawOpen x0 y0 x1 y1) :=
  (isStream_doSetWindow x0 y0 x1 y1 hc).andThen hc (isStream_doArm (streamed_cnt_lt _ hc))

/-- `RestoreFull` (R156). -/
theorem isStream_restoreFull {s : State} (hc : s.pack.cnt < batch) : IsStream restoreFull s (drawRestore s.dev) :=
  IsStream.congr (isStream_openWindow 0 0 (zext s.dev.width - 1) (zext s.dev.height - 1) hc) rfl

/-- One pixel streamed (R142). -/
theorem isStream_framerData16 (w : Word16) {s : State} (hc : s.pack.cnt < batch) :
    IsStream (framerData16 w) s [.pixel w] := by
  refine IsStream.congr (isStream_of_pushes (g := .ok) (.pixel w) hc (isPushes_framerData16 w hc)
    (by simp [drawCodewords, frameData16]) rfl (fun t h => ?_)) ?_
  · subst h
    rw [sendAll, sentFrom_frame]
    rfl
  · cases framerData16 w s <;> rfl

/-- An operation's stream does not depend on the colours, READY, or the engines: written before, they are written after. -/
theorem firstFailure_congr {s t : State} (hp : t.pack = s.pack) (hb : t.board = s.board) (hx : t.xferCalls = s.xferCalls)
    (ws : List Codeword) (j : Nat) : FirstFailure t ws j ↔ FirstFailure s ws j := by
  unfold FirstFailure
  rw [hp, hb, hx]

theorem wordsOk_congr {s t : State} (hp : t.pack = s.pack) (hb : t.board = s.board) (hx : t.xferCalls = s.xferCalls)
    (ws : List Codeword) : WordsOk t ws ↔ WordsOk s ws := by
  unfold WordsOk
  rw [hp, hb, hx]

/-- `Plot` (R170): its window, the arm, one pixel; the point is traced before the first codeword. -/
theorem isStream_plot (x y : Int) (c : Word16) {s : State} (hc : s.pack.cnt < batch) :
    IsStream (plot x y c) s [.plot x y c] := by
  have e := fun ws => sendAll_with s ws s.asm s.win s.fg s.bg s.ready s.line s.circle s.text (s.plotTrace ++ [(x, y, c)])
  have hl : codewordsOf s.dev (drawOpen x y x y ++ [.pixel c]) = codewordsOf s.dev [.plot x y c] := by
    simp [drawOpen, codewordsOf, drawCodewords]
  obtain ⟨ok, cut⟩ := IsStream.andThen (s := { s with plotTrace := s.plotTrace ++ [(x, y, c)] }) hc
    (isStream_openWindow x y x y hc) (isStream_framerData16 c (streamed_cnt_lt _ hc))
  dsimp only at ok cut
  rw [hl] at ok cut
  constructor
  · intro h
    refine (ok h).trans (congrArg Res.ok ?_)
    unfold streamed
    dsimp only
    rw [hl, e]
    simp [drawOpen, drawPlot, drawWin, drawAsm]
  · intro j h
    obtain ⟨a, ha⟩ := cut j h
    refine ⟨a, ha.trans (congrArg Res.abort ?_)⟩
    have hk := (cutWords_length hc h).2
    have hle := cutWords_length_le s (codewordsOf s.dev [.plot x y c]) j
    have hq : cutWords { s with plotTrace := s.plotTrace ++ [(x, y, c)] } = cutWords s := rfl
    unfold cutShort
    dsimp only
    rw [hl, hq, e]
    generalize cutWords s (codewordsOf s.dev [.plot x y c]) j = ws at *
    simp only [codewordsOf_singleton, drawCodewords, List.length_append, frameWindow_length, frameData16, List.length_cons,
      List.length_nil] at hle
    have hb : (begun s.dev (drawOpen x y x y ++ [.pixel c]) ws.length).filterMap drawPlot = [] := by
      simp only [drawOpen, List.cons_append, List.nil_append, begun]
      split_ifs <;> simp [drawPlot]
    have hw : winCut s.dev s.win (drawOpen x y x y ++ [.pixel c]) ws.length = winCut s.dev s.win [.plot x y c] ws.length := by
      simp only [drawOpen, List.cons_append, List.nil_append, winCut, drawCodewords, frameWindow_length, List.length_append,
        frameData16, List.length_cons, List.length_nil, drawWin]
      split_ifs <;> first | rfl | omega
    rw [hb, hw]
    simp only [begun, List.append_nil]
    rw [if_neg (show ¬ws.length = 0 by omega)]
    simp [drawPlot]

/-- `repeat n times` of a stream (R172). -/
theorem isStream_repeatN {f : State → Res} {s : State} (n : Nat) (ds : List Draw) (hc : s.pack.cnt < batch)
    (h : ∀ t, t.pack.cnt < batch → t.dev = s.dev → IsStream f t ds) :
    IsStream (repeatN n f) s (List.replicate n ds).flatten := by
  induction n generalizing s with
  | zero => exact isStream_nil s
  | succ n ih =>
    rw [List.replicate_succ, List.flatten_cons]
    exact IsStream.andThen hc (h s hc rfl)
      (ih (streamed_cnt_lt _ hc) fun t ht hd => h t ht (by rw [hd, streamed_dev]))

/-- The effect of FILL (R172). -/
theorem isStream_doFill (x0 y0 x1 y1 c : Word16) {s : State} (hc : s.pack.cnt < batch) :
    IsStream (doFill x0 y0 x1 y1 c) s (drawFill s.dev x0 y0 x1 y1 c) := by
  have hr := isStream_repeatN (s := streamed s (drawOpen (zext x0) (zext y0) (zext x1) (zext y1)))
    (fillCount x0 y0 x1 y1) [.pixel c] (streamed_cnt_lt _ hc) fun t ht _ => isStream_framerData16 c ht
  have hf : (List.replicate (fillCount x0 y0 x1 y1) [Draw.pixel c]).flatten =
      List.replicate (fillCount x0 y0 x1 y1) (.pixel c) := by
    generalize fillCount x0 y0 x1 y1 = n
    induction n with
    | zero => rfl
    | succ n ih => rw [List.replicate_succ, List.flatten_cons, ih]; rfl
  rw [hf] at hr
  have h := ((isStream_openWindow (zext x0) (zext y0) (zext x1) (zext y1) hc).andThen hc hr).andThen hc
    (isStream_restoreFull (streamed_cnt_lt _ hc))
  rw [streamed_dev] at h
  exact h

end Sys2Proof.Machine
end

