-- ==== Sys2Proof/Laws/Push.lean ====
section
/-! SUPPORT. The batch is never overfull: every push keeps CNT below 1024 (spec/40_codec.md R126), so that INIT, whose pushes
start from the empty Pack Buffer, never meets the model's one fault. -/

namespace Sys2Proof.Machine

open Sys2Proof.Config

/-- One push from a batch not full keeps whatever a sent codeword keeps. -/
theorem keepsFrom_push {P : State → Prop} (hc : ∀ s, P s → s.pack.cnt < batch)
    (hs : ∀ s cw, P s → P (sendAll s [cw])) (c : Carrier) : KeepsFrom P (push c) := by
  intro s h
  rw [push_eq, if_neg (by have := hc s h; omega)]
  split
  · exact hs s _ h
  · exact hs s _ h

theorem keepsFrom_push_cnt (c : Carrier) : KeepsFrom (fun s => s.pack.cnt < batch) (push c) :=
  keepsFrom_push (fun _ h => h) (fun _ _ h => sendAll_cnt_lt _ h) c

theorem keepsFrom_initItem_cnt (it : CmdKind × Byte) : KeepsFrom (fun s => s.pack.cnt < batch) (initItem it) := by
  intro s h
  unfold initItem
  split
  · exact keepsFrom_push_cnt _ s h
  · exact keepsFrom_push_cnt _ s h

/-- INIT's pushes start from the empty Pack Buffer (R230), so its batch is never overfull. -/
theorem initRun_ends (o : Orient) (s : State) : (initRun o s).Ends fun t => t.pack.cnt < batch :=
  ((KeepsFrom.forEach (initSeq s.board o) keepsFrom_initItem_cnt).andThen
    (KeepsFrom.update (u := fun s => { gpioSet .backlight .on s with ready := true }) fun _ h => h)) (initLoad o s)
    (show 0 < batch by decide)

theorem initRun_ne_overfull (o : Orient) (s t : State) : initRun o s ≠ .overfull t := by
  intro h
  have := initRun_ends o s
  rw [h] at this
  exact this

theorem initEnd_eq_finish (o : Orient) (s : State) : finish (initRun o s) = .next (initEnd (initRun o s)) := by
  cases h : initRun o s with
  | ok t => rfl
  | abort t => rfl
  | overfull t => exact absurd h (initRun_ne_overfull o s t)

/-- An entry of INIT_SEQ, as the codeword it pushes. -/
theorem isPushes_initItem (it : CmdKind × Byte) {s : State} (hc : s.pack.cnt < batch) :
    IsPushes (initItem it) s [match it.1 with | .reg => cmdCodeword it.2 | .data => datCodeword it.2] := by
  obtain ⟨k, b⟩ := it
  cases k with
  | reg => exact isPushes_framerReg b hc
  | data => exact isPushes_framerData8 b hc

end Sys2Proof.Machine
end

