-- ==== Sys2Proof/Laws/Engines.lean ====
section
/-! SUPPORT. The operations that run on an engine (spec/10_state.md R21 to R23), as streams of draws together with the engine
registers they leave: `lineStep` and `doLine` (spec/43_raster.md R174), `plot8` and the circle's iterations (R180 to R183),
`doChar` and `doGlyph` (spec/44_text.md R203, R207). -/

namespace Sys2Proof.Machine

open Sys2Proof.Config

/-- A cut stream neither reads nor writes the colours, READY or the engines. -/
theorem cutShort_with (s : State) (ds : List Draw) (j : Nat) (f g : Word16) (r : Bool) (l : LineEngine) (c : CircleEngine)
    (t : TextEngine) :
    cutShort { s with fg := f, bg := g, ready := r, line := l, circle := c, text := t } ds j =
      { cutShort s ds j with fg := f, bg := g, ready := r, line := l, circle := c, text := t } := by
  have h := sendAll_with s (cutWords s (codewordsOf s.dev ds) j) s.asm s.win f g r l c t s.plotTrace
  have e : cutWords { s with fg := f, bg := g, ready := r, line := l, circle := c, text := t } = cutWords s := rfl
  unfold cutShort
  dsimp only
  rw [e, h]

@[simp] theorem cutShort_fg (s : State) (ds : List Draw) (j : Nat) : (cutShort s ds j).fg = s.fg := sendAll_fg s _
@[simp] theorem cutShort_bg (s : State) (ds : List Draw) (j : Nat) : (cutShort s ds j).bg = s.bg := sendAll_bg s _
@[simp] theorem cutShort_ready (s : State) (ds : List Draw) (j : Nat) : (cutShort s ds j).ready = s.ready :=
  sendAll_ready s _
@[simp] theorem cutShort_line (s : State) (ds : List Draw) (j : Nat) : (cutShort s ds j).line = s.line := sendAll_line s _
@[simp] theorem cutShort_circle (s : State) (ds : List Draw) (j : Nat) : (cutShort s ds j).circle = s.circle :=
  sendAll_circle s _
@[simp] theorem cutShort_text (s : State) (ds : List Draw) (j : Nat) : (cutShort s ds j).text = s.text := sendAll_text s _

/-- FG and the registers of the three engines. -/
abbrev Engines := Word16 × LineEngine × CircleEngine × TextEngine

/-- The operation `f`, begun in `s`, is the stream `ds`; it leaves FG and the engines at `e` when it ends normally, and with
the property `Q` when it aborts. -/
structure IsStreamTo (f : State → Res) (s : State) (ds : List Draw) (e : Engines) (Q : Engines → Prop) : Prop where
  ok : WordsOk s (codewordsOf s.dev ds) →
    f s = .ok { streamed s ds with fg := e.1, line := e.2.1, circle := e.2.2.1, text := e.2.2.2 }
  cut : ∀ j, FirstFailure s (codewordsOf s.dev ds) j → ∃ (a : AddrState) (k : Engines), Q k ∧
    f s = .abort { cutShort s ds j with asm := a, fg := k.1, line := k.2.1, circle := k.2.2.1, text := k.2.2.2 }

/-- FG and the engines of a state. -/
def enginesOf (s : State) : Engines := (s.fg, s.line, s.circle, s.text)

/-- A state with FG and the engines replaced. -/
def withEngines (s : State) (e : Engines) : State :=
  { s with fg := e.1, line := e.2.1, circle := e.2.2.1, text := e.2.2.2 }

@[simp] theorem withEngines_pack (s : State) (e : Engines) :
    (withEngines s e).pack = s.pack := rfl
@[simp] theorem withEngines_dev (s : State) (e : Engines) :
    (withEngines s e).dev = s.dev := rfl
@[simp] theorem withEngines_board (s : State) (e : Engines) :
    (withEngines s e).board = s.board := rfl
@[simp] theorem withEngines_xferCalls (s : State) (e : Engines) :
    (withEngines s e).xferCalls = s.xferCalls := rfl
@[simp] theorem withEngines_fg (s : State) (e : Engines) :
    (withEngines s e).fg = e.1 := rfl
@[simp] theorem withEngines_line (s : State) (e : Engines) :
    (withEngines s e).line = e.2.1 := rfl
@[simp] theorem withEngines_circle (s : State) (e : Engines) :
    (withEngines s e).circle = e.2.2.1 := rfl
@[simp] theorem withEngines_text (s : State) (e : Engines) :
    (withEngines s e).text = e.2.2.2 := rfl

theorem IsStream.to {f : State → Res} {s : State} {ds : List Draw} {Q : Engines → Prop} (h : IsStream f s ds)
    (hq : Q (enginesOf s)) : IsStreamTo f s ds (enginesOf s) Q := by
  constructor
  · intro hw
    rw [h.ok hw]
    congr 1
    rw [streamed, sendAll, sentFrom_frame]
    rfl
  · intro j hj
    obtain ⟨a, e⟩ := h.cut j hj
    refine ⟨a, enginesOf s, hq, ?_⟩
    rw [e]
    congr 1
    rw [cutShort, sendAll, sentFrom_frame]
    rfl

/-- A register write before an operation that is a stream. -/
theorem IsStreamTo.after {f g : State → Res} {s : State} {ds : List Draw}
    {e k : Engines} {Q : Engines → Prop} (h : IsStreamTo f (withEngines s k) ds e Q)
    (hg : g s = f (withEngines s k)) : IsStreamTo g s ds e Q := by
  have hs := streamed_with s ds k.1 s.bg s.ready k.2.1 k.2.2.1 k.2.2.2
  constructor
  · intro hw
    rw [hg, h.ok hw]
    congr 1
    show ({ streamed { s with fg := k.1, bg := s.bg, ready := s.ready, line := k.2.1, circle := k.2.2.1, text := k.2.2.2 } ds
      with fg := e.1, line := e.2.1, circle := e.2.2.1, text := e.2.2.2 } : State) = _
    rw [hs, streamed, sendAll, sentFrom_frame]
  · intro j hj
    obtain ⟨a, k', hq, hk⟩ := h.cut j hj
    refine ⟨a, k', hq, ?_⟩
    rw [hg, hk]
    congr 1
    have hc := cutShort_with s ds j k.1 s.bg s.ready k.2.1 k.2.2.1 k.2.2.2
    show ({ cutShort { s with fg := k.1, bg := s.bg, ready := s.ready, line := k.2.1, circle := k.2.2.1, text := k.2.2.2 } ds j
      with asm := a, fg := k'.1, line := k'.2.1, circle := k'.2.2.1, text := k'.2.2.2 } : State) = _
    rw [hc, cutShort, sendAll, sentFrom_frame]

theorem IsStreamTo.congr {f g : State → Res} {s : State} {ds : List Draw}
    {e : Engines} {Q : Engines → Prop} (h : IsStreamTo f s ds e Q) (he : g s = f s) : IsStreamTo g s ds e Q :=
  ⟨fun hw => he ▸ h.ok hw, fun j hj => he ▸ h.cut j hj⟩

/-- Two operations in sequence, the second begun with the engines the first left. -/
theorem IsStreamTo.andThen {f g : State → Res} {s : State} {a b : List Draw}
    {e k : Engines} {Q : Engines → Prop} (hc : s.pack.cnt < batch) (hf : IsStreamTo f s a e Q)
    (hg : IsStreamTo g (withEngines (streamed s a) e) b k Q) :
    IsStreamTo (fun s => (f s).andThen g) s (a ++ b) k Q := by
  have hs := streamed_with (streamed s a) b e.1 s.bg s.ready e.2.1 e.2.2.1 e.2.2.2
  constructor
  · intro h
    rw [codewordsOf_append, wordsOk_append] at h
    have h2 : WordsOk (withEngines (streamed s a) e) (codewordsOf (withEngines (streamed s a) e).dev b) := by
      rw [withEngines_dev, streamed_dev]
      exact (wordsOk_streamed s a _).2 h.2
    show (f s).andThen g = _
    rw [hf.ok h.1, andThen_ok]
    refine (hg.ok h2).trans (congrArg Res.ok ?_)
    have e1 : withEngines (streamed s a) e = { streamed s a with
        fg := e.1, bg := s.bg, ready := s.ready, line := e.2.1, circle := e.2.2.1, text := e.2.2.2 } := by
      rw [withEngines, streamed, sendAll, sentFrom_frame]
    rw [e1, hs, streamed_append]
    rw [streamed, sendAll, sentFrom_frame]
  · intro j h
    rw [codewordsOf_append] at h
    show ∃ m k', Q k' ∧ (f s).andThen g = _
    rcases firstFailure_append h with h1 | ⟨h1, h2, h3⟩
    · obtain ⟨m, k', hq, he⟩ := hf.cut j h1
      exact ⟨m, k', hq, by rw [he, andThen_abort, cutShort_append_left b hc h1]⟩
    · rw [← firstFailure_streamed] at h3
      have h4 : FirstFailure (withEngines (streamed s a) e) (codewordsOf (withEngines (streamed s a) e).dev b)
          (j - (batchesOf s.pack (codewordsOf s.dev a)).length) := by
        rw [withEngines_dev, streamed_dev]
        exact h3
      obtain ⟨m, k', hq, he⟩ := hg.cut _ h4
      refine ⟨m, k', hq, ?_⟩
      rw [hf.ok h1, andThen_ok]
      refine he.trans (congrArg Res.abort ?_)
      have hcut := cutShort_with (streamed s a) b (j - (batchesOf s.pack (codewordsOf s.dev a)).length) e.1 s.bg s.ready
        e.2.1 e.2.2.1 e.2.2.2
      have e1 : withEngines (streamed s a) e = { streamed s a with
          fg := e.1, bg := s.bg, ready := s.ready, line := e.2.1, circle := e.2.2.1, text := e.2.2.2 } := by
        rw [withEngines, streamed, sendAll, sentFrom_frame]
      rw [e1, hcut, ← cutShort_append_right hc h2 h3, cutShort, sendAll, sentFrom_frame]

/-! ### Lines -/

theorem withEngines_cnt_lt {s : State} (ds : List Draw) (e : Engines) (h : s.pack.cnt < batch) :
    (withEngines (streamed s ds) e).pack.cnt < batch :=
  streamed_cnt_lt ds h

/-- Only the line engine differs. -/
def LineOnly (s : State) (k : Engines) : Prop := ∃ l, k = (s.fg, l, s.circle, s.text)

/-- Only the circle engine differs. -/
def CircleOnly (s : State) (k : Engines) : Prop := ∃ c, k = (s.fg, s.line, c, s.text)

/-- One iteration of the line engine (R174): its point, the engine advanced. -/
theorem isStreamTo_lineStep (t : Nat) {s u : State} (hc : s.pack.cnt < batch) (hu : LineOnly u (enginesOf s)) :
    IsStreamTo (lineStep t) s [.plot (lineAdvance t s.line).lx (lineAdvance t s.line).ly s.fg]
      (s.fg, lineAdvance t s.line, s.circle, s.text) (LineOnly u) := by
  obtain ⟨l, hl⟩ := hu
  simp only [enginesOf, Prod.mk.injEq] at hl
  refine IsStreamTo.after (f := plot (lineAdvance t s.line).lx (lineAdvance t s.line).ly s.fg)
    (k := (s.fg, lineAdvance t s.line, s.circle, s.text))
    ((isStream_plot _ _ _ (s := withEngines s (s.fg, lineAdvance t s.line, s.circle, s.text)) hc).to ?_) rfl
  exact ⟨lineAdvance t s.line, by simp [enginesOf, hl.1, hl.2.2.1, hl.2.2.2]⟩

/-- The points the line engine plots over the iterations `l`. -/
def lineTrace : List Nat → LineEngine → List (Int × Int)
  | [], _ => []
  | t :: rest, e => ((lineAdvance t e).lx, (lineAdvance t e).ly) :: lineTrace rest (lineAdvance t e)

theorem isStreamTo_lineLoop (l : List Nat) {s u : State} (hc : s.pack.cnt < batch) (hu : LineOnly u (enginesOf s)) :
    IsStreamTo (forEach l lineStep) s (drawPoints s.fg (lineTrace l s.line))
      (s.fg, l.foldl (fun e t => lineAdvance t e) s.line, s.circle, s.text) (LineOnly u) := by
  induction l generalizing s with
  | nil => exact (isStream_nil s).to hu
  | cons t l ih =>
    have hu' := hu
    obtain ⟨l0, hl⟩ := hu'
    simp only [enginesOf, Prod.mk.injEq] at hl
    have h := ih (s := withEngines (streamed s [.plot (lineAdvance t s.line).lx (lineAdvance t s.line).ly s.fg])
      (s.fg, lineAdvance t s.line, s.circle, s.text)) (withEngines_cnt_lt _ _ hc)
      ⟨lineAdvance t s.line, by simp [enginesOf, hl.1, hl.2.2.1, hl.2.2.2]⟩
    exact (isStreamTo_lineStep t hc hu).andThen hc h

/-- `DoLine` (R174): the points of its recurrence, in FG. -/
theorem isStreamTo_doLine (x1 y1 x2 y2 : Int) {s u : State} (hc : s.pack.cnt < batch) (hu : LineOnly u (enginesOf s)) :
    IsStreamTo (doLine x1 y1 x2 y2) s
      (drawPoints s.fg (lineTrace (List.range ((lineSetup x1 y1 x2 y2).dist.toNat + 1)) (lineSetup x1 y1 x2 y2)))
      (s.fg, (List.range ((lineSetup x1 y1 x2 y2).dist.toNat + 1)).foldl (fun e t => lineAdvance t e)
        (lineSetup x1 y1 x2 y2), s.circle, s.text) (LineOnly u) := by
  obtain ⟨l0, hl⟩ := hu
  simp only [enginesOf, Prod.mk.injEq] at hl
  exact IsStreamTo.after (k := (s.fg, lineSetup x1 y1 x2 y2, s.circle, s.text))
    (isStreamTo_lineLoop _ (s := withEngines s (s.fg, lineSetup x1 y1 x2 y2, s.circle, s.text)) hc
      ⟨lineSetup x1 y1 x2 y2, by simp [enginesOf, hl.1, hl.2.2.1, hl.2.2.2]⟩) rfl

/-! ### Circles -/

theorem drawPoints_eq_flatMap (c : Word16) (ps : List (Int × Int)) :
    drawPoints c ps = ps.flatMap fun p => [.plot p.1 p.2 c] := by
  induction ps with
  | nil => rfl
  | cons p ps ih => rw [List.flatMap_cons, ← ih]; rfl

theorem drawPoints_append (c : Word16) (a b : List (Int × Int)) :
    drawPoints c (a ++ b) = drawPoints c a ++ drawPoints c b := by
  simp [drawPoints]

/-- `Plot8` (R183). -/
theorem isStream_plot8 (xc yc u v : Int) {s : State} (hc : s.pack.cnt < batch) :
    IsStream (plot8 xc yc u v) s (drawPoints s.fg (octants xc yc u v)) := by
  rw [drawPoints_eq_flatMap]
  exact isStream_forEach _ _ hc fun p t ht _ hf => by
    have h := isStream_plot p.1 p.2 t.fg ht
    rw [← hf]
    exact h.congr rfl

/-- The engine after the span loop of filled mode over `js`. -/
def circleSpanEnd (e : CircleEngine) (js : List Nat) : CircleEngine := js.foldl (fun e j => { e with yi := e.cx + j }) e

theorem circleSpanEnd_keeps (e : CircleEngine) (js : List Nat) :
    (circleSpanEnd e js).cx = e.cx ∧ (circleSpanEnd e js).cy = e.cy ∧ (circleSpanEnd e js).d = e.d := by
  unfold circleSpanEnd
  induction js generalizing e with
  | nil => exact ⟨rfl, rfl, rfl⟩
  | cons j js ih => exact ih _

theorem CircleOnly.step {s u : State} (h : CircleOnly u (enginesOf s)) (c : CircleEngine) :
    CircleOnly u (s.fg, s.line, c, s.text) := by
  obtain ⟨c0, hl⟩ := h
  simp only [enginesOf, Prod.mk.injEq] at hl
  exact ⟨c, by rw [hl.1, hl.2.1, hl.2.2.2]⟩

theorem isStreamTo_circleSpan (xc yc : Int) (js : List Nat) {s u : State} (hc : s.pack.cnt < batch)
    (hu : CircleOnly u (enginesOf s)) :
    IsStreamTo
      (forEach js fun j s =>
        let s := { s with circle := { s.circle with yi := s.circle.cx + j } }
        plot8 xc yc s.circle.cx s.circle.yi s) s
      (drawPoints s.fg (js.flatMap fun j : Nat => octants xc yc s.circle.cx (s.circle.cx + j)))
      (s.fg, s.line, circleSpanEnd s.circle js, s.text) (CircleOnly u) := by
  induction js generalizing s with
  | nil => exact (isStream_nil s).to hu
  | cons j js ih =>
    have h1 := IsStreamTo.after (s := s) (g := fun s =>
        let s := { s with circle := { s.circle with yi := s.circle.cx + j } }
        plot8 xc yc s.circle.cx s.circle.yi s)
      (f := plot8 xc yc s.circle.cx (s.circle.cx + j))
      (k := (s.fg, s.line, { s.circle with yi := s.circle.cx + j }, s.text))
      ((isStream_plot8 xc yc s.circle.cx (s.circle.cx + j)
        (s := withEngines s (s.fg, s.line, { s.circle with yi := s.circle.cx + j }, s.text)) hc).to (hu.step _)) rfl
    rw [List.flatMap_cons, drawPoints_append]
    exact IsStreamTo.andThen hc h1 (ih (withEngines_cnt_lt _ _ hc) (hu.step _))

/-- What one iteration of CIRCLE plots (R181, R182), `cx`, `cy` and `d` unchanged. -/
theorem isStreamTo_circlePlots (xc yc : Int) (filled : Bool) {s u : State} (hc : s.pack.cnt < batch)
    (hu : CircleOnly u (enginesOf s)) :
    ∃ e : CircleEngine, (e.cx = s.circle.cx ∧ e.cy = s.circle.cy ∧ e.d = s.circle.d) ∧
      IsStreamTo (circlePlots xc yc filled) s (drawPoints s.fg (circleSpan xc yc filled (s.circle.cx, s.circle.cy)))
        (s.fg, s.line, e, s.text) (CircleOnly u) := by
  cases filled with
  | false =>
    refine ⟨s.circle, ⟨rfl, rfl, rfl⟩, ?_⟩
    rw [show circleSpan xc yc false (s.circle.cx, s.circle.cy) = octants xc yc s.circle.cx s.circle.cy from rfl]
    exact ((isStream_plot8 xc yc s.circle.cx s.circle.cy hc).to hu).congr (by simp [circlePlots])
  | true =>
    refine ⟨circleSpanEnd s.circle (List.range (s.circle.cy - s.circle.cx + 1).toNat), circleSpanEnd_keeps _ _, ?_⟩
    rw [show circleSpan xc yc true (s.circle.cx, s.circle.cy) =
      (List.range (s.circle.cy - s.circle.cx + 1).toNat).flatMap fun j : Nat =>
        octants xc yc s.circle.cx (s.circle.cx + j) from rfl]
    exact (isStreamTo_circleSpan xc yc (List.range (s.circle.cy - s.circle.cx + 1).toNat) hc hu).congr
      (by simp only [circlePlots, if_true, forRange])

/-- The iterations of CIRCLE (R180): the pairs of the recurrence, each with its plots. -/
theorem isStreamTo_circleLoop (xc yc : Int) (filled : Bool) (n : Nat) {s u : State} (hc : s.pack.cnt < batch)
    (hu : CircleOnly u (enginesOf s)) :
    ∃ e : CircleEngine,
      IsStreamTo (circleLoop xc yc filled n) s
        (drawPoints s.fg ((circleSteps n s.circle.cx s.circle.cy s.circle.d).flatMap (circleSpan xc yc filled)))
        (s.fg, s.line, e, s.text) (CircleOnly u) := by
  induction n generalizing s with
  | zero => exact ⟨s.circle, (isStream_nil s).to hu⟩
  | succ n ih =>
    by_cases hle : s.circle.cx ≤ s.circle.cy
    · obtain ⟨e, ⟨hx, hy, hd⟩, he⟩ := isStreamTo_circlePlots xc yc filled hc hu
      obtain ⟨k, hk⟩ := ih (s := withEngines (withEngines (streamed s
        (drawPoints s.fg (circleSpan xc yc filled (s.circle.cx, s.circle.cy)))) (s.fg, s.line, e, s.text))
        (s.fg, s.line, circleAdvance e, s.text)) (withEngines_cnt_lt _ _ hc) (hu.step _)
      have hg := IsStreamTo.after (s := withEngines (streamed s
          (drawPoints s.fg (circleSpan xc yc filled (s.circle.cx, s.circle.cy)))) (s.fg, s.line, e, s.text))
        (g := fun s => circleLoop xc yc filled n { s with circle := circleAdvance s.circle }) hk rfl
      refine ⟨k, IsStreamTo.congr (f := fun s => (circlePlots xc yc filled s).andThen fun s =>
        circleLoop xc yc filled n { s with circle := circleAdvance s.circle }) ?_ ?_⟩
      · have h2 := IsStreamTo.andThen hc he hg
        have hp : circleSteps (n + 1) s.circle.cx s.circle.cy s.circle.d =
            (s.circle.cx, s.circle.cy) ::
              circleSteps n (circleAdvance e).cx (circleAdvance e).cy (circleAdvance e).d := by
          unfold circleAdvance
          rw [circleSteps, if_pos hle, hx, hy, hd]
          split <;> rfl
        rw [hp, List.flatMap_cons, drawPoints_append]
        exact h2
      · show circleLoop xc yc filled (n + 1) s = _
        rw [circleLoop, if_pos hle]
    · refine ⟨s.circle, ?_⟩
      rw [circleSteps, if_neg hle]
      exact ((isStream_nil s).to hu).congr (by rw [circleLoop, if_neg hle])

/-- The effect of CIRCLE (R180). -/
theorem isStreamTo_doCircle (xc yc : Int) (r : Nat) (filled : Bool) {s : State} (hc : s.pack.cnt < batch) :
    ∃ e : CircleEngine,
      IsStreamTo (doCircle xc yc r filled) s (drawPoints s.fg (circlePoints xc yc r filled)) (s.fg, s.line, e, s.text)
        (CircleOnly s) := by
  obtain ⟨e, h⟩ := isStreamTo_circleLoop xc yc filled (r + 1) (u := s)
    (s := withEngines s (s.fg, s.line, circleSetup r s.circle, s.text)) hc ⟨circleSetup r s.circle, rfl⟩
  exact ⟨e, h.after rfl⟩

end Sys2Proof.Machine
end

