-- ==== Sys2Proof/Laws/Gram.lean ====
section
/-! SUPPORT. GRAM of the reference sink: read after write, a write leaves every other pixel alone, and every operation of the
sink keeps the canonical form (log 23). -/

namespace Sys2Proof.Machine

open Sys2Proof.Config

theorem gramRead_write_same (g : List (Nat × Word16)) (a : Nat) (c : Word16) : gramRead (gramWrite g a c) a = some c := by
  induction g with
  | nil => simp [gramWrite, gramRead]
  | cons e g ih =>
    obtain ⟨b, v⟩ := e
    unfold gramWrite
    split
    · simp [gramRead]
    · split
      · simp [gramRead]
      · rename_i h1 h2
        simp [gramRead, h1, h2, ih]

theorem gramRising_write {lo : Nat} {g : List (Nat × Word16)} {a : Nat} (c : Word16) (h : gramRising lo g = true)
    (ha : lo < a) : gramRising lo (gramWrite g a c) = true := by
  induction g generalizing lo with
  | nil => simp [gramWrite, gramRising, ha]
  | cons e g ih =>
    obtain ⟨b, v⟩ := e
    simp only [gramRising, Bool.and_eq_true, decide_eq_true_eq] at h
    unfold gramWrite
    split
    · next hab => subst hab; simp [gramRising, h.1, h.2]
    · split
      · next hab => simp [gramRising, ha, hab, h.2]
      · next hne hnlt => simp [gramRising, h.1, ih h.2 (by omega)]

/-- A write keeps the canonical form. -/
theorem gramWf_write {g : List (Nat × Word16)} (a : Nat) (c : Word16) (h : gramWf g = true) :
    gramWf (gramWrite g a c) = true := by
  cases g with
  | nil => rfl
  | cons e g =>
    obtain ⟨b, v⟩ := e
    simp only [gramWf] at h
    unfold gramWrite
    split
    · next hab => subst hab; simpa [gramWf] using h
    · split
      · next hab => simp [gramWf, gramRising, hab, h]
      · next hne hnlt => simpa [gramWf] using gramRising_write c h (by omega)

theorem gramRead_of_rising {lo : Nat} {g : List (Nat × Word16)} {a : Nat} (h : gramRising lo g = true) (ha : a ≤ lo) :
    gramRead g a = none := by
  cases g with
  | nil => rfl
  | cons e g =>
    obtain ⟨b, v⟩ := e
    simp only [gramRising, Bool.and_eq_true, decide_eq_true_eq] at h
    simp only [gramRead]
    rw [if_neg (by omega), if_pos (by omega)]

theorem gramRead_write_rising {lo : Nat} {g : List (Nat × Word16)} {a b : Nat} (c : Word16)
    (h : gramRising lo g = true) (hab : b ≠ a) : gramRead (gramWrite g a c) b = gramRead g b := by
  induction g generalizing lo with
  | nil => simp [gramWrite, gramRead, hab]
  | cons e g ih =>
    obtain ⟨k, v⟩ := e
    simp only [gramRising, Bool.and_eq_true, decide_eq_true_eq] at h
    unfold gramWrite
    split
    · next hk => subst hk; simp [gramRead, hab]
    · split
      · next hk hlt =>
        simp only [gramRead, hab, if_false]
        split
        · rw [if_neg (by omega), if_pos (by omega)]
        · rfl
      · simp only [gramRead, ih h.2]

/-- A write leaves every other pixel alone. -/
theorem gramRead_write_other {g : List (Nat × Word16)} {a b : Nat} (c : Word16) (h : gramWf g = true) (hab : b ≠ a) :
    gramRead (gramWrite g a c) b = gramRead g b := by
  cases g with
  | nil => simp [gramWrite, gramRead, hab]
  | cons e g =>
    obtain ⟨k, v⟩ := e
    simp only [gramWf] at h
    unfold gramWrite
    split
    · next hk => subst hk; simp [gramRead, hab]
    · split
      · next hk hlt =>
        simp only [gramRead, hab, if_false]
        split
        · rw [if_neg (by omega), if_pos (by omega)]
        · rfl
      · simp only [gramRead, gramRead_write_rising c h hab]

theorem sinkCommand_gram (d : DeviceState) (b : Byte) (k : Sink) : (sinkCommand d b k).gram = k.gram := by
  unfold sinkCommand
  dsimp only
  split_ifs <;> rfl

theorem sinkParam_gram (b : Byte) (k : Sink) : (sinkParam b k).gram = k.gram := by
  unfold sinkParam
  dsimp only
  split
  · split <;> rfl
  · rfl

/-- What one codeword does to GRAM: nothing, or one pixel written. -/
theorem sinkFeed_gram (o : SinkOrder) (d : DeviceState) (k : Sink) (cw : Codeword) :
    (sinkFeed o d k cw).gram = k.gram ∨
    ∃ h, k.mode = .ram ∧ isData cw = true ∧ k.hb = some h ∧
      (sinkFeed o d k cw).gram = gramWrite k.gram (sinkAddr o d k k.k) (be16 h (payload cw)) := by
  unfold sinkFeed
  split
  · next hd =>
    unfold sinkData
    split
    · exact .inl (sinkParam_gram _ _)
    · exact .inl (sinkParam_gram _ _)
    · next hm =>
      unfold sinkRamByte
      split
      · exact .inl rfl
      · next h hh => exact .inr ⟨h, hm, hd, hh, rfl⟩
    · exact .inl rfl
  · exact .inl (sinkCommand_gram _ _ _)

theorem gramWf_feed (o : SinkOrder) (d : DeviceState) (k : Sink) (cw : Codeword) (h : gramWf k.gram = true) :
    gramWf (sinkFeed o d k cw).gram = true := by
  rcases sinkFeed_gram o d k cw with e | ⟨b, -, -, -, e⟩
  · rw [e]; exact h
  · rw [e]; exact gramWf_write _ _ h

theorem gramWf_read (o : SinkOrder) (d : DeviceState) (k : Sink) (cw : Codeword) (h : gramWf k.gram = true) :
    gramWf (sinkRead o d k cw).gram = true := by
  unfold sinkRead
  split
  · exact gramWf_feed o d k cw h
  · rfl

theorem gramWf_take (n : Nat) (o : SinkOrder) (d : DeviceState) (strays : List Nat) (k : Sink) (e : Codeword × Nat)
    (h : gramWf k.gram = true) : gramWf (sinkTake n o d strays k e).gram = true := by
  unfold sinkTake
  split
  · rfl
  · exact gramWf_read o d k e.1 h

theorem gramWf_sinkBatch (n : Nat) (o : SinkOrder) (d : DeviceState) (strays : List Nat) (words : List Word16) (k : Sink)
    (h : gramWf k.gram = true) : gramWf (sinkBatch n o d strays words k).gram = true := by
  unfold sinkBatch
  generalize (unpackBatch words).zipIdx = es
  induction es generalizing k with
  | nil => exact h
  | cons e es ih => exact ih _ (gramWf_take n o d strays k e h)

theorem gramWf_sinkAfter (s : State) (words : List Word16) (st : Int) (h : gramWf s.sink.gram = true) :
    gramWf (sinkAfter s words st).gram = true := by
  unfold sinkAfter
  split_ifs
  · rfl
  · rfl
  · exact gramWf_sinkBatch _ _ _ _ _ _ h

/-- Where its effect is defined (U5, U6), a codeword is taken as the automaton takes it. -/
theorem sinkRead_of_defined {o : SinkOrder} {d : DeviceState} {k : Sink} {cw : Codeword} (h : sinkDefined d k cw = true) :
    sinkRead o d k cw = sinkFeed o d k cw := by
  rw [sinkRead, if_pos h]

/-- A transfer's sink when the spec says nothing about GRAM: the failed batch, and the batch after it (R277). -/
theorem sinkAfter_failed (s : State) (words : List Word16) {st : Int} (h : st < 0) :
    sinkAfter s words st = sinkFailed s.xferCalls s.sink := by
  rw [sinkAfter, if_pos h]

theorem sinkAfter_misread (s : State) (words : List Word16) {st : Int} (h : 0 ≤ st) (hm : s.sink.misread = true) :
    sinkAfter s words st = sinkMisread s.xferCalls s.sink := by
  rw [sinkAfter, if_neg (by omega), if_pos hm]

theorem sinkAfter_batch (s : State) (words : List Word16) {st : Int} (h : 0 ≤ st) (hm : s.sink.misread = false) :
    sinkAfter s words st = sinkBatch s.xferCalls s.policy.sinkOrder s.dev s.strays words s.sink := by
  rw [sinkAfter, if_neg (by omega), if_neg (by simp [hm])]

/-- A codeword that breaks the window duty: any window, any mode, no pixel with a value, whatever came before it in the batch
(R273). -/
theorem sinkTake_stray {n i : Nat} (o : SinkOrder) (d : DeviceState) {strays : List Nat} (k : Sink) (cw : Codeword)
    (h : i ∈ strays) : sinkTake n o d strays k (cw, i) = { toSinkContext := strayContext n i, gram := [], misread := k.misread } := by
  rw [sinkTake, if_pos (List.contains_iff_mem.2 h)]
  rfl

/-- Asserting RESET leaves GRAM alone. -/
theorem gpioSet_gram (l : GpioLine) (v : GpioLevel) (s : State) : (gpioSet l v s).sink.gram = s.sink.gram := by
  unfold gpioSet
  dsimp only
  split <;> rfl

end Sys2Proof.Machine
end

