-- ==== Sys2Proof/Laws/Line.lean ====
section
/-! SUPPORT. The line engine's recurrence in closed form (spec/43_raster.md R174, R175): after `k` accumulations an axis of
magnitude `m > 0` has stepped `⌈k × m / dist⌉ - 1` times. -/

namespace Sys2Proof.Machine

/-- One axis after `k` accumulations of `m` over the distance `dist`: `steps` steps made, `err` in the accumulator. -/
structure Axis (m dist k steps err : Nat) : Prop where
  sum : err + dist * steps = k * m
  le : err ≤ dist
  pos : 0 < k → 0 < m → 0 < err
  still : m = 0 → steps = 0

theorem Axis.start (m dist : Nat) : Axis m dist 0 0 0 := ⟨by simp, Nat.zero_le _, fun h => absurd h (by omega), fun _ => rfl⟩

/-- The steps made are those of the closed form. -/
theorem Axis.steps_eq {m dist k steps err : Nat} (h : Axis m dist k steps err) (hm : m ≤ dist) :
    steps = axisSteps m dist k := by
  obtain ⟨hs, hl, hp, h0⟩ := h
  unfold axisSteps
  rcases Nat.eq_zero_or_pos m with rfl | hm0
  · rw [h0 rfl, Nat.mul_zero, Nat.zero_add]
    rcases Nat.eq_zero_or_pos dist with rfl | hd
    · rfl
    · rw [Nat.div_eq_of_lt (by omega)]
  · have hd : 0 < dist := by omega
    rcases Nat.eq_zero_or_pos k with rfl | hk
    · have hz : dist * steps = 0 := by omega
      rcases Nat.mul_eq_zero.1 hz with h' | h'
      · omega
      · rw [h', Nat.zero_mul, Nat.zero_add, Nat.div_eq_of_lt (by omega)]
    · have he := hp hk hm0
      rw [← hs, show err + dist * steps + dist - 1 = dist * steps + (err - 1 + dist) by omega, Nat.mul_add_div hd,
        Nat.add_div_right _ hd, Nat.div_eq_of_lt (show err - 1 < dist by omega)]
      omega

/-- One accumulation without a step. -/
theorem Axis.stay {m dist k steps err : Nat} (h : Axis m dist k steps err) (hlt : err + m ≤ dist) :
    Axis m dist (k + 1) steps (err + m) :=
  ⟨by have := h.sum; rw [Nat.add_mul, Nat.one_mul]; omega, hlt, fun _ hm => by omega, h.still⟩

/-- One accumulation with a step. -/
theorem Axis.step {m dist k steps err : Nat} (h : Axis m dist k steps err) (hm : m ≤ dist) (hlt : dist < err + m) :
    Axis m dist (k + 1) (steps + 1) (err + m - dist) :=
  ⟨by have := h.sum; rw [Nat.add_mul, Nat.one_mul, Nat.mul_add, Nat.mul_one]; omega,
    by have := h.le; omega, fun _ _ => by omega, fun h0 => by have := h.le; omega⟩

/-- The line engine from `(x1, y1)` to `(x2, y2)` after `k` iterations. -/
def LineAt (x1 y1 x2 y2 : Int) (k : Nat) (e : LineEngine) : Prop :=
  let dx := (x2 - x1).natAbs
  let dy := (y2 - y1).natAbs
  e.dx = dx ∧ e.dy = dy ∧ e.dist = (max dx dy : Nat) ∧ e.incx = (x2 - x1).sign ∧ e.incy = (y2 - y1).sign ∧
  (∃ px ex, Axis dx (max dx dy) k px ex ∧ e.xerr = (ex : Int) ∧ e.lx = x1 + (x2 - x1).sign * (px : Int)) ∧
  ∃ py ey, Axis dy (max dx dy) k py ey ∧ e.yerr = (ey : Int) ∧ e.ly = y1 + (y2 - y1).sign * (py : Int)

theorem signInc_eq_sign (d : Int) : signInc d = d.sign := by
  unfold signInc
  rcases lt_trichotomy d 0 with h | h | h
  · rw [if_neg (by omega), if_neg (by omega), Int.sign_eq_neg_one_of_neg h]
  · subst h; rfl
  · rw [if_pos h, Int.sign_eq_one_of_pos h]

theorem lineAt_setup (x1 y1 x2 y2 : Int) : LineAt x1 y1 x2 y2 0 (lineSetup x1 y1 x2 y2) := by
  refine ⟨rfl, rfl, ?_, signInc_eq_sign _, signInc_eq_sign _, ⟨0, 0, Axis.start _ _, rfl, ?_⟩, 0, 0, Axis.start _ _, rfl, ?_⟩
  · simp [lineSetup]
  · simp [lineSetup]
  · simp [lineSetup]

theorem lineAt_advance {x1 y1 x2 y2 : Int} {k : Nat} {e : LineEngine} (t : Nat) (h : LineAt x1 y1 x2 y2 k e) :
    LineAt x1 y1 x2 y2 (k + 1) (lineAdvance t e) := by
  obtain ⟨hdx, hdy, hd, hix, hiy, ⟨px, ex, hx, hxe, hlx⟩, py, ey, hy, hye, hly⟩ := h
  refine ⟨hdx, hdy, hd, hix, hiy, ?_, ?_⟩
  · unfold lineAdvance
    dsimp only
    rw [hxe, hdx, hd]
    by_cases hs : max (x2 - x1).natAbs (y2 - y1).natAbs < ex + (x2 - x1).natAbs
    · rw [if_pos (by omega), if_pos (by omega)]
      refine ⟨px + 1, _, hx.step (Nat.le_max_left _ _) hs, by omega, ?_⟩
      rw [hlx, hix]
      push_cast
      ring
    · rw [if_neg (by omega), if_neg (by omega)]
      exact ⟨px, _, hx.stay (by omega), by push_cast; rfl, hlx⟩
  · unfold lineAdvance
    dsimp only
    rw [hye, hdy, hd]
    by_cases hs : max (x2 - x1).natAbs (y2 - y1).natAbs < ey + (y2 - y1).natAbs
    · rw [if_pos (by omega), if_pos (by omega)]
      refine ⟨py + 1, _, hy.step (Nat.le_max_right _ _) hs, by omega, ?_⟩
      rw [hly, hiy]
      push_cast
      ring
    · rw [if_neg (by omega), if_neg (by omega)]
      exact ⟨py, _, hy.stay (by omega), by push_cast; rfl, hly⟩

/-- The position after `k` iterations, in closed form. -/
theorem lineAt_point {x1 y1 x2 y2 : Int} {k : Nat} {e : LineEngine} (h : LineAt x1 y1 x2 y2 k e) :
    (e.lx, e.ly) =
      (x1 + (x2 - x1).sign * axisSteps (x2 - x1).natAbs (max (x2 - x1).natAbs (y2 - y1).natAbs) k,
       y1 + (y2 - y1).sign * axisSteps (y2 - y1).natAbs (max (x2 - x1).natAbs (y2 - y1).natAbs) k) := by
  obtain ⟨-, -, -, -, -, ⟨px, ex, hx, -, hlx⟩, py, ey, hy, -, hly⟩ := h
  rw [hlx, hly, hx.steps_eq (Nat.le_max_left _ _), hy.steps_eq (Nat.le_max_right _ _)]

/-- The points of the recurrence are those of the closed form. -/
theorem lineTrace_eq_linePoints (x1 y1 x2 y2 : Int) :
    lineTrace (List.range ((lineSetup x1 y1 x2 y2).dist.toNat + 1)) (lineSetup x1 y1 x2 y2) = linePoints x1 y1 x2 y2 := by
  have key : ∀ (n k : Nat) (e : LineEngine), LineAt x1 y1 x2 y2 k e → lineTrace (List.range' k n) e =
      (List.range' k n).map fun t =>
        (x1 + (x2 - x1).sign * axisSteps (x2 - x1).natAbs (max (x2 - x1).natAbs (y2 - y1).natAbs) (t + 1),
         y1 + (y2 - y1).sign * axisSteps (y2 - y1).natAbs (max (x2 - x1).natAbs (y2 - y1).natAbs) (t + 1)) := by
    intro n
    induction n with
    | zero => intros; rfl
    | succ n ih =>
      intro k e h
      have h' := lineAt_advance k h
      rw [List.range'_succ, List.map_cons, lineTrace, lineAt_point h', ih (k + 1) _ h']
  have hd : (lineSetup x1 y1 x2 y2).dist.toNat = max (x2 - x1).natAbs (y2 - y1).natAbs := by
    have := (lineAt_setup x1 y1 x2 y2).2.2.1
    omega
  rw [hd, List.range_eq_range', key _ 0 _ (lineAt_setup x1 y1 x2 y2), ← List.range_eq_range']
  rfl

end Sys2Proof.Machine
end

