-- ==== Sys2Proof/Laws/PerInstr.lean ====
section
/-! SUPPORT. The per-instruction family: the length of an operation's request is the length of its format
(spec/30_encoding.md R103). A codeword and a carrier are no requests by bytes. -/

namespace Sys2Proof.Laws.EncodedLength

open Sys2Proof Sys2Proof.Machine

/-- The request by bytes of an encodable operation has the length of its format. -/
def Statement (i : Instr) : Prop :=
  ∀ bs : List Byte, i.encodable = true → encode i = .bytes bs → requestLength bs = bs.length

theorem of_bytes {i : Instr} {e : List Byte} (he : encode i = .bytes e)
    (h : i.encodable = true → requestLength e = e.length) : Statement i := by
  intro bs hi hb
  obtain rfl := Request.bytes.inj (he.symm.trans hb)
  exact h hi

theorem push (c : Carrier) : Statement (.push c) :=
  of_bytes rfl fun _ => rfl

theorem teardown : Statement (.teardown) :=
  of_bytes rfl fun _ => rfl

theorem wrreg (b : Byte) : Statement (.wrreg b) :=
  of_bytes rfl fun _ => rfl

theorem wrdat8 (b : Byte) : Statement (.wrdat8 b) :=
  of_bytes rfl fun _ => rfl

theorem wrdat16 (w : Word16) : Statement (.wrdat16 w) :=
  of_bytes rfl fun _ => rfl

theorem setwin (x0 y0 x1 y1 : Word16) : Statement (.setwin x0 y0 x1 y1) :=
  of_bytes rfl fun _ => rfl

theorem armram : Statement (.armram) :=
  of_bytes rfl fun _ => rfl

theorem setcur (x y : Word16) : Statement (.setcur x y) :=
  of_bytes rfl fun _ => rfl

theorem point (x y c : Word16) : Statement (.point x y c) :=
  of_bytes rfl fun _ => rfl

theorem fill (x0 y0 x1 y1 c : Word16) : Statement (.fill x0 y0 x1 y1 c) :=
  of_bytes rfl fun _ => rfl

theorem clear (c : Word16) : Statement (.clear c) :=
  of_bytes rfl fun _ => rfl

theorem line (x1 y1 x2 y2 : Word16) : Statement (.line x1 y1 x2 y2) :=
  of_bytes rfl fun _ => rfl

theorem rect (x1 y1 x2 y2 : Word16) : Statement (.rect x1 y1 x2 y2) :=
  of_bytes rfl fun _ => rfl

theorem frect (x1 y1 x2 y2 : Word16) : Statement (.frect x1 y1 x2 y2) :=
  of_bytes rfl fun _ => rfl

theorem circle (xc yc r : Word16) (filled : Byte) : Statement (.circle xc yc r filled) :=
  of_bytes rfl fun _ => rfl

theorem char (x y fc bc : Word16) (ch size mode : Byte) : Statement (.char x y fc bc ch size mode) :=
  of_bytes rfl fun _ => rfl

theorem glyph (x y fc bc code : Word16) (size mode : Byte) : Statement (.glyph x y fc bc code size mode) :=
  of_bytes rfl fun _ => rfl

theorem string (x y fc bc : Word16) (size mode : Byte) (bytes : List Byte) : Statement (.string x y fc bc size mode bytes) :=
  of_bytes rfl fun h => by
    have hl : bytes.length < 65536 := by simpa [Instr.encodable, Nat.lt_succ_iff] using h
    have e : requestLength (0x42#8 :: (fields4 x y fc bc ++ [size, mode] ++
        field16 (BitVec.ofNat 16 bytes.length) ++ bytes)) =
        13 + (be16 (hiByte (BitVec.ofNat 16 bytes.length)) (loByte (BitVec.ofNat 16 bytes.length))).toNat := rfl
    rw [e, be16_hi_lo, BitVec.toNat_ofNat, Nat.mod_eq_of_lt hl]
    simp [fields4, field16]
    omega

theorem number (x y fc bc : Word16) (num : BitVec 32) (len size mode : Byte) : Statement (.number x y fc bc num len size mode) :=
  of_bytes rfl fun _ => rfl

theorem init (orient : Byte) : Statement (.init orient) :=
  of_bytes rfl fun _ => rfl

theorem setcolors (fg bg : Word16) : Statement (.setcolors fg bg) :=
  of_bytes rfl fun _ => rfl

theorem cwCmd (p : Byte) : Statement (.cwCmd p) :=
  fun _ _ h => Request.noConfusion h

theorem cwDat (p : Byte) : Statement (.cwDat p) :=
  fun _ _ h => Request.noConfusion h

theorem carrierCmd (p : Byte) (x : BitVec 7) : Statement (.carrierCmd p x) :=
  fun _ _ h => Request.noConfusion h

theorem carrierDat (p : Byte) (x : BitVec 7) : Statement (.carrierDat p x) :=
  fun _ _ h => Request.noConfusion h

end Sys2Proof.Laws.EncodedLength
end

