-- ==== Sys2Proof/Laws/Text.lean ====
section
/-! SUPPORT. The text operations as streams of draws (spec/44_text.md): the loops over a glyph's cells, `doChar`, `doGlyph`,
and the loop of STRING, each with the cursor it leaves and FG restored on every exit (R212). -/

namespace Sys2Proof.Machine

open Sys2Proof.Config

/-- The cursor and the saved colour are the same; the counters inside a glyph may differ. -/
def SameCursor (a b : TextEngine) : Prop :=
  a.tx = b.tx ∧ a.ty = b.ty ∧ a.xs = b.xs ∧ a.si = b.si ∧ a.fgsave = b.fgsave

theorem SameCursor.rfl {a : TextEngine} : SameCursor a a := ⟨by simp, by simp, by simp, by simp, by simp⟩

theorem SameCursor.trans {a b c : TextEngine} (h : SameCursor a b) (k : SameCursor b c) : SameCursor a c :=
  ⟨h.1.trans k.1, h.2.1.trans k.2.1, h.2.2.1.trans k.2.2.1, h.2.2.2.1.trans k.2.2.2.1, h.2.2.2.2.trans k.2.2.2.2⟩

/-- FG and the line and circle engines of `u`, the saved colour `f`: what holds inside a glyph, where FG is the
operation's. -/
def InGlyph (fc : Word16) (u : State) (f : Word16) (k : Engines) : Prop :=
  k.1 = fc ∧ k.2.1 = u.line ∧ k.2.2.1 = u.circle ∧ k.2.2.2.fgsave = f

/-- Only the text engine differs. -/
def TextOnly (s : State) (k : Engines) : Prop := ∃ x, k = (s.fg, s.line, s.circle, x)

/-- A loop whose passes leave FG, the other engines and the cursor alone. -/
theorem isStreamTo_cellLoop {α : Type} {f : α → State → Res} (d : α → List Draw) {Q : Engines → Prop} (l : List α)
    {s u : State} (hc : s.pack.cnt < batch) (hd : s.dev = u.dev) (hf : s.fg = u.fg) (hl : s.line = u.line)
    (hr : s.circle = u.circle) (ht : SameCursor s.text u.text)
    (hq : ∀ x, SameCursor x u.text → Q (u.fg, u.line, u.circle, x))
    (h : ∀ a t, t.pack.cnt < batch → t.dev = u.dev → t.fg = u.fg → t.line = u.line → t.circle = u.circle →
      SameCursor t.text u.text →
      ∃ x, SameCursor x u.text ∧ IsStreamTo (f a) t (d a) (u.fg, u.line, u.circle, x) Q) :
    ∃ x, SameCursor x u.text ∧ IsStreamTo (forEach l f) s (l.flatMap d) (u.fg, u.line, u.circle, x) Q := by
  induction l generalizing s with
  | nil =>
    refine ⟨s.text, ht, ?_⟩
    have hs := (isStream_nil s).to (Q := Q) (by rw [enginesOf, hf, hl, hr]; exact hq _ ht)
    rw [enginesOf, hf, hl, hr] at hs
    exact hs
  | cons a l ih =>
    obtain ⟨x, hx, h1⟩ := h a s hc hd hf hl hr ht
    obtain ⟨y, hy, h2⟩ := ih (s := withEngines (streamed s (d a)) (u.fg, u.line, u.circle, x))
      (withEngines_cnt_lt _ _ hc) (by simp [hd]) rfl rfl rfl hx
    exact ⟨y, hy, h1.andThen hc h2⟩

/-! ### Bits in reading order -/

/-- A point-mode glyph from pixel `n` on. -/
theorem setBits_from (x y : Int) (w n : Nat) (fc : Word16) (bits : List Bool) :
    (bits.zipIdx n).filterMap (fun p => if p.1 then some (Draw.plot (x + (p.2 % w : Nat)) (y + (p.2 / w : Nat)) fc) else none) =
      (bits.zipIdx n).flatMap fun p => if p.1 then [Draw.plot (x + (p.2 % w : Nat)) (y + (p.2 / w : Nat)) fc] else [] := by
  induction bits generalizing n with
  | nil => rfl
  | cons b bits ih =>
    rw [List.zipIdx_cons, List.flatMap_cons, ← ih]
    cases b <;> rfl

theorem zipIdx_map_range (w n : Nat) (g : Nat → Bool) :
    ((List.range w).map g).zipIdx n = (List.range w).map fun c => (g c, n + c) := by
  apply List.ext_getElem
  · simp
  · intro i h1 h2
    simp

/-- Rows of `w` bits one after another: pixel `n` is column `n mod w` of row `n / w`. -/
theorem drawSetBits_rows (x y : Int) (w h : Nat) (fc : Word16) (bit : Nat → Nat → Bool) :
    drawSetBits x y w fc ((List.range h).flatMap fun r => (List.range w).map (bit r)) =
      (List.range h).flatMap fun r : Nat => (List.range w).flatMap fun c : Nat =>
        if bit r c then [.plot (x + c) (y + r) fc] else [] := by
  unfold drawSetBits
  rw [setBits_from]
  induction h with
  | zero => rfl
  | succ h ih =>
    have hl : ((List.range h).flatMap fun r => (List.range w).map (bit r)).length = w * h := by
      simp [List.length_flatMap, Nat.mul_comm]
    rw [List.range_succ, List.flatMap_append, List.flatMap_append, List.zipIdx_append, List.flatMap_append, ih]
    congr 1
    simp only [List.flatMap_cons, List.flatMap_nil, List.append_nil, hl, Nat.zero_add]
    rw [zipIdx_map_range, List.flatMap_map]
    refine List.flatMap_congr fun c hcm => ?_
    have hlt : c < w := List.mem_range.1 hcm
    have e1 : (w * h + c) % w = c := by rw [Nat.mul_add_mod, Nat.mod_eq_of_lt hlt]
    have e2 : (w * h + c) / w = h := by
      rw [Nat.mul_add_div (by omega), Nat.div_eq_of_lt hlt, Nat.add_zero]
    simp only [e1, e2]

/-! ### One glyph -/

theorem isStream_blockPixel (bc : Word16) (bit : Bool) {s : State} (hc : s.pack.cnt < batch) :
    IsStream (blockPixel bc bit) s [.pixel (if bit then s.fg else bc)] :=
  IsStream.congr (isStream_framerData16 _ hc) rfl

theorem isStream_pointPixel (x y : Int) (bit : Bool) {s : State} (hc : s.pack.cnt < batch) :
    IsStream (pointPixel x y bit) s (if bit then [.plot x y s.fg] else []) := by
  cases bit with
  | false => exact isStream_nil s
  | true => exact IsStream.congr (isStream_plot x y s.fg hc) rfl

/-- The cells of an ASCII glyph, row by row. -/
theorem isStreamTo_asciiCells (sz : AsciiSize) {f : Nat → Nat → State → Res} (d : Nat → Nat → List Draw)
    {Q : Engines → Prop} {u : State} (hc : u.pack.cnt < batch)
    (hq : ∀ x, SameCursor x u.text → Q (u.fg, u.line, u.circle, x))
    (h : ∀ gp gt t, t.pack.cnt < batch → t.dev = u.dev → t.fg = u.fg → IsStream (f gp gt) t (d gp gt)) :
    ∃ x, SameCursor x u.text ∧
      IsStreamTo (asciiCells sz f) u
        ((List.range (asciiPx sz)).flatMap fun gp => (List.range (asciiPx sz / 2)).flatMap fun gt => d gp gt)
        (u.fg, u.line, u.circle, x) Q := by
  refine isStreamTo_cellLoop _ _ hc rfl rfl rfl rfl SameCursor.rfl hq fun gp t ht hd hf hl hr hx => ?_
  refine isStreamTo_cellLoop _ _ ht hd hf hl hr hx hq fun gt v hv hd' hf' hl' hr' hx' => ?_
  refine ⟨{ v.text with gp := gp, gt := gt }, hx', ?_⟩
  have hs := IsStreamTo.after (s := v) (g := fun s => f gp gt (setCell gp gt s)) (f := f gp gt)
    (k := (v.fg, v.line, v.circle, { v.text with gp := gp, gt := gt }))
    ((h gp gt (withEngines v (v.fg, v.line, v.circle, { v.text with gp := gp, gt := gt })) hv hd' hf').to (Q := Q)
      (by show Q (v.fg, v.line, v.circle, _); rw [hf', hl', hr']; exact hq _ hx')) rfl
  have e : enginesOf (withEngines v (v.fg, v.line, v.circle, { v.text with gp := gp, gt := gt })) =
      (u.fg, u.line, u.circle, { v.text with gp := gp, gt := gt }) := by
    rw [← hf', ← hl', ← hr']; rfl
  rw [e] at hs
  exact hs

/-- A window, cells, the restore: a block-mode glyph. -/
theorem isStreamTo_block {cells : State → Res} {ds : List Draw} (x0 y0 x1 y1 : Int) {Q : Engines → Prop} {u : State}
    (hc : u.pack.cnt < batch) (hq : ∀ x, SameCursor x u.text → Q (u.fg, u.line, u.circle, x))
    (h : ∀ t, t.pack.cnt < batch → t.dev = u.dev → t.fg = u.fg → t.line = u.line → t.circle = u.circle →
      SameCursor t.text u.text →
      ∃ x, SameCursor x u.text ∧ IsStreamTo cells t ds (u.fg, u.line, u.circle, x) Q) :
    ∃ x, SameCursor x u.text ∧
      IsStreamTo (fun s => ((openWindow x0 y0 x1 y1 s).andThen cells).andThen restoreFull) u
        (drawOpen x0 y0 x1 y1 ++ ds ++ drawRestore u.dev) (u.fg, u.line, u.circle, x) Q := by
  obtain ⟨x, hx, hcells⟩ := h (withEngines (streamed u (drawOpen x0 y0 x1 y1)) (enginesOf u)) (withEngines_cnt_lt _ _ hc)
    (by simp) rfl rfl rfl SameCursor.rfl
  refine ⟨x, hx, ?_⟩
  have h1 := ((isStream_openWindow x0 y0 x1 y1 hc).to (Q := Q) (hq _ SameCursor.rfl)).andThen hc hcells
  refine IsStreamTo.andThen (f := fun s => (openWindow x0 y0 x1 y1 s).andThen cells) hc h1 ?_
  have h2 := (isStream_restoreFull (s := withEngines (streamed u (drawOpen x0 y0 x1 y1 ++ ds)) (u.fg, u.line, u.circle, x))
    (withEngines_cnt_lt _ _ hc)).to (Q := Q) (hq x hx)
  rw [withEngines_dev, streamed_dev] at h2
  exact h2

/-- The blit of an ASCII glyph (R203), FG already the operation's. -/
theorem isStreamTo_asciiBlit (x y : Int) (bc : Word16) (rows : List Byte) (sz : AsciiSize) (point : Bool)
    {Q : Engines → Prop} {u : State} (hc : u.pack.cnt < batch)
    (hq : ∀ x, SameCursor x u.text → Q (u.fg, u.line, u.circle, x)) :
    ∃ k, SameCursor k u.text ∧
      IsStreamTo (asciiBlit x y bc rows sz point) u
        (drawGlyphBits u.dev x y (asciiPx sz / 2) (asciiPx sz) u.fg bc point
          ((List.range (asciiPx sz)).flatMap fun gp => (List.range (asciiPx sz / 2)).map fun gt => rowBit rows gp gt))
        (u.fg, u.line, u.circle, k) Q := by
  cases point with
  | true =>
    obtain ⟨k, hk, h⟩ := isStreamTo_asciiCells sz
      (f := fun gp gt s => pointPixel (x + gt) (y + gp) (rowBit rows gp gt) s)
      (fun gp gt => if rowBit rows gp gt then [.plot (x + gt) (y + gp) u.fg] else []) hc hq
      (fun gp gt t ht _ hf => by rw [← hf]; exact isStream_pointPixel _ _ _ ht)
    refine ⟨k, hk, IsStreamTo.congr (f := asciiCells sz fun gp gt s =>
      pointPixel (x + gt) (y + gp) (rowBit rows gp gt) s) ?_ (by simp [asciiBlit])⟩
    rw [show drawGlyphBits u.dev x y (asciiPx sz / 2) (asciiPx sz) u.fg bc true = drawSetBits x y (asciiPx sz / 2) u.fg from rfl,
      drawSetBits_rows]
    exact h
  | false =>
    obtain ⟨k, hk, h⟩ := isStreamTo_block (cells := asciiCells sz fun gp gt s => blockPixel bc (rowBit rows gp gt) s)
      (ds := (List.range (asciiPx sz)).flatMap fun gp => (List.range (asciiPx sz / 2)).flatMap fun gt =>
        [.pixel (if rowBit rows gp gt then u.fg else bc)])
      x y (x + (asciiPx sz / 2 : Nat) - 1) (y + (asciiPx sz : Nat) - 1) hc hq (by
        intro t ht hd hf hl hr hx
        obtain ⟨k, hk, h⟩ := isStreamTo_asciiCells sz (u := t) (Q := Q)
          (f := fun gp gt s => blockPixel bc (rowBit rows gp gt) s)
          (fun gp gt => [.pixel (if rowBit rows gp gt then u.fg else bc)]) ht
          (fun z hz => by rw [hf, hl, hr]; exact hq z (hz.trans hx))
          (fun gp gt v hv _ hf' => by rw [← hf, ← hf']; exact isStream_blockPixel _ _ hv)
        rw [hf, hl, hr] at h
        exact ⟨k, hk.trans hx, h⟩)
    refine ⟨k, hk, IsStreamTo.congr (f := fun s => ((openWindow x y (x + (asciiPx sz / 2 : Nat) - 1)
      (y + (asciiPx sz : Nat) - 1) s).andThen (asciiCells sz fun gp gt s => blockPixel bc (rowBit rows gp gt) s)).andThen
      restoreFull) ?_ (by simp [asciiBlit])⟩
    have e : ((List.range (asciiPx sz)).flatMap fun gp => (List.range (asciiPx sz / 2)).map fun gt => rowBit rows gp gt).map
        (fun b => Draw.pixel (if b then u.fg else bc)) =
        (List.range (asciiPx sz)).flatMap fun gp => (List.range (asciiPx sz / 2)).flatMap fun gt =>
          [.pixel (if rowBit rows gp gt then u.fg else bc)] := by
      rw [List.map_flatMap]
      refine List.flatMap_congr fun gp _ => ?_
      rw [List.map_map, List.map_eq_flatMap]
      rfl
    rw [show drawGlyphBits u.dev x y (asciiPx sz / 2) (asciiPx sz) u.fg bc false =
      drawBlock u.dev x y (asciiPx sz / 2) (asciiPx sz) u.fg bc from rfl, drawBlock, e]
    exact h

/-- The running position at pixel `n` of a double-byte glyph (R207). -/
def AtPixel (x y : Int) (w n : Nat) (e : TextEngine) : Prop := e.px = x + (n % w : Nat) ∧ e.py = y + (n / w : Nat)

/-- One pixel on, with the line wrap. -/
theorem advancePos_at (x y : Int) (sz : WideSize) (n : Nat) (s : State) (h : AtPixel x y (widePx sz) n s.text) :
    ∃ k, SameCursor k s.text ∧ AtPixel x y (widePx sz) (n + 1) k ∧
      advancePos x sz s = withEngines s (s.fg, s.line, s.circle, k) := by
  obtain ⟨h1, h2⟩ := h
  have hw : 0 < widePx sz := by cases sz <;> decide
  have hm := Nat.mod_lt n hw
  have hdm := Nat.div_add_mod n (widePx sz)
  unfold advancePos
  split
  · next hp =>
    refine ⟨{ s.text with px := x, py := s.text.py + 1 }, SameCursor.rfl, ⟨?_, ?_⟩, rfl⟩
    · have e : n % widePx sz + 1 = widePx sz := by rw [h1] at hp; omega
      have : (n + 1) % widePx sz = 0 := by
        rw [show n + 1 = widePx sz * (n / widePx sz) + widePx sz by omega]
        simp
      simp [this]
    · have e : n % widePx sz + 1 = widePx sz := by rw [h1] at hp; omega
      have : (n + 1) / widePx sz = n / widePx sz + 1 := by
        rw [show n + 1 = widePx sz * (n / widePx sz) + widePx sz by omega, Nat.mul_add_div hw, Nat.div_self hw]
      show s.text.py + 1 = _
      rw [this, h2]
      push_cast
      ring
  · next hp =>
    refine ⟨{ s.text with px := s.text.px + 1 }, SameCursor.rfl, ⟨?_, ?_⟩, rfl⟩
    · have e : n % widePx sz + 1 < widePx sz := by rw [h1] at hp; omega
      have : (n + 1) % widePx sz = n % widePx sz + 1 := by
        rw [show n + 1 = widePx sz * (n / widePx sz) + (n % widePx sz + 1) by omega, Nat.mul_add_mod, Nat.mod_eq_of_lt e]
      show s.text.px + 1 = _
      rw [this, h1]
      push_cast
      ring
    · have e : n % widePx sz + 1 < widePx sz := by rw [h1] at hp; omega
      have : (n + 1) / widePx sz = n / widePx sz := by
        rw [show n + 1 = widePx sz * (n / widePx sz) + (n % widePx sz + 1) by omega, Nat.mul_add_div hw,
          Nat.div_eq_of_lt e, Nat.add_zero]
      show s.text.py = _
      rw [this, h2]

/-- The point-mode loop of a double-byte glyph from pixel `n` on (R207). -/
theorem isStreamTo_wideLoop (x y : Int) (sz : WideSize) (bits : List Bool) (n : Nat) {Q : Engines → Prop} {s u : State}
    (hc : s.pack.cnt < batch) (hf : s.fg = u.fg) (hl : s.line = u.line) (hr : s.circle = u.circle)
    (ht : SameCursor s.text u.text) (hq : ∀ x, SameCursor x u.text → Q (u.fg, u.line, u.circle, x))
    (hp : AtPixel x y (widePx sz) n s.text) :
    ∃ k, SameCursor k u.text ∧
      IsStreamTo
        (forEach bits fun bit s => (pointPixel s.text.px s.text.py bit s).andThen fun s => .ok (advancePos x sz s)) s
        ((bits.zipIdx n).flatMap fun p =>
          if p.1 then [.plot (x + (p.2 % widePx sz : Nat)) (y + (p.2 / widePx sz : Nat)) u.fg] else [])
        (u.fg, u.line, u.circle, k) Q := by
  induction bits generalizing s n with
  | nil =>
    refine ⟨s.text, ht, ?_⟩
    have hs := (isStream_nil s).to (Q := Q) (by rw [enginesOf, hf, hl, hr]; exact hq _ ht)
    rw [enginesOf, hf, hl, hr] at hs
    exact hs
  | cons b bits ih =>
    obtain ⟨k, hk, hat, he⟩ := advancePos_at x y sz n
      (streamed s (if b then [.plot s.text.px s.text.py s.fg] else [])) (by rw [streamed_text]; exact hp)
    rw [streamed_text] at hk
    obtain ⟨m, hm, h2⟩ := ih (n + 1)
      (s := withEngines (streamed s (if b then [.plot s.text.px s.text.py s.fg] else [])) (u.fg, u.line, u.circle, k))
      (withEngines_cnt_lt _ _ hc) rfl rfl rfl (hk.trans ht) hat
    refine ⟨m, hm, ?_⟩
    have h1 : IsStreamTo (fun s => (pointPixel s.text.px s.text.py b s).andThen fun s => .ok (advancePos x sz s)) s
        (if b then [.plot s.text.px s.text.py s.fg] else []) (u.fg, u.line, u.circle, k) Q := by
      have h0 := (isStream_pointPixel s.text.px s.text.py b hc).to (Q := Q)
        (by rw [enginesOf, hf, hl, hr]; exact hq _ ht)
      constructor
      · intro hw
        show (pointPixel s.text.px s.text.py b s).andThen _ = _
        rw [(isStream_pointPixel s.text.px s.text.py b hc).ok hw, andThen_ok, he, streamed_fg, streamed_line, streamed_circle,
          hf, hl, hr]
        rfl
      · intro j hj
        obtain ⟨a, e, hqe, h⟩ := h0.cut j hj
        exact ⟨a, e, hqe, by show (pointPixel s.text.px s.text.py b s).andThen _ = _; rw [h, andThen_abort]⟩
    have hd : (if b then [Draw.plot s.text.px s.text.py s.fg] else []) =
        if b then [.plot (x + (n % widePx sz : Nat)) (y + (n / widePx sz : Nat)) u.fg] else [] := by
      rw [hp.1, hp.2, hf]
    rw [List.zipIdx_cons, List.flatMap_cons]
    have h3 := h1.andThen hc h2
    rw [hd] at h3
    exact h3

/-- The blit of a double-byte glyph (R207), FG already the operation's. -/
theorem isStreamTo_wideBlit (x y : Int) (bc : Word16) (bm : List Byte) (sz : WideSize) (point : Bool)
    {Q : Engines → Prop} {u : State} (hc : u.pack.cnt < batch)
    (hq : ∀ x, SameCursor x u.text → Q (u.fg, u.line, u.circle, x)) :
    ∃ k, SameCursor k u.text ∧
      IsStreamTo (wideBlit x y bc bm sz point) u
        (drawGlyphBits u.dev x y (widePx sz) (widePx sz) u.fg bc point (bitmapBits bm)) (u.fg, u.line, u.circle, k) Q := by
  cases point with
  | true =>
    obtain ⟨k, hk, h⟩ := isStreamTo_wideLoop x y sz (bitmapBits bm) 0 (u := u) (Q := Q)
      (s := withEngines u (u.fg, u.line, u.circle, { u.text with px := x, py := y })) hc rfl rfl rfl SameCursor.rfl hq
      ⟨by simp, by simp⟩
    refine ⟨k, hk, ?_⟩
    have h2 := IsStreamTo.after (s := u) (g := fun s => forEach (bitmapBits bm)
      (fun bit s => (pointPixel s.text.px s.text.py bit s).andThen fun s => .ok (advancePos x sz s)) (startPos x y s)) h rfl
    rw [show drawGlyphBits u.dev x y (widePx sz) (widePx sz) u.fg bc true (bitmapBits bm) =
      drawSetBits x y (widePx sz) u.fg (bitmapBits bm) from rfl, drawSetBits, setBits_from]
    exact h2.congr (by simp [wideBlit])
  | false =>
    obtain ⟨k, hk, h⟩ := isStreamTo_block (cells := forEach (bitmapBits bm) (blockPixel bc))
      (ds := (bitmapBits bm).map fun b => .pixel (if b then u.fg else bc))
      x y (x + (widePx sz : Nat) - 1) (y + (widePx sz : Nat) - 1) hc hq (by
        intro t ht hd hf hl hr hx
        have hs := isStream_forEach (s := t) (f := blockPixel bc) (fun b => [Draw.pixel (if b then u.fg else bc)])
          (bitmapBits bm) ht (fun b v hv _ hf' => by rw [← hf, ← hf']; exact isStream_blockPixel _ _ hv)
        have h := hs.to (Q := Q) (by rw [enginesOf, hf, hl, hr]; exact hq _ hx)
        rw [enginesOf, hf, hl, hr, ← List.map_eq_flatMap] at h
        exact ⟨t.text, hx, h⟩)
    refine ⟨k, hk, IsStreamTo.congr (f := fun s => ((openWindow x y (x + (widePx sz : Nat) - 1)
      (y + (widePx sz : Nat) - 1) s).andThen (forEach (bitmapBits bm) (blockPixel bc))).andThen restoreFull) h
      (by simp [wideBlit])⟩

/-- Leaving a glyph (R212): FG is the saved colour again, on every exit. -/
theorem IsStreamTo.leave {f : State → Res} {s : State} {ds : List Draw} {e : Engines} {Q R : Engines → Prop}
    (h : IsStreamTo f s ds e Q) (hr : ∀ k, Q k → R (k.2.2.2.fgsave, k.2)) :
    IsStreamTo (fun s => (f s).onExit leaveText) s ds (e.2.2.2.fgsave, e.2) R := by
  constructor
  · intro hw
    show (f s).onExit leaveText = _
    rw [h.ok hw]
    rfl
  · intro j hj
    obtain ⟨a, k, hq, hk⟩ := h.cut j hj
    refine ⟨a, (k.2.2.2.fgsave, k.2), hr k hq, ?_⟩
    show (f s).onExit leaveText = _
    rw [hk]
    rfl

/-- The cursor of STRING is the same. -/
def CursorSame (a b : TextEngine) : Prop := a.tx = b.tx ∧ a.ty = b.ty ∧ a.xs = b.xs ∧ a.si = b.si

/-- A glyph between entry and exit (R212). -/
theorem isStreamTo_glyph {blit : State → Res} {ds : List Draw} (fc : Word16) {s u : State} (hu : TextOnly u (enginesOf s))
    (h : ∀ Q : Engines → Prop,
      (∀ x, SameCursor x (enterText fc s).text → Q (fc, s.line, s.circle, x)) →
      ∃ k, SameCursor k (enterText fc s).text ∧ IsStreamTo blit (enterText fc s) ds (fc, s.line, s.circle, k) Q) :
    ∃ k, CursorSame k s.text ∧
      IsStreamTo (fun s => (blit (enterText fc s)).onExit leaveText) s ds (s.fg, s.line, s.circle, k) (TextOnly u) := by
  obtain ⟨k, hk, hb⟩ := h (InGlyph fc s s.fg) (fun x hx => ⟨rfl, rfl, rfl, hx.2.2.2.2⟩)
  refine ⟨k, ⟨hk.1, hk.2.1, hk.2.2.1, hk.2.2.2.1⟩, ?_⟩
  have h1 := IsStreamTo.after (s := s) (g := fun s => blit (enterText fc s))
    (k := (fc, s.line, s.circle, { s.text with fgsave := s.fg })) hb rfl
  have h2 := h1.leave (R := TextOnly u) (by
    rintro ⟨a, l, c, x⟩ ⟨-, hl, hr, hs⟩
    obtain ⟨x0, hx0⟩ := hu
    simp only [enginesOf, Prod.mk.injEq] at hx0 hl hr hs ⊢
    exact ⟨x, by rw [hs, hl, hr, hx0.1, hx0.2.1, hx0.2.2.1]⟩)
  rw [show (fc, s.line, s.circle, k).2.2.2.fgsave = s.fg from hk.2.2.2.2] at h2
  exact h2

/-- `DoChar` (R203): the cell of the character; the cursor and FG as before. -/
theorem isStreamTo_doChar (x y : Int) (fc bc : Word16) (ch : Byte) (sz : AsciiSize) (point : Bool) {s u : State}
    (hc : s.pack.cnt < batch) (hu : TextOnly u (enginesOf s)) :
    ∃ k, CursorSame k s.text ∧
      IsStreamTo (doChar x y fc bc ch sz point) s (drawChar s.board s.dev x y fc bc ch sz point)
        (s.fg, s.line, s.circle, k) (TextOnly u) := by
  obtain ⟨k, hk, h⟩ := isStreamTo_glyph (s := s) (blit := asciiBlit x y bc (asciiRows s.board sz ch) sz point)
    (ds := drawChar s.board s.dev x y fc bc ch sz point) fc hu
    (fun Q hq => isStreamTo_asciiBlit x y bc (asciiRows s.board sz ch) sz point (u := enterText fc s) hc hq)
  exact ⟨k, hk, h.congr rfl⟩

/-- `DoGlyph` (R207): the cell of the code's first index entry, nothing for a code without one (R213); the cursor and FG as
before. -/
theorem isStreamTo_doGlyph (x y : Int) (fc bc code : Word16) (sz : WideSize) (point : Bool) {s u : State}
    (hc : s.pack.cnt < batch) (hu : TextOnly u (enginesOf s)) :
    ∃ k, CursorSame k s.text ∧
      IsStreamTo (doGlyph x y fc bc code sz point) s (drawGlyph s.board s.dev x y fc bc code sz point)
        (s.fg, s.line, s.circle, k) (TextOnly u) := by
  unfold drawGlyph
  cases hs : scanIndex code (dbIndex s.board sz) with
  | none =>
    refine ⟨s.text, ⟨rfl, rfl, rfl, rfl⟩, ?_⟩
    exact ((isStream_nil s).to hu).congr (by unfold doGlyph; rw [hs])
  | some i =>
    obtain ⟨k, hk, h⟩ := isStreamTo_glyph (s := s) (blit := wideBlit x y bc (wideBitmap s.board sz i) sz point)
      (ds := drawGlyphBits s.dev x y (widePx sz) (widePx sz) fc bc point (bitmapBits (wideBitmap s.board sz i))) fc hu
      (fun Q hq => isStreamTo_wideBlit x y bc (wideBitmap s.board sz i) sz point (u := enterText fc s) hc hq)
    exact ⟨k, hk, h.congr (by unfold doGlyph; rw [hs])⟩

/-! ### Strings -/

theorem TextOnly.step {s u : State} (h : TextOnly u (enginesOf s)) (x : TextEngine) :
    TextOnly u (s.fg, s.line, s.circle, x) := by
  obtain ⟨x0, hx⟩ := h
  simp only [enginesOf, Prod.mk.injEq] at hx
  exact ⟨x, by rw [hx.1, hx.2.1, hx.2.2.1]⟩

/-- A character of a string, drawn where its path has a font of the size (R214): the cursor and FG as before. -/
theorem isStreamTo_stringChar (fc bc : Word16) (size : Byte) (point : Bool) (b : Byte) {s u : State}
    (hc : s.pack.cnt < batch) (hu : TextOnly u (enginesOf s)) :
    ∃ k, CursorSame k s.text ∧
      IsStreamTo (stringChar fc bc size point b) s
        (match asciiSize size with
          | some sz => drawChar s.board s.dev s.text.tx s.text.ty fc bc b sz point
          | none => []) (s.fg, s.line, s.circle, k) (TextOnly u) := by
  cases hs : asciiSize size with
  | none => exact ⟨s.text, ⟨rfl, rfl, rfl, rfl⟩, ((isStream_nil s).to hu).congr (by unfold stringChar; rw [hs])⟩
  | some sz =>
    obtain ⟨k, hk, h⟩ := isStreamTo_doChar s.text.tx s.text.ty fc bc b sz point hc hu
    exact ⟨k, hk, h.congr (by unfold stringChar; rw [hs])⟩

theorem isStreamTo_stringGlyph (fc bc : Word16) (size : Byte) (point : Bool) (code : Word16) {s u : State}
    (hc : s.pack.cnt < batch) (hu : TextOnly u (enginesOf s)) :
    ∃ k, CursorSame k s.text ∧
      IsStreamTo (stringGlyph fc bc size point code) s
        (match wideSize size with
          | some sz => drawGlyph s.board s.dev s.text.tx s.text.ty fc bc code sz point
          | none => []) (s.fg, s.line, s.circle, k) (TextOnly u) := by
  cases hs : wideSize size with
  | none => exact ⟨s.text, ⟨rfl, rfl, rfl, rfl⟩, ((isStream_nil s).to hu).congr (by unfold stringGlyph; rw [hs])⟩
  | some sz =>
    obtain ⟨k, hk, h⟩ := isStreamTo_doGlyph s.text.tx s.text.ty fc bc code sz point hc hu
    exact ⟨k, hk, h.congr (by unfold stringGlyph; rw [hs])⟩

/-- A character drawn, then the cursor moved, then the rest of the string. -/
theorem isStreamTo_stringStep {f rest : State → Res} {ds ds' : List Draw} {s u : State} (adv n : Nat)
    (P : TextEngine → Prop) (hc : s.pack.cnt < batch) (hu : TextOnly u (enginesOf s))
    (hf : ∃ k, CursorSame k s.text ∧ IsStreamTo f s ds (s.fg, s.line, s.circle, k) (TextOnly u))
    (hr : ∀ t, t.pack.cnt < batch → TextOnly u (enginesOf t) → t.fg = s.fg → t.line = s.line → t.circle = s.circle →
      t.dev = s.dev → t.board = s.board → t.text.tx = s.text.tx + adv → t.text.ty = s.text.ty → t.text.xs = s.text.xs →
      ∃ k, P k ∧ IsStreamTo rest t ds' (t.fg, t.line, t.circle, k) (TextOnly u)) :
    ∃ k, P k ∧
      IsStreamTo (fun s => (f s).andThen fun s => rest (advanceCursor adv n s)) s (ds ++ ds') (s.fg, s.line, s.circle, k)
        (TextOnly u) := by
  obtain ⟨k, hk, h1⟩ := hf
  obtain ⟨m, hm, h2⟩ := hr
    (withEngines (withEngines (streamed s ds) (s.fg, s.line, s.circle, k))
      (s.fg, s.line, s.circle, { k with tx := k.tx + adv, si := k.si + n }))
    (withEngines_cnt_lt _ _ hc) (hu.step _) rfl rfl rfl (by simp) (by simp)
    (by show k.tx + (adv : Int) = _; rw [hk.1]) hk.2.1 hk.2.2.1
  refine ⟨m, hm, h1.andThen hc ?_⟩
  exact IsStreamTo.after (g := fun s => rest (advanceCursor adv n s)) h2 rfl

/-- The loop of STRING (R208): the characters drawn in turn, and the final cursor. -/
theorem isStreamTo_stringLoop (fc bc : Word16) (size : Byte) (point : Bool) (xs : Int) :
    ∀ (bytes : List Byte) (s u : State), s.pack.cnt < batch → TextOnly u (enginesOf s) → s.text.xs = xs →
      ∃ k : TextEngine, (k.tx, k.ty) = stringCursor s.dev size xs bytes s.text.tx s.text.ty ∧
        IsStreamTo (stringLoop fc bc size point bytes) s
          (drawString s.board s.dev fc bc size point xs bytes s.text.tx s.text.ty) (s.fg, s.line, s.circle, k)
          (TextOnly u)
  | [], s, u, _, hu, _ => ⟨s.text, rfl, (isStream_nil s).to hu⟩
  | b :: rest, s, u, hc, hu, hxs => by
    unfold drawString stringCursor
    by_cases hb : isAscii b = true
    · rw [if_pos hb, if_pos hb]
      by_cases hf : fits s.text.tx s.text.ty (size.toNat / 2) size.toNat s.dev = true
      · rw [if_pos hf, if_pos hf]
        obtain ⟨k, hk, h⟩ := isStreamTo_stringStep (size.toNat / 2) 1
          (fun k => (k.tx, k.ty) = stringCursor s.dev size xs rest (s.text.tx + (size.toNat / 2 : Nat)) s.text.ty)
          (rest := stringLoop fc bc size point rest)
          (ds' := drawString s.board s.dev fc bc size point xs rest (s.text.tx + (size.toNat / 2 : Nat)) s.text.ty)
          hc hu (isStreamTo_stringChar fc bc size point b hc hu)
          (fun t ht hut _ _ _ hd hbd htx hty hx => by
            have := isStreamTo_stringLoop fc bc size point xs rest t u ht hut (hx.trans hxs)
            rw [hd, hbd, htx, hty] at this
            exact this)
        exact ⟨k, hk, h.congr (by rw [stringLoop.eq_def]; simp only [if_pos hb, if_pos hf])⟩
      · rw [if_neg hf, if_neg hf]
        exact ⟨s.text, rfl, ((isStream_nil s).to hu).congr (by rw [stringLoop.eq_def]; simp only [if_pos hb, if_neg hf])⟩
    · rw [if_neg hb, if_neg hb]
      by_cases hcr : b = 0x0D#8
      · rw [if_pos hcr, if_pos hcr]
        obtain ⟨k, hk, h⟩ := isStreamTo_stringLoop fc bc size point xs rest
          (withEngines s (s.fg, s.line, s.circle, (carriageReturn size.toNat s).text)) u hc (hu.step _) hxs
        refine ⟨k, ?_, ?_⟩
        · rw [hk]
          show stringCursor s.dev size xs rest s.text.xs _ = _
          rw [hxs]; rfl
        · have h2 := IsStreamTo.after (s := s) (g := fun s => stringLoop fc bc size point rest (carriageReturn size.toNat s))
            h rfl
          have e : (carriageReturn size.toNat s).text.tx = xs := hxs
          rw [withEngines_text, e] at h2
          refine IsStreamTo.congr h2 ?_
          rw [stringLoop.eq_def]
          simp only [if_neg hb, if_pos hcr]
      · rw [if_neg hcr, if_neg hcr]
        by_cases hh : b.toNat ≥ 0x80
        · rw [if_pos hh, if_pos hh]
          match rest with
          | [] =>
            exact ⟨s.text, rfl, ((isStream_nil s).to hu).congr
              (by rw [stringLoop.eq_def]; simp only [if_neg hb, if_neg hcr, if_pos hh])⟩
          | b1 :: rest' =>
            by_cases hf : fits s.text.tx s.text.ty size.toNat size.toNat s.dev = true
            · simp only [if_pos hf]
              obtain ⟨k, hk, h⟩ := isStreamTo_stringStep size.toNat 2
                (fun k => (k.tx, k.ty) = stringCursor s.dev size xs rest' (s.text.tx + size.toNat) s.text.ty)
                (rest := stringLoop fc bc size point rest')
                (ds' := drawString s.board s.dev fc bc size point xs rest' (s.text.tx + size.toNat) s.text.ty)
                hc hu (isStreamTo_stringGlyph fc bc size point (be16 b b1) hc hu)
                (fun t ht hut _ _ _ hd hbd htx hty hx => by
                  have := isStreamTo_stringLoop fc bc size point xs rest' t u ht hut (hx.trans hxs)
                  rw [hd, hbd, htx, hty] at this
                  exact this)
              exact ⟨k, hk, h.congr (by
                show stringLoop _ _ _ _ (b :: b1 :: rest') s = _
                rw [stringLoop.eq_def]
                simp only [if_neg hb, if_neg hcr, if_pos hh, if_pos hf])⟩
            · simp only [if_neg hf]
              exact ⟨s.text, rfl, ((isStream_nil s).to hu).congr
                (by rw [stringLoop.eq_def]; simp only [if_neg hb, if_neg hcr, if_pos hh, if_neg hf])⟩
        · rw [if_neg hh, if_neg hh]
          obtain ⟨k, hk, h⟩ := isStreamTo_stringLoop fc bc size point xs rest
            (withEngines s (s.fg, s.line, s.circle, (skipByte s).text)) u hc (hu.step _) hxs
          refine ⟨k, hk, IsStreamTo.congr (IsStreamTo.after (s := s)
            (g := fun s => stringLoop fc bc size point rest (skipByte s)) h rfl) ?_⟩
          rw [stringLoop.eq_def]
          simp only [if_neg hb, if_neg hcr, if_neg hh]

/-- The effect of STRING (R208): its characters, the final cursor, FG and the other engines as before. -/
theorem isStreamTo_doString (x y : Int) (fc bc : Word16) (size : Byte) (point : Bool) (bytes : List Byte) {s : State}
    (hc : s.pack.cnt < batch) :
    ∃ k : TextEngine, (k.tx, k.ty) = stringCursor s.dev size x bytes x y ∧
      IsStreamTo (doString x y fc bc size point bytes) s (drawString s.board s.dev fc bc size point x bytes x y)
        (s.fg, s.line, s.circle, k) (TextOnly s) := by
  obtain ⟨k, hk, h⟩ := isStreamTo_stringLoop fc bc size point x bytes
    (withEngines s (s.fg, s.line, s.circle, { s.text with tx := x, ty := y, xs := x, si := 0 })) s hc
    ⟨_, rfl⟩ rfl
  exact ⟨k, hk, h.after rfl⟩

end Sys2Proof.Machine
end

