-- ==== Sys2Proof/Tests/Slice0.lean ====
section
/-! SUPPORT. The model's own tests. Expected values are those of spec/95_test_vectors.md (V<n>), of the examples in the rules
(R<n>), or read by hand from the tables of spec/30_encoding.md; the fixture is the spec's T0 (spec/00_scope.md section 4).
The last part shows, for each statement with hypotheses, a concrete state and operands that meet them. -/

namespace Sys2Proof.Tests

open Sys2Proof Sys2Proof.Machine Sys2Proof.Config Sys2Proof.Safety

-- One theorem at a time: many kernel evaluations at once would each hold a thread with a large stack.
set_option Elab.async false

/-! ### WellFormed refuses an ill-formed term for each check -/

theorem test_wf_fill_corners : (Instr.fill 4#16 4#16 2#16 4#16 0#16).wellFormed = false := by decide
theorem test_wf_frect_corners : (Instr.frect 2#16 5#16 2#16 4#16).wellFormed = false := by decide
theorem test_wf_circle_flag : (Instr.circle 0#16 0#16 0#16 2#8).wellFormed = false := by decide
theorem test_wf_char_below : (Instr.char 0#16 0#16 0#16 0#16 0x1F#8 12#8 0#8).wellFormed = false := by decide
theorem test_wf_char_above : (Instr.char 0#16 0#16 0#16 0#16 0x7F#8 12#8 0#8).wellFormed = false := by decide
theorem test_wf_char_size : (Instr.char 0#16 0#16 0#16 0#16 0x41#8 24#8 0#8).wellFormed = false := by decide
theorem test_wf_char_mode : (Instr.char 0#16 0#16 0#16 0#16 0x41#8 12#8 2#8).wellFormed = false := by decide
theorem test_wf_glyph_size : (Instr.glyph 0#16 0#16 0#16 0#16 0#16 12#8 0#8).wellFormed = false := by decide
theorem test_wf_glyph_mode : (Instr.glyph 0#16 0#16 0#16 0#16 0#16 16#8 2#8).wellFormed = false := by decide
theorem test_wf_string_size : (Instr.string 0#16 0#16 0#16 0#16 20#8 0#8 []).wellFormed = false := by decide
theorem test_wf_string_mode : (Instr.string 0#16 0#16 0#16 0#16 16#8 2#8 []).wellFormed = false := by decide
theorem test_wf_string_length :
    (Instr.string 0#16 0#16 0#16 0#16 16#8 0#8 (List.replicate 65536 0#8)).wellFormed = false := by
  simp only [Instr.wellFormed, List.length_replicate]
  decide
theorem test_wf_number_no_cell : (Instr.number 0#16 0#16 0#16 0#16 0#32 0#8 16#8 0#8).wellFormed = false := by decide
theorem test_wf_number_cells : (Instr.number 0#16 0#16 0#16 0#16 0#32 11#8 16#8 0#8).wellFormed = false := by decide
theorem test_wf_number_size : (Instr.number 0#16 0#16 0#16 0#16 0#32 3#8 20#8 0#8).wellFormed = false := by decide
theorem test_wf_init_orient : (Instr.init 2#8).wellFormed = false := by decide

/-! ### Every constructor's request, written out from R102 to R104 and R91, R92 -/

theorem test_decode_push : decode (.bytes [0x01, 0x81, 0xFF]) = .ok (.push 0x81FF#16) := by rfl
theorem test_decode_teardown : decode (.bytes [0x02]) = .ok .teardown := by rfl
theorem test_decode_wrreg : decode (.bytes [0x10, 0x2C]) = .ok (.wrreg 0x2C#8) := by rfl
theorem test_decode_wrdat8 : decode (.bytes [0x11, 0xF8]) = .ok (.wrdat8 0xF8#8) := by rfl
theorem test_decode_wrdat16 : decode (.bytes [0x12, 0x12, 0x34]) = .ok (.wrdat16 0x1234#16) := by rfl
theorem test_decode_setwin : decode (.bytes [0x20, 0, 1, 0, 2, 0, 239, 1, 0x3F]) =
    .ok (.setwin 1#16 2#16 239#16 319#16) := by rfl
theorem test_decode_armram : decode (.bytes [0x21]) = .ok .armram := by rfl
theorem test_decode_setcur : decode (.bytes [0x22, 0, 3, 0, 4]) = .ok (.setcur 3#16 4#16) := by rfl
theorem test_decode_point : decode (.bytes [0x30, 0, 3, 0, 4, 0xF8, 0]) = .ok (.point 3#16 4#16 0xF800#16) := by rfl
theorem test_decode_fill : decode (.bytes [0x31, 0, 2, 0, 3, 0, 4, 0, 5, 0x12, 0x34]) =
    .ok (.fill 2#16 3#16 4#16 5#16 0x1234#16) := by rfl
theorem test_decode_clear : decode (.bytes [0x32, 0x07, 0xE0]) = .ok (.clear 0x07E0#16) := by rfl
theorem test_decode_line : decode (.bytes [0x33, 0, 0, 0, 1, 0, 10, 0, 3]) = .ok (.line 0#16 1#16 10#16 3#16) := by rfl
theorem test_decode_rect : decode (.bytes [0x34, 0, 1, 0, 2, 0, 3, 0, 4]) = .ok (.rect 1#16 2#16 3#16 4#16) := by rfl
theorem test_decode_frect : decode (.bytes [0x35, 0, 1, 0, 2, 0, 3, 0, 4]) = .ok (.frect 1#16 2#16 3#16 4#16) := by rfl
theorem test_decode_circle : decode (.bytes [0x36, 0, 50, 0, 51, 0, 10, 1]) =
    .ok (.circle 50#16 51#16 10#16 1#8) := by rfl
theorem test_decode_char : decode (.bytes [0x40, 0, 10, 0, 20, 0xF8, 0, 0xFF, 0xFF, 0x41, 12, 1]) =
    .ok (.char 10#16 20#16 0xF800#16 0xFFFF#16 0x41#8 12#8 1#8) := by rfl
theorem test_decode_glyph : decode (.bytes [0x41, 0, 100, 0, 50, 0xF8, 0, 0, 1, 0xB0, 0xA1, 16, 1]) =
    .ok (.glyph 100#16 50#16 0xF800#16 1#16 0xB0A1#16 16#8 1#8) := by rfl
theorem test_decode_string :
    decode (.bytes [0x42, 0, 4, 0, 8, 0, 0x1F, 0xFF, 0xFF, 16, 1, 0, 3, 0x41, 0xB0, 0xA1, 0x99]) =
      .ok (.string 4#16 8#16 0x1F#16 0xFFFF#16 16#8 1#8 [0x41#8, 0xB0#8, 0xA1#8]) := by rfl
theorem test_decode_number :
    decode (.bytes [0x43, 0, 1, 0, 2, 0, 3, 0, 4, 0x00, 0x01, 0xE2, 0x40, 6, 24, 0]) =
      .ok (.number 1#16 2#16 3#16 4#16 123456#32 6#8 24#8 0#8) := by rfl
theorem test_decode_init : decode (.bytes [0x50, 1]) = .ok (.init 1#8) := by rfl
theorem test_decode_setcolors : decode (.bytes [0x51, 0xF8, 0, 0xFF, 0xFE]) =
    .ok (.setcolors 0xF800#16 0xFFFE#16) := by rfl
theorem test_decode_cwCmd : decode (.codeword 0b000101100#9) = .ok (.cwCmd 0x2C#8) := by rfl
theorem test_decode_cwDat : decode (.codeword 0b100101100#9) = .ok (.cwDat 0x2C#8) := by rfl
theorem test_decode_carrierCmd : decode (.carrier 0b0001011000000101#16) = .ok (.carrierCmd 0x2C#8 5#7) := by rfl
theorem test_decode_carrierDat : decode (.carrier 0b1001011000000101#16) = .ok (.carrierDat 0x2C#8 5#7) := by rfl

/-- The opcode table gives CARRIER.DAT 16 bits and STRING 8, its operand bytes then zeros. -/
theorem test_table_words :
    decodeTableWord 16 0x9605 = some (.carrierDat 0x2C#8 5#7) ∧
    decodeTableWord 8 0x42 = some (.string 0#16 0#16 0#16 0#16 0#8 0#8 []) ∧ decodeTableWord 8 0x03 = none := by
  exact ⟨rfl, rfl, rfl⟩

/-! ### Fixtures -/

/-- T0's device record. -/
def t0Cfg : DevCfg := { width := 240#16, height := 320#16, ramcmd := 0x2C#8, colcmd := 0x2A#8, rowcmd := 0x2B#8 }

/-- The made-up glyph `GA` of spec/95_test_vectors.md section 6. -/
def glyphA : List Byte := [0x00, 0x20, 0x50, 0x50, 0x88, 0x88, 0xF8, 0x88, 0x88, 0x88, 0x00, 0x00]

/-- A board with T0, `GA` for `A` at size 12, blank glyphs at size 16, one code at size 16 whose bitmap is the example of R207,
a two-codeword initialization sequence (R230), and transports that first answer as `xs` and `os` say. -/
def t0Board (xs os : List Int) : Board :=
  { portrait := t0Cfg, landscape := t0Cfg, initPortrait := [], initLandscape := [(.reg, 0x11#8), (.reg, 0x29#8)]
    ascii12 := List.replicate 396 0#8 ++ glyphA ++ List.replicate 732 0#8, ascii16 := List.replicate 1520 0#8
    dbIndex16 := [0xB0A1#16], dbIndex24 := [], dbIndex32 := []
    dbBitmap16 := [0x80#8, 0x01#8, 0x40#8] ++ List.replicate 28 0#8 ++ [0x01#8], dbBitmap24 := [], dbBitmap32 := []
    fgReset := 0#16, bgReset := 0#16, xferScript := xs, openScript := os }

/-- The state "Fresh" of the test vectors, but that the next transfers answer as `xs` says; `cnt` codewords are counted as
pending. -/
def t0 (o : Orient) (xs : List Int) (cnt : Nat) : State :=
  { State.resetWith (t0Board xs [0, 0]) thisHardware with
    ready := true
    dev := deviceOf (t0Board xs [0, 0]) o
    pack := { PackBuffer.reset with cnt := cnt } }

/-- Fresh. -/
abbrev fresh : State := t0 .landscape [0] 0

/-- The next state of an outcome. -/
def nextOf : Host.Outcome State Fault Refusal → Option State
  | .next t => some t
  | .fault _ => none
  | .refused _ => none

/-- Of the outcome's state: the codewords, the points, the statuses. -/
def cwsOf (r : Host.Outcome State Fault Refusal) : List Nat := ((nextOf r).map fun t => t.cwTrace.map BitVec.toNat).getD []
def plotsOf (r : Host.Outcome State Fault Refusal) : List (Int × Int) :=
  ((nextOf r).map fun t => t.plotTrace.map fun p => (p.1, p.2.1)).getD []
def statusOf (r : Host.Outcome State Fault Refusal) : List Status := ((nextOf r).map fun t => t.respTrace).getD []

/-! ### One operation each -/

/-- V3: the carrier's low bits are ignored. -/
theorem test_push : cwsOf (exec (.push 0x81FF#16) fresh) = [0x103] := by decide +kernel
/-- V17: a command codeword leaves ASM in Idle, also where it equals RAMCMD; data leaves it. -/
theorem test_push_asm :
    (nextOf (exec (.push 0x1600#16) { fresh with asm := .ramStreaming })).map (·.asm) = some .idle ∧
    (nextOf (exec (.push 0x8000#16) { fresh with asm := .ramStreaming })).map (·.asm) = some .ramStreaming := by decide +kernel
/-- V1, the worked example of R120: the Pack Buffer after two codewords. -/
theorem test_pack_two :
    let p := packCodeword 0x100#9 (packCodeword 0x02A#9 PackBuffer.reset)
    p.acc = 0#32 ∧ p.nbits = 2 ∧ p.cnt = 2 ∧ p.outcnt = 1 ∧ p.out[0] = 0x1540#16 := by decide +kernel
/-- V8: TEARDOWN under `drop`. -/
theorem test_teardown : (nextOf (exec .teardown { fresh with pack := { fresh.pack with cnt := 13, nbits := 5, outcnt := 7 } })).map
    (fun t => (t.pack.cnt, t.pack.nbits, t.pack.outcnt, t.ready, t.xferCalls)) = some (0, 0, 0, false, 0) := by decide +kernel
/-- V10. -/
theorem test_wrreg : cwsOf (exec (.wrreg 0x2C#8) fresh) = [0x02C] := by decide +kernel
/-- V10. -/
theorem test_wrdat8 : cwsOf (exec (.wrdat8 0xF8#8) fresh) = [0x1F8] := by decide +kernel
/-- V10. -/
theorem test_wrdat16 : cwsOf (exec (.wrdat16 0x1234#16) fresh) = [0x112, 0x134] := by decide +kernel
/-- V14. -/
theorem test_setwin_landscape : cwsOf (exec (.setwin 0#16 0#16 239#16 319#16) fresh) =
    [0x02B, 0x100, 0x100, 0x101, 0x13F, 0x02A, 0x100, 0x100, 0x100, 0x1EF] := by decide +kernel
/-- V13, portrait. -/
theorem test_setwin_portrait : cwsOf (exec (.setwin 3#16 4#16 3#16 4#16) (t0 .portrait [0] 0)) =
    [0x02A, 0x100, 0x104, 0x100, 0x104, 0x02B, 0x100, 0x103, 0x100, 0x103] := by decide +kernel
/-- V14. -/
theorem test_armram : cwsOf (exec .armram fresh) = [0x02C] := by decide +kernel
/-- V16. -/
theorem test_setcur : cwsOf (exec (.setcur 3#16 4#16) fresh) =
    [0x02B, 0x100, 0x104, 0x100, 0x104, 0x02A, 0x100, 0x103, 0x100, 0x103, 0x02C] := by decide +kernel
/-- V18. -/
theorem test_point : cwsOf (exec (.point 3#16 4#16 0xF800#16) fresh) =
    [0x02B, 0x100, 0x104, 0x100, 0x104, 0x02A, 0x100, 0x103, 0x100, 0x103, 0x02C, 0x1F8, 0x100] := by decide +kernel
/-- V19. -/
theorem test_fill : cwsOf (exec (.fill 2#16 3#16 4#16 4#16 0x1234#16) fresh) =
    [0x02B, 0x100, 0x103, 0x100, 0x104, 0x02A, 0x100, 0x102, 0x100, 0x104, 0x02C, 0x112, 0x134, 0x112, 0x134, 0x112, 0x134,
     0x112, 0x134, 0x112, 0x134, 0x112, 0x134, 0x02B, 0x100, 0x100, 0x101, 0x13F, 0x02A, 0x100, 0x100, 0x100, 0x1EF,
     0x02C] := by decide +kernel
/-- V19: reversed corners. -/
theorem test_fill_reversed : statusOf (exec (.fill 4#16 4#16 2#16 4#16 0#16) fresh) = [.eArg] := by decide +kernel
/-- R173, on a panel of one pixel: 24 codewords; and a panel of no column. -/
theorem test_clear :
    (cwsOf (exec (.clear 0x07E0#16) { fresh with dev := { fresh.dev with width := 1#16, height := 1#16 } })).length = 24 ∧
    statusOf (exec (.clear 0#16) { fresh with dev := { fresh.dev with width := 0#16 } }) = [.eArg] := by decide +kernel
/-- V22. -/
theorem test_line : plotsOf (exec (.line 0#16 0#16 10#16 3#16) fresh) =
    [(0, 0), (1, 0), (2, 0), (3, 1), (4, 1), (5, 1), (6, 2), (7, 2), (8, 2), (9, 2), (10, 3)] := by decide +kernel
/-- V23: not the reverse of V22. -/
theorem test_line_back : plotsOf (exec (.line 10#16 3#16 0#16 0#16) fresh) =
    [(10, 3), (9, 3), (8, 3), (7, 2), (6, 2), (5, 2), (4, 1), (3, 1), (2, 1), (1, 1), (0, 0)] := by decide +kernel
/-- V29. -/
theorem test_rect : plotsOf (exec (.rect 1#16 1#16 3#16 2#16) fresh) =
    [(1, 1), (2, 1), (3, 1), (1, 1), (1, 2), (1, 2), (2, 2), (3, 2), (3, 1), (3, 2)] := by decide +kernel
/-- V30: the colour is FG. -/
theorem test_frect : (cwsOf (exec (.frect 2#16 3#16 4#16 4#16) { fresh with fg := 0x1234#16 })).drop 11 =
    [0x112, 0x134, 0x112, 0x134, 0x112, 0x134, 0x112, 0x134, 0x112, 0x134, 0x112, 0x134, 0x02B, 0x100, 0x100, 0x101, 0x13F,
     0x02A, 0x100, 0x100, 0x100, 0x1EF, 0x02C] := by decide +kernel
/-- V32, radius 1, and V36: off the panel, untruncated. -/
theorem test_circle : plotsOf (exec (.circle 0#16 0#16 1#16 0#8) fresh) =
    [(0, 1), (0, 1), (0, -1), (0, -1), (1, 0), (-1, 0), (1, 0), (-1, 0)] := by decide +kernel
/-- V35: the second iteration of a filled circle. -/
theorem test_circle_filled : (plotsOf (exec (.circle 50#16 50#16 2#16 1#8) fresh)).drop 24 =
    [(51, 51), (49, 51), (51, 49), (49, 49), (51, 51), (49, 51), (51, 49), (49, 49),
     (51, 52), (49, 52), (51, 48), (49, 48), (52, 51), (48, 51), (52, 49), (48, 49)] := by decide +kernel
/-- V40. -/
theorem test_char : plotsOf (exec (.char 10#16 20#16 0xF800#16 0xFFFF#16 0x41#8 12#8 1#8) fresh) =
    [(12, 21), (11, 22), (13, 22), (11, 23), (13, 23), (10, 24), (14, 24), (10, 25), (14, 25), (10, 26), (11, 26), (12, 26),
     (13, 26), (14, 26), (10, 27), (14, 27), (10, 28), (14, 28), (10, 29), (14, 29)] := by decide +kernel
/-- R202: the window and the first pixels of block mode. -/
theorem test_char_block :
    ((cwsOf (exec (.char 10#16 20#16 0xF800#16 0xFFFF#16 0x41#8 12#8 0#8) fresh)).take 37).drop 5 =
    [0x02A, 0x100, 0x10A, 0x100, 0x10F, 0x02C, 0x1FF, 0x1FF, 0x1FF, 0x1FF, 0x1FF, 0x1FF, 0x1FF, 0x1FF, 0x1FF, 0x1FF, 0x1FF,
     0x1FF, 0x1FF, 0x1FF, 0x1FF, 0x1FF, 0x1F8, 0x100, 0x1FF, 0x1FF, 0x1FF, 0x1FF, 0x1FF, 0x1FF, 0x1FF, 0x1FF] := by decide +kernel
/-- The example of R207. -/
theorem test_glyph : plotsOf (exec (.glyph 100#16 50#16 0xF800#16 0#16 0xB0A1#16 16#8 1#8) fresh) =
    [(100, 50), (115, 50), (101, 51), (115, 65)] := by decide +kernel
/-- R213: an unmatched code. -/
theorem test_glyph_unmatched : cwsOf (exec (.glyph 100#16 50#16 0xF800#16 0#16 0xC4E3#16 16#8 1#8) fresh) = [] := by decide +kernel
/-- The final cursor of the example of R208. -/
theorem test_string_cursor :
    (nextOf (exec (.string 4#16 8#16 0x1F#16 0xFFFF#16 16#8 1#8 [0x41#8, 0xB0#8, 0xA1#8, 0x0D#8, 0xC4#8, 0xE3#8, 0x42#8])
      fresh)).map (fun t => (t.text.tx, t.text.ty)) = some (28, 24) := by decide +kernel
/-- R208: the matched pair is drawn at (12, 8). -/
theorem test_string_plots :
    plotsOf (exec (.string 4#16 8#16 0x1F#16 0xFFFF#16 16#8 1#8 [0x41#8, 0xB0#8, 0xA1#8]) fresh) =
      [(12, 8), (27, 8), (13, 9), (27, 23)] := by decide +kernel
/-- The examples of R211: two spaces and 42; 345. -/
theorem test_number_string :
    numberString 42 4 = [0x20#8, 0x20#8, 0x34#8, 0x32#8] ∧ numberString 0 3 = [0x20#8, 0x20#8, 0x30#8] ∧
    numberString 12345 3 = [0x33#8, 0x34#8, 0x35#8] := by decide +kernel
/-- R211, R210: four cells of size 16 end 32 further right. -/
theorem test_number :
    (nextOf (exec (.number 5#16 6#16 0#16 0#16 42#32 4#8 16#8 1#8) fresh)).map (fun t => (t.text.tx, t.text.ty)) =
      some (37, 6) := by decide +kernel
/-- The example of R230. -/
theorem test_init :
    (nextOf (exec (.init 1#8) (State.resetWith (t0Board [] [0]) thisHardware))).map
      (fun t => (t.cwTrace, t.pack.cnt, t.pack.nbits, t.pack.out[0], t.pack.acc, t.ready)) =
    some ([0x011#9, 0x029#9], 2, 2, 0x088A#16, 0x40000000#32, true) := by decide +kernel
/-- R242, R257: the transport does not open; no line is driven. -/
theorem test_init_open_fails :
    (nextOf (exec (.init 1#8) { State.resetWith (t0Board [] [-1]) thisHardware with ready := true })).map
      (fun t => (t.respTrace, t.ready, t.gpioTrace)) = some ([.eOpen], false, []) := by decide +kernel
/-- R232: READY or not. -/
theorem test_setcolors :
    (nextOf (exec (.setcolors 0xF800#16 0xFFFE#16) { fresh with ready := false })).map (fun t => (t.fg, t.bg, t.respTrace)) =
      some (0xF800#16, 0xFFFE#16, [.ok]) := by decide +kernel
/-- R92: a command byte `b` is `0x000 + b`, a data byte `0x100 + b`. -/
theorem test_cw : cwsOf (exec (.cwCmd 0x2A#8) fresh) = [0x02A] ∧ cwsOf (exec (.cwDat 0x2A#8) fresh) = [0x12A] := by decide +kernel
/-- R91: bits 6 to 0 are ignored. -/
theorem test_carrier :
    cwsOf (exec (.carrierCmd 0x2A#8 0x7F#7) fresh) = [0x02A] ∧ cwsOf (exec (.carrierDat 0x2A#8 0x7F#7) fresh) = [0x12A] := by
  decide +kernel
/-- R273: raw data outside the RAM stream is pushed and marked; within it, pushed only. -/
theorem test_stray_data :
    (nextOf (exec (.wrdat16 0xABCD#16) fresh)).map (fun t => (t.cwTrace, t.strays)) = some ([0x1AB#9, 0x1CD#9], [0, 1]) ∧
    (nextOf (exec (.wrdat16 0xABCD#16) { fresh with asm := .ramStreaming })).map (·.strays) = some [] := by decide +kernel
/-- R273: an ARMRAM without a window is marked; after SETWIN it is not. -/
theorem test_stray_arm :
    (nextOf (exec .armram fresh)).map (fun t => (t.asm, t.strays)) = some (.ramStreaming, [0]) ∧
    (nextOf (exec .armram { fresh with asm := .windowProgrammed })).map (·.strays) = some [] := by decide +kernel
/-- R81, U5: a point on T0's panel shows; one column further right no pixel keeps a value. -/
theorem test_sink_point :
    ((drawCodewords fresh.dev (.plot 239 319 7#16)).foldl (sinkRead .rowMajor fresh.dev) Sink.reset).gram =
      [(319 * 65536 + 239, 7#16)] ∧
    ((drawCodewords fresh.dev (.plot 240 319 7#16)).foldl (sinkRead .rowMajor fresh.dev)
      { Sink.reset with gram := [(5, 1#16)] }).gram = [] := by decide +kernel
/-- R277: after a failed transfer, and after the one that follows it, no pixel holds a value. -/
theorem test_sink_failed :
    let s := transferred [] (-1) { fresh with sink := { Sink.reset with gram := [(5, 1#16)] } }
    (s.sink.gram, s.sink.misread) = ([], true) ∧
    ((transferred [] 0 s).sink.gram, (transferred [] 0 s).sink.misread) = ([], false) := by decide +kernel
/-- V8: not ready. -/
theorem test_not_ready : statusOf (exec (.point 1#16 1#16 1#16) { fresh with ready := false }) = [.eOpen] := by decide +kernel
/-- R145: the transfer fails between the two bytes; the second is never pushed. -/
theorem test_flush_between :
    cwsOf (exec (.wrdat16 0xABCD#16) (t0 .landscape [-1] 1023)) = [0x1AB] ∧
    statusOf (exec (.wrdat16 0xABCD#16) (t0 .landscape [-1] 1023)) = [.eXfer] := by decide +kernel
/-- V2: one group of sixteen data bytes. -/
theorem test_pack_group :
    ((packAll PackBuffer.reset ((List.range 16).map fun i => BitVec.ofNat 9 (0x100 + i))).out.toList.take 9) =
      [0x8040#16, 0x6050#16, 0x3824#16, 0x160D#16, 0x0784#16, 0x4261#16, 0x50B8#16, 0x6436#16, 0x1D0F#16] := by decide +kernel
/-- R97: what V2's group unpacks to. -/
theorem test_unpack_group :
    unpackBatch [0x8040#16, 0x6050#16, 0x3824#16, 0x160D#16, 0x0784#16, 0x4261#16, 0x50B8#16, 0x6436#16, 0x1D0F#16] =
      (List.range 16).map fun i => BitVec.ofNat 9 (0x100 + i) := by decide +kernel

/-! ### Witnesses: a concrete state and operands that meet the hypotheses of each statement that has any -/

/-- The condition `WordsOk` by counting. -/
def okB (s : State) (ws : List Codeword) : Bool :=
  s.pack.cnt < batch &&
    (List.range ((s.pack.cnt + ws.length) / batch)).all fun j => decide (0 ≤ xferStatus s.board (s.xferCalls + j))

theorem wordsOk_of_okB {s : State} {ws : List Codeword} (h : okB s ws = true) : WordsOk s ws := by
  simp only [okB, Bool.and_eq_true, decide_eq_true_eq, List.all_eq_true, List.mem_range] at h
  intro j hj
  rw [batchesOf_length s.pack ws h.1] at hj
  exact h.2 j hj

/-- `FirstFailure` at the first transfer, by counting. -/
def failB (s : State) (ws : List Codeword) : Bool :=
  s.pack.cnt < batch && 0 < (s.pack.cnt + ws.length) / batch && xferStatus s.board s.xferCalls < 0

theorem firstFailure_of_failB {s : State} {ws : List Codeword} (h : failB s ws = true) : FirstFailure s ws 0 := by
  simp only [failB, Bool.and_eq_true, decide_eq_true_eq] at h
  refine ⟨?_, h.2, fun k hk => absurd hk (Nat.not_lt_zero k)⟩
  rw [batchesOf_length s.pack ws h.1.1]
  exact h.1.2

theorem not_wordsOk_of_failB {s : State} {ws : List Codeword} (h : failB s ws = true) : ¬WordsOk s ws := by
  intro hok
  obtain ⟨hj, hneg, -⟩ := firstFailure_of_failB h
  have := hok 0 hj
  omega

/-- The outcome is a next state with the property `p`. -/
def ends (r : Host.Outcome State Fault Refusal) (p : State → Bool) : Bool :=
  match r with
  | .next t => p t
  | .fault _ => false
  | .refused _ => false

theorem ends_next {r : Host.Outcome State Fault Refusal} {p : State → Bool} (h : ends r p = true) :
    ∃ t, r = .next t ∧ p t = true := by
  cases r with
  | next t => exact ⟨t, rfl, h⟩
  | fault _ => cases h
  | refused _ => cases h

theorem ends_resp {r : Host.Outcome State Fault Refusal} {l : List Status}
    (h : ends r (fun t => t.respTrace == l) = true) : ∃ t, r = .next t ∧ t.respTrace = l := by
  obtain ⟨t, ht, hp⟩ := ends_next h
  exact ⟨t, ht, eq_of_beq hp⟩

theorem ends_any {r : Host.Outcome State Fault Refusal} (h : ends r (fun _ => true) = true) : ∃ t, r = .next t := by
  obtain ⟨t, ht, -⟩ := ends_next h
  exact ⟨t, ht⟩

/-- Not ready. -/
abbrev closed : State := { fresh with ready := false }
/-- One codeword short of a full batch, the transfer to come succeeding, or failing. -/
abbrev brim : State := t0 .landscape [0] 1023
abbrev brimBad : State := t0 .landscape [-1] 1023

/-- The Pack Buffer after 1023 codewords `0x000`, in form, with the transport's next answer `x`. -/
def zeros (x : Int) : State :=
  { fresh with
    board := t0Board [x] []
    pack := { PackBuffer.reset with nbits := 7, cnt := 1023, outcnt := 575 }
    cwTrace := List.replicate 1023 0#9 }

/-- The padding policy, 1023 codewords pending. -/
def padding (x : Int) : State := { t0 .landscape [x] 1023 with policy := { thisHardware with teardown := .pad } }

/-- After reset, with an initialization sequence of one whole batch, whose transfer answers `x`. -/
def longInit (x : Int) : State :=
  State.resetWith { t0Board [x] [0] with initLandscape := List.replicate 1024 (.data, 0#8) } thisHardware

/-- After reset, with a transport that does not open. -/
def noOpen : State := State.resetWith (t0Board [] [-1]) thisHardware

theorem witness_DecodeEncodeRoundTrip :
    (Instr.string 1#16 2#16 3#16 4#16 0xFF#8 0xFF#8 (List.replicate 65535 0xB0#8)).encodable = true := by
  simp only [Instr.encodable, List.length_replicate]
  decide

theorem witness_DecodedRequestReencodes :
    decode (.bytes [0x12#8, 0x12#8, 0x34#8, 0x99#8]) = .ok (.wrdat16 0x1234#16) ∧
    decode (.codeword 0x1FF#9) = .ok (.cwDat 0xFF#8) ∧ decode (.carrier 0x7FFF#16) = .ok (.carrierCmd 0xFF#8 0x7F#7) :=
  ⟨rfl, rfl, rfl⟩

theorem witness_ReservedOpcodesAreIllegal : ∀ op ∈ [0x00#8, 0x03#8, 0x37#8, 0x52#8, 0xFF#8],
    op.toNat ∉ [0x01, 0x02, 0x10, 0x11, 0x12, 0x20, 0x21, 0x22, 0x30, 0x31, 0x32, 0x33, 0x34, 0x35, 0x36, 0x40, 0x41,
      0x42, 0x43, 0x50, 0x51] := by decide

theorem witness_ShortRequestsAreIllegal :
    (Instr.wrdat16 0x1234#16).encodable = true ∧ encode (.wrdat16 0x1234#16) = .bytes [0x12#8, 0x12#8, 0x34#8] ∧
    0 < [0x12#8, 0x12#8, 0x34#8].length ∧ 2 < [0x12#8, 0x12#8, 0x34#8].length := ⟨rfl, rfl, by decide, by decide⟩

theorem witness_StepRunsDecodedRequest : decode (.bytes [0x21#8]) = .ok .armram := rfl

theorem witness_IdleStepAndTableWord :
    State.reset.requests = [] ∧ decodeTableWord 8 0x21 = some .armram ∧ decodeTableWord 16 0x9605 = some (.carrierDat 0x2C#8 5#7) :=
  ⟨rfl, rfl, rfl⟩

theorem witness_StepTakesOneRequest :
    (∃ t, step { fresh with requests := [.bytes [0x21#8]] } = .next t) ∧
    { fresh with requests := [.bytes [0x21#8]] }.requests ≠ [] :=
  ⟨ends_any (by decide +kernel), by decide⟩

theorem witness_ReadyGate :
    (ungated (.fill 4#16 4#16 2#16 4#16 0#16) = false ∧ closed.ready = false) ∧
    (∃ t, exec (.init 1#8) (longInit 0) = .next t ∧ t.respTrace = (longInit 0).respTrace ++ [.ok]) ∧
    (∃ t, exec (.init 0#8) noOpen = .next t ∧ t.respTrace = noOpen.respTrace ++ [.eOpen]) ∧
    (∃ t, exec (.init 1#8) (longInit (-1)) = .next t ∧ t.respTrace = (longInit (-1)).respTrace ++ [.eXfer]) ∧
    ∃ t, exec .teardown fresh = .next t :=
  ⟨by decide, ends_resp (by decide +kernel), ends_resp (by decide +kernel), ends_resp (by decide +kernel),
    ends_any (by decide +kernel)⟩

theorem witness_IllegalOperandsReturnEArg :
    (ungated (.init 2#8) = true ∧ legal (.init 2#8) closed = false) ∧
    (fresh.ready = true ∧ legal (.number 0#16 0#16 0#16 0#16 0#32 11#8 16#8 0#8) fresh = false) ∧
    ({ fresh with dev := { fresh.dev with width := 0#16 } }.ready = true ∧
      legal (.clear 0#16) { fresh with dev := { fresh.dev with width := 0#16 } } = false) := by decide

theorem witness_PushOperation :
    closed.ready = false ∧
    (brim.ready = true ∧ brim.pack.cnt < batch ∧ WordsOk brim [(0x1500#16).extractLsb' 7 9]) ∧
    (brimBad.ready = true ∧ brimBad.pack.cnt < batch ∧ ¬WordsOk brimBad [(0x1500#16).extractLsb' 7 9]) :=
  ⟨rfl, ⟨rfl, by decide, wordsOk_of_okB (by decide)⟩, rfl, by decide, not_wordsOk_of_failB (by decide)⟩

theorem witness_CodewordKindsComplete :
    brim.ready = true ∧ brim.pack.cnt < batch ∧ WordsOk brim [BitVec.ofNat 9 (0xFF#8).toNat] ∧
    WordsOk brim [BitVec.ofNat 9 (0x100 + (0xFF#8).toNat)] :=
  ⟨rfl, by decide, wordsOk_of_okB (by decide), wordsOk_of_okB (by decide)⟩

theorem witness_FramerOperationsComplete :
    brim.ready = true ∧ brim.pack.cnt < batch ∧ WordsOk brim [BitVec.ofNat 9 (0x2C#8).toNat] ∧
    WordsOk brim [BitVec.ofNat 9 (0x100 + (0x2C#8).toNat)] ∧
    WordsOk brim [BitVec.ofNat 9 (0x100 + (0xFFFF#16).toNat / 256), BitVec.ofNat 9 (0x100 + (0xFFFF#16).toNat % 256)] :=
  ⟨rfl, by decide, wordsOk_of_okB (by decide), wordsOk_of_okB (by decide), wordsOk_of_okB (by decide)⟩

theorem zero_bits : (∀ b ∈ bitsOf 0#16, b = false) ∧ (∀ b ∈ bitsOf 0#32, b = false) ∧ ∀ b ∈ bitsOf 0#9, b = false := by
  decide

theorem zeros_pendingBits : pendingBits (zeros 0).pack = List.replicate 9207 false := by
  refine List.eq_replicate_iff.2 ⟨by decide +kernel, fun b hb => ?_⟩
  rcases List.mem_append.1 hb with h | h
  · obtain ⟨w, hw, hb⟩ := List.mem_flatMap.1 h
    have hz : w = 0#16 := (List.mem_replicate.1 (List.mem_of_mem_take hw)).2
    rw [hz] at hb
    exact zero_bits.1 b hb
  · exact zero_bits.2.1 b (List.mem_of_mem_take h)

theorem zeros_pendingCodewords : (pendingCodewords (zeros 0)).flatMap bitsOf = List.replicate 9207 false := by
  refine List.eq_replicate_iff.2 ⟨by decide +kernel, fun b hb => ?_⟩
  obtain ⟨w, hw, hb⟩ := List.mem_flatMap.1 hb
  have hz : w = 0#9 := (List.mem_replicate.1 (List.mem_of_mem_drop hw)).2
  rw [hz] at hb
  exact zero_bits.2.2 b hb

/-- The state of the witness of FlushBetweenTheTwoBytes is in form. -/
theorem packInv_zeros (x : Int) : PackInv (zeros x) := by
  have hp : (zeros x).pack = (zeros 0).pack := rfl
  have hc : (zeros x).cwTrace = (zeros 0).cwTrace := rfl
  have hacc : (zeros 0).pack.acc = 0#32 := rfl
  have hlen : (zeros 0).cwTrace.length = 1023 := List.length_replicate
  have h : pendingCodewords (zeros x) = pendingCodewords (zeros 0) := rfl
  refine ⟨?_, ?_, ?_, fun i _ => by rw [hp, hacc]; simp, ?_, ?_⟩
  · rw [hp]; decide +kernel
  · rw [hp]; decide +kernel
  · rw [hp]; decide +kernel
  · rw [hp, hc, hlen]; decide +kernel
  · rw [hp, h, zeros_pendingBits, zeros_pendingCodewords]

theorem witness_FlushBetweenTheTwoBytes :
    ((zeros 0).ready = true ∧ PackInv (zeros 0) ∧ (zeros 0).pack.cnt = 1023 ∧
      (∃ t, exec (.wrdat16 0xABCD#16) (zeros 0) = .next t) ∧ 0 ≤ xferStatus (zeros 0).board (zeros 0).xferCalls) ∧
    ((zeros (-1)).ready = true ∧ PackInv (zeros (-1)) ∧ (zeros (-1)).pack.cnt = 1023 ∧
      (∃ t, exec (.wrdat16 0xABCD#16) (zeros (-1)) = .next t) ∧ xferStatus (zeros (-1)).board (zeros (-1)).xferCalls < 0) :=
  ⟨⟨rfl, packInv_zeros 0, rfl, ends_any (by decide +kernel), by decide⟩, rfl, packInv_zeros (-1), rfl,
    ends_any (by decide +kernel), by decide⟩

theorem witness_TeardownOperation :
    closed.ready = false ∧ (fresh.ready = true ∧ fresh.policy.teardown = .drop) ∧
    ((padding 0).ready = true ∧ (padding 0).policy.teardown = .pad ∧ (padding 0).pack.cnt < batch ∧
      WordsOk (padding 0) (List.replicate (if (padding 0).pack.cnt = 0 then 0 else 1024 - (padding 0).pack.cnt)
        ((padding 0).policy.padCarrier.extractLsb' 7 9))) ∧
    ((padding (-1)).ready = true ∧ (padding (-1)).policy.teardown = .pad ∧ (padding (-1)).pack.cnt < batch ∧
      ¬WordsOk (padding (-1)) (List.replicate (if (padding (-1)).pack.cnt = 0 then 0 else 1024 - (padding (-1)).pack.cnt)
        ((padding (-1)).policy.padCarrier.extractLsb' 7 9))) ∧
    (∃ t, exec .teardown fresh = .next t) ∧ ungated .armram = false :=
  ⟨rfl, ⟨rfl, rfl⟩, ⟨rfl, rfl, by decide, wordsOk_of_okB (by decide)⟩,
    ⟨rfl, rfl, by decide, not_wordsOk_of_failB (by decide)⟩, ends_any (by decide +kernel), rfl⟩

theorem witness_WindowFrameByOrientation :
    fresh.dev.orient = .landscape ∧ (t0 .portrait [0] 0).dev.orient = .portrait := ⟨rfl, rfl⟩

theorem witness_AddressingOperationsComplete :
    brim.ready = true ∧ brim.pack.cnt < batch ∧
    WordsOk brim (frameWindow brim.dev 0xFFFF#16 0#16 0#16 0xFFFF#16) ∧ WordsOk brim [cmdCodeword brim.dev.ramcmd] ∧
    WordsOk brim (frameWindow brim.dev 0xFFFF#16 0#16 0xFFFF#16 0#16 ++ [cmdCodeword brim.dev.ramcmd]) :=
  ⟨rfl, by decide, wordsOk_of_okB (by decide), wordsOk_of_okB (by decide), wordsOk_of_okB (by decide)⟩

theorem witness_AddressingStateTransitions :
    (∃ t, doSetWindow (-1) 0 5 6 fresh = .ok t) ∧ (∃ t, doArm fresh = .ok t) ∧ (∃ t, framerData8 0xFF#8 fresh = .ok t) ∧
    (∃ t, exec (.wrreg 0x2C#8) fresh = .next t ∧ t.respTrace = fresh.respTrace ++ [.ok]) ∧
    ((0x7FFF#16).getLsbD 15 = false ∧
      ∃ t, exec (.push 0x7FFF#16) fresh = .next t ∧ t.respTrace = fresh.respTrace ++ [.ok]) ∧
    (∃ t, exec .armram brimBad = .next t ∧ t.respTrace = brimBad.respTrace ++ [.eXfer]) ∧
    (∃ t, exec (.init 1#8) (longInit 0) = .next t ∧ t.respTrace = (longInit 0).respTrace ++ [.ok]) ∧
    ∃ t, exec .teardown fresh = .next t ∧ t.respTrace = fresh.respTrace ++ [.ok] :=
  ⟨⟨_, rfl⟩, ⟨_, rfl⟩, ⟨_, rfl⟩, ends_resp (by decide +kernel), ⟨by decide, ends_resp (by decide +kernel)⟩,
    ends_resp (by decide +kernel), ends_resp (by decide +kernel), ends_resp (by decide +kernel)⟩

theorem witness_SecondSetwinReplacesFirst :
    fresh.ready = true ∧
    (∃ t u, exec (.setwin 1#16 2#16 3#16 4#16) fresh = .next t ∧ exec (.setwin 5#16 6#16 7#16 8#16) t = .next u ∧
      u.respTrace = fresh.respTrace ++ [.ok, .ok]) ∧ fresh.dev.colcmd ≠ fresh.dev.rowcmd := by
  refine ⟨rfl, ?_, by decide⟩
  obtain ⟨t, ht, hu⟩ := ends_next (r := exec (.setwin 1#16 2#16 3#16 4#16) fresh)
    (p := fun t => ends (exec (.setwin 5#16 6#16 7#16 8#16) t) fun u => u.respTrace == [.ok, .ok]) (by decide +kernel)
  obtain ⟨u, hu, hr⟩ := ends_resp hu
  exact ⟨t, u, ht, hu, hr⟩

theorem witness_PointCompletes :
    brim.ready = true ∧ brim.pack.cnt < batch ∧
    WordsOk brim (frameWindow brim.dev 0xFFFF#16 319#16 0xFFFF#16 319#16 ++
      [cmdCodeword brim.dev.ramcmd, datCodeword (hiByte 0xF800#16), datCodeword (loByte 0xF800#16)]) :=
  ⟨rfl, by decide, wordsOk_of_okB (by decide)⟩

/-- A panel of one pixel. -/
abbrev dot : State := { fresh with dev := { fresh.dev with width := 1#16, height := 1#16 } }

/-- The codewords of a fill, as FillOperationsComplete writes them. -/
def fillWords (s : State) (a b e f c : Word16) : List Codeword :=
  frameWindow s.dev a b e f ++ [cmdCodeword s.dev.ramcmd] ++
  (List.replicate ((e.toNat - a.toNat + 1) * (f.toNat - b.toNat + 1)) (frameData16 c)).flatten ++
  frameWindow s.dev 0#16 0#16 (s.dev.width - 1#16) (s.dev.height - 1#16) ++ [cmdCodeword s.dev.ramcmd]

theorem witness_FillOperationsComplete :
    dot.ready = true ∧ dot.pack.cnt < batch ∧ (0xFFFF#16).toNat ≤ (0xFFFF#16).toNat ∧ (0#16).toNat ≤ (2#16).toNat ∧
    WordsOk dot (fillWords dot 0xFFFF#16 0#16 0xFFFF#16 2#16 0x1234#16) ∧
    WordsOk dot (fillWords dot 0xFFFF#16 0#16 0xFFFF#16 2#16 dot.fg) ∧ dot.dev.width ≠ 0#16 ∧ dot.dev.height ≠ 0#16 ∧
    WordsOk dot (fillWords dot 0#16 0#16 (dot.dev.width - 1#16) (dot.dev.height - 1#16) 0x1234#16) :=
  ⟨rfl, by decide, by decide, by decide, wordsOk_of_okB (by decide +kernel), wordsOk_of_okB (by decide +kernel), by decide,
    by decide, wordsOk_of_okB (by decide +kernel)⟩

theorem witness_LineCompletes :
    fresh.ready = true ∧ fresh.pack.cnt < batch ∧
    WordsOk fresh (codewordsOf fresh.dev (drawPoints fresh.fg
      (linePoints ((3#16).toNat : Int) ((4#16).toNat : Int) ((3#16).toNat : Int) ((4#16).toNat : Int)))) ∧
    WordsOk fresh (codewordsOf fresh.dev (drawPoints fresh.fg
      (linePoints ((10#16).toNat : Int) ((3#16).toNat : Int) ((0#16).toNat : Int) ((0#16).toNat : Int)))) :=
  ⟨rfl, by decide, wordsOk_of_okB (by decide +kernel), wordsOk_of_okB (by decide +kernel)⟩

theorem witness_LinePlotsOncePerStep :
    fresh.ready = true ∧
    (∃ t, exec (.line 10#16 3#16 0#16 0#16) fresh = .next t ∧ t.respTrace = fresh.respTrace ++ [.ok]) ∧
    ∃ t, exec (.line 7#16 7#16 7#16 7#16) fresh = .next t ∧ t.respTrace = fresh.respTrace ++ [.ok] :=
  ⟨rfl, ends_resp (by decide +kernel), ends_resp (by decide +kernel)⟩

theorem witness_RectCompletes :
    fresh.ready = true ∧ fresh.pack.cnt < batch ∧
    WordsOk fresh (codewordsOf fresh.dev (drawPoints fresh.fg
      (linePoints 3 2 1 2 ++ linePoints 3 2 3 1 ++ linePoints 3 1 1 1 ++ linePoints 1 2 1 1))) :=
  ⟨rfl, by decide, wordsOk_of_okB (by decide +kernel)⟩

theorem witness_CircleCompletes :
    fresh.ready = true ∧ fresh.pack.cnt < batch ∧
    WordsOk fresh (codewordsOf fresh.dev (drawPoints fresh.fg (circlePoints 0 0 (0#16).toNat true))) ∧
    WordsOk fresh (codewordsOf fresh.dev (drawPoints fresh.fg (circlePoints 50 50 (2#16).toNat false))) :=
  ⟨rfl, by decide, wordsOk_of_okB (by decide +kernel), wordsOk_of_okB (by decide +kernel)⟩

theorem witness_CircleEndsAndIsSymmetric :
    0 + 1 ≤ 1 ∧ ((50 : Int) + 2, (50 : Int) + (-1)) ∈ circlePoints 50 50 2 true := by decide +kernel

theorem witness_CompositeFrameLengths : [true, false].length = 2 * 1 := rfl

theorem witness_PseudoOperationsExpand :
    fresh.ready = true ∧ fresh.dev.width ≠ 0#16 ∧ fresh.dev.height ≠ 0#16 ∧ 1 ≤ (1#8).toNat ∧ (1#8).toNat ≤ 10 ∧
    1 ≤ (10#8).toNat ∧ (10#8).toNat ≤ 10 := by decide

/-- `A` at size 12 in the last cell of the panel, and one pixel further right. -/
theorem witness_CharCompletes :
    fresh.ready = true ∧ fresh.pack.cnt < batch ∧ 0x20 ≤ (0x41#8).toNat ∧ (0x41#8).toNat ≤ 0x7E ∧
    (12#8).toNat = asciiPx .s12 ∧ (1#8).toNat ≤ 1 ∧
    ((234#16).toNat + asciiPx .s12 / 2 ≤ fresh.dev.width.toNat ∧ (308#16).toNat + asciiPx .s12 ≤ fresh.dev.height.toNat) ∧
    WordsOk fresh (codewordsOf fresh.dev (drawChar fresh.board fresh.dev ((234#16).toNat : Int) ((308#16).toNat : Int) 1#16 2#16
      0x41#8 .s12 ((1#8).toNat = 1))) ∧
    ¬((235#16).toNat + asciiPx .s12 / 2 ≤ fresh.dev.width.toNat ∧ (308#16).toNat + asciiPx .s12 ≤ fresh.dev.height.toNat) :=
  ⟨rfl, by decide, by decide, by decide, rfl, by decide, by decide, wordsOk_of_okB (by decide +kernel), by decide⟩

theorem witness_GlyphCompletes :
    fresh.ready = true ∧ fresh.pack.cnt < batch ∧ (16#8).toNat = widePx .s16 ∧ (0#8).toNat ≤ 1 ∧
    ((224#16).toNat + widePx .s16 ≤ fresh.dev.width.toNat ∧ (304#16).toNat + widePx .s16 ≤ fresh.dev.height.toNat) ∧
    0xC4E3#16 ∉ dbIndex fresh.board .s16 ∧ scanIndex 0xB0A1#16 (dbIndex fresh.board .s16) = some 0 ∧
    WordsOk fresh (codewordsOf fresh.dev (drawGlyphBits fresh.dev ((224#16).toNat : Int) ((304#16).toNat : Int) (widePx .s16)
      (widePx .s16) 1#16 2#16 ((0#8).toNat = 1) (bitmapBits (wideBitmap fresh.board .s16 0)))) ∧
    ¬((224#16).toNat + widePx .s16 ≤ fresh.dev.width.toNat ∧ (305#16).toNat + widePx .s16 ≤ fresh.dev.height.toNat) :=
  ⟨rfl, by decide, rfl, by decide, by decide, by decide, by decide, wordsOk_of_okB (by decide +kernel), by decide⟩

theorem witness_StringAndNumberComplete :
    fresh.ready = true ∧ fresh.pack.cnt < batch ∧ (16#8).toNat ∈ [12, 16, 24, 32] ∧ (1#8).toNat ≤ 1 ∧
    [0x41#8, 0xB0#8, 0xA1#8, 0x0D#8, 0x99#8].length ≤ 65535 ∧
    WordsOk fresh (codewordsOf fresh.dev (drawString fresh.board fresh.dev 1#16 2#16 16#8 ((1#8).toNat = 1) ((4#16).toNat : Int)
      [0x41#8, 0xB0#8, 0xA1#8, 0x0D#8, 0x99#8] ((4#16).toNat : Int) ((8#16).toNat : Int))) ∧
    1 ≤ (10#8).toNat ∧ (10#8).toNat ≤ 10 ∧
    WordsOk fresh (codewordsOf fresh.dev (drawString fresh.board fresh.dev 1#16 2#16 16#8 ((1#8).toNat = 1) ((4#16).toNat : Int)
      (numberString (0xFFFFFFFF#32).toNat (10#8).toNat) ((4#16).toNat : Int) ((8#16).toNat : Int))) :=
  ⟨rfl, by decide, by decide, by decide, by decide, wordsOk_of_okB (by decide +kernel), by decide, by decide,
    wordsOk_of_okB (by decide +kernel)⟩

theorem witness_AsciiStringAdvance :
    fresh.ready = true ∧ (16#8).toNat ∈ [12, 16, 24, 32] ∧ (1#8).toNat ≤ 1 ∧ [0x20#8, 0x7E#8].length ≤ 65535 ∧
    (∀ b ∈ [0x20#8, 0x7E#8], 0x20 ≤ b.toNat ∧ b.toNat ≤ 0x7E) ∧
    (224#16).toNat + [0x20#8, 0x7E#8].length * ((16#8).toNat / 2) ≤ fresh.dev.width.toNat ∧
    (304#16).toNat + (16#8).toNat ≤ fresh.dev.height.toNat ∧
    ∃ t, exec (.string 224#16 304#16 1#16 2#16 16#8 1#8 [0x20#8, 0x7E#8]) fresh = .next t ∧
      t.respTrace = fresh.respTrace ++ [.ok] :=
  ⟨rfl, by decide, by decide, by decide, by decide, by decide, by decide, ends_resp (by decide +kernel)⟩

theorem witness_TextStaysOnThePanel :
    engineOf (.char 234#16 308#16 1#16 2#16 0x41#8 12#8 1#8) = .text ∧
    legal (.char 234#16 308#16 1#16 2#16 0x41#8 12#8 1#8) fresh = true ∧
    (∃ t, exec (.char 234#16 308#16 1#16 2#16 0x41#8 12#8 1#8) fresh = .next t) ∧
    Draw.plot 238 317 1#16 ∈ drawsOf (.char 234#16 308#16 1#16 2#16 0x41#8 12#8 1#8) fresh ∧
    (∃ t, exec (.char 234#16 308#16 1#16 2#16 0x41#8 12#8 1#8) brimBad = .next t) :=
  ⟨rfl, by decide, ends_any (by decide +kernel), by decide +kernel, ends_any (by decide +kernel)⟩

theorem witness_LookupFindsFirstEntry :
    scanIndex 2#16 [1#16, 2#16, 2#16] = some 1 ∧ scanIndex 3#16 [1#16, 2#16] = none := by decide

theorem witness_GlyphTablesAreReadAsLaidOut :
    (t0Board [] []).wf = true ∧ 0x20 ≤ (0x7E#8).toNat ∧ (0x7E#8).toNat ≤ 0x7E ∧ 11 < asciiPx .s12 ∧ 5 < asciiPx .s12 / 2 ∧
    0 < (dbIndex (t0Board [] []) .s16).length ∧ 15 < widePx .s16 := by decide +kernel

theorem witness_NumberIsRightAlignedDecimal : 1 ≤ 10 ∧ 10 ≤ 10 ∧ 9 < 10 ∧ 1 ≤ 1 ∧ 0 < 1 := by decide

/-- The state of the witness of InitOperation in which the sequence of 1024 entries begins. -/
def longLoaded (x : Int) : State :=
  { longInit x with
    openCalls := 1
    gpioTrace := [(.cs, .selected), (.reset, .asserted), (.reset, .released)]
    strays := []
    sink := sinkReset Sink.reset
    dev := { width := 240#16, height := 320#16, orient := .landscape, ramcmd := 0x2C#8, colcmd := 0x2A#8, rowcmd := 0x2B#8 } }

theorem witness_InitOperation :
    1 < (2#8).toNat ∧ (1#8).toNat = orientBit .landscape ∧ openStatus noOpen.board noOpen.openCalls < 0 ∧
    (0 ≤ openStatus (longInit 0).board (longInit 0).openCalls ∧
      WordsOk (longLoaded 0) (codewordsOf (longLoaded 0).dev (List.replicate 1024 (.raw 0x100#9)))) ∧
    (0 ≤ openStatus (longInit (-1)).board (longInit (-1)).openCalls ∧
      FirstFailure (longLoaded (-1)) (codewordsOf (longLoaded (-1)).dev (List.replicate 1024 (.raw 0x100#9))) 0) :=
  ⟨by decide, rfl, by decide, ⟨by decide, wordsOk_of_okB (by decide +kernel)⟩, by decide,
    firstFailure_of_failB (by decide +kernel)⟩

theorem witness_OpenFailureIsFatalUntilInit :
    ((1#8).toNat ≤ 1 ∧ openStatus noOpen.board noOpen.openCalls < 0) ∧ (ungated .teardown = false ∧ noOpen.ready = false) ∧
    ((longInit 0).ready = false ∧ ∃ t, exec (.init 1#8) (longInit 0) = .next t ∧ t.ready = true) :=
  ⟨by decide, by decide, rfl, ends_next (p := fun t => t.ready) (by decide +kernel)⟩

theorem witness_FailedTransferCutsShort :
    ungated (.line 0#16 0#16 10#16 3#16) = false ∧ isTeardown (.line 0#16 0#16 10#16 3#16) = false ∧ brimBad.ready = true ∧
    brimBad.pack.cnt < batch ∧ legal (.line 0#16 0#16 10#16 3#16) brimBad = true ∧
    FirstFailure brimBad (codewordsOf brimBad.dev (drawsOf (.line 0#16 0#16 10#16 3#16) brimBad)) 0 :=
  ⟨rfl, by decide, rfl, by decide, by decide, firstFailure_of_failB (by decide +kernel)⟩

theorem witness_AbortLeavesAnEmptyPackBuffer :
    ((∃ t, exec (.wrdat16 0xABCD#16) brimBad = .next t ∧ t.respTrace = brimBad.respTrace ++ [.eXfer]) ∧
      isInit (.wrdat16 0xABCD#16) = false ∧ isTeardown (.wrdat16 0xABCD#16) = false) ∧
    ((∃ t, exec (.init 1#8) (longInit (-1)) = .next t ∧ t.respTrace = (longInit (-1)).respTrace ++ [.eXfer]) ∧
      isInit (.init 1#8) = true) ∧
    ((∃ t, exec .teardown (padding (-1)) = .next t ∧ t.respTrace = (padding (-1)).respTrace ++ [.eXfer]) ∧
      isTeardown .teardown = true) :=
  ⟨⟨ends_resp (by decide +kernel), rfl, by decide⟩, ⟨ends_resp (by decide +kernel), rfl⟩, ends_resp (by decide +kernel),
    by decide⟩

/-- A full batch, which no operation reaches. -/
abbrev full : State := t0 .landscape [0] 1024

theorem witness_BatchIsNeverOverfull : brim.pack.cnt < 1024 ∧ 1024 ≤ full.pack.cnt ∧ full.ready = true := by decide

theorem witness_BatchRoundTrip :
    (List.replicate 1024 0xFFFF#16).length = 1024 ∧ fresh.pack.cnt = 0 ∧ fresh.pack.outcnt = 0 ∧ fresh.pack.nbits = 0 ∧
    fresh.pack.acc = 0#32 := ⟨List.length_replicate, rfl, rfl, rfl, rfl⟩

theorem witness_BatchLayoutInClosedForm :
    (List.replicate 1024 0x1FF#9).length = 1024 ∧ PackBuffer.reset.cnt = 0 ∧ PackBuffer.reset.outcnt = 0 ∧
    PackBuffer.reset.nbits = 0 ∧ PackBuffer.reset.acc = 0#32 ∧ (List.replicate 1024 0x1FF#9)[1023]? = some 0x1FF#9 ∧ 8 < 9 :=
  ⟨List.length_replicate, rfl, rfl, rfl, rfl, List.getElem?_replicate, by decide⟩

/-- A request that fills the batch. -/
def filling (s : State) : State := { s with requests := [.bytes [0x11#8, 0xFF#8]] }

theorem packInv_filling {s : State} (h : PackInv s) : PackInv (filling s) := h

theorem witness_PackInvariantKept : PackInv (filling (zeros 0)) ∧ ∃ t, step (filling (zeros 0)) = .next t :=
  ⟨packInv_filling (packInv_zeros 0), ends_any (by decide +kernel)⟩

theorem witness_TransfersArePackingOfTrace :
    isInit .armram = false ∧ isTeardown .armram = false ∧ brim.pack.cnt < batch ∧ ∃ t, exec .armram brim = .next t :=
  ⟨rfl, by decide, by decide, ends_any (by decide +kernel)⟩

theorem witness_TransferBufferLayout : [0x1234#16, 0xABCD#16][1]? = some 0xABCD#16 := rfl

theorem witness_PortInvariantKept : PortInv (filling brim) ∧ ∃ t, step (filling brim) = .next t :=
  ⟨⟨List.length_replicate, fun _ he => absurd he List.not_mem_nil, rfl, rfl, fun _ he => absurd he List.not_mem_nil⟩, ends_any (by decide +kernel)⟩

theorem witness_RegistersHaveTheirWriters :
    ((∃ t, exec (.wrdat8 1#8) fresh = .next t) ∧ isInit (.wrdat8 1#8) = false ∧ isSetcolors (.wrdat8 1#8) = false ∧
      isTeardown (.wrdat8 1#8) = false ∧ engineOf (.wrdat8 1#8) ≠ .line ∧ engineOf (.wrdat8 1#8) ≠ .circle ∧
      engineOf (.wrdat8 1#8) ≠ .text ∧ opensWindow (.wrdat8 1#8) = false ∧ sendsDataOnly (.wrdat8 1#8) = true) ∧
    ∃ t, exec (.setcolors 1#16 2#16) fresh = .next t ∧ t.cwTrace = fresh.cwTrace :=
  ⟨⟨ends_any (by decide +kernel), by decide⟩, _, rfl, rfl⟩

theorem witness_EngineRegistersStayInRange :
    EngineInv { fresh with requests := [.bytes [0x33#8, 0#8, 0#8, 0#8, 0#8, 0#8, 5#8, 0#8, 3#8]] } ∧
    ∃ t, step { fresh with requests := [.bytes [0x33#8, 0#8, 0#8, 0#8, 0#8, 0#8, 5#8, 0#8, 3#8]] } = .next t :=
  ⟨by unfold EngineInv FitsInt; decide +kernel, ends_any (by decide +kernel)⟩

/-- Two states that differ in what no operation reads. -/
theorem witness_UnreadStateDecidesNothing :
    Safety.core fresh = Safety.core { fresh with asm := .ramStreaming, bg := 7#16, cwTrace := [0x1FF#9] } ∧
    ∃ t, exec (.point 1#16 2#16 3#16) fresh = .next t := ⟨rfl, ends_any (by decide +kernel)⟩

/-- The last pixel of T0's panel. -/
theorem witness_SinkShowsPoint :
    fresh.dev.colcmd ≠ fresh.dev.rowcmd ∧ fresh.dev.ramcmd ≠ fresh.dev.colcmd ∧ fresh.dev.ramcmd ≠ fresh.dev.rowcmd ∧
    gramWf { Sink.reset with gram := [(5, 1#16), (9, 0#16)] }.gram = true ∧ Sink.reset.hb = none ∧
    DrawOnPanel fresh.dev (.plot (zext 239#16) (zext 319#16) 7#16) :=
  ⟨by decide, by decide, by decide, rfl, rfl, by unfold DrawOnPanel OnPanel; decide⟩

/-- The whole of T0's panel. -/
theorem witness_SinkShowsFill :
    fresh.dev.colcmd ≠ fresh.dev.rowcmd ∧ fresh.dev.ramcmd ≠ fresh.dev.colcmd ∧ fresh.dev.ramcmd ≠ fresh.dev.rowcmd ∧
    gramWf Sink.reset.gram = true ∧ Sink.reset.hb = none ∧
    DrawOnPanel fresh.dev (.setWindow (zext 0#16) (zext 0#16) (zext 239#16) (zext 319#16)) ∧ 65535 < 65536 :=
  ⟨by decide, by decide, by decide, rfl, rfl, by unfold DrawOnPanel OnPanel; decide, by decide⟩

theorem witness_SinkShowsBlockGlyph :
    fresh.dev.colcmd ≠ fresh.dev.rowcmd ∧ fresh.dev.ramcmd ≠ fresh.dev.colcmd ∧ fresh.dev.ramcmd ≠ fresh.dev.rowcmd ∧
    gramWf Sink.reset.gram = true ∧ Sink.reset.hb = none ∧
    DrawOnPanel fresh.dev (.setWindow (238 : Nat) (319 : Nat) ((238 : Nat) + (2 : Nat) - 1) ((319 : Nat) + (1 : Nat) - 1)) ∧
    [true, false].length = 2 * 1 :=
  ⟨by decide, by decide, by decide, rfl, rfl, by unfold DrawOnPanel OnPanel; decide, rfl⟩

/-- Data while the RAM is streaming, an ARMRAM without a window, a marked codeword, a failed batch. -/
theorem witness_UndefinedPixelsHoldNoValue :
    (keepsWindowDuty (.wrdat8 1#8) { fresh with asm := .ramStreaming } = true ∧
      ∃ t, exec (.wrdat8 1#8) { fresh with asm := .ramStreaming } = .next t) ∧
    (fresh.ready = true ∧ fresh.pack.cnt + 2 < batch ∧ keepsWindowDuty .armram fresh = false ∧
      ∃ t, exec .armram fresh = .next t) ∧
    ({ fresh with strays := [0] }.sink.misread = false ∧ 0 ∈ { fresh with strays := [0] }.strays ∧
      0 < (unpackBatch [0#16]).length) ∧
    (-1 : Int) < 0 ∧ (sinkFailed 0 Sink.reset).misread = true :=
  ⟨⟨by decide, ends_any (by decide +kernel)⟩, ⟨rfl, by decide, by decide, ends_any (by decide +kernel)⟩,
    ⟨rfl, List.mem_singleton_self _, by decide⟩, by decide, rfl⟩

end Sys2Proof.Tests
end

section
/-! The state after reset (spec/10_state.md R45). -/

namespace Sys2Proof.Proofs.Reset

open Sys2Proof Sys2Proof.Machine Sys2Proof.Config

/-- The rows ACC, NBITS, CNT and OUTCNT of R45, with any board and policy: reset empties the Pack Buffer. OUT has no value
there. -/
theorem resetWith_packBuffer_empty (b : Board) (p : Policy) :
    (State.resetWith b p).pack.acc = 0#32 ∧ (State.resetWith b p).pack.nbits = 0 ∧
      (State.resetWith b p).pack.cnt = 0 ∧ (State.resetWith b p).pack.outcnt = 0 :=
  ⟨rfl, rfl, rfl, rfl⟩

/-- The rows ASM and READY of R45: no window is pending and the READY gate is shut. -/
theorem resetWith_idle_notReady (b : Board) (p : Policy) :
    (State.resetWith b p).asm = .idle ∧ (State.resetWith b p).ready = false :=
  ⟨rfl, rfl⟩

/-- The row FG, BG of R45: reset takes the colours from the board it is given, and keeps that board. -/
theorem resetWith_colours (b : Board) (p : Policy) :
    (State.resetWith b p).fg = (State.resetWith b p).board.fgReset ∧
      (State.resetWith b p).bg = (State.resetWith b p).board.bgReset :=
  ⟨rfl, rfl⟩

/-- The row of the ghost traces (R47) in R45. -/
theorem resetWith_traces_empty (b : Board) (p : Policy) :
    (State.resetWith b p).cwTrace = [] ∧ (State.resetWith b p).xferTrace = [] ∧
      (State.resetWith b p).plotTrace = [] :=
  ⟨rfl, rfl, rfl⟩

/-- Settles O55: the rows of R45, proved for every board and policy, read at this hardware's. -/
theorem resetState : Obligations.ResetState := by
  unfold Obligations.ResetState State.reset
  obtain ⟨hacc, hnbits, hcnt, houtcnt⟩ := resetWith_packBuffer_empty board thisHardware
  obtain ⟨hasm, hready⟩ := resetWith_idle_notReady board thisHardware
  obtain ⟨hfg, hbg⟩ := resetWith_colours board thisHardware
  exact ⟨hacc, hnbits, hcnt, houtcnt, hasm, hready, hfg, hbg, resetWith_traces_empty board thisHardware⟩

end Sys2Proof.Proofs.Reset
end

section
/-! The transfer buffer (spec/20_memory.md R66): where the bytes of a word stand, and which bit stream they are. -/

namespace Sys2Proof.Proofs.TransferBuffer

open Sys2Proof Sys2Proof.Machine Sys2Proof.Config

/-! ### The bytes of a list of words -/

theorem transferBytes_cons (o : ByteOrder) (w : Word16) (ws : List Word16) :
    transferBytes o (w :: ws) = transferBytes o [w] ++ transferBytes o ws := by
  simp only [transferBytes, List.flatMap_cons, List.flatMap_nil, List.append_nil]

@[simp] theorem transferBytes_big_singleton (w : Word16) : transferBytes .big [w] = [hiByte w, loByte w] := rfl

@[simp] theorem transferBytes_little_singleton (w : Word16) : transferBytes .little [w] = [loByte w, hiByte w] := rfl

@[simp] theorem transferBytes_singleton_length (o : ByteOrder) (w : Word16) : (transferBytes o [w]).length = 2 := by
  cases o <;> rfl

@[simp] theorem transferBytes_length (o : ByteOrder) (words : List Word16) :
    (transferBytes o words).length = 2 * words.length := by
  induction words with
  | nil => rfl
  | cons w ws ih =>
    rw [transferBytes_cons, List.length_append, transferBytes_singleton_length, ih, List.length_cons]
    omega

/-- Two bytes a word under either order, so the bytes of word `j` start at index `2j`. -/
theorem transferBytes_getElem? (o : ByteOrder) {words : List Word16} {j : Nat} {w : Word16}
    (hw : words[j]? = some w) {k : Nat} (hk : k < 2) :
    (transferBytes o words)[2 * j + k]? = (transferBytes o [w])[k]? := by
  induction words generalizing j with
  | nil => simp at hw
  | cons v ws ih =>
    rw [transferBytes_cons]
    cases j with
    | zero =>
      obtain rfl : v = w := by simpa using hw
      rw [Nat.mul_zero, Nat.zero_add, List.getElem?_append_left (by simpa using hk)]
    | succ j =>
      have hskip : 2 * (j + 1) + k - (transferBytes o [v]).length = 2 * j + k := by
        rw [transferBytes_singleton_length]; omega
      rw [List.getElem?_append_right (by rw [transferBytes_singleton_length]; omega), hskip]
      exact ih (by simpa using hw)

/-! ### The bit stream -/

/-- The bits of a concatenation are those of the high part, then those of the low part. -/
theorem bitsOf_append {m n : Nat} (x : BitVec m) (y : BitVec n) : bitsOf (x ++ y) = bitsOf x ++ bitsOf y := by
  unfold bitsOf
  rw [List.range_add, List.map_append, List.map_map]
  congr 1
  · refine List.map_congr_left fun i hi => ?_
    have hlt : i < m := List.mem_range.1 hi
    rw [BitVec.getMsbD_append, if_neg (by omega)]
  · refine List.map_congr_left fun i _ => ?_
    rw [Function.comp_apply, BitVec.getMsbD_append, if_pos (by omega), Nat.add_sub_cancel_left]

theorem bitsOf_hiByte_append_loByte (w : Word16) : bitsOf (hiByte w) ++ bitsOf (loByte w) = bitsOf w :=
  calc bitsOf (hiByte w) ++ bitsOf (loByte w)
      = bitsOf (be16 (hiByte w) (loByte w)) := (bitsOf_append _ _).symm
    _ = bitsOf w := by rw [be16_hi_lo]

theorem transferBytes_big_bits (words : List Word16) :
    (transferBytes .big words).flatMap bitsOf = words.flatMap bitsOf := by
  induction words with
  | nil => rfl
  | cons w ws ih =>
    rw [transferBytes_cons, List.flatMap_append, ih, List.flatMap_cons, transferBytes_big_singleton,
      List.flatMap_cons, List.flatMap_singleton, bitsOf_hiByte_append_loByte]

/-! ### The buffer of a flush -/

/-- A flush leaves the same state whether the transfer fails or not (R123): the words transferred, the Pack Buffer
emptied. -/
theorem flush_state (s : State) :
    (flush s).state =
      { transferred s.pack.out.toList (xferStatus s.board s.xferCalls) s with pack := emptyPack s.pack } := by
  unfold flush
  dsimp only
  split <;> rfl

theorem flush_xferBuf (s : State) :
    (flush s).state.xferBuf = transferBytes s.policy.byteOrder s.pack.out.toList := by
  rw [flush_state, transferred_xferBuf]

theorem flush_xferBuf_length (s : State) : (flush s).state.xferBuf.length = 1152 := by
  rw [flush_xferBuf, transferBytes_length, Vector.length_toList]

/-- Settles O48: each order puts the bytes of a word at its two indices, `big` keeps the bit stream, and a flush hands over
the buffer of OUT. -/
theorem transferBufferLayout : Obligations.TransferBufferLayout := by
  unfold Obligations.TransferBufferLayout
  refine ⟨fun words j w hw => ?_, transferBytes_big_bits,
    fun s => ⟨flush_xferBuf s, flush_xferBuf_length s⟩, rfl⟩
  have hfirst (o : ByteOrder) : (transferBytes o words)[2 * j]? = (transferBytes o [w])[0]? :=
    transferBytes_getElem? o hw (k := 0) (by decide)
  have hsecond (o : ByteOrder) : (transferBytes o words)[2 * j + 1]? = (transferBytes o [w])[1]? :=
    transferBytes_getElem? o hw (by decide)
  exact ⟨hfirst .big, hsecond .big, hfirst .little, hsecond .little⟩

end Sys2Proof.Proofs.TransferBuffer
end

section
/-! The Pack Buffer as a bit string (spec/40_codec.md R120, R123; spec/30_encoding.md R93, R97): what it holds when some
codewords are pending, and what a full batch of them hands to the transport. -/

namespace Sys2Proof.Proofs.PackBits

open Sys2Proof Sys2Proof.Machine Sys2Proof.Config Sys2Proof.Safety

/-! ### Bit strings and codewords -/

theorem bitsOf_getElem {n : Nat} (v : BitVec n) {i : Nat} (h : i < (bitsOf v).length) :
    (bitsOf v)[i] = v.getMsbD i := by
  simp [bitsOf]

theorem natOfBits_concat (bs : List Bool) (b : Bool) : natOfBits (bs ++ [b]) = 2 * natOfBits bs + b.toNat := by
  simp [natOfBits]

/-- The first `k` bits of a value, read back, are the value without its low bits. -/
theorem natOfBits_leadingBits {n : Nat} (v : BitVec n) {k : Nat} (hk : k ≤ n) :
    natOfBits ((List.range k).map v.getMsbD) = v.toNat / 2 ^ (n - k) := by
  induction k with
  | zero => exact (Nat.div_eq_of_lt v.isLt).symm
  | succ k ih =>
    have hbit : v.getMsbD k = v.toNat.testBit (n - (k + 1)) := by
      simp [BitVec.getMsbD, show k < n by omega, BitVec.getLsbD, Nat.sub_sub, Nat.add_comm]
    have hpow : n - k = n - (k + 1) + 1 := by omega
    rw [List.range_succ, List.map_append, List.map_singleton, natOfBits_concat, ih (by omega), hbit, Nat.toNat_testBit,
      hpow, Nat.pow_succ, ← Nat.div_div_eq_div_mul]
    omega

@[simp] theorem natOfBits_bitsOf {n : Nat} (v : BitVec n) : natOfBits (bitsOf v) = v.toNat := by
  rw [bitsOf, natOfBits_leadingBits v (Nat.le_refl n), Nat.sub_self, Nat.pow_zero, Nat.div_one]

theorem codewordsOfBits_bitsOf_append (cw : Codeword) (rest : List Bool) :
    codewordsOfBits (bitsOf cw ++ rest) = cw :: codewordsOfBits rest := by
  show BitVec.ofNat 9 (natOfBits (bitsOf cw)) :: codewordsOfBits rest = _
  rw [natOfBits_bitsOf, BitVec.ofNat_toNat, BitVec.setWidth_eq]

/-- Unpacking is the inverse of laying codewords end to end (R93, R97). -/
theorem codewordsOfBits_flatMap_bitsOf (ws : List Codeword) : codewordsOfBits (ws.flatMap bitsOf) = ws := by
  induction ws with
  | nil => rfl
  | cons cw ws ih => rw [List.flatMap_cons, codewordsOfBits_bitsOf_append, ih]

/-! ### The accumulator -/

/-- ACC with a codeword left-aligned after its `n` pending bits (R120). -/
def accWith (acc : BitVec 32) (n : Nat) (cw : Codeword) : BitVec 32 := acc ||| (cw.setWidth 32 <<< (accW - 9 - n))

/-- Below the `n` pending bits ACC holds zeros (R35 (d)). -/
def ZeroBelow (acc : BitVec 32) (n : Nat) : Prop := ∀ i, n ≤ i → acc.getMsbD i = false

/-- The codeword stands in bits `n` to `n + 8`, counted from the top. -/
theorem placed_getMsbD (cw : Codeword) {n : Nat} (hn : n ≤ 15) (i : Nat) :
    (cw.setWidth 32 <<< (accW - 9 - n)).getMsbD i = (decide (n ≤ i) && cw.getMsbD (i - n)) := by
  have hw : accW - 9 - n = 23 - n := by rw [show accW = 32 from rfl]
  have hdec : decide (32 - 9 ≤ i + (23 - n)) = decide (n ≤ i) := decide_eq_decide.2 (by omega)
  have hidx : i + (23 - n) + 9 - 32 = i - n := by omega
  rw [BitVec.getMsbD_shiftLeft, BitVec.getMsbD_setWidth, hw, hdec, hidx]

/-- Bit by bit: the pending bits, the codeword, zeros. -/
theorem accWith_getMsbD {acc : BitVec 32} {n : Nat} (cw : Codeword) (hn : n ≤ 15) (hz : ZeroBelow acc n) (i : Nat) :
    (accWith acc n cw).getMsbD i = if i < n then acc.getMsbD i else cw.getMsbD (i - n) := by
  rw [accWith, BitVec.getMsbD_or, placed_getMsbD cw hn]
  split
  · next h => rw [decide_eq_false (Nat.not_le.2 h), Bool.false_and, Bool.or_false]
  · next h => rw [hz i (Nat.not_lt.1 h), decide_eq_true (Nat.not_lt.1 h), Bool.false_or, Bool.true_and]

theorem accWith_zeroBelow {acc : BitVec 32} {n : Nat} (cw : Codeword) (hn : n ≤ 15) (hz : ZeroBelow acc n) :
    ZeroBelow (accWith acc n cw) (n + 9) := by
  intro i hi
  rw [accWith_getMsbD cw hn hz, if_neg (by omega)]
  exact BitVec.getMsbD_of_ge _ _ (by omega)

theorem accWith_pending {acc : BitVec 32} {n : Nat} (cw : Codeword) (hn : n ≤ 15) (hz : ZeroBelow acc n) :
    (bitsOf (accWith acc n cw)).take (n + 9) = (bitsOf acc).take n ++ bitsOf cw := by
  refine List.ext_getElem (by simp; omega) fun i _ _ => ?_
  rw [List.getElem_take, bitsOf_getElem, accWith_getMsbD cw hn hz, List.getElem_append]
  simp only [List.length_take, bitsOf_length, List.getElem_take, bitsOf_getElem, Nat.min_eq_left (show n ≤ 32 by omega)]
  split <;> rfl

/-- The word emitted is the top half of ACC. -/
theorem bitsOf_topWord (acc : BitVec 32) : bitsOf (acc.extractLsb' (accW - 16) 16) = (bitsOf acc).take 16 := by
  refine List.ext_getElem (by simp) fun i h _ => ?_
  have hi : i < 16 := by simpa using h
  have hw : accW - 16 + 16 - i = 32 - i := rfl
  have hidx : 32 - (32 - i) = i := by omega
  rw [bitsOf_getElem, List.getElem_take, bitsOf_getElem, BitVec.getMsbD_extractLsb', hw, hidx,
    decide_eq_true hi, decide_eq_true (Nat.sub_le 32 i), Bool.true_and, Bool.true_and]

/-- What stays pending after a word is emitted. -/
theorem bitsOf_shifted_take (acc : BitVec 32) {n : Nat} (hn : n ≤ 16) :
    (bitsOf (acc <<< 16)).take n = ((bitsOf acc).take (n + 16)).drop 16 := by
  refine List.ext_getElem (by simp; omega) fun i _ _ => ?_
  rw [List.getElem_take, bitsOf_getElem, List.getElem_drop, List.getElem_take, bitsOf_getElem,
    BitVec.getMsbD_shiftLeft, Nat.add_comm]

/-! ### A Pack Buffer with pending codewords -/

/-- The Pack Buffer holds exactly the codewords `ws`, laid end to end (R35 (a), (b), (d), (e)). -/
structure Holds (p : PackBuffer) (ws : List Codeword) : Prop where
  cnt : p.cnt = ws.length
  outcnt : p.outcnt = ws.length * 9 / 16
  nbits : p.nbits = ws.length * 9 % 16
  zeroBelow : ZeroBelow p.acc p.nbits
  bits : pendingBits p = ws.flatMap bitsOf

theorem Holds.empty {p : PackBuffer} (hcnt : p.cnt = 0) (houtcnt : p.outcnt = 0) (hnbits : p.nbits = 0)
    (hacc : p.acc = 0#32) : Holds p [] where
  cnt := hcnt
  outcnt := houtcnt
  nbits := hnbits
  zeroBelow i _ := by rw [hacc, BitVec.getMsbD_zero]
  bits := by rw [pendingBits, houtcnt, hnbits]; rfl

/-- A codeword that leaves fewer than 16 bits pending goes into ACC alone (R120). -/
theorem packCodeword_of_lt {cw : Codeword} {p : PackBuffer} (h : p.nbits + 9 < 16) :
    packCodeword cw p =
      { p with acc := accWith p.acc p.nbits cw, nbits := p.nbits + 9, cnt := p.cnt + 1 } :=
  if_neg (Nat.not_le.2 h)

/-- A codeword that makes 16 bits or more pending emits the oldest 16 as a word (R120). -/
theorem packCodeword_of_ge {cw : Codeword} {p : PackBuffer} (h : 16 ≤ p.nbits + 9) :
    packCodeword cw p =
      { acc := accWith p.acc p.nbits cw <<< 16
        nbits := p.nbits + 9 - 16
        cnt := p.cnt + 1
        out := p.out.setIfInBounds p.outcnt ((accWith p.acc p.nbits cw).extractLsb' (accW - 16) 16)
        outcnt := p.outcnt + 1 } :=
  if_pos h

/-- Writing the next entry of OUT appends it to the valid ones. -/
theorem take_setIfInBounds (out : Vector Word16 576) {k : Nat} (hk : k < 576) (w : Word16) :
    (out.setIfInBounds k w).toList.take (k + 1) = out.toList.take k ++ [w] := by
  rw [Vector.toList_setIfInBounds, List.take_succ_eq_append_getElem (by simpa using hk), List.getElem_set_self,
    List.take_set_of_le (Nat.le_refl k)]

/-- Packing a codeword appends its nine bits to the pending ones, whether or not a word is emitted. -/
theorem pendingBits_packCodeword (cw : Codeword) {p : PackBuffer} (hn : p.nbits ≤ 15) (hz : ZeroBelow p.acc p.nbits)
    (hout : p.outcnt < 576) : pendingBits (packCodeword cw p) = pendingBits p ++ bitsOf cw := by
  have hacc := accWith_pending cw hn hz
  rcases Nat.lt_or_ge (p.nbits + 9) 16 with h | h
  · rw [packCodeword_of_lt h, pendingBits, pendingBits, List.append_assoc, ← hacc]
  · rw [packCodeword_of_ge h, pendingBits, pendingBits, List.append_assoc, ← hacc]
    dsimp only
    rw [take_setIfInBounds _ hout, List.flatMap_append, List.flatMap_singleton, List.append_assoc, bitsOf_topWord,
      bitsOf_shifted_take _ (by omega), Nat.sub_add_cancel h]
    congr 1
    conv_rhs => rw [← List.take_append_drop 16 (List.take (p.nbits + 9) _), List.take_take, Nat.min_eq_left h]

/-- A codeword packed into a batch that is not full (R120). -/
theorem Holds.concat {p : PackBuffer} {ws : List Codeword} (h : Holds p ws) (hfull : ws.length < batch)
    (cw : Codeword) : Holds (packCodeword cw p) (ws ++ [cw]) := by
  obtain ⟨hcnt, houtcnt, hnbits, hzero, hbits⟩ := h
  have hb : batch = 1024 := rfl
  have hn : p.nbits ≤ 15 := by omega
  have hpending := pendingBits_packCodeword cw hn hzero (by omega)
  rw [hbits, ← List.flatMap_singleton bitsOf cw, ← List.flatMap_append] at hpending
  have hlen : (ws ++ [cw]).length = ws.length + 1 := List.length_append
  have hzero' := accWith_zeroBelow cw hn hzero
  rcases Nat.lt_or_ge (p.nbits + 9) 16 with hlt | hge
  · rw [packCodeword_of_lt hlt] at hpending ⊢
    refine ⟨by rw [hlen, hcnt], ?_, ?_, hzero', hpending⟩
    · show p.outcnt = _
      omega
    · show p.nbits + 9 = _
      omega
  · rw [packCodeword_of_ge hge] at hpending ⊢
    refine ⟨by rw [hlen, hcnt], ?_, ?_, fun i hi => ?_, hpending⟩
    · show p.outcnt + 1 = _
      omega
    · show p.nbits + 9 - 16 = _
      omega
    · rw [BitVec.getMsbD_shiftLeft]
      exact hzero' (i + 16) (Nat.sub_le_iff_le_add.1 hi)

/-- Fewer than 1024 codewords into an empty Pack Buffer stay pending (R33). -/
theorem packAll_holds {p : PackBuffer} (hp : Holds p []) (ws : List Codeword) (h : ws.length < batch) :
    Holds (packAll p ws) ws := by
  induction ws using List.reverseRecOn with
  | nil => exact hp
  | append_singleton ws cw ih =>
    rw [List.length_append, List.length_singleton] at h
    have hws := (ih (by omega)).concat (by omega) cw
    rw [packAll_append, packAll_cons, packAll_nil, packNext, if_neg]
    · exact hws
    · rw [hws.cnt, List.length_append, List.length_singleton]
      omega

theorem batchesOf_eq_nil {p : PackBuffer} {ws : List Codeword} (h : p.cnt + ws.length < batch) : batchesOf p ws = [] := by
  rw [← List.length_eq_zero_iff, batchesOf_length p ws (by omega), Nat.div_eq_of_lt h]

/-- 1024 codewords into an empty Pack Buffer fill one batch, whose words are their bits laid end to end (R93, R95). -/
theorem batchesOf_full {p : PackBuffer} (hp : Holds p []) {ws : List Codeword} (h : ws.length = batch) :
    ∃ words : List Word16, batchesOf p ws = [words] ∧ words.length = outWords ∧
      words.flatMap bitsOf = ws.flatMap bitsOf := by
  obtain rfl | ⟨ws, cw, rfl⟩ := List.eq_nil_or_concat' ws
  · exact absurd h (by decide)
  · have hpending : ws.length < batch := by rw [← h, List.length_append]; exact Nat.lt_succ_self _
    have hlast := (packAll_holds hp ws hpending).concat hpending cw
    have hnone : batchesOf p ws = [] := batchesOf_eq_nil (by rwa [hp.cnt, List.length_nil, Nat.zero_add])
    refine ⟨(packCodeword cw (packAll p ws)).out.toList, ?_, Vector.length_toList, ?_⟩
    · rw [batchesOf_append, hnone, batchesOf_cons, if_pos (hlast.cnt.trans h), batchesOf_nil]
      rfl
    · have houtcnt : (packCodeword cw (packAll p ws)).outcnt = 576 := by rw [hlast.outcnt, h]; rfl
      have hnbits : (packCodeword cw (packAll p ws)).nbits = 0 := by rw [hlast.nbits, h]; rfl
      rw [← hlast.bits, pendingBits, houtcnt, hnbits, List.take_of_length_le (by rw [Vector.length_toList]), List.take_zero,
        List.append_nil]

end Sys2Proof.Proofs.PackBits
end

section
/-! Pushes into the Pack Buffer and the round trip of a batch (spec/40_codec.md R120, R123, R127). -/

namespace Sys2Proof.Proofs.BatchRoundTrip

open Sys2Proof Sys2Proof.Machine Sys2Proof.Config Sys2Proof.Proofs.PackBits

/-- Pushes that go at most up to the end of the batch send every codeword, whatever the transport answers: only the last one
can meet a failing transfer, and the flush leaves the same state then (R123, R124). -/
theorem forEach_push_state {cs : List Carrier} {s : State} (h : s.pack.cnt + cs.length ≤ batch) :
    (forEach cs push s).state = sendAll s (cs.map codewordOf) := by
  induction cs generalizing s with
  | nil => exact (sendAll_nil s).symm
  | cons c cs ih =>
    rw [List.length_cons] at h
    rw [forEach_cons, push_eq, if_neg (by omega)]
    split
    · next hfail =>
      obtain rfl : cs = [] := List.length_eq_zero_iff.1 (by omega)
      rfl
    · have hcnt : (sendAll s [codewordOf c]).pack.cnt ≤ s.pack.cnt + 1 := by
        rw [sendAll_pack, packAll_cnt _ _ (by omega)]
        exact Nat.mod_le _ _
      rw [andThen_ok, ih (by omega), sendAll_append, List.singleton_append, List.map_cons]

theorem sendAll_xferTrace_of_pending {s : State} {ws : List Codeword} (h : s.pack.cnt + ws.length < batch) :
    (sendAll s ws).xferTrace = s.xferTrace := by
  rw [sendAll, batchesOf_eq_nil h, sentFrom_nil]

theorem sendAll_xferTrace_of_batch {s : State} {ws : List Codeword} {words : List Word16}
    (h : batchesOf s.pack ws = [words]) :
    (sendAll s ws).xferTrace = s.xferTrace ++ [(words, xferStatus s.board s.xferCalls)] := by
  rw [sendAll, h]
  rfl

/-- Settles O43: 1023 pushes transfer nothing, the last one the batch, whose words are the codewords' bits end to end, and
unpacking inverts that. -/
theorem batchRoundTrip : Obligations.BatchRoundTrip := by
  unfold Obligations.BatchRoundTrip
  intro cs s hlen hcnt houtcnt hnbits hacc
  have hmap : (cs.map codewordOf).length = batch := by rw [List.length_map, hlen]
  obtain ⟨words, hbatches, hwords, hbits⟩ := batchesOf_full (Holds.empty hcnt houtcnt hnbits hacc) hmap
  have hall : (forEach cs push s).state = sendAll s (cs.map codewordOf) := forEach_push_state (by rw [hcnt, hlen])
  have htake : (cs.take 1023).length = 1023 := by rw [List.length_take, hlen]; rfl
  have hbut : (forEach (cs.take 1023) push s).state = sendAll s ((cs.take 1023).map codewordOf) :=
    forEach_push_state (by rw [hcnt, htake]; decide)
  refine ⟨words, hwords, ?_, ?_, ?_, ?_⟩
  · rw [unpackBatch, hbits, codewordsOfBits_flatMap_bitsOf]
  · rw [hbut, sendAll_xferTrace_of_pending (by rw [hcnt, List.length_map, htake]; decide)]
  · rw [hall, sendAll_xferTrace_of_batch hbatches]
  · rw [hall, sendAll_pack, packAll_cnt _ _ (by rw [hcnt]; decide), hcnt, hmap]
    rfl

end Sys2Proof.Proofs.BatchRoundTrip
end

section
/-! A property that a push and the register writes of the drawing operations keep is kept by each of those operations
(spec/41_framer.md to spec/44_text.md). One lemma per micro-operation. -/

namespace Sys2Proof.Proofs.KeptByDraws

open Sys2Proof Sys2Proof.Machine Sys2Proof.Config

/-- The property survives a push, and does not depend on the registers the components above the Codec write. -/
structure DrawStable (P : State → Prop) : Prop where
  push (c : Carrier) : KeepsFrom P (push c)
  write {s : State} {a : AddrState} {w : Window} {f : Word16} {l : LineEngine} {c : CircleEngine} {x : TextEngine}
    {p : List (Int × Int × Word16)} :
    P s → P { s with asm := a, win := w, fg := f, line := l, circle := c, text := x, plotTrace := p }

variable {P : State → Prop}

theorem keepsFrom_ok : KeepsFrom P .ok := fun _ hs => hs

/-- An operand read from the state. -/
theorem keepsFrom_reading {α : Type} {f : α → State → Res} (g : State → α) (h : ∀ a, KeepsFrom P (f a)) :
    KeepsFrom P fun s => f (g s) s :=
  fun s => h (g s) s

theorem keepsFrom_ite {c : State → Prop} [DecidablePred c] {f g : State → Res} (hf : KeepsFrom P f)
    (hg : KeepsFrom P g) : KeepsFrom P fun s => if c s then f s else g s := by
  intro s hs
  dsimp only
  split
  · exact hf s hs
  · exact hg s hs

namespace DrawStable

variable (h : DrawStable P)
include h

/-! ### The Framer and the windows -/

theorem framerReg (b : Byte) : KeepsFrom P (framerReg b) := h.push _

theorem framerData8 (b : Byte) : KeepsFrom P (framerData8 b) := h.push _

theorem framerData16 (w : Word16) : KeepsFrom P (framerData16 w) := (h.framerData8 _).andThen (h.framerData8 _)

theorem rangeCmd (code : Byte) (b e : Word16) : KeepsFrom P (rangeCmd code b e) :=
  ((h.framerReg code).andThen (h.framerData16 b)).andThen (h.framerData16 e)

theorem windowCmds (x0 y0 x1 y1 : Word16) : KeepsFrom P (windowCmds x0 y0 x1 y1) := by
  intro s hs
  unfold Machine.windowCmds
  split
  · exact (h.rangeCmd _ y0 y1).andThen (keepsFrom_reading (fun t => t.dev.colcmd) fun b => h.rangeCmd b x0 x1) s hs
  · exact (h.rangeCmd _ y0 y1).andThen (keepsFrom_reading (fun t => t.dev.rowcmd) fun b => h.rangeCmd b x0 x1) s hs

theorem doSetWindow (x0 y0 x1 y1 : Int) : KeepsFrom P (doSetWindow x0 y0 x1 y1) :=
  (h.windowCmds _ _ _ _).andThen (KeepsFrom.update fun _ => h.write)

theorem doArm : KeepsFrom P doArm :=
  (keepsFrom_reading (fun t => t.dev.ramcmd) h.framerReg).andThen
    (KeepsFrom.update fun _ => h.write)

theorem openWindow (x0 y0 x1 y1 : Int) : KeepsFrom P (openWindow x0 y0 x1 y1) :=
  (h.doSetWindow x0 y0 x1 y1).andThen h.doArm

theorem restoreFull : KeepsFrom P restoreFull := fun s hs => h.openWindow _ _ _ _ s hs

/-! ### The Rasterizer -/

theorem plot (x y : Int) (c : Word16) : KeepsFrom P (plot x y c) :=
  (KeepsFrom.after (fun _ => h.write) (h.openWindow x y x y)).andThen (h.framerData16 c)

theorem doFill (x0 y0 x1 y1 c : Word16) : KeepsFrom P (doFill x0 y0 x1 y1 c) :=
  ((h.openWindow _ _ _ _).andThen (KeepsFrom.repeatN _ (h.framerData16 c))).andThen h.restoreFull

theorem lineStep (t : Nat) : KeepsFrom P (lineStep t) :=
  fun _ hs => h.plot _ _ _ _ (h.write hs)

theorem doLine (x1 y1 x2 y2 : Int) : KeepsFrom P (doLine x1 y1 x2 y2) :=
  fun _ hs => KeepsFrom.forRange _ h.lineStep _ (h.write hs)

theorem doRect (x1 y1 x2 y2 : Int) : KeepsFrom P (doRect x1 y1 x2 y2) :=
  (((h.doLine _ _ _ _).andThen (h.doLine _ _ _ _)).andThen (h.doLine _ _ _ _)).andThen (h.doLine _ _ _ _)

theorem plot8 (xc yc u v : Int) : KeepsFrom P (plot8 xc yc u v) :=
  KeepsFrom.forEach _ fun _ => keepsFrom_reading State.fg (h.plot _ _)

theorem circlePlots (xc yc : Int) (filled : Bool) : KeepsFrom P (circlePlots xc yc filled) := by
  intro s hs
  unfold Machine.circlePlots
  split
  · exact KeepsFrom.forRange _ (fun _ _ ht => h.plot8 _ _ _ _ _ (h.write ht)) s hs
  · exact h.plot8 _ _ _ _ s hs

theorem circleLoop (xc yc : Int) (filled : Bool) (n : Nat) : KeepsFrom P (circleLoop xc yc filled n) := by
  induction n with
  | zero => exact keepsFrom_ok
  | succ n ih =>
    exact keepsFrom_ite
      ((h.circlePlots xc yc filled).andThen (KeepsFrom.after (fun _ => h.write) ih)) keepsFrom_ok

theorem doCircle (xc yc : Int) (r : Nat) (filled : Bool) : KeepsFrom P (doCircle xc yc r filled) :=
  fun _ hs => h.circleLoop xc yc filled _ _ (h.write hs)

/-! ### Text -/

theorem blockPixel (bc : Word16) (bit : Bool) : KeepsFrom P (blockPixel bc bit) :=
  keepsFrom_reading (fun s => if bit then s.fg else bc) h.framerData16

theorem pointPixel (x y : Int) (bit : Bool) : KeepsFrom P (pointPixel x y bit) :=
  keepsFrom_ite (keepsFrom_reading State.fg (h.plot x y)) keepsFrom_ok

theorem asciiCells (sz : AsciiSize) {f : Nat → Nat → State → Res} (hf : ∀ gp gt, KeepsFrom P (f gp gt)) :
    KeepsFrom P (asciiCells sz f) :=
  KeepsFrom.forRange _ fun gp => KeepsFrom.forRange _ fun gt =>
    KeepsFrom.after (fun _ => h.write) (hf gp gt)

theorem asciiBlit (x y : Int) (bc : Word16) (rows : List Byte) (sz : AsciiSize) (point : Bool) :
    KeepsFrom P (asciiBlit x y bc rows sz point) :=
  keepsFrom_ite (h.asciiCells sz fun _ _ => h.pointPixel _ _ _)
    (((h.openWindow _ _ _ _).andThen (h.asciiCells sz fun _ _ => h.blockPixel bc _)).andThen h.restoreFull)

/-- A glyph between entry and exit (R212). -/
theorem inText (fc : Word16) {f : State → Res} (hf : KeepsFrom P f) :
    KeepsFrom P fun s => (f (enterText fc s)).onExit leaveText :=
  (KeepsFrom.after (fun _ => h.write) hf).onExit fun _ => h.write

theorem doChar (x y : Int) (fc bc : Word16) (ch : Byte) (sz : AsciiSize) (point : Bool) :
    KeepsFrom P (doChar x y fc bc ch sz point) :=
  fun s hs => h.inText fc (h.asciiBlit x y bc (asciiRows s.board sz ch) sz point) s hs

theorem advancePos {s : State} (x : Int) (sz : WideSize) (hs : P s) : P (advancePos x sz s) := by
  unfold Machine.advancePos
  split
  · exact h.write hs
  · exact h.write hs

theorem wideBlit (x y : Int) (bc : Word16) (bm : List Byte) (sz : WideSize) (point : Bool) :
    KeepsFrom P (wideBlit x y bc bm sz point) :=
  keepsFrom_ite
    (KeepsFrom.after (fun _ => h.write)
      (KeepsFrom.forEach _ fun bit =>
        KeepsFrom.andThen (fun s hs => h.pointPixel _ _ bit s hs) (KeepsFrom.update fun _ hs => h.advancePos x sz hs)))
    (((h.openWindow _ _ _ _).andThen (KeepsFrom.forEach _ (h.blockPixel bc))).andThen h.restoreFull)

theorem doGlyph (x y : Int) (fc bc code : Word16) (sz : WideSize) (point : Bool) :
    KeepsFrom P (doGlyph x y fc bc code sz point) := by
  intro s hs
  unfold Machine.doGlyph
  split
  · exact hs
  · exact h.inText fc (h.wideBlit _ _ _ _ _ _) s hs

theorem stringChar (fc bc : Word16) (size : Byte) (point : Bool) (b : Byte) :
    KeepsFrom P (stringChar fc bc size point b) := by
  intro s hs
  unfold Machine.stringChar
  split
  · exact h.doChar _ _ _ _ _ _ _ s hs
  · exact hs

theorem stringGlyph (fc bc : Word16) (size : Byte) (point : Bool) (code : Word16) :
    KeepsFrom P (stringGlyph fc bc size point code) := by
  intro s hs
  unfold Machine.stringGlyph
  split
  · exact h.doGlyph _ _ _ _ _ _ _ s hs
  · exact hs

/-- Along the loop's branches (R209): an ASCII character, a carriage return, a lead byte, any other byte. -/
theorem stringLoop (fc bc : Word16) (size : Byte) (point : Bool) :
    (bytes : List Byte) → KeepsFrom P (stringLoop fc bc size point bytes)
  | [] => keepsFrom_ok
  | b :: rest => by
    intro s hs
    unfold Machine.stringLoop
    split
    · split
      · exact (h.stringChar fc bc size point b).andThen
          (fun _ ht => stringLoop fc bc size point rest _ (h.write ht)) s hs
      · exact hs
    · split
      · exact stringLoop fc bc size point rest _ (h.write hs)
      · split
        · match rest with
          | [] => exact hs
          | b1 :: rest' =>
            dsimp only
            split
            · exact (h.stringGlyph fc bc size point (be16 b b1)).andThen
                (fun _ ht => stringLoop fc bc size point rest' _ (h.write ht)) s hs
            · exact hs
        · exact stringLoop fc bc size point rest _ (h.write hs)

theorem doString (x y : Int) (fc bc : Word16) (size : Byte) (point : Bool) (bytes : List Byte) :
    KeepsFrom P (doString x y fc bc size point bytes) :=
  fun _ hs => h.stringLoop fc bc size point bytes _ (h.write hs)

end DrawStable

end Sys2Proof.Proofs.KeptByDraws
end

section
/-! The batch is never overfull (spec/40_codec.md R126): from CNT below 1024 every operation ends in a next state, CNT below
1024 again. -/

namespace Sys2Proof.Proofs.BatchBound

open Sys2Proof Sys2Proof.Machine Sys2Proof.Config Sys2Proof.Proofs.KeptByDraws

/-- The batch is not full. -/
def BelowBatch (s : State) : Prop := s.pack.cnt < batch

/-- The outcome is a next state with the batch not full. -/
def NextBelow (o : Host.Outcome State Fault Refusal) : Prop := ∃ t, o = .next t ∧ BelowBatch t

theorem drawStable_belowBatch : DrawStable BelowBatch where
  push := keepsFrom_push_cnt
  write hs := hs

/-! ### The end of an operation -/

theorem nextBelow_reject {s : State} (hs : BelowBatch s) (st : Status) : NextBelow (reject st s) :=
  ⟨respond st s, rfl, hs⟩

theorem nextBelow_finish {r : Res} (h : r.Ends BelowBatch) : NextBelow (finish r) := by
  cases r with
  | ok t => exact ⟨respond .ok t, rfl, h⟩
  | abort t => exact ⟨takeAbort t, rfl, h⟩
  | overfull t => exact h.elim

theorem nextBelow_gated {s : State} {op : State → Host.Outcome State Fault Refusal} (hs : BelowBatch s)
    (h : NextBelow (op s)) : NextBelow (gated s op) := by
  unfold gated
  split
  · exact h
  · exact nextBelow_reject hs .eOpen

/-- A gated operation that is one micro-operation. -/
theorem nextBelow_gated_finish {s : State} {f : State → Res} (hs : BelowBatch s) (hf : KeepsFrom BelowBatch f) :
    NextBelow (gated s fun s => finish (f s)) :=
  nextBelow_gated hs (nextBelow_finish (hf s hs))

/-! ### The Codec and the codewords the host pushes itself -/

theorem keepsFrom_hostData8 (b : Byte) : KeepsFrom BelowBatch (hostData8 b) :=
  fun s hs => drawStable_belowBatch.framerData8 b (noteData s) (by rwa [BelowBatch, noteData_pack])

theorem nextBelow_rawPush (c : Carrier) {s : State} (hs : BelowBatch s) : NextBelow (rawPush c s) := by
  have hnoted : KeepsFrom BelowBatch fun s => push c (noteRaw (codewordOf c) s) :=
    fun s hs => drawStable_belowBatch.push c _ (by rwa [BelowBatch, noteRaw_pack])
  exact nextBelow_gated_finish hs
    (hnoted.andThen (KeepsFrom.update (u := fun s => { s with asm := asmAfterRaw (codewordOf c) s.asm }) fun _ ht => ht))

theorem keepsFrom_padBatch (n : Nat) : KeepsFrom BelowBatch (padBatch n) := by
  induction n with
  | zero => exact keepsFrom_ok
  | succ n ih =>
    exact keepsFrom_ite keepsFrom_ok
      ((keepsFrom_reading (fun s => s.policy.padCarrier) drawStable_belowBatch.push).andThen ih)

theorem keepsFrom_teardownPack : KeepsFrom BelowBatch teardownPack := by
  intro s hs
  unfold teardownPack
  split
  · exact Nat.zero_lt_succ _
  · exact keepsFrom_padBatch batch s hs

theorem nextBelow_teardown {s : State} (hs : BelowBatch s) : NextBelow (execTeardown s) :=
  nextBelow_gated_finish hs
    (keepsFrom_teardownPack.onExit (u := fun s => { s with asm := .idle, ready := false }) fun _ ht => ht)

theorem nextBelow_wrreg (b : Byte) {s : State} (hs : BelowBatch s) : NextBelow (execWrreg b s) :=
  nextBelow_gated_finish hs
    ((drawStable_belowBatch.framerReg b).andThen
      (KeepsFrom.update (u := fun s => { s with asm := .idle }) fun _ ht => ht))

theorem nextBelow_wrdat16 (w : Word16) {s : State} (hs : BelowBatch s) : NextBelow (execWrdat16 w s) :=
  nextBelow_gated_finish hs ((keepsFrom_hostData8 (hiByte w)).andThen (keepsFrom_hostData8 (loByte w)))

theorem nextBelow_armram {s : State} (hs : BelowBatch s) : NextBelow (execArmram s) :=
  nextBelow_gated_finish (f := fun s => doArm (noteArm s)) hs
    fun s hs => drawStable_belowBatch.doArm (noteArm s) (by rwa [BelowBatch, noteArm_pack])

/-- INIT clears READY and opens the transport first, and neither touches the Pack Buffer. -/
theorem nextBelow_init (b : Byte) {s : State} (hs : BelowBatch s) : NextBelow (execInit b s) := by
  unfold execInit
  split
  · next o _ =>
    unfold initState
    dsimp only
    split
    · exact ⟨_, rfl, hs⟩
    · rw [← initEnd_eq_finish]
      exact nextBelow_finish (initRun_ends o _)
  · exact nextBelow_reject hs .eArg

/-! ### The operations with a domain: E_ARG outside it -/

theorem nextBelow_fill (x0 y0 x1 y1 c : Word16) {s : State} (hs : BelowBatch s) :
    NextBelow (execFill x0 y0 x1 y1 c s) := by
  refine nextBelow_gated hs ?_
  split
  · exact nextBelow_finish (drawStable_belowBatch.doFill x0 y0 x1 y1 c s hs)
  · exact nextBelow_reject hs .eArg

theorem nextBelow_clear (c : Word16) {s : State} (hs : BelowBatch s) : NextBelow (execClear c s) := by
  refine nextBelow_gated hs ?_
  split
  · exact nextBelow_reject hs .eArg
  · exact nextBelow_finish (drawStable_belowBatch.doFill _ _ _ _ c s hs)

theorem nextBelow_frect (x1 y1 x2 y2 : Word16) {s : State} (hs : BelowBatch s) :
    NextBelow (execFrect x1 y1 x2 y2 s) := by
  refine nextBelow_gated hs ?_
  split
  · exact nextBelow_finish (drawStable_belowBatch.doFill x1 y1 x2 y2 s.fg s hs)
  · exact nextBelow_reject hs .eArg

theorem nextBelow_circle (xc yc r : Word16) (filled : Byte) {s : State} (hs : BelowBatch s) :
    NextBelow (execCircle xc yc r filled s) := by
  refine nextBelow_gated hs ?_
  split
  · exact nextBelow_finish (drawStable_belowBatch.doCircle _ _ _ _ s hs)
  · exact nextBelow_reject hs .eArg

theorem nextBelow_char (x y fc bc : Word16) (ch size mode : Byte) {s : State} (hs : BelowBatch s) :
    NextBelow (execChar x y fc bc ch size mode s) := by
  refine nextBelow_gated hs ?_
  split
  · split
    · exact nextBelow_finish (drawStable_belowBatch.doChar _ _ fc bc ch _ _ s hs)
    · exact nextBelow_finish hs
  · exact nextBelow_reject hs .eArg

theorem nextBelow_glyph (x y fc bc code : Word16) (size mode : Byte) {s : State} (hs : BelowBatch s) :
    NextBelow (execGlyph x y fc bc code size mode s) := by
  refine nextBelow_gated hs ?_
  split
  · split
    · exact nextBelow_finish (drawStable_belowBatch.doGlyph _ _ fc bc code _ _ s hs)
    · exact nextBelow_finish hs
  · exact nextBelow_reject hs .eArg

theorem nextBelow_string (x y fc bc : Word16) (size mode : Byte) (bytes : List Byte) {s : State} (hs : BelowBatch s) :
    NextBelow (execString x y fc bc size mode bytes s) := by
  refine nextBelow_gated hs ?_
  split
  · exact nextBelow_finish (drawStable_belowBatch.doString _ _ fc bc size _ bytes s hs)
  · exact nextBelow_reject hs .eArg

theorem nextBelow_number (x y fc bc : Word16) (num : BitVec 32) (len size mode : Byte) {s : State}
    (hs : BelowBatch s) : NextBelow (execNumber x y fc bc num len size mode s) := by
  refine nextBelow_gated hs ?_
  split
  · exact nextBelow_finish (drawStable_belowBatch.doString _ _ fc bc size _ _ s hs)
  · exact nextBelow_reject hs .eArg

/-! ### Every operation -/

/-- From a batch not full every operation ends in a next state, the batch not full again (R126). -/
theorem nextBelow_exec (i : Instr) {s : State} (hs : BelowBatch s) : NextBelow (exec i s) := by
  have hd := drawStable_belowBatch
  cases i with
  | push c => exact nextBelow_rawPush c hs
  | teardown => exact nextBelow_teardown hs
  | wrreg b => exact nextBelow_wrreg b hs
  | wrdat8 b => exact nextBelow_gated_finish hs (keepsFrom_hostData8 b)
  | wrdat16 w => exact nextBelow_wrdat16 w hs
  | setwin x0 y0 x1 y1 => exact nextBelow_gated_finish hs (hd.doSetWindow _ _ _ _)
  | armram => exact nextBelow_armram hs
  | setcur x y => exact nextBelow_gated_finish hs (hd.openWindow _ _ _ _)
  | point x y c => exact nextBelow_gated_finish hs (hd.plot _ _ c)
  | fill x0 y0 x1 y1 c => exact nextBelow_fill x0 y0 x1 y1 c hs
  | clear c => exact nextBelow_clear c hs
  | line x1 y1 x2 y2 => exact nextBelow_gated_finish hs (hd.doLine _ _ _ _)
  | rect x1 y1 x2 y2 => exact nextBelow_gated_finish hs (hd.doRect _ _ _ _)
  | frect x1 y1 x2 y2 => exact nextBelow_frect x1 y1 x2 y2 hs
  | circle xc yc r filled => exact nextBelow_circle xc yc r filled hs
  | char x y fc bc ch size mode => exact nextBelow_char x y fc bc ch size mode hs
  | glyph x y fc bc code size mode => exact nextBelow_glyph x y fc bc code size mode hs
  | string x y fc bc size mode bytes => exact nextBelow_string x y fc bc size mode bytes hs
  | number x y fc bc num len size mode => exact nextBelow_number x y fc bc num len size mode hs
  | init orient => exact nextBelow_init orient hs
  | setcolors fg bg => exact ⟨_, rfl, hs⟩
  | cwCmd p => exact nextBelow_rawPush _ hs
  | cwDat p => exact nextBelow_rawPush _ hs
  | carrierCmd p x => exact nextBelow_rawPush _ hs
  | carrierDat p x => exact nextBelow_rawPush _ hs

/-! ### The overfull batch -/

theorem push_overfull {s : State} (c : Carrier) (h : batch ≤ s.pack.cnt) : push c s = .overfull s := by
  rw [push_eq, if_pos h]

/-- PUSH reaches the overfull batch through the READY gate, and its fault goes to the end of the operation. -/
theorem execPush_overfull {s : State} (c : Carrier) (hr : s.ready = true) (h : batch ≤ s.pack.cnt) :
    exec (.push c) s = .fault .batchOverfull := by
  have hnote : batch ≤ (noteRaw (codewordOf c) s).pack.cnt := by rwa [noteRaw_pack]
  show rawPush c s = _
  rw [rawPush, gated_ready hr, push_overfull c hnote]
  rfl

/-- Settles O42: no operation fills the batch past its end, and a push that meets it full faults. -/
theorem batchIsNeverOverfull : Obligations.BatchIsNeverOverfull := by
  unfold Obligations.BatchIsNeverOverfull
  exact ⟨fun i _ hs => nextBelow_exec i hs, fun c _ h => push_overfull c h, fun c _ hr h => execPush_overfull c hr h⟩

end Sys2Proof.Proofs.BatchBound
end

section
/-! The transitions of ASM (spec/42_addressing.md R158). -/

namespace Sys2Proof.Proofs.AddressState

open Sys2Proof Sys2Proof.Machine Sys2Proof.Config

/-! ### Normal ends -/

/-- A sequence ends normally only through a normal end of its first part. -/
theorem andThen_eq_ok {r : Res} {f : State → Res} {u : State} (h : r.andThen f = .ok u) :
    ∃ v, r = .ok v ∧ f v = .ok u := by
  cases r with
  | ok v => exact ⟨v, rfl, h⟩
  | abort v => exact Res.noConfusion h
  | overfull v => exact Res.noConfusion h

theorem onExit_eq_ok {r : Res} {f : State → State} {u : State} (h : r.onExit f = .ok u) :
    ∃ v, r = .ok v ∧ u = f v := by
  cases r with
  | ok v => exact ⟨v, rfl, (Res.ok.inj h).symm⟩
  | abort v => exact Res.noConfusion h
  | overfull v => exact Res.noConfusion h

/-- A push that ends normally has sent its codeword. -/
theorem push_eq_ok {c : Carrier} {s t : State} (h : push c s = .ok t) : t = sendAll s [codewordOf c] := by
  rw [push_eq] at h
  split_ifs at h
  exact (Res.ok.inj h).symm

theorem doSetWindow_asm {x0 y0 x1 y1 : Int} {s t : State} (h : doSetWindow x0 y0 x1 y1 s = .ok t) :
    t.asm = .windowProgrammed := by
  obtain ⟨v, -, hv⟩ := andThen_eq_ok h
  rw [← Res.ok.inj hv]

theorem doArm_asm {s t : State} (h : doArm s = .ok t) : t.asm = .ramStreaming := by
  obtain ⟨v, -, hv⟩ := andThen_eq_ok h
  rw [← Res.ok.inj hv]

theorem framerData8_asm {b : Byte} {s t : State} (h : framerData8 b s = .ok t) : t.asm = s.asm := by
  rw [push_eq_ok h, sendAll_asm]

/-! ### Operations that leave ASM in Idle when they answer with a given status -/

/-- If the operation's last answer is `st`, ASM is Idle. -/
def IdleAfter (st : Status) (o : Host.Outcome State Fault Refusal) : Prop :=
  ∀ (t : State) (l : List Status), o = .next t → t.respTrace = l ++ [st] → t.asm = .idle

/-- An operation answers with one status: another one is not its last. -/
theorem idleAfter_respond {st a : Status} (h : a ≠ st) (s : State) : IdleAfter st (.next (respond a s)) := by
  intro t l ht hl
  rw [← Host.Outcome.next.inj ht, respond_respTrace] at hl
  exact absurd (List.append_inj' hl rfl).2 (by simpa using h)

theorem idleAfter_next {st : Status} {s : State} (h : s.asm = .idle) : IdleAfter st (.next s) := by
  intro t l ht hl
  rw [← Host.Outcome.next.inj ht, h]

/-- The abort writes ASM itself (R244), so only a normal end is left to look at. -/
theorem idleAfter_finish {st : Status} {r : Res} (h : ∀ u, r = .ok u → u.asm = .idle) : IdleAfter st (finish r) := by
  cases r with
  | ok u => exact idleAfter_next (h u rfl)
  | abort u => exact idleAfter_next rfl
  | overfull u => exact fun _ _ ht => nomatch ht

/-- A micro-operation whose host operation answers E_XFER was aborted. -/
theorem idleAfter_finish_eXfer (r : Res) : IdleAfter .eXfer (finish r) := by
  cases r with
  | ok u => exact idleAfter_respond (by decide) u
  | abort u => exact idleAfter_next rfl
  | overfull u => exact fun _ _ ht => nomatch ht

theorem idleAfter_gated {st : Status} {s : State} {op : State → Host.Outcome State Fault Refusal} (hst : .eOpen ≠ st)
    (h : IdleAfter st (op s)) : IdleAfter st (gated s op) := by
  unfold gated
  split
  · exact h
  · exact idleAfter_respond hst s

/-! ### The raw commands, TEARDOWN and INIT -/

theorem idleAfter_wrreg (b : Byte) (s : State) : IdleAfter .ok (exec (.wrreg b) s) := by
  unfold exec
  refine idleAfter_gated (by decide : Status.eOpen ≠ .ok) (idleAfter_finish fun u hu => ?_)
  obtain ⟨v, -, hv⟩ := andThen_eq_ok hu
  rw [← Res.ok.inj hv]

/-- Bit 15 of a carrier is the D/C bit of its codeword (R91, R92). -/
theorem isData_codewordOf (c : Carrier) : isData (codewordOf c) = c.getLsbD 15 := by
  simp [isData, codewordOf]

theorem idleAfter_push {c : Carrier} (hc : c.getLsbD 15 = false) (s : State) : IdleAfter .ok (exec (.push c) s) := by
  show IdleAfter .ok (rawPush c s)
  have hcmd : isData (codewordOf c) = false := (isData_codewordOf c).trans hc
  refine idleAfter_gated (by decide : Status.eOpen ≠ .ok) (idleAfter_finish fun u hu => ?_)
  obtain ⟨v, -, hv⟩ := andThen_eq_ok hu
  rw [← Res.ok.inj hv]
  simp [asmAfterRaw, hcmd]

theorem idleAfter_teardown (s : State) : IdleAfter .ok (exec .teardown s) := by
  unfold exec
  refine idleAfter_gated (by decide : Status.eOpen ≠ .ok) (idleAfter_finish fun u hu => ?_)
  obtain ⟨v, -, rfl⟩ := onExit_eq_ok hu
  rfl

/-- The entries of INIT_SEQ are pushed without a write of ASM (R230), which INIT has set to Idle before. -/
theorem initRun_ends_idle (o : Orient) (s : State) : (initRun o s).Ends fun t => t.pack.cnt < batch ∧ t.asm = .idle := by
  have hpush (c : Carrier) : KeepsFrom (fun t => t.pack.cnt < batch ∧ t.asm = .idle) (push c) :=
    keepsFrom_push (fun _ ht => ht.1)
      (fun t cw ⟨hcnt, hasm⟩ => ⟨sendAll_cnt_lt _ hcnt, by rw [sendAll_asm, hasm]⟩) c
  have hitem (it : CmdKind × Byte) : KeepsFrom (fun t => t.pack.cnt < batch ∧ t.asm = .idle) (initItem it) := by
    intro t ht
    unfold initItem
    split
    · exact hpush _ t ht
    · exact hpush _ t ht
  exact ((KeepsFrom.forEach (initSeq s.board o) hitem).andThen
    (KeepsFrom.update (u := fun t => { gpioSet .backlight .on t with ready := true }) fun _ ht => ht)) (initLoad o s)
    ⟨Nat.zero_lt_succ _, initLoad_asm o s⟩

/-- INIT with its three ends: turned away, the transport not opened, and the run, normal or aborted. -/
theorem idleAfter_init {st : Status} (harg : .eArg ≠ st) (hopen : .eOpen ≠ st) (b : Byte) (s : State) :
    IdleAfter st (exec (.init b) s) := by
  show IdleAfter st (execInit b s)
  unfold execInit
  split
  · next o _ =>
    unfold initState
    dsimp only
    split
    · exact idleAfter_respond hopen _
    · rw [← initEnd_eq_finish]
      refine idleAfter_finish fun u hu => ?_
      have hends := initRun_ends_idle o (countOpen { s with ready := false })
      rw [hu] at hends
      exact hends.2
  · exact idleAfter_respond harg s

/-! ### The abort of any operation -/

theorem idleAfter_eXfer_rawPush (c : Carrier) (s : State) : IdleAfter .eXfer (rawPush c s) :=
  idleAfter_gated (by decide) (idleAfter_finish_eXfer _)

/-- Behind the READY gate an operation refuses with E_ARG, or ends as its micro-operation does. -/
theorem idleAfter_eXfer_exec (i : Instr) (s : State) : IdleAfter .eXfer (exec i s) := by
  have hgate {op : State → Host.Outcome State Fault Refusal} (h : IdleAfter .eXfer (op s)) :
      IdleAfter .eXfer (gated s op) := idleAfter_gated (by decide) h
  have harg : IdleAfter .eXfer (reject .eArg s) := idleAfter_respond (by decide) s
  unfold exec
  cases i with
  | push c => exact idleAfter_eXfer_rawPush _ s
  | teardown => exact hgate (idleAfter_finish_eXfer _)
  | wrreg b => exact hgate (idleAfter_finish_eXfer _)
  | wrdat8 b => exact hgate (idleAfter_finish_eXfer _)
  | wrdat16 w => exact hgate (idleAfter_finish_eXfer _)
  | setwin x0 y0 x1 y1 => exact hgate (idleAfter_finish_eXfer _)
  | armram => exact hgate (idleAfter_finish_eXfer _)
  | setcur x y => exact hgate (idleAfter_finish_eXfer _)
  | point x y c => exact hgate (idleAfter_finish_eXfer _)
  | fill x0 y0 x1 y1 c =>
    refine hgate ?_
    split
    · exact idleAfter_finish_eXfer _
    · exact harg
  | clear c =>
    refine hgate ?_
    split
    · exact harg
    · exact idleAfter_finish_eXfer _
  | line x1 y1 x2 y2 => exact hgate (idleAfter_finish_eXfer _)
  | rect x1 y1 x2 y2 => exact hgate (idleAfter_finish_eXfer _)
  | frect x1 y1 x2 y2 =>
    refine hgate ?_
    split
    · exact idleAfter_finish_eXfer _
    · exact harg
  | circle xc yc r filled =>
    refine hgate ?_
    split
    · exact idleAfter_finish_eXfer _
    · exact harg
  | char x y fc bc ch size mode =>
    refine hgate ?_
    split
    · split <;> exact idleAfter_finish_eXfer _
    · exact harg
  | glyph x y fc bc code size mode =>
    refine hgate ?_
    split
    · split <;> exact idleAfter_finish_eXfer _
    · exact harg
  | string x y fc bc size mode bytes =>
    refine hgate ?_
    split
    · exact idleAfter_finish_eXfer _
    · exact harg
  | number x y fc bc num len size mode =>
    refine hgate ?_
    split
    · exact idleAfter_finish_eXfer _
    · exact harg
  | init orient => exact idleAfter_init (by decide) (by decide) orient s
  | setcolors fg bg => exact idleAfter_finish_eXfer _
  | cwCmd p => exact idleAfter_eXfer_rawPush _ s
  | cwDat p => exact idleAfter_eXfer_rawPush _ s
  | carrierCmd p x => exact idleAfter_eXfer_rawPush _ s
  | carrierDat p x => exact idleAfter_eXfer_rawPush _ s

/-- Settles O18: the rows of R158's table in order, INIT and TEARDOWN apart. -/
theorem addressingStateTransitions : Obligations.AddressingStateTransitions := by
  unfold Obligations.AddressingStateTransitions
  exact ⟨fun _ _ _ _ _ _ => doSetWindow_asm, fun _ _ => doArm_asm, fun _ _ _ => framerData8_asm,
    fun b s t => idleAfter_wrreg b s t _, fun _ s t hc => idleAfter_push hc s t _,
    fun i s t => idleAfter_eXfer_exec i s t _, fun o s t => idleAfter_init (by decide) (by decide) o s t _,
    fun s t => idleAfter_teardown s t _⟩

end Sys2Proof.Proofs.AddressState
end

section
/-! Two SETWINs in a row (spec/42_addressing.md R159): what the block sends, and what a reference sink makes of it. -/

namespace Sys2Proof.Proofs.SecondWindow

open Sys2Proof Sys2Proof.Machine Sys2Proof.Config Sys2Proof.Proofs.BatchBound

/-! ### SETWIN in the block -/

@[simp] theorem trunc16_zext (w : Word16) : trunc16 (zext w) = w := by
  simp [trunc16, zext]

/-- With the batch already full DoSetWindow does not get past its first push. -/
theorem doSetWindow_overfull (x0 y0 x1 y1 : Int) {s : State} (h : batch ≤ s.pack.cnt) :
    doSetWindow x0 y0 x1 y1 s = .overfull s := by
  have hpush (b : Byte) : framerReg b s = .overfull s := push_overfull _ h
  unfold doSetWindow windowCmds rangeCmd
  split <;> rw [hpush] <;> rfl

/-- The state SETWIN leaves when all its transfers succeed. -/
def windowSet (x0 y0 x1 y1 : Word16) (s : State) : State :=
  respond .ok (streamed s [.setWindow (zext x0) (zext y0) (zext x1) (zext y1)])

theorem windowSet_cwTrace (x0 y0 x1 y1 : Word16) (s : State) :
    (windowSet x0 y0 x1 y1 s).cwTrace = s.cwTrace ++ frameWindow s.dev x0 y0 x1 y1 := by
  simp [windowSet, drawCodewords]

theorem windowSet_dev (x0 y0 x1 y1 : Word16) (s : State) : (windowSet x0 y0 x1 y1 s).dev = s.dev :=
  streamed_dev s _

theorem windowSet_win (x0 y0 x1 y1 : Word16) (s : State) :
    (windowSet x0 y0 x1 y1 s).win = { x0 := x0, y0 := y0, x1 := x1, y1 := y1 } := by
  simp [windowSet, drawWin]

theorem windowSet_asm (x0 y0 x1 y1 : Word16) (s : State) : (windowSet x0 y0 x1 y1 s).asm = .windowProgrammed := rfl

/-- A SETWIN through the READY gate that does not fault: it answers OK with the window set, or E_XFER. READY stays. -/
theorem setwin_cases {x0 y0 x1 y1 : Word16} {s t : State} (hr : s.ready = true)
    (h : exec (.setwin x0 y0 x1 y1) s = .next t) :
    t.ready = true ∧ (t = windowSet x0 y0 x1 y1 s ∨ t.respTrace = s.respTrace ++ [.eXfer]) := by
  have hop : finish (doSetWindow (zext x0) (zext y0) (zext x1) (zext y1) s) = .next t := by
    rw [← h]
    exact (gated_ready hr fun s => finish (doSetWindow (zext x0) (zext y0) (zext x1) (zext y1) s)).symm
  by_cases hc : s.pack.cnt < batch
  · rcases (isStream_doSetWindow (zext x0) (zext y0) (zext x1) (zext y1) hc).cases with ⟨-, hok⟩ | ⟨j, a, -, hcut⟩
    · rw [hok] at hop
      obtain rfl := Host.Outcome.next.inj hop
      exact ⟨by rw [respond_ready, streamed_ready, hr], .inl rfl⟩
    · rw [hcut] at hop
      obtain rfl := Host.Outcome.next.inj hop
      exact ⟨by rw [takeAbort_ready, cutShort_ready, hr], .inr (by simp [cutShort])⟩
  · rw [doSetWindow_overfull _ _ _ _ (not_lt.1 hc)] at hop
    exact nomatch hop

/-- Each SETWIN answers one status, so two answers OK are one of each. -/
theorem setwin_setwin_ok {a0 b0 a1 b1 x0 y0 x1 y1 : Word16} {s t u : State} (hr : s.ready = true)
    (ht : exec (.setwin a0 b0 a1 b1) s = .next t) (hu : exec (.setwin x0 y0 x1 y1) t = .next u)
    (hresp : u.respTrace = s.respTrace ++ [.ok, .ok]) :
    u = windowSet x0 y0 x1 y1 (windowSet a0 b0 a1 b1 s) := by
  obtain ⟨htr, rfl | hft⟩ := setwin_cases hr ht
  · obtain ⟨-, rfl | hfu⟩ := setwin_cases htr hu
    · rfl
    · simp [hfu, windowSet] at hresp
  · obtain ⟨-, rfl | hfu⟩ := setwin_cases htr hu
    · simp [hft, windowSet] at hresp
    · simp [hft, hfu] at hresp

/-! ### A window frame in the reference sink -/

section
variable (o : SinkOrder) (d : DeviceState) (k : Sink)

/-- The column command and its four parameters set the column range (R81). -/
theorem sinkFeed_colFrame (b e : Word16) :
    (frameRange d.colcmd b e).foldl (sinkFeed o d) k =
      { k with
        mode := .colparams, params := [hiByte b, loByte b, hiByte e, loByte e], hb := none, cs := b, ce := e } := by
  simp [frameRange, frameData16, sinkFeed, sinkCommand, sinkData, sinkParam]

/-- The row command, where it is not also the column command, sets the row range (R81). -/
theorem sinkFeed_rowFrame (hne : d.colcmd ≠ d.rowcmd) (b e : Word16) :
    (frameRange d.rowcmd b e).foldl (sinkFeed o d) k =
      { k with
        mode := .rowparams, params := [hiByte b, loByte b, hiByte e, loByte e], hb := none, rs := b, re := e } := by
  simp [frameRange, frameData16, sinkFeed, sinkCommand, sinkData, sinkParam, hne.symm]

/-- A window frame puts the sink at its window, whatever the sink held, and writes no pixel. -/
theorem sinkFeed_frameWindow (hne : d.colcmd ≠ d.rowcmd) (x0 y0 x1 y1 : Word16) :
    sinkWindow d ((frameWindow d x0 y0 x1 y1).foldl (sinkFeed o d) k) = (x0, x1, y0, y1) ∧
      ((frameWindow d x0 y0 x1 y1).foldl (sinkFeed o d) k).gram = k.gram := by
  unfold frameWindow sinkWindow
  cases d.orient with
  | portrait =>
    dsimp only
    rw [List.foldl_append, sinkFeed_colFrame, sinkFeed_rowFrame o d _ hne]
    exact ⟨rfl, rfl⟩
  | landscape =>
    dsimp only
    rw [List.foldl_append, sinkFeed_rowFrame o d _ hne, sinkFeed_colFrame]
    exact ⟨rfl, rfl⟩

end

/-- Settles O19: the block sends both frames, and in the sink the second sets both ranges again. -/
theorem secondSetwinReplacesFirst : Obligations.SecondSetwinReplacesFirst := by
  unfold Obligations.SecondSetwinReplacesFirst
  intro a0 b0 a1 b1 x0 y0 x1 y1 s t u o k hr ht hu hresp
  obtain rfl := setwin_setwin_ok hr ht hu hresp
  have hcw : (windowSet x0 y0 x1 y1 (windowSet a0 b0 a1 b1 s)).cwTrace =
      s.cwTrace ++ (frameWindow s.dev a0 b0 a1 b1 ++ frameWindow s.dev x0 y0 x1 y1) := by
    rw [windowSet_cwTrace, windowSet_cwTrace, windowSet_dev, List.append_assoc]
  refine ⟨hcw, ?_, windowSet_win _ _ _ _ _, windowSet_asm _ _ _ _ _, fun hne => ?_⟩
  · simp only [hcw, List.length_append, frameWindow_length]
  · obtain ⟨-, hgramA⟩ := sinkFeed_frameWindow o s.dev k hne a0 b0 a1 b1
    obtain ⟨hwin, hgramB⟩ := sinkFeed_frameWindow o s.dev
      ((frameWindow s.dev a0 b0 a1 b1).foldl (sinkFeed o s.dev) k) hne x0 y0 x1 y1
    dsimp only
    rw [List.foldl_append]
    exact ⟨hwin, hgramB.trans hgramA⟩

end Sys2Proof.Proofs.SecondWindow
end

section
/-! The lookup of a double-byte code (spec/44_text.md R204): the linear scan of the index table. -/

namespace Sys2Proof.Proofs.GlyphLookup

open Sys2Proof.Machine

/-- The scan is the library's search for an element, so what the library says of that search holds of the scan. -/
theorem scanIndex_eq_idxOf? (code : Word16) (index : List Word16) : scanIndex code index = index.idxOf? code := by
  induction index with
  | nil => rfl
  | cons c rest ih => simp only [scanIndex, List.idxOf?_cons, ih, beq_iff_eq]

/-- A matched code is at the entry found and at no entry before it. -/
theorem scanIndex_eq_some_iff {code : Word16} {index : List Word16} {k : Nat} :
    scanIndex code index = some k ↔ index[k]? = some code ∧ ∀ m, m < k → index[m]? ≠ some code := by
  rw [scanIndex_eq_idxOf?, List.idxOf?_eq_some_iff]
  constructor
  · rintro ⟨hk, hcode, hleast⟩
    refine ⟨List.getElem?_eq_some_iff.mpr ⟨hk, hcode⟩, fun m hm hentry => ?_⟩
    obtain ⟨_, hmatch⟩ := List.getElem?_eq_some_iff.mp hentry
    exact hleast m hm hmatch
  · rintro ⟨hentry, hleast⟩
    obtain ⟨hk, hcode⟩ := List.getElem?_eq_some_iff.mp hentry
    exact ⟨hk, hcode, fun m hm hmatch => hleast m hm (List.getElem?_eq_some_iff.mpr ⟨hm.trans hk, hmatch⟩)⟩

/-- The lookup fails for the codes without an entry only. -/
theorem scanIndex_eq_none_iff {code : Word16} {index : List Word16} : scanIndex code index = none ↔ code ∉ index := by
  rw [scanIndex_eq_idxOf?, List.idxOf?_eq_none_iff]

/-- Settles O34: the scan is the library's search for the first element equal to the code. -/
theorem lookupFindsFirstEntry : Obligations.LookupFindsFirstEntry := by
  unfold Obligations.LookupFindsFirstEntry
  intro code index
  exact ⟨fun _ => scanIndex_eq_some_iff, scanIndex_eq_none_iff⟩

end Sys2Proof.Proofs.GlyphLookup
end

section
/-! SETCOLORS (spec/45_system.md R232): its encoding and its effect, whatever READY is. -/

namespace Sys2Proof.Proofs.Setcolors

open Sys2Proof Sys2Proof.Machine

/-- The format FCC of R232: the opcode and two colour fields, each its high byte first. -/
theorem encode_setcolors (fg bg : Word16) :
    encode (.setcolors fg bg) = .bytes [0x51#8, fg.extractLsb' 8 8, fg.extractLsb' 0 8, bg.extractLsb' 8 8,
      bg.extractLsb' 0 8] :=
  rfl

/-- The operation is the model's `execSetcolors`, without the READY gate, and its run is an `.ok` of the assignment, so that
`finish_ok` is the only way it ends. -/
theorem exec_setcolors (fg bg : Word16) (s : State) :
    exec (.setcolors fg bg) s = .next (respond .ok { s with fg := fg, bg := bg }) :=
  calc exec (.setcolors fg bg) s
      = execSetcolors fg bg s := rfl
    _ = finish (.ok { s with fg := fg, bg := bg }) := rfl
    _ = .next (respond .ok { s with fg := fg, bg := bg }) := finish_ok _

/-- Settles O39: the encoding and the one end of the operation. -/
theorem setcolorsOperation : Obligations.SetcolorsOperation := by
  unfold Obligations.SetcolorsOperation
  exact fun fg bg s => ⟨encode_setcolors fg bg, exec_setcolors fg bg s⟩

end Sys2Proof.Proofs.Setcolors
end

section
/-! A transport that does not open (spec/60_exceptions.md R242; spec/45_system.md R230, R233): INIT stops before it drives a
line, and READY stays 0, closing every gated operation, until an INIT answers OK. -/

namespace Sys2Proof.Proofs.OpenFailure

open Sys2Proof Sys2Proof.Machine Sys2Proof.Config Sys2Proof.Safety Sys2Proof.Proofs.Setcolors

/-! ### The READY gate -/

theorem rawPush_notReady {s : State} (hr : s.ready = false) (c : Carrier) :
    rawPush c s = .next (respond .eOpen s) :=
  gated_notReady hr _

/-- Every operation but INIT and SETCOLORS is its body behind the gate (R233), so it answers E_OPEN and does nothing else. -/
theorem exec_notReady {i : Instr} {s : State} (hi : ungated i = false) (hr : s.ready = false) :
    exec i s = .next (respond .eOpen s) := by
  unfold exec
  cases i with
  | init b => exact Bool.noConfusion hi
  | setcolors fg bg => exact Bool.noConfusion hi
  | push c => exact rawPush_notReady hr c
  | cwCmd p => exact rawPush_notReady hr _
  | cwDat p => exact rawPush_notReady hr _
  | carrierCmd p x => exact rawPush_notReady hr _
  | carrierDat p x => exact rawPush_notReady hr _
  | _ => exact gated_notReady hr _

/-! ### INIT up to the answer of Open() -/

theorem exec_init_of_some {b : Byte} {o : Orient} (h : orientOperand b = some o) (s : State) :
    exec (.init b) s = .next (initState o s) := by
  show execInit b s = _
  rw [execInit, h]

theorem exec_init_of_none {b : Byte} (h : orientOperand b = none) (s : State) :
    exec (.init b) s = .next (respond .eArg s) := by
  show execInit b s = _
  rw [execInit, h]
  rfl

/-- The two orientations are all of a byte's values up to 1 (R230). -/
theorem orientOperand_of_toNat_le_one {b : Byte} (h : b.toNat ≤ 1) : ∃ o, orientOperand b = some o := by
  obtain rfl | rfl : b = 0#8 ∨ b = 1#8 := by bv_omega
  · exact ⟨.portrait, rfl⟩
  · exact ⟨.landscape, rfl⟩

theorem initState_notOpened {s : State} (h : nextOpen s < 0) (o : Orient) :
    initState o s = respond .eOpen (countOpen { s with ready := false }) :=
  if_pos h

theorem initState_opened {s : State} (h : ¬ nextOpen s < 0) (o : Orient) :
    initState o s = initEnd (initRun o (countOpen { s with ready := false })) :=
  if_neg h

/-! ### INIT after Open() -/

/-- Inside INIT, before its end: READY is 0, no status has been added to those answered before, the batch is not full. -/
structure Initializing (answered : List Status) (s : State) : Prop where
  notReady : s.ready = false
  respTrace : s.respTrace = answered
  cnt : s.pack.cnt < batch

theorem Initializing.sendAll {l : List Status} {s : State} (h : Initializing l s) (ws : List Codeword) :
    Initializing l (sendAll s ws) where
  notReady := by rw [sendAll_ready, h.notReady]
  respTrace := by rw [sendAll_respTrace, h.respTrace]
  cnt := sendAll_cnt_lt ws h.cnt

theorem initializing_initLoad (o : Orient) {s : State} (hr : s.ready = false) :
    Initializing s.respTrace (initLoad o s) where
  notReady := by rw [initLoad_ready, hr]
  respTrace := initLoad_respTrace o s
  cnt := Nat.zero_lt_succ _

theorem keepsFrom_initItem (l : List Status) (it : CmdKind × Byte) : KeepsFrom (Initializing l) (initItem it) := by
  have hpush (c : Carrier) : KeepsFrom (Initializing l) (push c) :=
    keepsFrom_push (fun _ h => h.cnt) (fun _ cw h => h.sendAll [cw]) c
  intro s hs
  unfold initItem
  split
  · exact hpush _ s hs
  · exact hpush _ s hs

/-- The run of INIT after `Open()`: READY is set only after the last entry of INIT_SEQ (R230), so an abort finds it 0. -/
theorem initRun_cases (o : Orient) {s : State} (hr : s.ready = false) :
    (∃ u, initRun o s = .ok u ∧ u.respTrace = s.respTrace) ∨ ∃ u, initRun o s = .abort u ∧ u.ready = false := by
  have hseq : (forEach (initSeq s.board o) initItem (initLoad o s)).Ends (Initializing s.respTrace) :=
    KeepsFrom.forEach _ (keepsFrom_initItem s.respTrace) _ (initializing_initLoad o hr)
  unfold initRun
  cases hrun : forEach (initSeq s.board o) initItem (initLoad o s) with
  | ok u =>
    rw [hrun] at hseq
    exact .inl ⟨_, rfl, hseq.respTrace⟩
  | abort u =>
    rw [hrun] at hseq
    exact .inr ⟨u, rfl, hseq.notReady⟩
  | overfull u =>
    rw [hrun] at hseq
    exact hseq.elim

/-! ### The three parts of R242 -/

/-- INIT ends at the answer of `Open()` with nothing written but READY. -/
theorem exec_init_notOpened {b : Byte} {s : State} (hb : b.toNat ≤ 1) (h : nextOpen s < 0) :
    exec (.init b) s = .next (respond .eOpen (countOpen { s with ready := false })) := by
  obtain ⟨o, ho⟩ := orientOperand_of_toNat_le_one hb
  rw [exec_init_of_some ho, initState_notOpened h]

/-- INIT once begun leaves READY 1 at one of its ends only, the one that answers OK. -/
theorem initState_ready {o : Orient} {s : State} (h : (initState o s).ready = true) :
    (initState o s).respTrace = s.respTrace ++ [.ok] := by
  by_cases hopen : nextOpen s < 0
  · rw [initState_notOpened hopen] at h
    exact absurd h Bool.false_ne_true
  · rw [initState_opened hopen] at h ⊢
    obtain ⟨u, hu, hresp⟩ | ⟨u, hu, hready⟩ := initRun_cases o (s := countOpen { s with ready := false }) rfl
    · rw [hu]
      exact congrArg (· ++ [Status.ok]) hresp
    · rw [hu] at h
      exact absurd (hready.symm.trans h) Bool.false_ne_true

/-- With READY 0 before, an operation after which it is 1 is an INIT that answered OK. -/
theorem ready_set_only_by_init {i : Instr} {s t : State} (hr : s.ready = false) (h : exec i s = .next t)
    (ht : t.ready = true) : isInit i = true ∧ t.respTrace = s.respTrace ++ [.ok] := by
  have hkept {u : State} (hu : exec i s = .next u) (hur : u.ready = s.ready) : False := by
    have hut : u = t := Host.Outcome.next.inj (hu.symm.trans h)
    rw [hut, ht, hr] at hur
    exact Bool.noConfusion hur
  cases i with
  | init b =>
    cases ho : orientOperand b with
    | some o =>
      obtain rfl := Host.Outcome.next.inj ((exec_init_of_some ho s).symm.trans h)
      exact ⟨rfl, initState_ready ht⟩
    | none => exact (hkept (exec_init_of_none ho s) rfl).elim
  | setcolors fg bg => exact (hkept (exec_setcolors fg bg s) rfl).elim
  | _ => exact (hkept (exec_notReady rfl hr) rfl).elim

/-- Settles O38: INIT on a transport that does not open, the closed gate, and the one way READY becomes 1. -/
theorem openFailureIsFatalUntilInit : Obligations.OpenFailureIsFatalUntilInit := by
  unfold Obligations.OpenFailureIsFatalUntilInit
  exact ⟨fun _ _ hb hopen => ⟨_, exec_init_notOpened hb hopen, rfl, rfl, rfl, rfl, rfl⟩,
    fun _ _ hi hr => ⟨_, exec_notReady hi hr, rfl⟩, fun _ _ _ => ready_set_only_by_init⟩

end Sys2Proof.Proofs.OpenFailure
end

section
/-! Requests (spec/30_encoding.md): the encoder and the decoder are inverse to each other, and what no format admits is
answered with E_ARG. -/

namespace Sys2Proof.Proofs.Encoding

open Sys2Proof Sys2Proof.Machine

/-! ### Codewords and carriers -/

/-- A codeword is its D/C bit and its payload (R92). -/
theorem cmdCodeword_payload {c : Codeword} (h : isData c = false) : cmdCodeword (payload c) = c := by
  refine BitVec.eq_of_getLsbD_eq fun i hi => ?_
  rw [cmdCodeword, codeword_append_msb, payload, BitVec.getLsbD_extractLsb']
  split
  · next hlt => simp [hlt]
  · next hge =>
    obtain rfl : i = 8 := by omega
    exact h.symm

theorem datCodeword_payload {c : Codeword} (h : isData c = true) : datCodeword (payload c) = c := by
  refine BitVec.eq_of_getLsbD_eq fun i hi => ?_
  rw [datCodeword, codeword_append_msb, payload, BitVec.getLsbD_extractLsb']
  split
  · next hlt => simp [hlt]
  · next hge =>
    obtain rfl : i = 8 := by omega
    exact h.symm

theorem low_carrierOf (cw : Codeword) (x : BitVec 7) : (carrierOf cw x).extractLsb' 0 7 = x :=
  BitVec.extractLsb'_append_eq_right (a := cw) (b := x)

/-- A carrier is its codeword and its seven low bits (R91). -/
theorem carrierOf_codewordOf (c : Carrier) : carrierOf (codewordOf c) (c.extractLsb' 0 7) = c := by
  refine BitVec.eq_of_getLsbD_eq fun i hi => ?_
  have happ : (carrierOf (codewordOf c) (c.extractLsb' 0 7)).getLsbD i =
      if i < 7 then (c.extractLsb' 0 7).getLsbD i else (codewordOf c).getLsbD (i - 7) := BitVec.getLsbD_append
  rw [happ, codewordOf, BitVec.getLsbD_extractLsb', BitVec.getLsbD_extractLsb']
  split
  · next hlt => simp [hlt]
  · next hge =>
    have hidx : 7 + (i - 7) = i := by omega
    have hin : i - 7 < 9 := by omega
    simp [hidx, hin]

/-! ### The decoder reads back what the encoder wrote -/

/-- STRING's bytes follow its 16-bit length field (R103). -/
theorem decode_encode_string (x y fc bc : Word16) (size mode : Byte) {bytes : List Byte} (h : bytes.length ≤ 65535) :
    decode (encode (.string x y fc bc size mode bytes)) = .ok (.string x y fc bc size mode bytes) := by
  have hlen : (BitVec.ofNat 16 bytes.length).toNat = bytes.length := by
    rw [BitVec.toNat_ofNat, Nat.mod_eq_of_lt (by omega)]
  simp [encode, decode, decodeBytes, decodeFields, fields4, field16, hlen]

/-- Settles O1: every field is read back, STRING's by its length field; a codeword and a carrier by their D/C bit. -/
theorem decodeEncodeRoundTrip : Obligations.DecodeEncodeRoundTrip := by
  unfold Obligations.DecodeEncodeRoundTrip
  intro i hi
  cases i with
  | string x y fc bc size mode bytes => exact decode_encode_string x y fc bc size mode (by simpa [Instr.encodable] using hi)
  | number x y fc bc num len size mode => simp [encode, decode, decodeBytes, decodeFields, fields4, field16, field32]
  | cwCmd p => simp [encode, decode, decodeCodeword]
  | cwDat p => simp [encode, decode, decodeCodeword]
  | carrierCmd p x => simp [encode, decode, decodeCarrier, codewordOf_carrierOf, low_carrierOf]
  | carrierDat p x => simp [encode, decode, decodeCarrier, codewordOf_carrierOf, low_carrierOf]
  | _ => simp [encode, decode, decodeBytes, decodeFields, fields4, field16]

/-! ### The encoder writes back what the decoder read -/

@[simp] theorem field16_be16 (a b : Byte) : field16 (be16 a b) = [a, b] := by
  rw [field16, hiByte_be16, loByte_be16]

@[simp] theorem field32_be32 (a b c d : Byte) : field32 (be32 a b c d) = [a, b, c, d] := by
  have h := fun i : Nat => byte32_toNat (be32 a b c d) i
  have ha := a.isLt
  have hb := b.isLt
  have hc := c.isLt
  have hd := d.isLt
  simp only [be32_toNat, be16_toNat] at h
  have h3 : byte32 (be32 a b c d) 3 = a := BitVec.eq_of_toNat_eq (by rw [h]; omega)
  have h2 : byte32 (be32 a b c d) 2 = b := BitVec.eq_of_toNat_eq (by rw [h]; omega)
  have h1 : byte32 (be32 a b c d) 1 = c := BitVec.eq_of_toNat_eq (by rw [h]; omega)
  have h0 : byte32 (be32 a b c d) 0 = d := BitVec.eq_of_toNat_eq (by rw [h]; omega)
  rw [field32, h3, h2, h1, h0]

/-- The operation has a request by bytes, and `bs` begins with it. -/
def Begins (bs : List Byte) (i : Instr) : Prop := i.encodable = true ∧ ∃ e, encode i = .bytes e ∧ e <+: bs

/-- STRING takes as many bytes as its length field says. -/
theorem begins_string {a b c d e g h k sz md m n : Byte} {rest : List Byte} (hlen : (be16 m n).toNat ≤ rest.length) :
    Begins (0x42#8 :: a :: b :: c :: d :: e :: g :: h :: k :: sz :: md :: m :: n :: rest)
      (.string (be16 a b) (be16 c d) (be16 e g) (be16 h k) sz md (rest.take (be16 m n).toNat)) := by
  have hbound := (be16 m n).isLt
  have htake : (rest.take (be16 m n).toNat).length = (be16 m n).toNat := List.length_take_of_le hlen
  refine ⟨?_, _, rfl, ?_⟩
  · rw [Instr.encodable, htake]
    exact decide_eq_true (by omega)
  · rw [htake, BitVec.ofNat_toNat, BitVec.setWidth_eq]
    simp [fields4, List.take_prefix]

theorem begins_of_decodeFields {op : Byte} {f : List Byte} {i : Instr} (h : decodeFields op f = .ok i) :
    Begins (op :: f) i := by
  have hop {k : Nat} (hk : op.toNat = k) : op = BitVec.ofNat 8 k := by rw [← hk, BitVec.ofNat_toNat, BitVec.setWidth_eq]
  unfold decodeFields at h
  split at h
  case h_18 hk =>
    obtain rfl := hop hk
    split at h
    · dsimp only at h
      split at h
      · exact nomatch h
      · next hlen =>
        obtain rfl := Except.ok.inj h
        exact begins_string (Nat.not_lt.1 hlen)
    · exact nomatch h
  case h_22 => exact nomatch h
  case h_2 hk | h_7 hk =>
    obtain rfl := hop hk
    obtain rfl := Except.ok.inj h
    exact ⟨rfl, _, rfl, by simp⟩
  all_goals
    next hk =>
    obtain rfl := hop hk
    split at h
    · obtain rfl := Except.ok.inj h
      exact ⟨rfl, _, rfl, by simp [fields4]⟩
    · exact nomatch h

/-- Settles O2: a request by bytes begins with the operation's own, by the formats; a codeword and a carrier are put together
again from their fields. -/
theorem decodedRequestReencodes : Obligations.DecodedRequestReencodes := by
  unfold Obligations.DecodedRequestReencodes
  intro r i h
  cases r with
  | bytes bs =>
    cases bs with
    | nil => exact nomatch h
    | cons op f =>
      obtain ⟨hi, e, he, tail, htail⟩ := begins_of_decodeFields h
      exact ⟨hi, e, tail, he, htail.symm⟩
  | codeword c =>
    obtain rfl := Except.ok.inj h
    unfold decodeCodeword
    split
    · next hd => exact ⟨rfl, congrArg Request.codeword (datCodeword_payload hd)⟩
    · next hd => exact ⟨rfl, congrArg Request.codeword (cmdCodeword_payload (Bool.not_eq_true _ ▸ hd))⟩
  | carrier c =>
    obtain rfl := Except.ok.inj h
    have hc := carrierOf_codewordOf c
    unfold decodeCarrier
    split
    · next hd =>
      rw [← datCodeword_payload (c := codewordOf c) hd] at hc
      exact ⟨rfl, congrArg Request.carrier hc⟩
    · next hd =>
      rw [← cmdCodeword_payload (c := codewordOf c) (Bool.not_eq_true _ ▸ hd)] at hc
      exact ⟨rfl, congrArg Request.carrier hc⟩

/-! ### Requests without an operation -/

/-- Bytes past a request's format are not read (log 16). -/
theorem decodeFields_append {op : Byte} {f : List Byte} {i : Instr} (h : decodeFields op f = .ok i) (tail : List Byte) :
    decodeFields op (f ++ tail) = .ok i := by
  unfold decodeFields at h ⊢
  split at h
  case h_18 =>
    split at h
    · next rest =>
      dsimp only at h
      split at h
      · exact nomatch h
      · next hlen =>
        have hle := Nat.not_lt.1 hlen
        rw [← h]
        simp only [List.cons_append]
        rw [if_neg (by rw [List.length_append]; omega), List.take_append_of_le_length hle]
    · exact nomatch h
  case h_22 => exact nomatch h
  case h_2 | h_7 => exact h
  all_goals
    split at h
    · exact h
    · exact nomatch h

/-- An illegal request: the one effect is the answer (R247). -/
theorem step_of_decode_error {r : Request} {e : DecodeError} (h : decode r = .error e) (rest : List Request) (s : State) :
    step { s with requests := r :: rest } = .next (respond .eArg { s with requests := rest }) := by
  show (match decode r with
    | .ok i => exec i { s with requests := rest }
    | .error _ => reject .eArg { s with requests := rest }) = _
  rw [h]
  rfl

/-- The decoder knows the 21 opcodes of R104 only. -/
theorem decodeFields_reserved {op : Byte} (f : List Byte)
    (h : op.toNat ∉ [0x01, 0x02, 0x10, 0x11, 0x12, 0x20, 0x21, 0x22, 0x30, 0x31, 0x32, 0x33, 0x34, 0x35, 0x36, 0x40, 0x41,
      0x42, 0x43, 0x50, 0x51]) : decodeFields op f = .error (.unknownOpcode op) := by
  unfold decodeFields
  split
  case h_22 => rfl
  all_goals
    next hk => exact absurd (by rw [hk]; decide) h

/-- Settles O4: the decoder rejects the opcode whatever follows it. -/
theorem reservedOpcodesAreIllegal : Obligations.ReservedOpcodesAreIllegal := by
  unfold Obligations.ReservedOpcodesAreIllegal
  intro op f rest s h
  exact step_of_decode_error (r := .bytes (op :: f)) (decodeFields_reserved f h) rest s

/-- Had a cut request an operation, the whole request would have the same one, and so the same length. -/
theorem decodeBytes_cut {i : Instr} {e : List Byte} {n : Nat} (hi : i.encodable = true) (he : encode i = .bytes e)
    (hn : n < e.length) : ∃ err, decodeBytes (e.take n) = .error err := by
  cases hd : decodeBytes (e.take n) with
  | error err => exact ⟨err, rfl⟩
  | ok i' =>
    exfalso
    have hwhole : decodeBytes e = .ok i := by
      have h := decodeEncodeRoundTrip i hi
      rwa [he] at h
    cases hcut : e.take n with
    | nil => rw [hcut] at hd; exact nomatch hd
    | cons op f =>
      rw [hcut] at hd
      have hsplit : e = op :: (f ++ e.drop n) := by rw [← List.cons_append, ← hcut, List.take_append_drop]
      rw [hsplit] at hwhole
      obtain rfl : i' = i := Except.ok.inj ((decodeFields_append hd (e.drop n)).symm.trans hwhole)
      obtain ⟨-, e', he', hprefix⟩ := begins_of_decodeFields hd
      obtain rfl := Request.bytes.inj (he'.symm.trans he)
      have hle := hprefix.length_le
      rw [← hcut, List.length_take] at hle
      omega

/-- Settles O5: a cut request has no operation, since the bytes past a request are not read. -/
theorem shortRequestsAreIllegal : Obligations.ShortRequestsAreIllegal := by
  unfold Obligations.ShortRequestsAreIllegal
  intro i e n rest s hi he hn
  obtain ⟨err, herr⟩ := decodeBytes_cut hi he hn
  exact step_of_decode_error (r := .bytes (e.take n)) herr rest s

/-- Settles O3: the requests of the tables, decoded. -/
theorem requestWordsDecode : Obligations.RequestWordsDecode := by
  unfold Obligations.RequestWordsDecode
  exact ⟨rfl, rfl, rfl, rfl, rfl, rfl, rfl, rfl, rfl⟩

end Sys2Proof.Proofs.Encoding
end

section
/-! Codewords as numbers (spec/30_encoding.md R90 to R92), the frames written out (R98 to R101) and their lengths. -/

namespace Sys2Proof.Proofs.Frames

open Sys2Proof Sys2Proof.Machine

/-! ### Codewords -/

theorem toNat_cmdCodeword (b : Byte) : (cmdCodeword b).toNat = b.toNat := by
  have happ : (cmdCodeword b).toNat = (0#1).toNat <<< 8 ||| b.toNat := BitVec.toNat_append (x := 0#1) (y := b)
  rw [happ]
  simp

theorem toNat_datCodeword (b : Byte) : (datCodeword b).toNat = 0x100 + b.toNat := by
  have happ : (datCodeword b).toNat = (1#1).toNat <<< 8 ||| b.toNat := BitVec.toNat_append (x := 1#1) (y := b)
  rw [happ, ← Nat.shiftLeft_add_eq_or_of_lt b.isLt]
  rfl

theorem cmdCodeword_eq_ofNat (b : Byte) : cmdCodeword b = BitVec.ofNat 9 b.toNat := by
  rw [← toNat_cmdCodeword b, BitVec.ofNat_toNat, BitVec.setWidth_eq]

theorem datCodeword_eq_ofNat (b : Byte) : datCodeword b = BitVec.ofNat 9 (0x100 + b.toNat) := by
  rw [← toNat_datCodeword b, BitVec.ofNat_toNat, BitVec.setWidth_eq]

theorem datCodeword_hiByte (w : Word16) : datCodeword (hiByte w) = BitVec.ofNat 9 (0x100 + w.toNat / 256) := by
  rw [datCodeword_eq_ofNat, hiByte_toNat]

theorem datCodeword_loByte (w : Word16) : datCodeword (loByte w) = BitVec.ofNat 9 (0x100 + w.toNat % 256) := by
  rw [datCodeword_eq_ofNat, loByte_toNat]

/-! ### The window frame -/

/-- The range-command frame as numbers (R99). -/
theorem frameRange_eq_ofNat (code : Byte) (b e : Word16) :
    frameRange code b e =
      [BitVec.ofNat 9 code.toNat, BitVec.ofNat 9 (0x100 + b.toNat / 256), BitVec.ofNat 9 (0x100 + b.toNat % 256),
        BitVec.ofNat 9 (0x100 + e.toNat / 256), BitVec.ofNat 9 (0x100 + e.toNat % 256)] := by
  rw [← cmdCodeword_eq_ofNat, ← datCodeword_hiByte, ← datCodeword_loByte, ← datCodeword_hiByte, ← datCodeword_loByte]
  rfl

theorem frameWindow_landscape {d : DeviceState} (h : d.orient = .landscape) (x0 y0 x1 y1 : Word16) :
    frameWindow d x0 y0 x1 y1 = frameRange d.rowcmd y0 y1 ++ frameRange d.colcmd x0 x1 := by
  rw [frameWindow, h]

theorem frameWindow_portrait {d : DeviceState} (h : d.orient = .portrait) (x0 y0 x1 y1 : Word16) :
    frameWindow d x0 y0 x1 y1 = frameRange d.colcmd y0 y1 ++ frameRange d.rowcmd x0 x1 := by
  rw [frameWindow, h]

/-- Settles O16: the two range frames of each orientation, as numbers. -/
theorem windowFrameByOrientation : Obligations.WindowFrameByOrientation := by
  unfold Obligations.WindowFrameByOrientation
  intro d x0 y0 x1 y1
  constructor
  · intro h
    rw [frameWindow_landscape h, frameRange_eq_ofNat, frameRange_eq_ofNat]
    rfl
  · intro h
    rw [frameWindow_portrait h, frameRange_eq_ofNat, frameRange_eq_ofNat]
    rfl

/-! ### Lengths -/

theorem codewordsOf_length_replicate (d : DeviceState) (n : Nat) (c : Word16) :
    (codewordsOf d (List.replicate n (.pixel c))).length = 2 * n := by
  simp [codewordsOf, drawCodewords, frameData16, Nat.mul_comm]

theorem codewordsOf_length_pixels (d : DeviceState) (bits : List Bool) (c : Bool → Word16) :
    (codewordsOf d (bits.map fun b => .pixel (c b))).length = 2 * bits.length := by
  induction bits with
  | nil => rfl
  | cons b bits ih =>
    rw [List.map_cons, codewordsOf_cons, List.length_append, ih, List.length_cons]
    simp only [drawCodewords, frameData16, List.length_cons, List.length_nil]
    omega

theorem drawCodewords_plot_length (d : DeviceState) (x y : Int) (c : Word16) :
    (drawCodewords d (.plot x y c)).length = 13 := by
  simp [drawCodewords, frameWindow_length, frameData16]

theorem codewordsOf_drawOpen_length (d : DeviceState) (x0 y0 x1 y1 : Int) :
    (codewordsOf d (drawOpen x0 y0 x1 y1)).length = 11 := by
  simp [drawOpen, codewordsOf, drawCodewords, frameWindow_length]

theorem codewordsOf_drawRestore_length (d : DeviceState) : (codewordsOf d (drawRestore d)).length = 11 :=
  codewordsOf_drawOpen_length d _ _ _ _

theorem codewordsOf_drawPoints_length (d : DeviceState) (c : Word16) (ps : List (Int × Int)) :
    (codewordsOf d (drawPoints c ps)).length = 13 * ps.length := by
  induction ps with
  | nil => rfl
  | cons p ps ih =>
    rw [drawPoints, List.map_cons, codewordsOf_cons, List.length_append, drawCodewords_plot_length, ← drawPoints, ih,
      List.length_cons]
    omega

/-- A point-mode glyph plots its set bits only. -/
theorem codewordsOf_setBits_length (d : DeviceState) (f : Nat → Draw) (hf : ∀ n, (drawCodewords d (f n)).length = 13)
    (bits : List Bool) (n : Nat) :
    (codewordsOf d ((bits.zipIdx n).filterMap fun p => if p.1 then some (f p.2) else none)).length =
      13 * bits.countP fun b => b := by
  induction bits generalizing n with
  | nil => rfl
  | cons b bits ih =>
    rw [List.zipIdx_cons, List.filterMap_cons]
    cases b with
    | false => simpa using ih (n + 1)
    | true =>
      simp only [if_true, codewordsOf_cons, List.length_append, hf, ih, List.countP_cons]
      omega

theorem linePoints_length (x1 y1 x2 y2 : Int) :
    (linePoints x1 y1 x2 y2).length = max (x2 - x1).natAbs (y2 - y1).natAbs + 1 := by
  simp [linePoints]

/-- Settles O27: each frame is its windows of ten codewords, its arms of one and its pixels of two. -/
theorem compositeFrameLengths : Obligations.CompositeFrameLengths := by
  unfold Obligations.CompositeFrameLengths
  intro d x y c fc bc x0 y0 x1 y1
  refine ⟨codewordsOf_drawOpen_length d _ _ _ _, ?_, ?_, fun w h bits hl => ?_, fun w bits => ?_, fun x' y' => ?_⟩
  · rw [codewordsOf_singleton, drawCodewords_plot_length]
  · rw [drawFill, codewordsOf_append, codewordsOf_append, List.length_append, List.length_append,
      codewordsOf_drawOpen_length, codewordsOf_length_replicate, codewordsOf_drawRestore_length, fillCount]
    omega
  · rw [drawBlock, codewordsOf_append, codewordsOf_append, List.length_append, List.length_append,
      codewordsOf_drawOpen_length, codewordsOf_length_pixels, codewordsOf_drawRestore_length, hl]
    omega
  · exact codewordsOf_setBits_length d (fun n => .plot (x + (n % w : Nat)) (y + (n / w : Nat)) fc)
      (fun _ => drawCodewords_plot_length d _ _ _) bits 0
  · rw [codewordsOf_drawPoints_length, linePoints_length]

end Sys2Proof.Proofs.Frames
end

section
/-! Operand domains (spec/30_encoding.md R102, R108; spec/60_exceptions.md R247, R249): when each operand form has a
value, and E_ARG where one has none. -/

namespace Sys2Proof.Proofs.OperandDomains

open Sys2Proof Sys2Proof.Machine Sys2Proof.Safety Sys2Proof.Proofs.OpenFailure

/-! ### The operand forms -/

theorem byte_eq_ofNat_iff {b : Byte} {k : Nat} (hk : k < 256) : b = BitVec.ofNat 8 k ↔ b.toNat = k := by
  rw [← BitVec.toNat_inj, BitVec.toNat_ofNat, Nat.mod_eq_of_lt hk]

theorem bitOperand_eq_some_iff {b : Byte} {f : Bool} : bitOperand b = some f ↔ b.toNat = f.toNat := by
  simp only [bitOperand, byte_eq_ofNat_iff (show 0 < 256 by decide), byte_eq_ofNat_iff (show 1 < 256 by decide)]
  cases f <;> split_ifs <;> simp <;> omega

theorem orientOperand_eq_some_iff {b : Byte} {o : Orient} : orientOperand b = some o ↔ b.toNat = orientBit o := by
  simp only [orientOperand, byte_eq_ofNat_iff (show 0 < 256 by decide), byte_eq_ofNat_iff (show 1 < 256 by decide)]
  cases o <;> simp only [orientBit] <;> split_ifs <;> simp <;> omega

theorem asciiSize_eq_some_iff {b : Byte} {sz : AsciiSize} : asciiSize b = some sz ↔ b.toNat = asciiPx sz := by
  simp only [asciiSize, byte_eq_ofNat_iff (show 12 < 256 by decide), byte_eq_ofNat_iff (show 16 < 256 by decide)]
  cases sz <;> simp only [asciiPx] <;> split_ifs <;> simp <;> omega

theorem wideSize_eq_some_iff {b : Byte} {sz : WideSize} : wideSize b = some sz ↔ b.toNat = widePx sz := by
  simp only [wideSize, byte_eq_ofNat_iff (show 16 < 256 by decide), byte_eq_ofNat_iff (show 24 < 256 by decide),
    byte_eq_ofNat_iff (show 32 < 256 by decide)]
  cases sz <;> simp only [widePx] <;> split_ifs <;> simp <;> omega

theorem textSize_eq_some_iff {b : Byte} {n : Nat} : textSize b = some n ↔ b.toNat = n ∧ textSizeOk b = true := by
  simp only [textSize, textSizeOk, byte_eq_ofNat_iff (show 12 < 256 by decide), byte_eq_ofNat_iff (show 16 < 256 by decide),
    byte_eq_ofNat_iff (show 24 < 256 by decide), byte_eq_ofNat_iff (show 32 < 256 by decide), Bool.or_eq_true,
    beq_iff_eq]
  split_ifs <;> simp <;> omega

/-- A legal 1-bit operand, as the streams read it. -/
theorem bitOperand_of_ok {b : Byte} (h : bitOk b = true) : bitOperand b = some (decide (b = 1#8)) := by
  have hle : b.toNat ≤ 1 := by simpa [bitOk] using h
  rw [bitOperand_eq_some_iff]
  by_cases h1 : b = 1#8
  · subst h1; rfl
  · have : b.toNat ≠ 1 := fun hb => h1 ((byte_eq_ofNat_iff (by decide)).2 hb)
    simp only [h1, decide_false, Bool.toNat_false]
    omega

theorem bitOperand_of_not_ok {b : Byte} (h : bitOk b = false) : bitOperand b = none := by
  have hlt : 1 < b.toNat := by simpa [bitOk] using h
  refine Option.eq_none_iff_forall_ne_some.2 fun f hf => ?_
  have := Bool.toNat_le f
  rw [bitOperand_eq_some_iff] at hf
  omega

theorem orientOperand_of_not_ok {b : Byte} (h : bitOk b = false) : orientOperand b = none := by
  have hlt : 1 < b.toNat := by simpa [bitOk] using h
  refine Option.eq_none_iff_forall_ne_some.2 fun o ho => ?_
  rw [orientOperand_eq_some_iff] at ho
  cases o <;> simp only [orientBit] at ho <;> omega

theorem asciiSize_of_ok {b : Byte} (h : asciiSizeOk b = true) : ∃ sz, asciiSize b = some sz := by
  simp only [asciiSizeOk, Bool.or_eq_true, beq_iff_eq] at h
  rcases h with h | h
  · exact ⟨.s12, asciiSize_eq_some_iff.2 h⟩
  · exact ⟨.s16, asciiSize_eq_some_iff.2 h⟩

theorem asciiSize_of_not_ok {b : Byte} (h : asciiSizeOk b = false) : asciiSize b = none := by
  refine Option.eq_none_iff_forall_ne_some.2 fun sz hs => ?_
  rw [asciiSize_eq_some_iff] at hs
  cases sz <;> simp [asciiSizeOk, hs, asciiPx] at h

theorem wideSize_of_ok {b : Byte} (h : wideSizeOk b = true) : ∃ sz, wideSize b = some sz := by
  simp only [wideSizeOk, Bool.or_eq_true, beq_iff_eq] at h
  rcases h with (h | h) | h
  · exact ⟨.s16, wideSize_eq_some_iff.2 h⟩
  · exact ⟨.s24, wideSize_eq_some_iff.2 h⟩
  · exact ⟨.s32, wideSize_eq_some_iff.2 h⟩

theorem wideSize_of_not_ok {b : Byte} (h : wideSizeOk b = false) : wideSize b = none := by
  refine Option.eq_none_iff_forall_ne_some.2 fun sz hs => ?_
  rw [wideSize_eq_some_iff] at hs
  cases sz <;> simp [wideSizeOk, hs, widePx] at h

theorem textSize_of_ok {b : Byte} (h : textSizeOk b = true) : textSize b = some b.toNat :=
  textSize_eq_some_iff.2 ⟨rfl, h⟩

theorem textSize_of_not_ok {b : Byte} (h : textSizeOk b = false) : textSize b = none := by
  refine Option.eq_none_iff_forall_ne_some.2 fun n hn => ?_
  obtain ⟨-, hok⟩ := textSize_eq_some_iff.1 hn
  exact absurd (hok.symm.trans h) (by decide)

/-! ### E_ARG -/

/-- The domain checks behind the READY gate, one lemma per operation that has any. -/
theorem execFill_illegal {x0 y0 x1 y1 c : Word16} {s : State} (hr : s.ready = true) (h : cornersOk x0 y0 x1 y1 = false) :
    execFill x0 y0 x1 y1 c s = .next (respond .eArg s) := by
  have ho : ordered x0 y0 x1 y1 = false := h
  rw [execFill, gated_ready hr, ho]
  rfl

theorem execFrect_illegal {x1 y1 x2 y2 : Word16} {s : State} (hr : s.ready = true) (h : cornersOk x1 y1 x2 y2 = false) :
    execFrect x1 y1 x2 y2 s = .next (respond .eArg s) := by
  have ho : ordered x1 y1 x2 y2 = false := h
  rw [execFrect, gated_ready hr, ho]
  rfl

theorem execClear_illegal {c : Word16} {s : State} (hr : s.ready = true) (h : s.dev.width = 0#16 ∨ s.dev.height = 0#16) :
    execClear c s = .next (respond .eArg s) := by
  rw [execClear, gated_ready hr, if_pos h]
  rfl

theorem execCircle_illegal {xc yc r : Word16} {filled : Byte} {s : State} (hr : s.ready = true) (h : bitOk filled = false) :
    execCircle xc yc r filled s = .next (respond .eArg s) := by
  rw [execCircle, gated_ready hr, bitOperand_of_not_ok h]
  rfl

theorem execChar_illegal {x y fc bc : Word16} {ch size mode : Byte} {s : State} (hr : s.ready = true)
    (h : (charOk ch && asciiSizeOk size && bitOk mode) = false) :
    execChar x y fc bc ch size mode s = .next (respond .eArg s) := by
  rw [execChar, gated_ready hr]
  rcases Bool.and_eq_false_iff.1 h with h | h
  · rcases Bool.and_eq_false_iff.1 h with h | h
    · have hch : isAscii ch = false := h
      rw [hch]
      rfl
    · rw [asciiSize_of_not_ok h]
      cases isAscii ch <;> rfl
  · rw [bitOperand_of_not_ok h]
    cases isAscii ch <;> cases asciiSize size <;> rfl

theorem execGlyph_illegal {x y fc bc code : Word16} {size mode : Byte} {s : State} (hr : s.ready = true)
    (h : (wideSizeOk size && bitOk mode) = false) :
    execGlyph x y fc bc code size mode s = .next (respond .eArg s) := by
  rw [execGlyph, gated_ready hr]
  rcases Bool.and_eq_false_iff.1 h with h | h
  · rw [wideSize_of_not_ok h]
    rfl
  · rw [bitOperand_of_not_ok h]
    cases wideSize size <;> rfl

theorem execString_illegal {x y fc bc : Word16} {size mode : Byte} {bytes : List Byte} {s : State} (hr : s.ready = true)
    (h : (textSizeOk size && bitOk mode && decide (bytes.length ≤ 65535)) = false) :
    execString x y fc bc size mode bytes s = .next (respond .eArg s) := by
  rw [execString, gated_ready hr]
  rcases Bool.and_eq_false_iff.1 h with h | h
  · rcases Bool.and_eq_false_iff.1 h with h | h
    · rw [textSize_of_not_ok h]
      rfl
    · rw [bitOperand_of_not_ok h]
      cases textSize size <;> rfl
  · rw [h]
    cases textSize size <;> cases bitOperand mode <;> rfl

theorem execNumber_illegal {x y fc bc : Word16} {num : BitVec 32} {len size mode : Byte} {s : State} (hr : s.ready = true)
    (h : (decide (1 ≤ len.toNat) && decide (len.toNat ≤ 10) && textSizeOk size && bitOk mode) = false) :
    execNumber x y fc bc num len size mode s = .next (respond .eArg s) := by
  rw [execNumber, gated_ready hr, Bool.decide_and]
  rcases Bool.and_eq_false_iff.1 h with h | h
  · rcases Bool.and_eq_false_iff.1 h with h | h
    · rw [h]
      cases textSize size <;> cases bitOperand mode <;> rfl
    · rw [textSize_of_not_ok h]
      rfl
  · rw [bitOperand_of_not_ok h]
    cases textSize size <;> rfl

/-- Settles O10: each operation that has a domain turns its operands away; the others are always legal. -/
theorem illegalOperandsReturnEArg : Obligations.IllegalOperandsReturnEArg := by
  unfold Obligations.IllegalOperandsReturnEArg
  intro i s hgate h
  have hr (hi : ungated i = false) : s.ready = true := hgate.resolve_left (by rw [hi]; exact Bool.false_ne_true)
  cases i with
  | fill x0 y0 x1 y1 c => exact execFill_illegal (hr rfl) h
  | clear c =>
    exact execClear_illegal (hr rfl) (or_iff_not_imp_left.2 (by simpa [legal, Bool.and_eq_false_iff] using h))
  | frect x1 y1 x2 y2 => exact execFrect_illegal (hr rfl) h
  | circle xc yc r filled => exact execCircle_illegal (hr rfl) h
  | char x y fc bc ch size mode => exact execChar_illegal (hr rfl) h
  | glyph x y fc bc code size mode => exact execGlyph_illegal (hr rfl) h
  | string x y fc bc size mode bytes => exact execString_illegal (hr rfl) h
  | number x y fc bc num len size mode => exact execNumber_illegal (hr rfl) h
  | init b => exact exec_init_of_none (orientOperand_of_not_ok h) s
  | _ => exact Bool.noConfusion h

end Sys2Proof.Proofs.OperandDomains
end

section
/-! What holds by the definitions alone: the step (spec/10_state.md R24; log 1), the expansions of spec/30_encoding.md
section 8, the status codes (spec/60_exceptions.md R241), and the invariants after reset. -/

namespace Sys2Proof.Proofs.ByDefinition

open Sys2Proof Sys2Proof.Machine Sys2Proof.Config Sys2Proof.Safety Sys2Proof.Proofs.OperandDomains
open Sys2Proof.Proofs.PackBits (Holds)

/-! ### The step -/

theorem step_of_decode {r : Request} {i : Instr} (h : decode r = .ok i) (rest : List Request) (s : State) :
    step { s with requests := r :: rest } = exec i { s with requests := rest } := by
  show (match decode r with
    | .ok i => exec i { s with requests := rest }
    | .error _ => reject .eArg { s with requests := rest }) = _
  rw [h]

/-- Settles O6. -/
theorem stepRunsDecodedRequest : Obligations.StepRunsDecodedRequest := by
  unfold Obligations.StepRunsDecodedRequest
  intro s r rest i h
  exact step_of_decode h rest s

theorem step_idle {s : State} (h : s.requests = []) : step s = .next s := by
  unfold step nextRequest
  rw [h]
  rfl

theorem decode_of_tableWord {nbits w : Nat} {i : Instr} (h : decodeTableWord nbits w = some i) :
    decode (requestOfTableWord nbits w) = .ok i := by
  unfold decodeTableWord at h
  split at h
  · next j hj => rw [hj, Option.some.inj h]
  · exact nomatch h

/-- Settles O7: the idle step, and the step on a request placed before the others. -/
theorem idleStepAndTableWord : Obligations.IdleStepAndTableWord := by
  unfold Obligations.IdleStepAndTableWord
  exact ⟨fun _ => step_idle, fun s _ _ _ h => step_of_decode (decode_of_tableWord h) s.requests s⟩

/-- A step is idle, or takes the oldest request, which it runs or turns away (R24, R247). -/
theorem step_cases {s t : State} (h : step s = .next t) :
    (s.requests = [] ∧ t = s) ∨
    (s.requests ≠ [] ∧ ((∃ i, exec i (takeRequest s) = .next t) ∨ t = respond .eArg (takeRequest s))) := by
  unfold step nextRequest at h
  cases hq : s.requests with
  | nil =>
    rw [hq] at h
    exact .inl ⟨rfl, (Host.Outcome.next.inj h).symm⟩
  | cons r rest =>
    rw [hq] at h
    dsimp only [List.head?_cons] at h
    refine .inr ⟨List.cons_ne_nil _ _, ?_⟩
    split at h
    · next i _ => exact .inl ⟨i, h⟩
    · exact .inr (Host.Outcome.next.inj h).symm

/-- A predicate that does not look at the requests and the answers, kept by every operation, is kept by every step. -/
theorem step_keeps {P : State → Prop} (htake : ∀ s, P s → P (takeRequest s)) (hrespond : ∀ st s, P s → P (respond st s))
    (hexec : ∀ i s t, P s → exec i s = .next t → P t) {s t : State} (hs : P s) (h : step s = .next t) : P t := by
  obtain ⟨-, rfl⟩ | ⟨-, ⟨i, hi⟩ | rfl⟩ := step_cases h
  · exact hs
  · exact hexec i _ _ (htake s hs) hi
  · exact hrespond _ _ (htake s hs)

/-! ### Expansions -/

theorem ordered_screen {w h : Word16} : ordered 0#16 0#16 (w - 1#16) (h - 1#16) = true := by
  simp [ordered]

theorem execFrect_eq_execFill (x0 y0 x1 y1 : Word16) (s : State) :
    exec (.frect x0 y0 x1 y1) s = exec (.fill x0 y0 x1 y1 s.fg) s := by
  show execFrect x0 y0 x1 y1 s = execFill x0 y0 x1 y1 s.fg s
  unfold execFrect execFill gated
  rfl

/-- CLEAR is the fill of the whole screen (R173). -/
theorem execClear_eq_execFill {s : State} (hw : s.dev.width ≠ 0#16) (hh : s.dev.height ≠ 0#16) (c : Word16) :
    exec (.clear c) s = exec (.fill 0#16 0#16 (s.dev.width - 1#16) (s.dev.height - 1#16) c) s := by
  show execClear c s = execFill _ _ _ _ c s
  unfold execClear execFill gated
  dsimp only
  rw [if_neg (not_or.2 ⟨hw, hh⟩), if_pos ordered_screen]

theorem numberCells_length (num len n k : Nat) (seen : Bool) : (numberCells num len n k seen).length = n := by
  induction n generalizing k seen with
  | zero => rfl
  | succ n ih => rw [numberCells, List.length_cons, ih]

theorem numberString_length (num len : Nat) : (numberString num len).length = len :=
  numberCells_length num len len 0 false

/-- NUMBER is STRING with the string of its digits, its length in its domain (R211). -/
theorem execNumber_eq_execString (x y fc bc : Word16) (num : BitVec 32) {len : Byte} (size mode : Byte) (s : State)
    (h1 : 1 ≤ len.toNat) (h10 : len.toNat ≤ 10) :
    exec (.number x y fc bc num len size mode) s =
      exec (.string x y fc bc size mode (numberString num.toNat len.toNat)) s := by
  have hnum : decide (1 ≤ len.toNat ∧ len.toNat ≤ 10) = true := decide_eq_true ⟨h1, h10⟩
  have hstr : decide ((numberString num.toNat len.toNat).length ≤ 65535) = true := by
    rw [numberString_length]
    exact decide_eq_true (by omega)
  show execNumber _ _ _ _ _ _ _ _ _ = execString _ _ _ _ _ _ _ _
  unfold execNumber execString
  rw [hnum, hstr]

/-- Settles O28. -/
theorem pseudoOperationsExpand : Obligations.PseudoOperationsExpand := by
  unfold Obligations.PseudoOperationsExpand
  exact fun x0 y0 x1 y1 c s _ => ⟨execFrect_eq_execFill x0 y0 x1 y1 s, fun hw hh => execClear_eq_execFill hw hh c,
    fun fc bc num len size mode h1 h10 => execNumber_eq_execString x0 y0 fc bc num size mode s h1 h10⟩

/-! ### Statuses and reset -/

/-- Settles O54: the four numbers fit a byte in two's complement. -/
theorem statusCodes : Obligations.StatusCodes := by
  unfold Obligations.StatusCodes
  refine ⟨rfl, rfl, rfl, rfl, fun st => ?_⟩
  cases st <;> rfl

/-- The invariants (a) to (e) of R35 say that the Pack Buffer holds the pending codewords, fewer than a batch. -/
theorem packInv_iff {s : State} :
    PackInv s ↔ s.pack.cnt < batch ∧ s.pack.cnt ≤ s.cwTrace.length ∧ Holds s.pack (pendingCodewords s) := by
  have hlen (h : s.pack.cnt ≤ s.cwTrace.length) : (pendingCodewords s).length = s.pack.cnt := by
    rw [pendingCodewords, List.length_drop]
    omega
  constructor
  · rintro ⟨hout, hn, hlt, hz, hle, hbits⟩
    have hl := hlen hle
    exact ⟨hlt, hle, ⟨hl.symm, by rw [hl]; exact hout, by rw [hl]; exact hn, hz, hbits⟩⟩
  · rintro ⟨hlt, hle, ⟨-, hout, hn, hz, hbits⟩⟩
    have hl := hlen hle
    rw [hl] at hout hn
    exact ⟨hout, hn, hlt, hz, hle, hbits⟩

/-- An empty Pack Buffer meets R35. -/
theorem packInv_of_empty {s : State} (hcnt : s.pack.cnt = 0) (houtcnt : s.pack.outcnt = 0) (hnbits : s.pack.nbits = 0)
    (hacc : s.pack.acc = 0#32) : PackInv s := by
  have hpending : pendingCodewords s = [] := by
    rw [pendingCodewords, hcnt, Nat.sub_zero, List.drop_length]
  refine packInv_iff.2 ⟨by rw [hcnt]; decide, by rw [hcnt]; exact Nat.zero_le _, ?_⟩
  rw [hpending]
  exact Holds.empty hcnt houtcnt hnbits hacc

/-- Settles O46: the Pack Buffer is empty after reset. -/
theorem packInvariantAtReset : Obligations.PackInvariantAtReset := by
  unfold Obligations.PackInvariantAtReset
  obtain ⟨hacc, hnbits, hcnt, houtcnt⟩ := Reset.resetWith_packBuffer_empty board thisHardware
  exact packInv_of_empty hcnt houtcnt hnbits hacc

/-- Settles O50: nothing was transferred, written or marked, and the buffer is 1152 zero bytes. -/
theorem portInvariantAtReset : Obligations.PortInvariantAtReset := by
  unfold Obligations.PortInvariantAtReset
  exact ⟨List.length_replicate, fun e he => absurd he List.not_mem_nil, rfl, rfl, fun i hi => absurd hi List.not_mem_nil⟩

theorem fitsInt_zero : FitsInt 0 := ⟨by decide, by decide⟩

/-- Settles O53: each register is 0 (log 8). -/
theorem engineRegistersInRangeAtReset : Obligations.EngineRegistersInRangeAtReset := by
  unfold Obligations.EngineRegistersInRangeAtReset
  have h := fitsInt_zero
  exact ⟨⟨h, h, h, h, h, h, h, h, h, h⟩, ⟨h, h, h, h⟩, h, h, h, h, h, h, h, h⟩

end Sys2Proof.Proofs.ByDefinition
end

section
/-! The layout of a batch, bit by bit (spec/30_encoding.md R93, R97). -/

namespace Sys2Proof.Proofs.BatchLayout

open Sys2Proof Sys2Proof.Machine Sys2Proof.Proofs.PackBits

/-- Values of `n` bits laid end to end: bit `k` of value `i`, counted from the top, is stream bit `n i + k`. -/
theorem flatMap_bitsOf_getElem? {n : Nat} {l : List (BitVec n)} {i k : Nat} {v : BitVec n} (hv : l[i]? = some v)
    (hk : k < n) :
    (l.flatMap bitsOf)[n * i + k]? = some (v.getMsbD k) := by
  induction l generalizing i with
  | nil => simp at hv
  | cons a l ih =>
    rw [List.flatMap_cons]
    cases i with
    | zero =>
      obtain rfl : a = v := by simpa using hv
      have hlen : k < (bitsOf a).length := by rwa [bitsOf_length]
      rw [Nat.mul_zero, Nat.zero_add, List.getElem?_append_left hlen, List.getElem?_eq_getElem hlen, bitsOf_getElem]
    | succ i =>
      have hskip : n * (i + 1) + k = (bitsOf a).length + (n * i + k) := by rw [bitsOf_length, Nat.mul_add]; omega
      rw [hskip, List.getElem?_append_right (Nat.le_add_right _ _), Nat.add_sub_cancel_left]
      exact ih (by simpa using hv)

/-- Settles O44: stream bit `9i + k` of the codewords is stream bit `16j + m` of the words. -/
theorem batchLayoutInClosedForm : Obligations.BatchLayoutInClosedForm := by
  unfold Obligations.BatchLayoutInClosedForm
  intro p ws hlen hcnt houtcnt hnbits hacc
  obtain ⟨words, hbatch, hwords, hbits⟩ := batchesOf_full (Holds.empty hcnt houtcnt hnbits hacc) hlen
  refine ⟨words, hbatch, hwords, fun i k cw hcw hk => ?_⟩
  have hi : i < 1024 := by
    rw [← hlen]
    exact (List.getElem?_eq_some_iff.1 hcw).1
  have hj : (9 * i + k) / 16 < words.length := by
    rw [hwords, show Config.outWords = 576 from rfl]
    omega
  have hm : (9 * i + k) % 16 < 16 := Nat.mod_lt _ (by decide)
  refine ⟨words[(9 * i + k) / 16], List.getElem?_eq_getElem hj, ?_⟩
  have hstream := flatMap_bitsOf_getElem? hcw hk
  rw [← hbits, ← Nat.div_add_mod (9 * i + k) 16, flatMap_bitsOf_getElem? (List.getElem?_eq_getElem hj) hm] at hstream
  have hbit := Option.some.inj hstream
  rwa [BitVec.getMsbD_eq_getLsbD, BitVec.getMsbD_eq_getLsbD, decide_eq_true hm, decide_eq_true hk, Bool.true_and,
    Bool.true_and] at hbit

end Sys2Proof.Proofs.BatchLayout
end

section
/-! The READY gate (spec/45_system.md R233; spec/60_exceptions.md R242). -/

namespace Sys2Proof.Proofs.ReadyGate

open Sys2Proof Sys2Proof.Machine Sys2Proof.Proofs.OpenFailure Sys2Proof.Proofs.AddressState

/-- The run of INIT sets READY last, so a normal end has set it. -/
theorem initRun_ok_ready {o : Orient} {s u : State} (h : initRun o s = .ok u) : u.ready = true := by
  obtain ⟨v, -, hv⟩ := andThen_eq_ok h
  rw [← Res.ok.inj hv]

/-- INIT once begun, by its three ends. -/
theorem initState_cases (o : Orient) (s : State) :
    (∃ u, initState o s = respond .ok u ∧ u.ready = true) ∨ (∃ u, initState o s = respond .eOpen u ∧ u.ready = false) ∨
      ∃ u, initState o s = takeAbort u ∧ u.ready = false := by
  by_cases hopen : nextOpen s < 0
  · exact .inr (.inl ⟨_, initState_notOpened hopen o, rfl⟩)
  · rw [initState_opened hopen]
    obtain ⟨u, hu, -⟩ | ⟨u, hu, hready⟩ := initRun_cases o (s := countOpen { s with ready := false }) rfl
    · exact .inl ⟨u, by rw [hu]; rfl, initRun_ok_ready hu⟩
    · exact .inr (.inr ⟨u, by rw [hu]; rfl, hready⟩)

/-- The last status answered is the operation's own. -/
theorem last_status {u : State} {l : List Status} {a b : Status} (h : (respond a u).respTrace = l ++ [b]) : a = b :=
  List.singleton_inj.1 (List.append_inj' h rfl).2

theorem init_ready {b : Byte} {s t : State} (h : exec (.init b) s = .next t) (l : List Status) :
    (t.respTrace = l ++ [.ok] → t.ready = true) ∧ (t.respTrace = l ++ [.eOpen] → t.ready = false) ∧
      (t.respTrace = l ++ [.eXfer] → t.ready = false) := by
  cases ho : orientOperand b with
  | none =>
    obtain rfl := Host.Outcome.next.inj ((exec_init_of_none ho s).symm.trans h)
    exact ⟨fun hl => absurd (last_status hl) (by decide), fun hl => absurd (last_status hl) (by decide),
      fun hl => absurd (last_status hl) (by decide)⟩
  | some o =>
    obtain rfl := Host.Outcome.next.inj ((exec_init_of_some ho s).symm.trans h)
    obtain ⟨u, hu, hr⟩ | ⟨u, hu, hr⟩ | ⟨u, hu, hr⟩ := initState_cases o s
    · rw [hu]
      exact ⟨fun _ => hr, fun hl => absurd (last_status hl) (by decide), fun hl => absurd (last_status hl) (by decide)⟩
    · rw [hu]
      exact ⟨fun hl => absurd (last_status hl) (by decide), fun _ => hr, fun hl => absurd (last_status hl) (by decide)⟩
    · rw [hu]
      exact ⟨fun hl => absurd (last_status hl) (by decide), fun _ => hr, fun _ => hr⟩

/-- Through the gate, or turned away at it (R233). -/
theorem gated_cases {s t : State} {op : State → Host.Outcome State Fault Refusal} (h : gated s op = .next t) :
    (s.ready = true ∧ op s = .next t) ∨ (s.ready = false ∧ t = respond .eOpen s) := by
  cases hr : s.ready with
  | true => exact .inl ⟨rfl, (gated_ready hr op).symm.trans h⟩
  | false => exact .inr ⟨rfl, (Host.Outcome.next.inj ((gated_notReady hr op).symm.trans h)).symm⟩

/-- TEARDOWN clears READY however its batch ends (R125), and behind the shut gate READY is 0 already. -/
theorem teardown_notReady {s t : State} (h : exec .teardown s = .next t) : t.ready = false := by
  change execTeardown s = .next t at h
  unfold execTeardown at h
  obtain ⟨-, h⟩ | ⟨hr, rfl⟩ := gated_cases h
  · cases hp : teardownPack s with
    | ok u => rw [hp] at h; exact (Host.Outcome.next.inj h) ▸ rfl
    | abort u => rw [hp] at h; exact (Host.Outcome.next.inj h) ▸ rfl
    | overfull u => rw [hp] at h; exact nomatch h
  · exact hr

/-- Settles O9. -/
theorem readyGate : Obligations.ReadyGate := by
  unfold Obligations.ReadyGate
  exact ⟨fun _ _ => exec_notReady, rfl, fun _ s _ h => init_ready h s.respTrace, fun _ _ => teardown_notReady⟩

end Sys2Proof.Proofs.ReadyGate
end

section
/-! What a failing transfer leaves (spec/60_exceptions.md R244, R250): the batch that failed is the last one handed over, the
Pack Buffer is empty, and neither the marks (log 29) nor the sink before it have left a trace (log 19). -/

namespace Sys2Proof.Proofs.FailedBatch

open Sys2Proof Sys2Proof.Machine Sys2Proof.Config

/-! ### Marks and sink replaced -/

/-- The state with other marks and another sink: what the block does not read (spec/20_memory.md R62; log 29). -/
def marked (s : State) (y : List Nat) (k : Sink) : State := { s with strays := y, sink := k }

theorem noteData_eq_marked (s : State) : noteData s = marked s (noteData s).strays s.sink := by
  unfold noteData
  split <;> rfl

theorem noteArm_eq_marked (s : State) : noteArm s = marked s (noteArm s).strays s.sink := by
  unfold noteArm
  split <;> rfl

theorem noteRaw_eq_marked (cw : Codeword) (s : State) : noteRaw cw s = marked s (noteRaw cw s).strays s.sink := by
  unfold noteRaw
  split
  · exact noteData_eq_marked s
  · rfl

theorem wordsOk_marked (s : State) (y : List Nat) (k : Sink) (ws : List Codeword) :
    WordsOk (marked s y k) ws ↔ WordsOk s ws :=
  Iff.rfl

theorem firstFailure_marked (s : State) (y : List Nat) (k : Sink) (ws : List Codeword) (j : Nat) :
    FirstFailure (marked s y k) ws j ↔ FirstFailure s ws j :=
  Iff.rfl

theorem sentFrom_marked (s : State) (y : List Nat) (k : Sink) (bs : List (List Word16)) :
    sentFrom (marked s y k) bs =
      marked (sentFrom s bs) (sentFrom (marked s y k) bs).strays (sentFrom (marked s y k) bs).sink := by
  induction bs generalizing s y k with
  | nil => rfl
  | cons b bs ih =>
    exact ih (transferred b (xferStatus s.board s.xferCalls) s) []
      (sinkAfter (marked s y k) b (xferStatus s.board s.xferCalls))

/-- The marks and the sink decide nothing but the marks and the sink. -/
theorem sendAll_marked (s : State) (y : List Nat) (k : Sink) (ws : List Codeword) :
    sendAll (marked s y k) ws =
      marked (sendAll s ws) (sendAll (marked s y k) ws).strays (sendAll (marked s y k) ws).sink := by
  have h := sentFrom_marked s y k (batchesOf s.pack ws)
  unfold sendAll
  dsimp only
  rw [show (marked s y k).pack = s.pack from rfl, h]
  rfl

/-! ### The batch that failed -/

/-- The codewords up to the first failure fill its batch to the end. -/
theorem cutWords_batches {s : State} {ws : List Codeword} {j : Nat} (hc : s.pack.cnt < batch) (h : FirstFailure s ws j) :
    (s.pack.cnt + (cutWords s ws j).length) % batch = 0 ∧ (batchesOf s.pack (cutWords s ws j)).length = j + 1 := by
  obtain ⟨hlen, -⟩ := cutWords_length hc h
  rw [batchesOf_length _ _ hc, hlen]
  simp only [show batch = 1024 from rfl] at *
  omega

theorem cutWords_last_batch {s : State} {ws : List Codeword} {j : Nat} (hc : s.pack.cnt < batch) (h : FirstFailure s ws j) :
    ∃ bs b, batchesOf s.pack (cutWords s ws j) = bs ++ [b] ∧ bs.length = j := by
  obtain ⟨-, hlen⟩ := cutWords_batches hc h
  obtain hnil | ⟨bs, b, hb⟩ := List.eq_nil_or_concat' (batchesOf s.pack (cutWords s ws j))
  · rw [hnil] at hlen
    exact absurd hlen (by simp)
  · rw [hb, List.length_append] at hlen
    exact ⟨bs, b, hb, by simpa using hlen⟩

/-- The transfers of the codewords up to the first failure: the last one is the one that failed. -/
theorem sentFrom_cutWords {s : State} {ws : List Codeword} {j : Nat} (hc : s.pack.cnt < batch) (h : FirstFailure s ws j) :
    ∃ bs b st, batchesOf s.pack (cutWords s ws j) = bs ++ [b] ∧ st < 0 ∧
      ∀ y k, sentFrom (marked s y k) (bs ++ [b]) =
        { transferred b st (sentFrom s bs) with
          strays := [], sink := { toSinkContext := strayContext (s.xferCalls + j) 1024, gram := [], misread := true } } := by
  obtain ⟨bs, b, hb, hj⟩ := cutWords_last_batch hc h
  have hst : xferStatus (sentFrom s bs).board (sentFrom s bs).xferCalls < 0 := by
    rw [sentFrom_board, sentFrom_xferCalls, hj]
    exact h.2.1
  refine ⟨bs, b, xferStatus (sentFrom s bs).board (sentFrom s bs).xferCalls, hb, hst, fun y k => ?_⟩
  have hcalls : s.xferCalls + j = (sentFrom s bs).xferCalls := by rw [sentFrom_xferCalls, hj]
  rw [sentFrom_append, sentFrom_marked, hcalls]
  show transferred b (xferStatus (sentFrom s bs).board (sentFrom s bs).xferCalls) (marked (sentFrom s bs) _ _) = _
  unfold transferred
  rw [sinkAfter_failed _ _ hst]
  rfl

/-- Which batch failed does not depend on the marks and the sink, and neither does what it leaves. -/
theorem sendAll_cutWords_marked {s : State} {ws : List Codeword} {j : Nat} (hc : s.pack.cnt < batch)
    (h : FirstFailure s ws j) (y : List Nat) (k : Sink) :
    sendAll (marked s y k) (cutWords s ws j) = sendAll s (cutWords s ws j) := by
  obtain ⟨bs, b, st, hb, -, hsent⟩ := sentFrom_cutWords hc h
  have hself := hsent s.strays s.sink
  rw [show marked s s.strays s.sink = s from rfl] at hself
  unfold sendAll
  rw [show (marked s y k).pack = s.pack from rfl, hb, hsent y k, hself]
  rfl

theorem sendAll_cutWords_strays {s : State} {ws : List Codeword} {j : Nat} (hc : s.pack.cnt < batch)
    (h : FirstFailure s ws j) : (sendAll s (cutWords s ws j)).strays = [] := by
  obtain ⟨bs, b, st, hb, -, hsent⟩ := sentFrom_cutWords hc h
  have hself := hsent s.strays s.sink
  rw [show marked s s.strays s.sink = s from rfl] at hself
  rw [sendAll, hb, hself]

/-- No pixel keeps a value, and the next batch may be misread (R277; log 19). -/
theorem sendAll_cutWords_sink {s : State} {ws : List Codeword} {j : Nat} (hc : s.pack.cnt < batch)
    (h : FirstFailure s ws j) :
    (sendAll s (cutWords s ws j)).sink.gram = [] ∧ (sendAll s (cutWords s ws j)).sink.misread = true := by
  obtain ⟨bs, b, st, hb, -, hsent⟩ := sentFrom_cutWords hc h
  have hself := hsent s.strays s.sink
  rw [show marked s s.strays s.sink = s from rfl] at hself
  rw [sendAll, hb, hself]
  exact ⟨rfl, rfl⟩

theorem sendAll_cutWords_xferTrace {s : State} {ws : List Codeword} {j : Nat} (hc : s.pack.cnt < batch)
    (h : FirstFailure s ws j) :
    ∃ words st, (sendAll s (cutWords s ws j)).xferTrace.getLast? = some (words, st) ∧ st < 0 := by
  obtain ⟨bs, b, st, hb, hst, hsent⟩ := sentFrom_cutWords hc h
  have hself := hsent s.strays s.sink
  rw [show marked s s.strays s.sink = s from rfl] at hself
  refine ⟨b, st, ?_, hst⟩
  rw [sendAll, hb, hself]
  exact List.getLast?_concat

/-- A Pack Buffer that some codewords have left with CNT 0 has just been emptied by a flush. -/
theorem packAll_eq_emptyPack {p : PackBuffer} {ws : List Codeword} (hne : ws ≠ []) (h0 : (packAll p ws).cnt = 0) :
    ∃ q, packAll p ws = emptyPack q := by
  obtain rfl | ⟨ws, cw, rfl⟩ := List.eq_nil_or_concat' ws
  · exact absurd rfl hne
  · rw [packAll_append, packAll_cons, packAll_nil] at h0 ⊢
    unfold packNext at h0 ⊢
    dsimp only at h0 ⊢
    split at h0
    · next hfull => exact ⟨_, if_pos hfull⟩
    · rw [packCodeword_cnt] at h0
      omega

theorem packAll_cutWords {s : State} {ws : List Codeword} {j : Nat} (hc : s.pack.cnt < batch) (h : FirstFailure s ws j) :
    ∃ q, packAll s.pack (cutWords s ws j) = emptyPack q := by
  obtain ⟨hcnt, -⟩ := cutWords_batches hc h
  obtain ⟨-, hpos⟩ := cutWords_length hc h
  exact packAll_eq_emptyPack (List.ne_nil_of_length_pos hpos) ((packAll_cnt _ _ hc).trans hcnt)

/-- Either every transfer of the codewords succeeds or one is the first to fail. -/
theorem wordsOk_or_firstFailure (s : State) (ws : List Codeword) : WordsOk s ws ∨ ∃ j, FirstFailure s ws j := by
  by_cases hw : WordsOk s ws
  · exact .inl hw
  · right
    have hex : ∃ k, k < (batchesOf s.pack ws).length ∧ xferStatus s.board (s.xferCalls + k) < 0 := by
      by_contra hn
      exact hw fun j hj => not_lt.1 fun hlt => hn ⟨j, hj, hlt⟩
    classical
    obtain ⟨hlen, hfail⟩ := Nat.find_spec hex
    exact ⟨Nat.find hex, hlen, hfail, fun m hm => not_lt.1 fun hn => Nat.find_min hex hm ⟨hm.trans hlen, hn⟩⟩

/-- With one batch at most to be filled, its failure is that of the codewords up to its end. -/
theorem firstFailure_zero_of_not_wordsOk {s : State} {ws : List Codeword} (hlen : (batchesOf s.pack ws).length ≤ 1)
    (h : ¬WordsOk s ws) : FirstFailure s ws 0 := by
  obtain hw | ⟨j, hj⟩ := wordsOk_or_firstFailure s ws
  · exact absurd hw h
  · obtain rfl : j = 0 := by have := hj.1; omega
    exact hj

/-- Up to the end of the first batch, nothing is cut off. -/
theorem cutWords_zero_eq {s : State} {ws : List Codeword} (h : s.pack.cnt + ws.length ≤ batch) : cutWords s ws 0 = ws :=
  List.take_of_length_le (by omega)

end Sys2Proof.Proofs.FailedBatch
end

section
/-! The codewords the host pushes itself (spec/40_codec.md R122, spec/41_framer.md R144, spec/30_encoding.md R91,
R92): what each of these operations leaves when its transfers succeed and when one fails. -/

namespace Sys2Proof.Proofs.RawOperations

open Sys2Proof Sys2Proof.Machine Sys2Proof.Config Sys2Proof.Safety Sys2Proof.Proofs.FailedBatch Sys2Proof.Proofs.Frames
open Sys2Proof.Proofs.AddressState (isData_codewordOf)
open Sys2Proof.Proofs.PackBits (Holds)
open Sys2Proof.Proofs.ByDefinition (packInv_iff)

/-! ### One codeword -/

/-- One codeword ends at most one batch, so a transfer that fails is the first. -/
theorem firstFailure_singleton {s : State} {cw : Codeword} (hc : s.pack.cnt < batch) (h : ¬WordsOk s [cw]) :
    FirstFailure s [cw] 0 := by
  refine firstFailure_zero_of_not_wordsOk ?_ h
  rw [batchesOf_length _ _ hc, List.length_singleton]
  simp only [show batch = 1024 from rfl] at *
  omega

theorem cutWords_singleton {s : State} {cw : Codeword} (hc : s.pack.cnt < batch) : cutWords s [cw] 0 = [cw] :=
  cutWords_zero_eq (by rw [List.length_singleton]; omega)

theorem rawPush_ok {c : Carrier} {s : State} (hr : s.ready = true) (hc : s.pack.cnt < batch)
    (hw : WordsOk s [codewordOf c]) :
    rawPush c s = .next (respond .ok
      { sendAll (noteRaw (codewordOf c) s) [codewordOf c] with asm := asmAfterRaw (codewordOf c) s.asm }) := by
  have hmark := noteRaw_eq_marked (codewordOf c) s
  have hpush : push c (noteRaw (codewordOf c) s) = .ok (sendAll (noteRaw (codewordOf c) s) [codewordOf c]) := by
    refine push_ok (by rwa [noteRaw_pack]) ?_
    rw [hmark]
    exact (wordsOk_marked _ _ _ _).2 hw
  rw [rawPush, gated_ready hr, hpush, andThen_ok, finish_ok, sendAll_asm, noteRaw_asm]

theorem rawPush_fails {c : Carrier} {s : State} (hr : s.ready = true) (hc : s.pack.cnt < batch)
    (hw : ¬WordsOk s [codewordOf c]) :
    rawPush c s = .next (respond .eXfer { sendAll s [codewordOf c] with asm := .idle }) := by
  have hf := firstFailure_singleton hc hw
  have hmark := noteRaw_eq_marked (codewordOf c) s
  generalize (noteRaw (codewordOf c) s).strays = y at hmark
  have hpush : push c (noteRaw (codewordOf c) s) = .abort (sendAll s [codewordOf c]) := by
    rw [hmark, push_fails (s := marked s y s.sink) hc ((firstFailure_marked _ _ _ _ _).2 hf)]
    show Res.abort (sendAll (marked s _ _) (cutWords s _ 0)) = _
    rw [sendAll_cutWords_marked hc hf, cutWords_singleton hc]
  rw [rawPush, gated_ready hr, hpush, andThen_abort, finish_abort]
  rfl

/-- Settles O11. -/
theorem pushOperation : Obligations.PushOperation := by
  unfold Obligations.PushOperation
  intro c s
  have hasm : asmAfterRaw (codewordOf c) s.asm = if c.getLsbD 15 then s.asm else .idle := by
    rw [asmAfterRaw, isData_codewordOf]
  refine ⟨rfl, fun hr => OpenFailure.exec_notReady rfl hr, fun hr hc hw => ?_, fun hr hc hw => rawPush_fails hr hc hw⟩
  rw [← hasm]
  exact rawPush_ok hr hc hw

theorem rawPush_command {c : Carrier} {p : Byte} (hcw : codewordOf c = cmdCodeword p) {s : State} (hr : s.ready = true)
    (hc : s.pack.cnt < batch) (hw : WordsOk s [cmdCodeword p]) :
    rawPush c s = .next (respond .ok { sendAll s [cmdCodeword p] with asm := .idle }) := by
  rw [rawPush_ok hr hc (by rwa [hcw]), hcw]
  simp only [noteRaw, asmAfterRaw, isData_cmdCodeword, Bool.false_eq_true, if_false]

theorem rawPush_data {c : Carrier} {p : Byte} (hcw : codewordOf c = datCodeword p) {s : State} (hr : s.ready = true)
    (hc : s.pack.cnt < batch) (hw : WordsOk s [datCodeword p]) :
    rawPush c s = .next (respond .ok (sendAll (noteData s) [datCodeword p])) := by
  have hasm : (sendAll (noteData s) [datCodeword p]).asm = s.asm := by rw [sendAll_asm, noteData_asm]
  rw [rawPush_ok hr hc (by rwa [hcw]), hcw]
  simp only [noteRaw, asmAfterRaw, isData_datCodeword, if_true]
  rw [← hasm]

/-- Settles O12: the four kinds are the push of their codeword, a command or data. -/
theorem codewordKindsComplete : Obligations.CodewordKindsComplete := by
  unfold Obligations.CodewordKindsComplete
  intro p x s hr hc
  rw [← cmdCodeword_eq_ofNat, ← datCodeword_eq_ofNat]
  exact ⟨fun hw =>
      ⟨rawPush_command (codewordOf_carrierOf _ _) hr hc hw, rawPush_command (codewordOf_carrierOf _ _) hr hc hw⟩,
    fun hw => ⟨rawPush_data (codewordOf_carrierOf _ _) hr hc hw, rawPush_data (codewordOf_carrierOf _ _) hr hc hw⟩⟩

/-! ### The Framer -/

theorem hostData8_ok {b : Byte} {s : State} (hc : s.pack.cnt < batch) (hw : WordsOk s [datCodeword b]) :
    hostData8 b s = .ok (sendAll (noteData s) [datCodeword b]) := by
  refine (isPushes_hostData8 b hc).ok ?_
  rw [noteData_eq_marked]
  exact (wordsOk_marked _ _ _ _).2 hw

theorem hostData8_fails {b : Byte} {s : State} {j : Nat} (hc : s.pack.cnt < batch) (h : FirstFailure s [datCodeword b] j) :
    hostData8 b s = .abort (sendAll s (cutWords s [datCodeword b] j)) := by
  have hmark := noteData_eq_marked s
  have hcut := (isPushes_hostData8 b hc).cut j (by rw [hmark]; exact (firstFailure_marked _ _ _ _ _).2 h)
  refine hcut.trans (congrArg Res.abort ?_)
  rw [hmark]
  exact sendAll_cutWords_marked hc h _ _

theorem execWrreg_ok {b : Byte} {s : State} (hr : s.ready = true) (hc : s.pack.cnt < batch)
    (hw : WordsOk s [cmdCodeword b]) :
    exec (.wrreg b) s = .next (respond .ok { sendAll s [cmdCodeword b] with asm := .idle }) := by
  show execWrreg b s = _
  rw [execWrreg, gated_ready hr, (isPushes_framerReg b hc).ok hw, andThen_ok, finish_ok]

theorem execWrdat8_ok {b : Byte} {s : State} (hr : s.ready = true) (hc : s.pack.cnt < batch)
    (hw : WordsOk s [datCodeword b]) :
    exec (.wrdat8 b) s = .next (respond .ok (sendAll (noteData s) [datCodeword b])) := by
  show execWrdat8 b s = _
  rw [execWrdat8, gated_ready hr, hostData8_ok hc hw, finish_ok]

/-- The state after the two bytes of WRDAT16, each marked where the RAM is not streaming. -/
def twoBytesSent (w : Word16) (s : State) : State :=
  sendAll (noteData (sendAll (noteData s) [datCodeword (hiByte w)])) [datCodeword (loByte w)]

theorem sendAll_noteData (s : State) (ws : List Codeword) :
    ∃ y k, sendAll (noteData s) ws = marked (sendAll s ws) y k := by
  rw [noteData_eq_marked]
  exact ⟨_, _, sendAll_marked _ _ _ _⟩

theorem wordsOk_second {w : Word16} {s : State} (h : WordsOk s (frameData16 w)) :
    WordsOk s [datCodeword (hiByte w)] ∧
      WordsOk (sendAll (noteData s) [datCodeword (hiByte w)]) [datCodeword (loByte w)] := by
  obtain ⟨h1, h2⟩ := (wordsOk_append s [datCodeword (hiByte w)] [datCodeword (loByte w)]).1 h
  obtain ⟨y, k, e⟩ := sendAll_noteData s [datCodeword (hiByte w)]
  refine ⟨h1, ?_⟩
  rw [e]
  exact (wordsOk_marked _ _ _ _).2 h2

theorem noteData_cnt_lt {s : State} (ws : List Codeword) (hc : s.pack.cnt < batch) :
    (sendAll (noteData s) ws).pack.cnt < batch :=
  sendAll_cnt_lt ws (by rwa [noteData_pack])

theorem execWrdat16_ok {w : Word16} {s : State} (hr : s.ready = true) (hc : s.pack.cnt < batch)
    (hw : WordsOk s (frameData16 w)) : exec (.wrdat16 w) s = .next (respond .ok (twoBytesSent w s)) := by
  obtain ⟨h1, h2⟩ := wordsOk_second hw
  show execWrdat16 w s = _
  rw [execWrdat16, gated_ready hr, hostData8_ok hc h1, andThen_ok, hostData8_ok (noteData_cnt_lt _ hc) h2, finish_ok]
  rfl

/-- Whichever byte fills the failing batch, it is the last one pushed (R145). -/
theorem execWrdat16_fails {w : Word16} {s : State} {j : Nat} (hr : s.ready = true) (hc : s.pack.cnt < batch)
    (h : FirstFailure s (frameData16 w) j) :
    exec (.wrdat16 w) s =
      .next (respond .eXfer { sendAll s (cutWords s (frameData16 w) j) with asm := .idle }) := by
  have hsplit : frameData16 w = [datCodeword (hiByte w)] ++ [datCodeword (loByte w)] := rfl
  show execWrdat16 w s = _
  rw [execWrdat16, gated_ready hr]
  rw [hsplit] at h ⊢
  rcases firstFailure_append h with h1 | ⟨h1, hle, h2⟩
  · rw [hostData8_fails hc h1, andThen_abort, finish_abort, cutWords_append_left _ hc h1.1]
    rfl
  · obtain ⟨y, k, e⟩ := sendAll_noteData s [datCodeword (hiByte w)]
    have hc2 : (marked (sendAll s [datCodeword (hiByte w)]) y k).pack.cnt < batch := sendAll_cnt_lt _ hc
    rw [hostData8_ok hc h1, andThen_ok, e, hostData8_fails hc2 ((firstFailure_marked _ _ _ _ _).2 h2), finish_abort,
      cutWords_append_right _ hc hle, ← sendAll_append]
    show Host.Outcome.next (takeAbort (sendAll (marked _ y k) (cutWords (sendAll s _) _ _))) = _
    rw [sendAll_cutWords_marked (sendAll_cnt_lt _ hc) h2]
    rfl

/-- Settles O13. -/
theorem framerOperationsComplete : Obligations.FramerOperationsComplete := by
  unfold Obligations.FramerOperationsComplete
  intro b w s hr hc
  rw [← cmdCodeword_eq_ofNat, ← datCodeword_eq_ofNat, ← datCodeword_hiByte, ← datCodeword_loByte]
  exact ⟨execWrreg_ok hr hc, execWrdat8_ok hr hc, execWrdat16_ok hr hc⟩

/-! ### The flush between the two bytes -/

theorem holds_emptyPack (p : PackBuffer) : Holds (emptyPack p) [] := Holds.empty rfl rfl rfl rfl

/-- One codeword into an empty Pack Buffer. -/
theorem pendingBits_packNext_empty (p : PackBuffer) (cw : Codeword) :
    (packNext (emptyPack p) cw).cnt = 1 ∧ pendingBits (packNext (emptyPack p) cw) = bitsOf cw := by
  have h := PackBits.packAll_holds (holds_emptyPack p) [cw]
    (show 1 < batch by decide)
  rw [packAll_cons, packAll_nil] at h
  exact ⟨h.cnt, by rw [h.bits, List.flatMap_singleton]⟩

theorem packNext_last {p : PackBuffer} (hp : p.cnt = 1023) (cw : Codeword) :
    packNext p cw = emptyPack (packCodeword cw p) :=
  if_pos (by rw [packCodeword_cnt, hp])

theorem batchesOf_last {p : PackBuffer} (hp : p.cnt = 1023) (cw : Codeword) :
    batchesOf p [cw] = [(packCodeword cw p).out.toList] := by
  rw [batchesOf_cons, if_pos (by rw [packCodeword_cnt, hp]), batchesOf_nil]
  rfl

theorem batchesOf_last_two {p : PackBuffer} (hp : p.cnt = 1023) (a b : Codeword) :
    (batchesOf p [a, b]).length = 1 := by
  rw [batchesOf_length _ _ (by rw [hp]; decide), hp]
  show (1023 + 2) / batch = 1
  rfl

theorem sendAll_noteData_fields (s : State) (ws : List Codeword) :
    (sendAll (noteData s) ws).pack = packAll s.pack ws ∧ (sendAll (noteData s) ws).cwTrace = s.cwTrace ++ ws ∧
      (sendAll (noteData s) ws).xferCalls = s.xferCalls + (batchesOf s.pack ws).length ∧
      (sendAll (noteData s) ws).respTrace = s.respTrace := by
  obtain ⟨y, k, e⟩ := sendAll_noteData s ws
  rw [e]
  exact ⟨rfl, rfl, sendAll_xferCalls s ws, sendAll_respTrace s ws⟩

theorem twoBytesSent_fields (w : Word16) (s : State) :
    (twoBytesSent w s).pack = packAll s.pack (frameData16 w) ∧
      (twoBytesSent w s).cwTrace = s.cwTrace ++ frameData16 w ∧
      (twoBytesSent w s).xferCalls = s.xferCalls + (batchesOf s.pack (frameData16 w)).length ∧
      (twoBytesSent w s).respTrace = s.respTrace := by
  obtain ⟨hp1, hc1, hx1, hr1⟩ := sendAll_noteData_fields s [datCodeword (hiByte w)]
  obtain ⟨hp2, hc2, hx2, hr2⟩ := sendAll_noteData_fields (sendAll (noteData s) [datCodeword (hiByte w)])
    [datCodeword (loByte w)]
  have hsplit : frameData16 w = [datCodeword (hiByte w)] ++ [datCodeword (loByte w)] := rfl
  refine ⟨?_, ?_, ?_, ?_⟩
  · rw [twoBytesSent, hp2, hp1, hsplit, packAll_append]
  · rw [twoBytesSent, hc2, hc1, hsplit, List.append_assoc]
  · rw [twoBytesSent, hx2, hx1, hp1, hsplit, batchesOf_append, List.length_append, Nat.add_assoc]
  · rw [twoBytesSent, hr2, hr1]

/-- With 1023 codewords pending the two bytes make one transfer, after the first. -/
theorem wordsOk_two_iff {s : State} (hp : s.pack.cnt = 1023) (a b : Codeword) :
    WordsOk s [a, b] ↔ 0 ≤ xferStatus s.board s.xferCalls := by
  unfold WordsOk
  rw [batchesOf_last_two hp]
  constructor
  · exact fun h => h 0 (by decide)
  · intro h j hj
    obtain rfl : j = 0 := by omega
    exact h

/-- Settles O14: the first byte fills the batch, the second goes into an empty Pack Buffer or nowhere. -/
theorem flushBetweenTheTwoBytes : Obligations.FlushBetweenTheTwoBytes := by
  unfold Obligations.FlushBetweenTheTwoBytes
  intro w s t hr hinv hcnt hexec
  have hc : s.pack.cnt < batch := by rw [hcnt]; decide
  have hbatches : (batchesOf s.pack (frameData16 w)).length = 1 := batchesOf_last_two hcnt _ _
  have hok := wordsOk_two_iff hcnt (datCodeword (hiByte w)) (datCodeword (loByte w))
  by_cases hw : WordsOk s (frameData16 w)
  · obtain rfl := Host.Outcome.next.inj ((execWrdat16_ok hr hc hw).symm.trans hexec)
    obtain ⟨hpack, hcw, hx, hresp⟩ := twoBytesSent_fields w s
    have hlast : packAll s.pack (frameData16 w) =
        packNext (emptyPack (packCodeword (datCodeword (hiByte w)) s.pack)) (datCodeword (loByte w)) := by
      rw [← packNext_last hcnt]
      rfl
    obtain ⟨hone, hpending⟩ := pendingBits_packNext_empty (packCodeword (datCodeword (hiByte w)) s.pack)
      (datCodeword (loByte w))
    refine ⟨by rw [respond_xferCalls, hx, hbatches], fun _ => ⟨by rw [respond_respTrace, hresp], ?_, ?_, ?_⟩,
      fun hlt => absurd (hok.1 hw) (not_le.2 hlt)⟩
    · rw [respond_pack, hpack, hlast, hone]
    · rw [respond_cwTrace, hcw]
      rfl
    · rw [respond_pack, hpack, hlast, hpending]
  · have hf := firstFailure_zero_of_not_wordsOk (le_of_eq hbatches) hw
    have hcut : cutWords s (frameData16 w) 0 = [datCodeword (hiByte w)] := by
      rw [cutWords, hcnt]
      rfl
    obtain rfl := Host.Outcome.next.inj ((execWrdat16_fails hr hc hf).symm.trans hexec)
    rw [hcut]
    have hpack : packAll s.pack [datCodeword (hiByte w)] = emptyPack (packCodeword (datCodeword (hiByte w)) s.pack) :=
      packNext_last hcnt _
    refine ⟨?_, fun hle => absurd (hok.2 hle) hw, fun _ => ⟨?_, ?_, rfl, rfl, ?_⟩⟩
    · show (sendAll s _).xferCalls = _
      rw [sendAll_xferCalls, batchesOf_last hcnt]
      rfl
    · show (sendAll s _).respTrace ++ _ = _
      rw [sendAll_respTrace]
    · show (packAll s.pack _).cnt = 0
      rw [hpack]
      rfl
    · show pendingBits (packAll s.pack _) = []
      rw [hpack, (holds_emptyPack _).bits]
      rfl

/-! ### TEARDOWN -/

/-- The copies of the padding codeword that fill the batch (R125). -/
def padding (s : State) : List Codeword := List.replicate (batch - s.pack.cnt) (codewordOf s.policy.padCarrier)

theorem padBatch_done {s : State} (h : s.pack.cnt = 0) (n : Nat) : padBatch n s = .ok s := by
  cases n with
  | zero => rfl
  | succ n => rw [padBatch, if_pos h]

/-- The padding loop fills the batch, which is sent as one ordinary batch (R125); 1024 pushes are always enough (log 27). -/
theorem padBatch_eq (n : Nat) {s : State} (h0 : s.pack.cnt ≠ 0) (hc : s.pack.cnt < batch) (hn : batch - s.pack.cnt ≤ n) :
    padBatch n s =
      if xferStatus s.board s.xferCalls < 0 then .abort (sendAll s (padding s)) else .ok (sendAll s (padding s)) := by
  induction n generalizing s with
  | zero => omega
  | succ n ih =>
    rw [padBatch, if_neg h0, push_eq, if_neg (by omega)]
    by_cases hlast : s.pack.cnt + 1 = batch
    · have hpad : padding s = [codewordOf s.policy.padCarrier] := by
        rw [padding, show batch - s.pack.cnt = 1 by omega]
        rfl
      rw [hpad]
      by_cases hst : xferStatus s.board s.xferCalls < 0
      · rw [if_pos ⟨hlast, hst⟩, if_pos hst, andThen_abort]
      · have hempty : (sendAll s [codewordOf s.policy.padCarrier]).pack.cnt = 0 := by
          rw [sendAll_pack, packAll_cnt _ _ hc, List.length_singleton, hlast]
          rfl
        rw [if_neg (fun h => hst h.2), if_neg hst, andThen_ok, padBatch_done hempty]
    · have hpad : padding s = codewordOf s.policy.padCarrier ::
          List.replicate (batch - (s.pack.cnt + 1)) (codewordOf s.policy.padCarrier) := by
        rw [padding, ← List.replicate_succ, show batch - (s.pack.cnt + 1) + 1 = batch - s.pack.cnt by omega]
      have hcnt : (sendAll s [codewordOf s.policy.padCarrier]).pack.cnt = s.pack.cnt + 1 := by
        rw [sendAll_pack, packAll_cnt _ _ hc, List.length_singleton, Nat.mod_eq_of_lt (by omega)]
      have hnone : batchesOf s.pack [codewordOf s.policy.padCarrier] = [] :=
        PackBits.batchesOf_eq_nil (by rw [List.length_singleton]; omega)
      have hrest : padding (sendAll s [codewordOf s.policy.padCarrier]) =
          List.replicate (batch - (s.pack.cnt + 1)) (codewordOf s.policy.padCarrier) := by
        rw [padding, hcnt, sendAll_policy]
      rw [if_neg (fun h => hlast h.1), andThen_ok, ih (by omega) (by omega) (by omega), hrest, sendAll_append,
        List.singleton_append, ← hpad, sendAll_board, sendAll_xferCalls, hnone, List.length_nil, Nat.add_zero]

theorem wordsOk_padding {s : State} (hc : s.pack.cnt < batch) :
    WordsOk s (padding s) ↔ 0 ≤ xferStatus s.board s.xferCalls := by
  have hlen : (batchesOf s.pack (padding s)).length = 1 := by
    rw [batchesOf_length _ _ hc, padding, List.length_replicate, Nat.add_sub_cancel' hc.le]
    rfl
  unfold WordsOk
  rw [hlen]
  constructor
  · exact fun h => h 0 (by decide)
  · intro h j hj
    obtain rfl : j = 0 := by omega
    exact h

theorem padding_fills {s : State} (hc : s.pack.cnt < batch) : (sendAll s (padding s)).pack.cnt = 0 := by
  rw [sendAll_pack, packAll_cnt _ _ hc, padding, List.length_replicate, Nat.add_sub_cancel' hc.le, Nat.mod_self]

/-- What TEARDOWN pushes under `pad`: nothing where nothing is pending. -/
def teardownPads (s : State) : List Codeword :=
  List.replicate (if s.pack.cnt = 0 then 0 else batch - s.pack.cnt) (codewordOf s.policy.padCarrier)

theorem padBatch_ok {s : State} (hc : s.pack.cnt < batch) (hw : WordsOk s (teardownPads s)) :
    padBatch batch s = .ok (sendAll s (teardownPads s)) ∧ (sendAll s (teardownPads s)).pack.cnt = 0 := by
  unfold teardownPads at *
  by_cases h0 : s.pack.cnt = 0
  · rw [if_pos h0, List.replicate_zero, sendAll_nil]
    exact ⟨padBatch_done h0 _, h0⟩
  · rw [if_neg h0] at hw ⊢
    have hst := (wordsOk_padding hc).1 hw
    exact ⟨by rw [padBatch_eq batch h0 hc (Nat.sub_le _ _), if_neg (not_lt.2 hst)]; rfl, padding_fills hc⟩

theorem padBatch_fails {s : State} (hc : s.pack.cnt < batch) (hw : ¬WordsOk s (teardownPads s)) :
    padBatch batch s = .abort (sendAll s (teardownPads s)) := by
  unfold teardownPads at *
  by_cases h0 : s.pack.cnt = 0
  · rw [if_pos h0, List.replicate_zero] at hw
    exact absurd (fun j hj => absurd hj (by simp)) hw
  · rw [if_neg h0] at hw ⊢
    have hst := not_le.1 (fun h => hw ((wordsOk_padding hc).2 h))
    rw [padBatch_eq batch h0 hc (Nat.sub_le _ _), if_pos hst]
    rfl

theorem execTeardown_ready {s : State} (hr : s.ready = true) :
    exec .teardown s = finish ((teardownPack s).onExit fun s => { s with asm := .idle, ready := false }) := by
  show execTeardown s = _
  rw [execTeardown, gated_ready hr]

theorem execTeardown_drop {s : State} (hr : s.ready = true) (hp : s.policy.teardown = .drop) :
    exec .teardown s = .next (respond .ok { dropPack s with asm := .idle, ready := false }) := by
  rw [execTeardown_ready hr, teardownPack, hp]
  rfl

theorem execTeardown_pad_ok {s : State} (hr : s.ready = true) (hp : s.policy.teardown = .pad) (hc : s.pack.cnt < batch)
    (hw : WordsOk s (teardownPads s)) :
    exec .teardown s = .next (respond .ok { sendAll s (teardownPads s) with asm := .idle, ready := false }) := by
  rw [execTeardown_ready hr, teardownPack, hp]
  dsimp only
  rw [(padBatch_ok hc hw).1]
  rfl

theorem execTeardown_pad_fails {s : State} (hr : s.ready = true) (hp : s.policy.teardown = .pad) (hc : s.pack.cnt < batch)
    (hw : ¬WordsOk s (teardownPads s)) :
    exec .teardown s = .next (respond .eXfer { sendAll s (teardownPads s) with asm := .idle, ready := false }) := by
  rw [execTeardown_ready hr, teardownPack, hp]
  dsimp only
  rw [padBatch_fails hc hw]
  rfl

/-- Settles O15. -/
theorem teardownOperation : Obligations.TeardownOperation := by
  unfold Obligations.TeardownOperation
  intro s
  exact ⟨rfl, fun hr => OpenFailure.exec_notReady rfl hr, fun hr hp => execTeardown_drop hr hp,
    fun hr hp hc hw => ⟨execTeardown_pad_ok hr hp hc hw, (padBatch_ok hc hw).2⟩,
    fun hr hp hc hw => execTeardown_pad_fails hr hp hc hw,
    fun t i ht hi => OpenFailure.exec_notReady hi (ReadyGate.teardown_notReady ht)⟩

end Sys2Proof.Proofs.RawOperations
end

section
/-! Every operation behind the READY gate but TEARDOWN, its operands legal, is its stream of draws (spec/00_scope.md R11;
spec/60_exceptions.md R243, R244, R250): what it leaves when the transfers of the stream succeed, and when one fails. -/

namespace Sys2Proof.Proofs.OperationStream

open Sys2Proof Sys2Proof.Machine Sys2Proof.Config Sys2Proof.Safety Sys2Proof.Proofs.FailedBatch
open Sys2Proof.Proofs.RawOperations Sys2Proof.Proofs.OperandDomains

/-! ### The two ends -/

/-- FG is as before, and of the engines only the operation's own may differ (spec/10_state.md R21 to R23). -/
structure OwnEngine (i : Instr) (s : State) (k : Engines) : Prop where
  fg : k.1 = s.fg
  line : engineOf i ≠ .line → k.2.1 = s.line
  circle : engineOf i ≠ .circle → k.2.2.1 = s.circle
  text : engineOf i ≠ .text → k.2.2.2 = s.text

theorem ownEngine_self (i : Instr) (s : State) : OwnEngine i s (enginesOf s) :=
  ⟨rfl, fun _ => rfl, fun _ => rfl, fun _ => rfl⟩

theorem LineOnly.ownEngine {i : Instr} {s : State} {k : Engines} (hi : engineOf i = .line) (h : LineOnly s k) :
    OwnEngine i s k := by
  obtain ⟨l, rfl⟩ := h
  exact ⟨rfl, fun hne => absurd hi hne, fun _ => rfl, fun _ => rfl⟩

theorem CircleOnly.ownEngine {i : Instr} {s : State} {k : Engines} (hi : engineOf i = .circle) (h : CircleOnly s k) :
    OwnEngine i s k := by
  obtain ⟨c, rfl⟩ := h
  exact ⟨rfl, fun _ => rfl, fun hne => absurd hi hne, fun _ => rfl⟩

theorem TextOnly.ownEngine {i : Instr} {s : State} {k : Engines} (hi : engineOf i = .text) (h : TextOnly s k) :
    OwnEngine i s k := by
  obtain ⟨x, rfl⟩ := h
  exact ⟨rfl, fun _ => rfl, fun _ => rfl, fun hne => absurd hi hne⟩

/-- The state an operation leaves when it answers OK: its stream whole, its own engine, and the marks and the sink,
which differ from those of the stream where it breaks the window duty (log 29). -/
def doneState (s : State) (ds : List Draw) (k : Engines) (y : List Nat) (z : Sink) : State :=
  marked (withEngines (streamed s ds) k) y z

/-- The state an operation leaves when it answers E_XFER: its stream cut short, and its own engine. -/
def cutState (s : State) (ds : List Draw) (j : Nat) (k : Engines) : State := withEngines (cutShort s ds j) k

/-- The operation is its stream of draws, in both ends. -/
structure Runs (i : Instr) (s : State) : Prop where
  ok : WordsOk s (codewordsOf s.dev (drawsOf i s)) →
    ∃ k y z, OwnEngine i s k ∧
      (keepsWindowDuty i s = true → y = (streamed s (drawsOf i s)).strays ∧ z = (streamed s (drawsOf i s)).sink) ∧
      exec i s = .next (respond .ok (doneState s (drawsOf i s) k y z))
  cut : ∀ j, FirstFailure s (codewordsOf s.dev (drawsOf i s)) j →
    ∃ k, OwnEngine i s k ∧ exec i s = .next (respond .eXfer (cutState s (drawsOf i s) j k))

/-- A drawing operation. -/
theorem runs_of_isStreamTo {i : Instr} {s : State} {f : State → Res} {ds : List Draw} {e : Engines} {Q : Engines → Prop}
    (hx : exec i s = finish (f s)) (h : IsStreamTo f s ds e Q) (hds : drawsOf i s = ds) (he : OwnEngine i s e)
    (hq : ∀ k, Q k → OwnEngine i s k) : Runs i s := by
  subst hds
  constructor
  · intro hw
    refine ⟨e, _, _, he, fun _ => ⟨rfl, rfl⟩, ?_⟩
    rw [hx, h.ok hw, finish_ok]
    rfl
  · intro j hj
    obtain ⟨a, k, hk, hcut⟩ := h.cut j hj
    refine ⟨k, hq k hk, ?_⟩
    rw [hx, hcut, finish_abort]
    rfl

/-- A drawing operation without an engine. -/
theorem runs_of_isStream {i : Instr} {s : State} {f : State → Res} {ds : List Draw} (hx : exec i s = finish (f s))
    (h : IsStream f s ds) (hds : drawsOf i s = ds) : Runs i s :=
  runs_of_isStreamTo hx (h.to (Q := OwnEngine i s) (ownEngine_self i s)) hds (ownEngine_self i s) fun _ hk => hk

/-! ### Raw codewords -/

/-- Draws that write neither WIN nor PLOTTRACE. -/
def Plain (x : Draw) : Prop := drawPlot x = none ∧ ∀ w, drawWin w x = w

theorem plain_raw (cw : Codeword) : Plain (.raw cw) := ⟨rfl, fun _ => rfl⟩

theorem plain_arm : Plain .arm := ⟨rfl, fun _ => rfl⟩

section
variable {ds : List Draw} (hp : ∀ x ∈ ds, Plain x)
include hp

theorem filterMap_plain : ds.filterMap drawPlot = [] :=
  List.filterMap_eq_nil_iff.2 fun x hx => (hp x hx).1

theorem foldl_drawWin_plain (w : Window) : ds.foldl drawWin w = w := by
  induction ds generalizing w with
  | nil => rfl
  | cons x ds ih =>
    rw [List.foldl_cons, (hp x List.mem_cons_self).2]
    exact ih (fun y hy => hp y (List.mem_cons_of_mem x hy)) w

theorem begun_plain (d : DeviceState) (n : Nat) : (begun d ds n).filterMap drawPlot = [] := by
  induction ds generalizing n with
  | nil => rfl
  | cons x ds ih =>
    unfold begun
    split
    · rfl
    · rw [List.filterMap_cons, (hp x List.mem_cons_self).1]
      exact ih (fun y hy => hp y (List.mem_cons_of_mem x hy)) _

theorem winCut_plain (d : DeviceState) (w : Window) (n : Nat) : winCut d w ds n = w := by
  induction ds generalizing w n with
  | nil => rfl
  | cons x ds ih =>
    unfold winCut
    rw [(hp x List.mem_cons_self).2, ite_self, ih fun y hy => hp y (List.mem_cons_of_mem x hy)]
    exact ite_self _

theorem streamed_plain (s : State) :
    streamed s ds = { sendAll s (codewordsOf s.dev ds) with asm := ds.foldl drawAsm s.asm } := by
  rw [streamed, filterMap_plain hp, foldl_drawWin_plain hp, List.append_nil, sendAll, sentFrom_frame]

theorem cutShort_plain (s : State) (j : Nat) :
    cutShort s ds j = { sendAll s (cutWords s (codewordsOf s.dev ds) j) with asm := .idle } := by
  rw [cutShort]
  dsimp only
  rw [begun_plain hp, winCut_plain hp, List.append_nil, sendAll, sentFrom_frame]

end

/-- An operation that pushes codewords of the host's own: its two ends are those of its stream, but for the marks. -/
theorem runs_of_plain {i : Instr} {s : State} {y : List Nat} {z : Sink} (hp : ∀ x ∈ drawsOf i s, Plain x)
    (hduty : keepsWindowDuty i s = true → marked (sendAll s (codewordsOf s.dev (drawsOf i s))) y z =
      sendAll s (codewordsOf s.dev (drawsOf i s)))
    (hok : WordsOk s (codewordsOf s.dev (drawsOf i s)) → exec i s = .next (respond .ok
      { marked (sendAll s (codewordsOf s.dev (drawsOf i s))) y z with asm := (drawsOf i s).foldl drawAsm s.asm }))
    (hcut : ∀ j, FirstFailure s (codewordsOf s.dev (drawsOf i s)) j → exec i s = .next (respond .eXfer
      { sendAll s (cutWords s (codewordsOf s.dev (drawsOf i s)) j) with asm := .idle })) : Runs i s := by
  constructor
  · intro hw
    refine ⟨enginesOf s, y, z, ownEngine_self i s, fun hk => ?_, ?_⟩
    · have h := hduty hk
      rw [streamed_plain hp]
      exact ⟨congrArg State.strays h, congrArg State.sink h⟩
    · rw [hok hw, doneState, streamed_plain hp, sendAll, sentFrom_frame]
      rfl
  · intro j hj
    refine ⟨enginesOf s, ownEngine_self i s, ?_⟩
    rw [hcut j hj, cutState, cutShort_plain hp, sendAll, sentFrom_frame]
    rfl

theorem noteRaw_of_streaming {s : State} (h : s.asm = .ramStreaming) (cw : Codeword) : noteRaw cw s = s := by
  unfold noteRaw noteData
  rw [if_pos h, ite_self]

theorem noteData_of_streaming {s : State} (h : s.asm = .ramStreaming) : noteData s = s := if_pos h

theorem asm_of_duty {i : Instr} {s : State} (hi : sendsDataOnly i = true) (ha : i ≠ .armram)
    (h : keepsWindowDuty i s = true) : s.asm = .ramStreaming := by
  cases i <;> simp_all [keepsWindowDuty]

/-- PUSH and the four codeword and carrier kinds (R122, R91, R92). -/
theorem runs_rawPush {i : Instr} {c : Carrier} {s : State} (hx : exec i s = rawPush c s)
    (hds : drawsOf i s = [.raw (codewordOf c)])
    (hduty : keepsWindowDuty i s = true → isData (codewordOf c) = true → s.asm = .ramStreaming)
    (hr : s.ready = true) (hc : s.pack.cnt < batch) : Runs i s := by
  have hws : codewordsOf s.dev (drawsOf i s) = [codewordOf c] := by rw [hds]; rfl
  have hsent := sendAll_marked s (noteRaw (codewordOf c) s).strays s.sink [codewordOf c]
  rw [← noteRaw_eq_marked] at hsent
  refine runs_of_plain (y := (sendAll (noteRaw (codewordOf c) s) [codewordOf c]).strays)
    (z := (sendAll (noteRaw (codewordOf c) s) [codewordOf c]).sink) ?_ (fun hk => ?_) (fun hw => ?_) fun j hj => ?_
  · rw [hds]
    exact fun x hx => List.mem_singleton.1 hx ▸ plain_raw _
  · rw [hws, ← hsent]
    cases hd : isData (codewordOf c) with
    | true => rw [noteRaw_of_streaming (hduty hk hd)]
    | false => rw [noteRaw, hd, if_neg Bool.false_ne_true]
  · rw [hws] at hw ⊢
    rw [hx, rawPush_ok hr hc hw, ← hsent, hds]
    rfl
  · rw [hws] at hj ⊢
    have hlen := hj.1
    rw [batchesOf_length _ _ hc, List.length_singleton] at hlen
    obtain rfl : j = 0 := by
      simp only [show batch = 1024 from rfl] at *
      omega
    rw [hx, rawPush_fails hr hc fun hw => not_lt.2 (hw 0 hj.1) hj.2.1, cutWords_singleton hc]

/-- WRREG (R144). -/
theorem runs_wrreg (b : Byte) {s : State} (hr : s.ready = true) (hc : s.pack.cnt < batch) : Runs (.wrreg b) s := by
  have hf := isPushes_framerReg b hc
  have hexec : exec (.wrreg b) s = finish ((framerReg b s).andThen fun s => .ok { s with asm := .idle }) := by
    show execWrreg b s = _
    rw [execWrreg, gated_ready hr]
  refine runs_of_plain (y := (sendAll s [cmdCodeword b]).strays) (z := (sendAll s [cmdCodeword b]).sink)
    (fun x hx => List.mem_singleton.1 hx ▸ plain_raw _) (fun _ => rfl) (fun hw => ?_) fun j hj => ?_
  · rw [execWrreg_ok hr hc hw]
    show _ = Host.Outcome.next (respond .ok { sendAll s [cmdCodeword b] with asm := asmAfterRaw (cmdCodeword b) s.asm })
    rw [asmAfterRaw, isData_cmdCodeword, if_neg Bool.false_ne_true]
  · rw [hexec, hf.cut j hj, andThen_abort, finish_abort]
    rfl

/-- WRDAT8 (R144). -/
theorem runs_wrdat8 (b : Byte) {s : State} (hr : s.ready = true) (hc : s.pack.cnt < batch) : Runs (.wrdat8 b) s := by
  have hsent := sendAll_marked s (noteData s).strays s.sink [datCodeword b]
  rw [← noteData_eq_marked] at hsent
  have hexec : exec (.wrdat8 b) s = finish (hostData8 b s) := by
    show execWrdat8 b s = _
    rw [execWrdat8, gated_ready hr]
  refine runs_of_plain (y := (sendAll (noteData s) [datCodeword b]).strays)
    (z := (sendAll (noteData s) [datCodeword b]).sink)
    (fun x hx => List.mem_singleton.1 hx ▸ plain_raw _) (fun hk => ?_) (fun hw => ?_) fun j hj => ?_
  · show marked (sendAll s [datCodeword b]) _ _ = sendAll s [datCodeword b]
    rw [← hsent, noteData_of_streaming (asm_of_duty rfl (by simp) hk)]
  · rw [execWrdat8_ok hr hc hw]
    show _ = Host.Outcome.next (respond .ok
      { marked (sendAll s [datCodeword b]) _ _ with asm := asmAfterRaw (datCodeword b) s.asm })
    rw [← hsent, asmAfterRaw, isData_datCodeword, if_pos rfl, ← noteData_asm s, ← sendAll_asm (noteData s) [datCodeword b]]
  · rw [hexec, hostData8_fails hc hj, finish_abort]
    rfl

theorem twoBytesSent_eq_marked (w : Word16) (s : State) :
    ∃ y z, twoBytesSent w s = marked (sendAll s (frameData16 w)) y z := by
  obtain ⟨y1, z1, e1⟩ := sendAll_noteData s [datCodeword (hiByte w)]
  obtain ⟨y2, z2, e2⟩ := sendAll_noteData (marked (sendAll s [datCodeword (hiByte w)]) y1 z1) [datCodeword (loByte w)]
  rw [twoBytesSent, e1, e2, sendAll_marked, sendAll_append]
  exact ⟨y2, z2, rfl⟩

theorem twoBytesSent_of_streaming {w : Word16} {s : State} (h : s.asm = .ramStreaming) :
    twoBytesSent w s = sendAll s (frameData16 w) := by
  rw [twoBytesSent, noteData_of_streaming h, noteData_of_streaming (by rw [sendAll_asm, h]), sendAll_append]
  rfl

/-- WRDAT16 (R144). -/
theorem runs_wrdat16 (w : Word16) {s : State} (hr : s.ready = true) (hc : s.pack.cnt < batch) : Runs (.wrdat16 w) s := by
  obtain ⟨y, z, e⟩ := twoBytesSent_eq_marked w s
  have hws : codewordsOf s.dev (drawsOf (.wrdat16 w) s) = frameData16 w := rfl
  have hasm : (drawsOf (.wrdat16 w) s).foldl drawAsm s.asm = (sendAll s (frameData16 w)).asm := by
    simp [drawsOf, drawAsm, asmAfterRaw]
  refine runs_of_plain (y := y) (z := z) (fun x hx => ?_) (fun hk => ?_) (fun hw => ?_) fun j hj => ?_
  · rcases List.mem_cons.1 hx with rfl | hx
    · exact plain_raw _
    · exact List.mem_singleton.1 hx ▸ plain_raw _
  · rw [hws, ← e, twoBytesSent_of_streaming (asm_of_duty rfl (by simp) hk)]
  · rw [hws] at hw ⊢
    rw [execWrdat16_ok hr hc hw, e, hasm]
    rfl
  · exact execWrdat16_fails hr hc hj

/-- ARMRAM (R154), from the state with its mark. -/
theorem doArm_noteArm {s : State} (hc : s.pack.cnt < batch) :
    IsStream doArm (marked s (noteArm s).strays s.sink) [.arm] :=
  isStream_doArm hc

theorem execArmram_ok {s : State} (hr : s.ready = true) (hc : s.pack.cnt < batch)
    (hw : WordsOk s [cmdCodeword s.dev.ramcmd]) :
    exec .armram s =
      .next (respond .ok { sendAll (noteArm s) [cmdCodeword s.dev.ramcmd] with asm := .ramStreaming }) := by
  have h := (doArm_noteArm hc).ok ((wordsOk_marked _ _ _ _).2 hw)
  rw [← noteArm_eq_marked] at h
  show execArmram s = _
  rw [execArmram, gated_ready hr, h, finish_ok, streamed_plain fun x hx => List.mem_singleton.1 hx ▸ plain_arm, noteArm_dev]
  rfl

theorem execArmram_fails {s : State} {j : Nat} (hr : s.ready = true) (hc : s.pack.cnt < batch)
    (hj : FirstFailure s [cmdCodeword s.dev.ramcmd] j) :
    exec .armram s =
      .next (respond .eXfer { sendAll s (cutWords s [cmdCodeword s.dev.ramcmd] j) with asm := .idle }) := by
  obtain ⟨a, h⟩ := (doArm_noteArm hc).cut j ((firstFailure_marked _ _ _ _ _).2 hj)
  rw [← noteArm_eq_marked, cutShort_plain fun x hx => List.mem_singleton.1 hx ▸ plain_arm, noteArm_dev] at h
  have hsent := sendAll_cutWords_marked hc hj (noteArm s).strays s.sink
  rw [← noteArm_eq_marked] at hsent
  show execArmram s = _
  rw [execArmram, gated_ready hr, h, finish_abort]
  show Host.Outcome.next (respond .eXfer { sendAll (noteArm s) (cutWords (noteArm s) _ j) with asm := .idle }) = _
  rw [show cutWords (noteArm s) = cutWords s by unfold cutWords; rw [noteArm_pack], codewordsOf_singleton]
  rw [show drawCodewords s.dev .arm = [cmdCodeword s.dev.ramcmd] from rfl, hsent]

theorem runs_armram {s : State} (hr : s.ready = true) (hc : s.pack.cnt < batch) : Runs .armram s := by
  have hsent := sendAll_marked s (noteArm s).strays s.sink [cmdCodeword s.dev.ramcmd]
  rw [← noteArm_eq_marked] at hsent
  refine runs_of_plain (y := (sendAll (noteArm s) [cmdCodeword s.dev.ramcmd]).strays)
    (z := (sendAll (noteArm s) [cmdCodeword s.dev.ramcmd]).sink)
    (fun x hx => List.mem_singleton.1 hx ▸ plain_arm) (fun hk => ?_) (fun hw => ?_) fun j hj => execArmram_fails hr hc hj
  · show marked (sendAll s [cmdCodeword s.dev.ramcmd]) _ _ = sendAll s [cmdCodeword s.dev.ramcmd]
    have hne : s.asm ≠ .idle := by simpa [keepsWindowDuty] using hk
    rw [← hsent, noteArm, if_neg hne]
  · rw [execArmram_ok hr hc hw, hsent]
    rfl

end Sys2Proof.Proofs.OperationStream
end

section
/-! The drawing operations as their streams of draws (spec/42_addressing.md to spec/44_text.md), and so every
operation behind the READY gate but TEARDOWN. -/

namespace Sys2Proof.Proofs.DrawingStreams

open Sys2Proof Sys2Proof.Machine Sys2Proof.Config Sys2Proof.Safety Sys2Proof.Proofs.FailedBatch
open Sys2Proof.Proofs.RawOperations Sys2Proof.Proofs.OperandDomains Sys2Proof.Proofs.OperationStream

/-! ### Behind the gate, the operands legal -/

section
variable {s : State} (hr : s.ready = true)
include hr

theorem exec_setwin (x0 y0 x1 y1 : Word16) :
    exec (.setwin x0 y0 x1 y1) s = finish (doSetWindow (zext x0) (zext y0) (zext x1) (zext y1) s) := by
  show execSetwin x0 y0 x1 y1 s = _
  rw [execSetwin, gated_ready hr]

theorem exec_setcur (x y : Word16) :
    exec (.setcur x y) s = finish (openWindow (zext x) (zext y) (zext x) (zext y) s) := by
  show execSetcur x y s = _
  rw [execSetcur, gated_ready hr]

theorem exec_point (x y c : Word16) : exec (.point x y c) s = finish (plot (zext x) (zext y) c s) := by
  show execPoint x y c s = _
  rw [execPoint, gated_ready hr]

theorem exec_fill {x0 y0 x1 y1 : Word16} (h : cornersOk x0 y0 x1 y1 = true) (c : Word16) :
    exec (.fill x0 y0 x1 y1 c) s = finish (doFill x0 y0 x1 y1 c s) := by
  have ho : ordered x0 y0 x1 y1 = true := h
  show execFill x0 y0 x1 y1 c s = _
  rw [execFill, gated_ready hr, ho]
  rfl

theorem exec_line (x1 y1 x2 y2 : Word16) :
    exec (.line x1 y1 x2 y2) s = finish (doLine (zext x1) (zext y1) (zext x2) (zext y2) s) := by
  show execLine x1 y1 x2 y2 s = _
  rw [execLine, gated_ready hr]

theorem exec_rect (x1 y1 x2 y2 : Word16) :
    exec (.rect x1 y1 x2 y2) s = finish (doRect (zext x1) (zext y1) (zext x2) (zext y2) s) := by
  show execRect x1 y1 x2 y2 s = _
  rw [execRect, gated_ready hr]

theorem exec_circle (xc yc r : Word16) {filled : Byte} {f : Bool} (h : bitOperand filled = some f) :
    exec (.circle xc yc r filled) s = finish (doCircle (zext xc) (zext yc) r.toNat f s) := by
  show execCircle xc yc r filled s = _
  rw [execCircle, gated_ready hr, h]

theorem exec_char (x y fc bc : Word16) {ch size mode : Byte} {sz : AsciiSize} {point : Bool} (hch : isAscii ch = true)
    (hsz : asciiSize size = some sz) (hm : bitOperand mode = some point) :
    exec (.char x y fc bc ch size mode) s =
      if fits (zext x) (zext y) (asciiPx sz / 2) (asciiPx sz) s.dev then
        finish (doChar (zext x) (zext y) fc bc ch sz point s)
      else .next (respond .ok s) := by
  show execChar x y fc bc ch size mode s = _
  rw [execChar, gated_ready hr, hch, hsz, hm]
  rfl

theorem exec_glyph (x y fc bc code : Word16) {size mode : Byte} {sz : WideSize} {point : Bool}
    (hsz : wideSize size = some sz) (hm : bitOperand mode = some point) :
    exec (.glyph x y fc bc code size mode) s =
      if fits (zext x) (zext y) (widePx sz) (widePx sz) s.dev then
        finish (doGlyph (zext x) (zext y) fc bc code sz point s)
      else .next (respond .ok s) := by
  show execGlyph x y fc bc code size mode s = _
  rw [execGlyph, gated_ready hr, hsz, hm]
  rfl

theorem exec_string (x y fc bc : Word16) {size mode : Byte} {bytes : List Byte} {point : Bool}
    (hsz : textSizeOk size = true) (hm : bitOperand mode = some point) (hl : bytes.length ≤ 65535) :
    exec (.string x y fc bc size mode bytes) s = finish (doString (zext x) (zext y) fc bc size point bytes s) := by
  show execString x y fc bc size mode bytes s = _
  rw [execString, gated_ready hr, textSize_of_ok hsz, hm, decide_eq_true hl]

end

/-! ### Streams -/

/-- `DoLine` (R174): the points of the closed form (R175). -/
theorem isStreamTo_line (x1 y1 x2 y2 : Int) {s u : State} (hc : s.pack.cnt < batch) (hu : LineOnly u (enginesOf s)) :
    ∃ e, IsStreamTo (doLine x1 y1 x2 y2) s (drawPoints s.fg (linePoints x1 y1 x2 y2)) (s.fg, e, s.circle, s.text)
      (LineOnly u) := by
  have h := isStreamTo_doLine x1 y1 x2 y2 hc hu
  rw [lineTrace_eq_linePoints] at h
  exact ⟨_, h⟩

theorem LineOnly.step {s u : State} (h : LineOnly u (enginesOf s)) (l : LineEngine) :
    LineOnly u (s.fg, l, s.circle, s.text) := by
  obtain ⟨l0, hl⟩ := h
  simp only [enginesOf, Prod.mk.injEq] at hl
  exact ⟨l, by rw [hl.1, hl.2.2.1, hl.2.2.2]⟩

/-- A line after what a line engine's operation has drawn. -/
theorem isStreamTo_thenLine {f : State → Res} {ps : List (Int × Int)} {s u : State} (x1 y1 x2 y2 : Int)
    (hc : s.pack.cnt < batch) (hu : LineOnly u (enginesOf s))
    (hf : ∃ e, IsStreamTo f s (drawPoints s.fg ps) (s.fg, e, s.circle, s.text) (LineOnly u)) :
    ∃ e, IsStreamTo (fun s => (f s).andThen (doLine x1 y1 x2 y2)) s (drawPoints s.fg (ps ++ linePoints x1 y1 x2 y2))
      (s.fg, e, s.circle, s.text) (LineOnly u) := by
  obtain ⟨e, he⟩ := hf
  obtain ⟨e', he'⟩ := isStreamTo_line x1 y1 x2 y2 (u := u)
    (s := withEngines (streamed s (drawPoints s.fg ps)) (s.fg, e, s.circle, s.text)) (withEngines_cnt_lt _ _ hc)
    (LineOnly.step hu e)
  rw [drawPoints_append]
  exact ⟨e', he.andThen hc he'⟩

/-- `DoRect` (R176): its four lines. -/
theorem isStreamTo_doRect (x1 y1 x2 y2 : Int) {s : State} (hc : s.pack.cnt < batch) :
    ∃ e, IsStreamTo (doRect x1 y1 x2 y2) s (drawPoints s.fg (rectPoints x1 y1 x2 y2)) (s.fg, e, s.circle, s.text)
      (LineOnly s) := by
  have hu : LineOnly s (enginesOf s) := ⟨s.line, rfl⟩
  have h1 := isStreamTo_line x1 y1 x2 y1 hc hu
  have h2 := isStreamTo_thenLine x1 y1 x1 y2 hc hu h1
  have h3 := isStreamTo_thenLine x1 y2 x2 y2 hc hu h2
  exact isStreamTo_thenLine x2 y1 x2 y2 hc hu h3

/-! ### Text -/

theorem runs_of_clipped {i : Instr} {s : State} (hx : exec i s = .next (respond .ok s)) (hds : drawsOf i s = []) :
    Runs i s :=
  runs_of_isStream (f := .ok) hx (isStream_nil s) hds

theorem runs_char (x y fc bc : Word16) {ch size mode : Byte} {s : State} (hr : s.ready = true) (hc : s.pack.cnt < batch)
    (hch : isAscii ch = true) (hsz : asciiSizeOk size = true) (hm : bitOk mode = true) :
    Runs (.char x y fc bc ch size mode) s := by
  obtain ⟨sz, hsz⟩ := asciiSize_of_ok hsz
  have hx := exec_char hr x y fc bc hch hsz (bitOperand_of_ok hm)
  have hds : drawsOf (.char x y fc bc ch size mode) s =
      if fits (zext x) (zext y) (asciiPx sz / 2) (asciiPx sz) s.dev then
        drawChar s.board s.dev (zext x) (zext y) fc bc ch sz (mode = 1#8)
      else [] := by
    simp only [drawsOf, hsz]
  by_cases hf : fits (zext x) (zext y) (asciiPx sz / 2) (asciiPx sz) s.dev = true
  · rw [if_pos hf] at hx hds
    obtain ⟨k, -, h⟩ := isStreamTo_doChar (zext x) (zext y) fc bc ch sz (mode = 1#8) hc (u := s) ⟨s.text, rfl⟩
    exact runs_of_isStreamTo hx h hds (TextOnly.ownEngine rfl ⟨k, rfl⟩) fun _ => TextOnly.ownEngine rfl
  · rw [if_neg hf] at hx hds
    exact runs_of_clipped hx hds

theorem runs_glyph (x y fc bc code : Word16) {size mode : Byte} {s : State} (hr : s.ready = true)
    (hc : s.pack.cnt < batch) (hsz : wideSizeOk size = true) (hm : bitOk mode = true) :
    Runs (.glyph x y fc bc code size mode) s := by
  obtain ⟨sz, hsz⟩ := wideSize_of_ok hsz
  have hx := exec_glyph hr x y fc bc code hsz (bitOperand_of_ok hm)
  have hds : drawsOf (.glyph x y fc bc code size mode) s =
      if fits (zext x) (zext y) (widePx sz) (widePx sz) s.dev then
        drawGlyph s.board s.dev (zext x) (zext y) fc bc code sz (mode = 1#8)
      else [] := by
    simp only [drawsOf, hsz]
  by_cases hf : fits (zext x) (zext y) (widePx sz) (widePx sz) s.dev = true
  · rw [if_pos hf] at hx hds
    obtain ⟨k, -, h⟩ := isStreamTo_doGlyph (zext x) (zext y) fc bc code sz (mode = 1#8) hc (u := s) ⟨s.text, rfl⟩
    exact runs_of_isStreamTo hx h hds (TextOnly.ownEngine rfl ⟨k, rfl⟩) fun _ => TextOnly.ownEngine rfl
  · rw [if_neg hf] at hx hds
    exact runs_of_clipped hx hds

theorem runs_string (x y fc bc : Word16) {size mode : Byte} {bytes : List Byte} {s : State} (hr : s.ready = true)
    (hc : s.pack.cnt < batch) (hsz : textSizeOk size = true) (hm : bitOk mode = true) (hl : bytes.length ≤ 65535) :
    Runs (.string x y fc bc size mode bytes) s := by
  obtain ⟨k, -, h⟩ := isStreamTo_doString (zext x) (zext y) fc bc size (mode = 1#8) bytes hc
  exact runs_of_isStreamTo (exec_string hr x y fc bc hsz (bitOperand_of_ok hm) hl) h rfl
    (TextOnly.ownEngine rfl ⟨k, rfl⟩) fun _ => TextOnly.ownEngine rfl

/-- A statement about the runs of an operation is one about its effect, its draws and its duties. -/
theorem Runs.congr {i i' : Instr} {s : State} (h : Runs i s) (hx : exec i' s = exec i s) (hds : drawsOf i' s = drawsOf i s)
    (he : engineOf i' = engineOf i) (hk : keepsWindowDuty i' s = keepsWindowDuty i s) : Runs i' s := by
  have hown {k : Engines} (ho : OwnEngine i s k) : OwnEngine i' s k :=
    ⟨ho.fg, he ▸ ho.line, he ▸ ho.circle, he ▸ ho.text⟩
  obtain ⟨hok, hcut⟩ := h
  constructor
  · rw [hds, hx, hk]
    intro hw
    obtain ⟨k, y, z, ho, hduty, e⟩ := hok hw
    exact ⟨k, y, z, hown ho, hduty, e⟩
  · rw [hds, hx]
    intro j hj
    obtain ⟨k, ho, e⟩ := hcut j hj
    exact ⟨k, hown ho, e⟩

/-- Every operation behind the READY gate but TEARDOWN, its operands legal, is its stream of draws. -/
theorem runs_exec {i : Instr} {s : State} (hu : ungated i = false) (ht : isTeardown i = false) (hr : s.ready = true)
    (hc : s.pack.cnt < batch) (hl : legal i s = true) : Runs i s := by
  have hcmd (p : Byte) (x : BitVec 7) : isData (codewordOf (carrierOf (cmdCodeword p) x)) = true →
      s.asm = .ramStreaming := by
    rw [codewordOf_carrierOf, isData_cmdCodeword]
    exact fun h => nomatch h
  cases i with
  | push c =>
    exact runs_rawPush (c := c) rfl rfl (fun hk hd => asm_of_duty (i := .push c) hd (by simp) hk) hr hc
  | teardown => exact Bool.noConfusion ht
  | wrreg b => exact runs_wrreg b hr hc
  | wrdat8 b => exact runs_wrdat8 b hr hc
  | wrdat16 w => exact runs_wrdat16 w hr hc
  | setwin x0 y0 x1 y1 => exact runs_of_isStream (exec_setwin hr _ _ _ _) (isStream_doSetWindow _ _ _ _ hc) rfl
  | armram => exact runs_armram hr hc
  | setcur x y => exact runs_of_isStream (exec_setcur hr _ _) (isStream_openWindow _ _ _ _ hc) rfl
  | point x y c => exact runs_of_isStream (exec_point hr _ _ _) (isStream_plot _ _ _ hc) rfl
  | fill x0 y0 x1 y1 c => exact runs_of_isStream (exec_fill hr hl c) (isStream_doFill _ _ _ _ _ hc) rfl
  | clear c =>
    simp only [legal, Bool.and_eq_true, bne_iff_ne] at hl
    exact Runs.congr (runs_of_isStream (exec_fill hr ByDefinition.ordered_screen c) (isStream_doFill _ _ _ _ _ hc) rfl)
      (ByDefinition.execClear_eq_execFill hl.1 hl.2 c) rfl rfl rfl
  | line x1 y1 x2 y2 =>
    obtain ⟨e, h⟩ := isStreamTo_line (zext x1) (zext y1) (zext x2) (zext y2) hc (u := s) ⟨s.line, rfl⟩
    exact runs_of_isStreamTo (exec_line hr _ _ _ _) h rfl (LineOnly.ownEngine rfl ⟨e, rfl⟩) fun _ => LineOnly.ownEngine rfl
  | rect x1 y1 x2 y2 =>
    obtain ⟨e, h⟩ := isStreamTo_doRect (zext x1) (zext y1) (zext x2) (zext y2) hc
    exact runs_of_isStreamTo (exec_rect hr _ _ _ _) h rfl (LineOnly.ownEngine rfl ⟨e, rfl⟩) fun _ => LineOnly.ownEngine rfl
  | frect x1 y1 x2 y2 =>
    exact Runs.congr (runs_of_isStream (exec_fill hr hl s.fg) (isStream_doFill _ _ _ _ _ hc) rfl)
      (ByDefinition.execFrect_eq_execFill x1 y1 x2 y2 s) rfl rfl rfl
  | circle xc yc r filled =>
    obtain ⟨e, h⟩ := isStreamTo_doCircle (zext xc) (zext yc) r.toNat (filled = 1#8) hc
    exact runs_of_isStreamTo (exec_circle hr _ _ _ (bitOperand_of_ok hl)) h rfl (CircleOnly.ownEngine rfl ⟨e, rfl⟩)
      fun _ => CircleOnly.ownEngine rfl
  | char x y fc bc ch size mode =>
    simp only [legal, Instr.wellFormed, Bool.and_eq_true] at hl
    exact runs_char x y fc bc hr hc hl.1.1 hl.1.2 hl.2
  | glyph x y fc bc code size mode =>
    simp only [legal, Instr.wellFormed, Bool.and_eq_true] at hl
    exact runs_glyph x y fc bc code hr hc hl.1 hl.2
  | string x y fc bc size mode bytes =>
    simp only [legal, Instr.wellFormed, Bool.and_eq_true, decide_eq_true_eq] at hl
    exact runs_string x y fc bc hr hc hl.1.1 hl.1.2 hl.2
  | number x y fc bc num len size mode =>
    simp only [legal, Instr.wellFormed, Bool.and_eq_true, decide_eq_true_eq] at hl
    obtain ⟨⟨⟨h1, h10⟩, hsz⟩, hm⟩ := hl
    have hlen : (numberString num.toNat len.toNat).length ≤ 65535 := by
      rw [ByDefinition.numberString_length]
      omega
    exact Runs.congr (runs_string x y fc bc hr hc hsz hm hlen)
      (ByDefinition.execNumber_eq_execString x y fc bc num size mode s h1 h10) rfl rfl rfl
  | init o => exact Bool.noConfusion hu
  | setcolors fg bg => exact Bool.noConfusion hu
  | cwCmd p =>
    exact runs_rawPush rfl (by rw [codewordOf_carrierOf]; rfl) (fun _ => hcmd p _) hr hc
  | cwDat p =>
    exact runs_rawPush rfl (by rw [codewordOf_carrierOf]; rfl) (fun hk _ => asm_of_duty rfl (by simp) hk) hr hc
  | carrierCmd p x =>
    exact runs_rawPush rfl (by rw [codewordOf_carrierOf]; rfl) (fun _ => hcmd p _) hr hc
  | carrierDat p x =>
    exact runs_rawPush rfl (by rw [codewordOf_carrierOf]; rfl) (fun hk _ => asm_of_duty rfl (by simp) hk) hr hc

/-- Settles O40. -/
theorem failedTransferCutsShort : Obligations.FailedTransferCutsShort := by
  unfold Obligations.FailedTransferCutsShort
  intro i s j hu ht hr hc hl hj
  obtain ⟨k, ⟨hfg, hline, hcircle, htext⟩, hx⟩ := (runs_exec hu ht hr hc hl).cut j hj
  refine ⟨k.2.1, k.2.2.1, k.2.2.2, ?_, hline, hcircle, htext⟩
  rw [hx, cutState, withEngines, hfg, ← cutShort_fg s (drawsOf i s) j]

end Sys2Proof.Proofs.DrawingStreams
end

section
/-! The drawing operations whose transfers succeed, written out (spec/42_addressing.md R152 to R157, spec/43_raster.md,
spec/44_text.md R202 to R211): the codewords, PLOTTRACE, WIN, ASM and the engine each leaves. -/

namespace Sys2Proof.Proofs.Completion

open Sys2Proof Sys2Proof.Machine Sys2Proof.Config Sys2Proof.Safety Sys2Proof.Proofs.FailedBatch
open Sys2Proof.Proofs.OperandDomains Sys2Proof.Proofs.OperationStream Sys2Proof.Proofs.DrawingStreams
open Sys2Proof.Proofs.SecondWindow (trunc16_zext)

/-! ### An operation's stream, its transfers succeeding -/

theorem exec_of_isStream {i : Instr} {s : State} {f : State → Res} {ds : List Draw} (hx : exec i s = finish (f s))
    (h : IsStream f s ds) (hw : WordsOk s (codewordsOf s.dev ds)) : exec i s = .next (respond .ok (streamed s ds)) := by
  rw [hx, h.ok hw, finish_ok]

theorem streamed_with_line (s : State) (ds : List Draw) (l : LineEngine) :
    withEngines (streamed s ds) (s.fg, l, s.circle, s.text) = { streamed s ds with line := l } := by
  rw [withEngines, streamed, sendAll, sentFrom_frame]

theorem streamed_with_circle (s : State) (ds : List Draw) (c : CircleEngine) :
    withEngines (streamed s ds) (s.fg, s.line, c, s.text) = { streamed s ds with circle := c } := by
  rw [withEngines, streamed, sendAll, sentFrom_frame]

theorem streamed_with_text (s : State) (ds : List Draw) (x : TextEngine) :
    withEngines (streamed s ds) (s.fg, s.line, s.circle, x) = { streamed s ds with text := x } := by
  rw [withEngines, streamed, sendAll, sentFrom_frame]

theorem exec_of_isStreamTo {i : Instr} {s : State} {f : State → Res} {ds : List Draw} {e : Engines} {Q : Engines → Prop}
    (hx : exec i s = finish (f s)) (h : IsStreamTo f s ds e Q) (hw : WordsOk s (codewordsOf s.dev ds)) :
    exec i s = .next (respond .ok (withEngines (streamed s ds) e)) := by
  rw [hx, h.ok hw, finish_ok]
  rfl

/-! ### Addressing -/

theorem trunc16_sub_one (w : Word16) : trunc16 (zext w - 1) = w - 1#16 := by
  have h : trunc16 (zext w - 1) = trunc16 (zext w) + trunc16 (-1) := by
    rw [Int.sub_eq_add_neg]
    exact BitVec.ofInt_add _ _
  rw [h, trunc16_zext, BitVec.sub_eq_add_neg]
  rfl

@[simp] theorem trunc16_zero : trunc16 0 = 0#16 := rfl

theorem drawCodewords_setWindow (d : DeviceState) (x0 y0 x1 y1 : Word16) :
    drawCodewords d (.setWindow (zext x0) (zext y0) (zext x1) (zext y1)) = frameWindow d x0 y0 x1 y1 := by
  simp only [drawCodewords, trunc16_zext]

theorem codewordsOf_drawOpen (d : DeviceState) (x0 y0 x1 y1 : Word16) :
    codewordsOf d (drawOpen (zext x0) (zext y0) (zext x1) (zext y1)) =
      frameWindow d x0 y0 x1 y1 ++ [cmdCodeword d.ramcmd] := by
  rw [drawOpen, codewordsOf_cons, codewordsOf_singleton, drawCodewords_setWindow]
  rfl

theorem codewordsOf_drawRestore (d : DeviceState) :
    codewordsOf d (drawRestore d) =
      frameWindow d 0#16 0#16 (d.width - 1#16) (d.height - 1#16) ++ [cmdCodeword d.ramcmd] := by
  simp only [drawRestore, drawOpen, codewordsOf_cons, codewordsOf_nil, drawCodewords, trunc16_zero, trunc16_sub_one,
    List.append_nil]

theorem streamed_setWindow (s : State) (x0 y0 x1 y1 : Word16) :
    streamed s [.setWindow (zext x0) (zext y0) (zext x1) (zext y1)] =
      { sendAll s (frameWindow s.dev x0 y0 x1 y1) with
        win := { x0 := x0, y0 := y0, x1 := x1, y1 := y1 }, asm := .windowProgrammed } := by
  rw [streamed, codewordsOf_singleton, drawCodewords_setWindow, sendAll, sentFrom_frame]
  simp [drawPlot, drawWin, drawAsm]

theorem streamed_drawOpen (s : State) (x0 y0 x1 y1 : Word16) :
    streamed s (drawOpen (zext x0) (zext y0) (zext x1) (zext y1)) =
      { sendAll s (frameWindow s.dev x0 y0 x1 y1 ++ [cmdCodeword s.dev.ramcmd]) with
        win := { x0 := x0, y0 := y0, x1 := x1, y1 := y1 }, asm := .ramStreaming } := by
  rw [streamed, codewordsOf_drawOpen, sendAll, sentFrom_frame]
  simp [drawOpen, drawPlot, drawWin, drawAsm]

/-- Settles O17. -/
theorem addressingOperationsComplete : Obligations.AddressingOperationsComplete := by
  unfold Obligations.AddressingOperationsComplete
  intro x0 y0 x1 y1 s hr hc
  refine ⟨fun hw => ?_, execArmram_ok hr hc, fun hw => ?_⟩
  · rw [← streamed_setWindow]
    exact exec_of_isStream (exec_setwin hr _ _ _ _) (isStream_doSetWindow _ _ _ _ hc)
      (by rwa [codewordsOf_singleton, drawCodewords_setWindow])
  · rw [← streamed_drawOpen]
    exact exec_of_isStream (exec_setcur hr _ _) (isStream_openWindow _ _ _ _ hc) (by rwa [codewordsOf_drawOpen])

/-! ### Points and fills -/

theorem streamed_plot (s : State) (x y c : Word16) :
    streamed s [.plot (zext x) (zext y) c] =
      { sendAll s (frameWindow s.dev x y x y ++ [cmdCodeword s.dev.ramcmd, datCodeword (hiByte c), datCodeword (loByte c)])
        with
        plotTrace := s.plotTrace ++ [(zext x, zext y, c)]
        win := { x0 := x, y0 := y, x1 := x, y1 := y }, asm := .ramStreaming } := by
  simp only [streamed, codewordsOf_singleton, drawCodewords, trunc16_zext, List.append_assoc]
  simp [drawPlot, drawWin, drawAsm, frameData16]

/-- Settles O20. -/
theorem pointCompletes : Obligations.PointCompletes := by
  unfold Obligations.PointCompletes
  intro x y c s hr hc
  dsimp only
  intro hw
  have hwords : WordsOk s (codewordsOf s.dev [.plot (zext x) (zext y) c]) := by
    rw [codewordsOf_singleton, drawCodewords, trunc16_zext, trunc16_zext, List.append_assoc]
    exact hw
  have hexec := exec_of_isStream (exec_point hr _ _ _) (isStream_plot _ _ _ hc) hwords
  rwa [streamed_plot] at hexec

theorem codewordsOf_pixels (d : DeviceState) (n : Nat) (c : Word16) :
    codewordsOf d (List.replicate n (.pixel c)) = (List.replicate n (frameData16 c)).flatten := by
  rw [codewordsOf, List.flatMap_replicate]
  rfl

theorem codewordsOf_drawFill (d : DeviceState) (x0 y0 x1 y1 c : Word16) :
    codewordsOf d (drawFill d x0 y0 x1 y1 c) =
      frameWindow d x0 y0 x1 y1 ++ [cmdCodeword d.ramcmd] ++
        (List.replicate ((x1.toNat - x0.toNat + 1) * (y1.toNat - y0.toNat + 1)) (frameData16 c)).flatten ++
        frameWindow d 0#16 0#16 (d.width - 1#16) (d.height - 1#16) ++ [cmdCodeword d.ramcmd] := by
  rw [drawFill, codewordsOf_append, codewordsOf_append, codewordsOf_drawOpen, codewordsOf_pixels, codewordsOf_drawRestore,
    fillCount, List.append_assoc _ _ [_]]

theorem filterMap_drawPlot_pixels (n : Nat) (c : Word16) : (List.replicate n (Draw.pixel c)).filterMap drawPlot = [] :=
  filterMap_plain fun _ hx => (List.mem_replicate.1 hx).2 ▸ ⟨rfl, fun _ => rfl⟩

/-- A fill plots no point, and ends with the full window open (R172, R156). -/
theorem streamed_drawFill (s : State) (x0 y0 x1 y1 c : Word16) :
    streamed s (drawFill s.dev x0 y0 x1 y1 c) =
      { sendAll s (codewordsOf s.dev (drawFill s.dev x0 y0 x1 y1 c)) with
        win := { x0 := 0#16, y0 := 0#16, x1 := s.dev.width - 1#16, y1 := s.dev.height - 1#16 }
        asm := .ramStreaming } := by
  have hplot : (drawFill s.dev x0 y0 x1 y1 c).filterMap drawPlot = [] := by
    rw [drawFill, List.filterMap_append, List.filterMap_append, filterMap_drawPlot_pixels]
    rfl
  have hwin : (drawFill s.dev x0 y0 x1 y1 c).foldl drawWin s.win =
      { x0 := 0#16, y0 := 0#16, x1 := s.dev.width - 1#16, y1 := s.dev.height - 1#16 } := by
    rw [drawFill, List.foldl_append]
    simp only [drawRestore, drawOpen, List.foldl_cons, List.foldl_nil, drawWin, trunc16_zero, trunc16_sub_one]
  have hasm : (drawFill s.dev x0 y0 x1 y1 c).foldl drawAsm s.asm = .ramStreaming := by
    rw [drawFill, List.foldl_append]
    rfl
  rw [streamed, hplot, hwin, hasm, List.append_nil, sendAll, sentFrom_frame]

theorem exec_fill_ok {x0 y0 x1 y1 : Word16} (c : Word16) {s : State} (hr : s.ready = true) (hc : s.pack.cnt < batch)
    (h : cornersOk x0 y0 x1 y1 = true) (hw : WordsOk s (codewordsOf s.dev (drawFill s.dev x0 y0 x1 y1 c))) :
    exec (.fill x0 y0 x1 y1 c) s = .next (respond .ok
      { sendAll s (codewordsOf s.dev (drawFill s.dev x0 y0 x1 y1 c)) with
        win := { x0 := 0#16, y0 := 0#16, x1 := s.dev.width - 1#16, y1 := s.dev.height - 1#16 }
        asm := .ramStreaming }) := by
  rw [← streamed_drawFill]
  exact exec_of_isStream (exec_fill hr h c) (isStream_doFill _ _ _ _ _ hc) hw

/-- Settles O21: FRECT and CLEAR are the fills of their expansions. -/
theorem fillOperationsComplete : Obligations.FillOperationsComplete := by
  unfold Obligations.FillOperationsComplete
  intro x0 y0 x1 y1 c s hr hc
  dsimp only
  simp only [← codewordsOf_drawFill]
  have hcorners (hx : x0.toNat ≤ x1.toNat) (hy : y0.toNat ≤ y1.toNat) : cornersOk x0 y0 x1 y1 = true := by
    rw [cornersOk, decide_eq_true hx, decide_eq_true hy]
    rfl
  refine ⟨fun hx hy hw => exec_fill_ok c hr hc (hcorners hx hy) hw, fun hx hy hw => ?_, fun hwidth hheight hw => ?_⟩
  · rw [ByDefinition.execFrect_eq_execFill]
    exact exec_fill_ok s.fg hr hc (hcorners hx hy) hw
  · rw [ByDefinition.execClear_eq_execFill hwidth hheight]
    exact exec_fill_ok c hr hc ByDefinition.ordered_screen hw

/-! ### Lines and circles -/

/-- Settles O22. -/
theorem lineCompletes : Obligations.LineCompletes := by
  unfold Obligations.LineCompletes
  intro x1 y1 x2 y2 s hr hc
  dsimp only
  intro hw
  obtain ⟨e, h⟩ := isStreamTo_line (zext x1) (zext y1) (zext x2) (zext y2) hc (u := s) ⟨s.line, rfl⟩
  refine ⟨e, ?_⟩
  rw [← streamed_with_line]
  exact exec_of_isStreamTo (exec_line hr _ _ _ _) h hw

/-- Settles O24. -/
theorem rectCompletes : Obligations.RectCompletes := by
  unfold Obligations.RectCompletes
  intro x1 y1 x2 y2 s hr hc
  dsimp only
  intro hw
  obtain ⟨e, h⟩ := isStreamTo_doRect (zext x1) (zext y1) (zext x2) (zext y2) hc
  refine ⟨?_, e, ?_⟩
  · simp only [List.length_append, Frames.linePoints_length]
    omega
  · rw [← streamed_with_line]
    exact exec_of_isStreamTo (exec_rect hr _ _ _ _) h hw

/-- Settles O25. -/
theorem circleCompletes : Obligations.CircleCompletes := by
  unfold Obligations.CircleCompletes
  intro xc yc r filled s hr hc
  dsimp only
  intro hw
  obtain ⟨e, h⟩ := isStreamTo_doCircle (zext xc) (zext yc) r.toNat filled hc
  have hbit : bitOperand (if filled then 1#8 else 0#8) = some filled := by cases filled <;> rfl
  refine ⟨e, ?_⟩
  rw [← streamed_with_circle]
  exact exec_of_isStreamTo (exec_circle hr _ _ _ hbit) h hw

/-! ### Text -/

theorem fits_zext {x y : Word16} {adv size : Nat} {d : DeviceState} :
    fits (zext x) (zext y) adv size d = true ↔ x.toNat + adv ≤ d.width.toNat ∧ y.toNat + size ≤ d.height.toNat := by
  rw [fits, zext, zext, zext, zext, Bool.and_eq_true, decide_eq_true_eq, decide_eq_true_eq]
  omega

theorem bitOperand_of_toNat {b : Byte} (h : b.toNat ≤ 1) : bitOperand b = some (decide (b.toNat = 1)) := by
  rw [bitOperand_eq_some_iff]
  by_cases h1 : b.toNat = 1
  · rw [decide_eq_true h1, h1]
    rfl
  · rw [decide_eq_false h1, Bool.toNat_false]
    omega

theorem isAscii_of_range {ch : Byte} (h1 : 0x20 ≤ ch.toNat) (h2 : ch.toNat ≤ 0x7E) : isAscii ch = true := by
  rw [isAscii, decide_eq_true h1, decide_eq_true h2]
  rfl

/-- Settles O29. -/
theorem charCompletes : Obligations.CharCompletes := by
  unfold Obligations.CharCompletes
  intro x y fc bc ch size mode sz s hr hc hlo hhi hsize hmode
  have hx := exec_char hr x y fc bc (isAscii_of_range hlo hhi) (asciiSize_eq_some_iff.2 hsize) (bitOperand_of_toNat hmode)
  constructor
  · intro hf
    dsimp only
    intro hw
    rw [if_pos (fits_zext.2 hf)] at hx
    obtain ⟨k, -, h⟩ := isStreamTo_doChar (zext x) (zext y) fc bc ch sz (mode.toNat = 1) hc (u := s) ⟨s.text, rfl⟩
    refine ⟨k, ?_⟩
    rw [← streamed_with_text]
    exact exec_of_isStreamTo hx h hw
  · intro hf
    rwa [if_neg fun h => hf (fits_zext.1 h)] at hx

/-- Settles O30. -/
theorem glyphCompletes : Obligations.GlyphCompletes := by
  unfold Obligations.GlyphCompletes
  intro x y fc bc code size mode sz s hr hc hsize hmode
  have hx := exec_glyph hr x y fc bc code (wideSize_eq_some_iff.2 hsize) (bitOperand_of_toNat hmode)
  constructor
  · intro hf
    rw [if_pos (fits_zext.2 hf)] at hx
    constructor
    · intro hcode
      have hnone : doGlyph (zext x) (zext y) fc bc code sz (decide (mode.toNat = 1)) s = .ok s := by
        rw [doGlyph, GlyphLookup.scanIndex_eq_none_iff.2 hcode]
      rw [hx, hnone, finish_ok]
    · intro i hi
      dsimp only
      intro hw
      obtain ⟨k, -, h⟩ := isStreamTo_doGlyph (zext x) (zext y) fc bc code sz (mode.toNat = 1) hc (u := s) ⟨s.text, rfl⟩
      rw [drawGlyph, hi] at h
      refine ⟨k, ?_⟩
      rw [← streamed_with_text]
      exact exec_of_isStreamTo hx h hw
  · intro hf
    rwa [if_neg fun h => hf (fits_zext.1 h)] at hx

theorem textSizeOk_of_mem {size : Byte} (h : size.toNat ∈ [12, 16, 24, 32]) : textSizeOk size = true := by
  simpa [textSizeOk, or_assoc] using h

/-- STRING, its transfers succeeding: the cursor it leaves. -/
theorem exec_string_ok (x y fc bc : Word16) {size mode : Byte} {bytes : List Byte} {s : State} (hr : s.ready = true)
    (hc : s.pack.cnt < batch) (hsize : size.toNat ∈ [12, 16, 24, 32]) (hmode : mode.toNat ≤ 1) (hl : bytes.length ≤ 65535)
    (hw : WordsOk s (codewordsOf s.dev
      (drawString s.board s.dev fc bc size (mode.toNat = 1) (zext x) bytes (zext x) (zext y)))) :
    ∃ e : TextEngine, (e.tx, e.ty) = stringCursor s.dev size (zext x) bytes (zext x) (zext y) ∧
      exec (.string x y fc bc size mode bytes) s = .next (respond .ok
        { streamed s (drawString s.board s.dev fc bc size (mode.toNat = 1) (zext x) bytes (zext x) (zext y)) with
          text := e }) := by
  obtain ⟨k, hk, h⟩ := isStreamTo_doString (zext x) (zext y) fc bc size (mode.toNat = 1) bytes hc
  refine ⟨k, hk, ?_⟩
  rw [← streamed_with_text]
  exact exec_of_isStreamTo (exec_string hr x y fc bc (textSizeOk_of_mem hsize) (bitOperand_of_toNat hmode) hl) h hw

/-- Settles O31: NUMBER is the STRING of its digits. -/
theorem stringAndNumberComplete : Obligations.StringAndNumberComplete := by
  unfold Obligations.StringAndNumberComplete
  intro x y fc bc size mode s hr hc hsize hmode
  dsimp only
  refine ⟨fun bytes hl hw => exec_string_ok x y fc bc hr hc hsize hmode hl hw, fun num len h1 h10 hw => ?_⟩
  rw [ByDefinition.execNumber_eq_execString x y fc bc num size mode s h1 h10]
  exact exec_string_ok x y fc bc hr hc hsize hmode (by rw [ByDefinition.numberString_length]; omega) hw

end Sys2Proof.Proofs.Completion
end

section
/-! A batch met full (spec/40_codec.md R126): nothing but a push looks at it, so an operation that begins with CNT at 1024 or
more either runs as it would with any other Pack Buffer, pushing nothing, or faults. -/

namespace Sys2Proof.Proofs.FullBatch

open Sys2Proof Sys2Proof.Machine Sys2Proof.Config Sys2Proof.Safety Sys2Proof.Proofs.KeptByDraws
open Sys2Proof.Proofs.BatchBound Sys2Proof.Proofs.DrawingStreams Sys2Proof.Proofs.OperandDomains

/-! ### The block with another Pack Buffer -/

/-- The state with another Pack Buffer. -/
def withPack (p : PackBuffer) (s : State) : State := { s with pack := p }

/-- The batch is not full, and `n` codewords at least have been pushed. -/
def Pushed (n : Nat) (s : State) : Prop := s.pack.cnt < batch ∧ n ≤ s.cwTrace.length

theorem keepsFrom_push_pushed (n : Nat) (c : Carrier) : KeepsFrom (Pushed n) (push c) :=
  keepsFrom_push (fun _ hs => hs.1)
    (fun s cw hs =>
      ⟨sendAll_cnt_lt _ hs.1, by rw [sendAll_cwTrace, List.length_append]; exact Nat.le_add_right_of_le hs.2⟩) c

/-- What a micro-operation does from a batch not full, and what it does from the same state with a full one. -/
structure Blockable (f : State → Res) : Prop where
  grows : ∀ n, KeepsFrom (Pushed n) f
  blocked : ∀ (s : State) (p : PackBuffer), s.pack.cnt < batch → batch ≤ p.cnt →
    (∃ t, f s = .ok t ∧ t.pack = s.pack ∧ t.cwTrace = s.cwTrace ∧ f (withPack p s) = .ok (withPack p t)) ∨
    ((∃ u, f (withPack p s) = .overfull u) ∧ (f s).Ends (Pushed (s.cwTrace.length + 1)))

theorem ends_push_pushed (c : Carrier) {s : State} (hc : s.pack.cnt < batch) :
    (push c s).Ends (Pushed (s.cwTrace.length + 1)) := by
  have hsent : Pushed (s.cwTrace.length + 1) (sendAll s [codewordOf c]) :=
    ⟨sendAll_cnt_lt _ hc, by rw [sendAll_cwTrace, List.length_append, List.length_singleton]⟩
  rw [push_eq, if_neg (Nat.not_le.2 hc)]
  split
  · exact hsent
  · exact hsent

/-! ### How blocked micro-operations compose -/

theorem blockable_ok : Blockable .ok :=
  ⟨fun _ => keepsFrom_ok, fun s _ _ _ => .inl ⟨s, rfl, rfl, rfl, rfl⟩⟩

theorem blockable_push (c : Carrier) : Blockable (push c) :=
  ⟨fun n => keepsFrom_push_pushed n c, fun _ p hc hp =>
    .inr ⟨⟨_, push_overfull c (s := withPack p _) hp⟩, ends_push_pushed c hc⟩⟩

/-- A push after a mark: the mark neither fills nor empties the batch. -/
theorem blockable_noted {c : Carrier} {u : State → State} (hu : ∀ s, (u s).pack = s.pack ∧ (u s).cwTrace = s.cwTrace) :
    Blockable fun s => push c (u s) := by
  refine ⟨fun n s hs => keepsFrom_push_pushed n c (u s) ?_, fun s p hc hp => .inr ⟨⟨_, push_overfull c ?_⟩, ?_⟩⟩
  · rwa [Pushed, (hu s).1, (hu s).2]
  · rwa [(hu _).1]
  · rw [← (hu s).2]
    exact ends_push_pushed c (by rwa [(hu s).1])

theorem Blockable.andThen {f g : State → Res} (hf : Blockable f) (hg : Blockable g) :
    Blockable fun s => (f s).andThen g := by
  refine ⟨fun n => (hf.grows n).andThen (hg.grows n), fun s p hc hp => ?_⟩
  obtain ⟨t, ht, hpack, hcw, htp⟩ | ⟨⟨u, hu⟩, hends⟩ := hf.blocked s p hc hp
  · rw [ht, htp, andThen_ok, andThen_ok]
    have h := hg.blocked t p (by rwa [hpack]) hp
    rwa [hpack, hcw] at h
  · rw [hu, andThen_overfull]
    refine .inr ⟨⟨u, rfl⟩, ?_⟩
    cases hr : f s with
    | ok t => rw [hr] at hends; exact hg.grows _ t hends
    | abort t => rw [hr] at hends; exact hends
    | overfull t => rw [hr] at hends; exact hends

/-- A register write that neither reads nor writes the Pack Buffer. -/
def Aside (u : State → State) : Prop :=
  ∀ s, (u s).pack = s.pack ∧ (u s).cwTrace = s.cwTrace ∧ ∀ p, u (withPack p s) = withPack p (u s)

theorem Aside.keeps {u : State → State} (hu : Aside u) (n : Nat) : ∀ s, Pushed n s → Pushed n (u s) := by
  intro s hs
  rwa [Pushed, (hu s).1, (hu s).2.1]

theorem Blockable.update {u : State → State} (hu : Aside u) : Blockable fun s => .ok (u s) :=
  ⟨fun n => KeepsFrom.update (hu.keeps n), fun s p _ _ => by
    obtain ⟨hpack, hcw, hp⟩ := hu s
    exact .inl ⟨u s, rfl, hpack, hcw, by rw [hp]⟩⟩

theorem Blockable.after {f : State → Res} {u : State → State} (hu : Aside u) (hf : Blockable f) :
    Blockable fun s => f (u s) := by
  refine ⟨fun n => KeepsFrom.after (hu.keeps n) (hf.grows n), fun s p hc hp => ?_⟩
  obtain ⟨hpack, hcw, hup⟩ := hu s
  have h := hf.blocked (u s) p (by rwa [hpack]) hp
  rwa [hpack, hcw, ← hup] at h

theorem Blockable.onExit {f : State → Res} {u : State → State} (hf : Blockable f) (hu : Aside u) :
    Blockable fun s => (f s).onExit u := by
  refine ⟨fun n => (hf.grows n).onExit (hu.keeps n), fun s p hc hp => ?_⟩
  obtain ⟨t, ht, hpack, hcw, htp⟩ | ⟨⟨v, hv⟩, hends⟩ := hf.blocked s p hc hp
  · rw [ht, htp, onExit_ok, onExit_ok]
    obtain ⟨hupack, hucw, hup⟩ := hu t
    exact .inl ⟨u t, rfl, hupack.trans hpack, hucw.trans hcw, by rw [hup]⟩
  · rw [hv, onExit_overfull]
    refine .inr ⟨⟨_, rfl⟩, ?_⟩
    cases hr : f s with
    | ok t => rw [hr] at hends; exact hu.keeps _ t hends
    | abort t => rw [hr] at hends; exact hu.keeps _ t hends
    | overfull t => rw [hr] at hends; exact hends

/-- A micro-operation that reads an operand off a register aside from the Pack Buffer. -/
theorem Blockable.reading {α : Type} {f : α → State → Res} (g : State → α) (hf : ∀ a, Blockable (f a))
    (hg : ∀ s p, g (withPack p s) = g s) : Blockable fun s => f (g s) s :=
  ⟨fun n s hs => (hf (g s)).grows n s hs, fun s p hc hp => by
    show (∃ t, f (g s) s = .ok t ∧ _ ∧ _ ∧ f (g (withPack p s)) (withPack p s) = _) ∨
      (∃ u, f (g (withPack p s)) (withPack p s) = _) ∧ _
    rw [hg]
    exact (hf (g s)).blocked s p hc hp⟩

theorem Blockable.ite {f g : State → Res} (c : Bool) (hf : Blockable f) (hg : Blockable g) :
    Blockable fun s => if c then f s else g s := by
  cases c
  · exact hg
  · exact hf

theorem Blockable.forEach {α : Type} {f : α → State → Res} (l : List α) (hf : ∀ a, Blockable (f a)) :
    Blockable (forEach l f) := by
  induction l with
  | nil => exact blockable_ok
  | cons a l ih => exact (hf a).andThen ih

theorem Blockable.repeatN {f : State → Res} (n : Nat) (hf : Blockable f) : Blockable (repeatN n f) := by
  induction n with
  | zero => exact blockable_ok
  | succ n ih => exact hf.andThen ih

theorem Blockable.congr {f g : State → Res} (h : Blockable f) (e : ∀ s, g s = f s) : Blockable g :=
  funext e ▸ h

/-! ### The Framer and the windows -/

theorem blockable_framerData16 (w : Word16) : Blockable (framerData16 w) := (blockable_push _).andThen (blockable_push _)

theorem blockable_rangeCmd (code : Byte) (b e : Word16) : Blockable (rangeCmd code b e) :=
  ((blockable_push _).andThen (blockable_framerData16 b)).andThen (blockable_framerData16 e)

theorem blockable_windowCmds (x0 y0 x1 y1 : Word16) : Blockable (windowCmds x0 y0 x1 y1) := by
  have hrow (b e b' e' : Word16) :
      Blockable fun s => (rangeCmd s.dev.rowcmd b e s).andThen fun s => rangeCmd s.dev.colcmd b' e' s :=
    (Blockable.reading (fun s => s.dev.rowcmd) (f := fun c => rangeCmd c b e) (fun c => blockable_rangeCmd c b e)
      fun _ _ => rfl).andThen
      (Blockable.reading (fun s => s.dev.colcmd) (f := fun c => rangeCmd c b' e') (fun c => blockable_rangeCmd c b' e')
        fun _ _ => rfl)
  have hcol (b e b' e' : Word16) :
      Blockable fun s => (rangeCmd s.dev.colcmd b e s).andThen fun s => rangeCmd s.dev.rowcmd b' e' s :=
    (Blockable.reading (fun s => s.dev.colcmd) (f := fun c => rangeCmd c b e) (fun c => blockable_rangeCmd c b e)
      fun _ _ => rfl).andThen
      (Blockable.reading (fun s => s.dev.rowcmd) (f := fun c => rangeCmd c b' e') (fun c => blockable_rangeCmd c b' e')
        fun _ _ => rfl)
  refine Blockable.reading
    (f := fun o s => match o with
      | .landscape => (rangeCmd s.dev.rowcmd y0 y1 s).andThen fun s => rangeCmd s.dev.colcmd x0 x1 s
      | .portrait => (rangeCmd s.dev.colcmd y0 y1 s).andThen fun s => rangeCmd s.dev.rowcmd x0 x1 s)
    (fun s => s.dev.orient) (fun o => ?_) fun _ _ => rfl
  cases o with
  | landscape => exact hrow _ _ _ _
  | portrait => exact hcol _ _ _ _

theorem blockable_doSetWindow (x0 y0 x1 y1 : Int) : Blockable (doSetWindow x0 y0 x1 y1) :=
  (blockable_windowCmds _ _ _ _).andThen
    (Blockable.update
      (u := fun s => { s with
        win := { x0 := trunc16 x0, y0 := trunc16 y0, x1 := trunc16 x1, y1 := trunc16 y1 }, asm := .windowProgrammed })
      fun _ => ⟨rfl, rfl, fun _ => rfl⟩)

theorem blockable_doArm : Blockable doArm :=
  (Blockable.reading (fun s => s.dev.ramcmd) (f := framerReg) (fun _ => blockable_push _) fun _ _ => rfl).andThen
    (Blockable.update (u := fun s => { s with asm := .ramStreaming }) fun _ => ⟨rfl, rfl, fun _ => rfl⟩)

theorem blockable_openWindow (x0 y0 x1 y1 : Int) : Blockable (openWindow x0 y0 x1 y1) :=
  (blockable_doSetWindow _ _ _ _).andThen blockable_doArm

theorem blockable_restoreFull : Blockable restoreFull :=
  (Blockable.reading (fun s => s.dev) (f := fun d => openWindow 0 0 (zext d.width - 1) (zext d.height - 1))
    (fun d => blockable_openWindow 0 0 (zext d.width - 1) (zext d.height - 1)) fun _ _ => rfl).congr fun _ => rfl

/-! ### The Rasterizer -/

theorem blockable_plot (x y : Int) (c : Word16) : Blockable (plot x y c) :=
  (Blockable.after (u := fun s => { s with plotTrace := s.plotTrace ++ [(x, y, c)] }) (fun _ => ⟨rfl, rfl, fun _ => rfl⟩)
    (blockable_openWindow x y x y)).andThen (blockable_framerData16 c)

/-- A plot in the colour FG. -/
theorem blockable_plotFg (x y : Int) : Blockable fun s => plot x y s.fg s :=
  Blockable.reading State.fg (f := plot x y) (blockable_plot x y) fun _ _ => rfl

theorem blockable_doFill (x0 y0 x1 y1 c : Word16) : Blockable (doFill x0 y0 x1 y1 c) :=
  ((blockable_openWindow _ _ _ _).andThen (Blockable.repeatN _ (blockable_framerData16 c))).andThen blockable_restoreFull

theorem blockable_lineStep (t : Nat) : Blockable (lineStep t) :=
  Blockable.after (u := fun s => { s with line := lineAdvance t s.line }) (fun _ => ⟨rfl, rfl, fun _ => rfl⟩)
    ((Blockable.reading (α := Int × Int) (fun s => (s.line.lx, s.line.ly)) (f := fun q s => plot q.1 q.2 s.fg s)
      (fun q => blockable_plotFg q.1 q.2) fun _ _ => rfl).congr (g := fun s => plot s.line.lx s.line.ly s.fg s) fun _ => rfl)

theorem blockable_doLine (x1 y1 x2 y2 : Int) : Blockable (doLine x1 y1 x2 y2) :=
  Blockable.after (u := fun s => { s with line := lineSetup x1 y1 x2 y2 }) (fun _ => ⟨rfl, rfl, fun _ => rfl⟩)
    (Blockable.forEach (List.range ((lineSetup x1 y1 x2 y2).dist.toNat + 1)) blockable_lineStep)

theorem blockable_doRect (x1 y1 x2 y2 : Int) : Blockable (doRect x1 y1 x2 y2) :=
  (((blockable_doLine _ _ _ _).andThen (blockable_doLine _ _ _ _)).andThen (blockable_doLine _ _ _ _)).andThen
    (blockable_doLine _ _ _ _)

theorem blockable_plot8 (xc yc u v : Int) : Blockable (plot8 xc yc u v) := Blockable.forEach _ fun _ => blockable_plotFg _ _

theorem blockable_circlePlots (xc yc : Int) (filled : Bool) : Blockable (circlePlots xc yc filled) := by
  have hspan (j : Nat) : Blockable fun s =>
      plot8 xc yc s.circle.cx (s.circle.cx + j) { s with circle := { s.circle with yi := s.circle.cx + j } } :=
    (Blockable.reading (fun s => s.circle.cx)
      (f := fun cx s => plot8 xc yc cx (cx + j) { s with circle := { s.circle with yi := s.circle.cx + j } })
      (fun cx => Blockable.after (u := fun s => { s with circle := { s.circle with yi := s.circle.cx + j } })
        (fun _ => ⟨rfl, rfl, fun _ => rfl⟩) (blockable_plot8 xc yc cx (cx + j)))
      fun _ _ => rfl).congr fun _ => rfl
  cases filled with
  | false =>
    exact (Blockable.reading (α := Int × Int) (fun s => (s.circle.cx, s.circle.cy)) (f := fun q s => plot8 xc yc q.1 q.2 s)
      (fun q => blockable_plot8 xc yc q.1 q.2) fun _ _ => rfl).congr fun _ => rfl
  | true =>
    exact (Blockable.reading (fun s => (s.circle.cy - s.circle.cx + 1).toNat)
      (f := fun n => forEach (List.range n) fun j s =>
        plot8 xc yc s.circle.cx (s.circle.cx + j) { s with circle := { s.circle with yi := s.circle.cx + j } })
      (fun n => Blockable.forEach (List.range n) hspan) fun _ _ => rfl).congr fun _ => rfl

theorem blockable_circleLoop (xc yc : Int) (filled : Bool) (n : Nat) : Blockable (circleLoop xc yc filled n) := by
  induction n with
  | zero => exact blockable_ok
  | succ n ih =>
    have hpass : Blockable fun s => (circlePlots xc yc filled s).andThen fun s =>
        circleLoop xc yc filled n { s with circle := circleAdvance s.circle } :=
      (blockable_circlePlots xc yc filled).andThen
        (Blockable.after (u := fun s => { s with circle := circleAdvance s.circle }) (fun _ => ⟨rfl, rfl, fun _ => rfl⟩) ih)
    refine (Blockable.reading (fun s => decide (s.circle.cx ≤ s.circle.cy)) (fun c => hpass.ite c blockable_ok)
      fun _ _ => rfl).congr fun s => ?_
    simp only [circleLoop, decide_eq_true_eq]

theorem blockable_doCircle (xc yc : Int) (r : Nat) (filled : Bool) : Blockable (doCircle xc yc r filled) :=
  Blockable.after (u := fun s => { s with circle := circleSetup r s.circle }) (fun _ => ⟨rfl, rfl, fun _ => rfl⟩)
    (blockable_circleLoop xc yc filled (r + 1))

/-! ### Text -/

theorem blockable_blockPixel (bc : Word16) (bit : Bool) : Blockable (blockPixel bc bit) :=
  Blockable.reading (fun s => if bit then s.fg else bc) (f := framerData16) blockable_framerData16 fun _ _ => rfl

theorem blockable_pointPixel (x y : Int) (bit : Bool) : Blockable (pointPixel x y bit) :=
  (blockable_plotFg x y).ite bit blockable_ok

theorem blockable_asciiCells (sz : AsciiSize) {f : Nat → Nat → State → Res} (hf : ∀ gp gt, Blockable (f gp gt)) :
    Blockable (asciiCells sz f) :=
  Blockable.forEach _ fun gp => Blockable.forEach _ fun gt =>
    Blockable.after (u := setCell gp gt) (fun _ => ⟨rfl, rfl, fun _ => rfl⟩) (hf gp gt)

theorem blockable_asciiBlit (x y : Int) (bc : Word16) (rows : List Byte) (sz : AsciiSize) (point : Bool) :
    Blockable (asciiBlit x y bc rows sz point) :=
  Blockable.ite point (blockable_asciiCells sz fun _ _ => blockable_pointPixel _ _ _)
    (((blockable_openWindow _ _ _ _).andThen (blockable_asciiCells sz fun _ _ => blockable_blockPixel bc _)).andThen
      blockable_restoreFull)

/-- A glyph between entry and exit (R212). -/
theorem blockable_inText (fc : Word16) {f : State → Res} (hf : Blockable f) :
    Blockable fun s => (f (enterText fc s)).onExit leaveText :=
  (Blockable.after (u := enterText fc) (fun _ => ⟨rfl, rfl, fun _ => rfl⟩) hf).onExit fun _ => ⟨rfl, rfl, fun _ => rfl⟩

theorem blockable_doChar (x y : Int) (fc bc : Word16) (ch : Byte) (sz : AsciiSize) (point : Bool) :
    Blockable (doChar x y fc bc ch sz point) :=
  Blockable.reading (fun s => asciiRows s.board sz ch)
    (f := fun rows s => (asciiBlit x y bc rows sz point (enterText fc s)).onExit leaveText)
    (fun rows => blockable_inText fc (blockable_asciiBlit x y bc rows sz point)) fun _ _ => rfl

theorem aside_advancePos (x : Int) (sz : WideSize) : Aside (advancePos x sz) := by
  intro s
  have hpos (p : PackBuffer) : (withPack p s).text = s.text := rfl
  refine ⟨?_, ?_, fun p => ?_⟩ <;> unfold advancePos
  · split <;> rfl
  · split <;> rfl
  · rw [hpos]
    split <;> rfl

theorem blockable_wideBlit (x y : Int) (bc : Word16) (bm : List Byte) (sz : WideSize) (point : Bool) :
    Blockable (wideBlit x y bc bm sz point) := by
  have hpixel (bit : Bool) : Blockable fun s => pointPixel s.text.px s.text.py bit s :=
    (Blockable.reading (α := Int × Int) (fun s => (s.text.px, s.text.py)) (f := fun q s => pointPixel q.1 q.2 bit s)
      (fun q => blockable_pointPixel q.1 q.2 bit) fun _ _ => rfl).congr fun _ => rfl
  exact Blockable.ite point
    (Blockable.after (u := startPos x y) (fun _ => ⟨rfl, rfl, fun _ => rfl⟩)
      (Blockable.forEach _ fun bit => (hpixel bit).andThen (Blockable.update (aside_advancePos x sz))))
    (((blockable_openWindow _ _ _ _).andThen (Blockable.forEach _ (blockable_blockPixel bc))).andThen blockable_restoreFull)

theorem blockable_doGlyph (x y : Int) (fc bc code : Word16) (sz : WideSize) (point : Bool) :
    Blockable (doGlyph x y fc bc code sz point) := by
  refine Blockable.reading (fun s => s.board)
    (f := fun b s => match scanIndex code (dbIndex b sz) with
      | none => .ok s
      | some k => (wideBlit x y bc (wideBitmap b sz k) sz point (enterText fc s)).onExit leaveText)
    (fun b => ?_) fun _ _ => rfl
  cases scanIndex code (dbIndex b sz) with
  | none => exact blockable_ok
  | some k => exact blockable_inText fc (blockable_wideBlit x y bc (wideBitmap b sz k) sz point)

theorem blockable_stringChar (fc bc : Word16) (size : Byte) (point : Bool) (b : Byte) :
    Blockable (stringChar fc bc size point b) := by
  unfold stringChar
  cases asciiSize size with
  | none => exact blockable_ok
  | some sz =>
    exact (Blockable.reading (α := Int × Int) (fun s => (s.text.tx, s.text.ty)) 
      (f := fun q s => doChar q.1 q.2 fc bc b sz point s)
      (fun q => blockable_doChar q.1 q.2 fc bc b sz point) fun _ _ => rfl).congr fun _ => rfl

theorem blockable_stringGlyph (fc bc : Word16) (size : Byte) (point : Bool) (code : Word16) :
    Blockable (stringGlyph fc bc size point code) := by
  unfold stringGlyph
  cases wideSize size with
  | none => exact blockable_ok
  | some sz =>
    exact (Blockable.reading (α := Int × Int) (fun s => (s.text.tx, s.text.ty)) 
      (f := fun q s => doGlyph q.1 q.2 fc bc code sz point s)
      (fun q => blockable_doGlyph q.1 q.2 fc bc code sz point) fun _ _ => rfl).congr fun _ => rfl

/-- The bound check at the cursor. -/
theorem blockable_fits {f : State → Res} (adv size : Nat) (hf : Blockable f) :
    Blockable fun s => if fits s.text.tx s.text.ty adv size s.dev then f s else .ok s :=
  (Blockable.reading (fun s => fits s.text.tx s.text.ty adv size s.dev) (fun c => hf.ite c blockable_ok)
    fun _ _ => rfl).congr fun _ => rfl

/-- Along the loop's branches (R209): an ASCII character, a carriage return, a lead byte, any other byte. -/
theorem blockable_stringLoop (fc bc : Word16) (size : Byte) (point : Bool) :
    (bytes : List Byte) → Blockable (stringLoop fc bc size point bytes)
  | [] => blockable_ok
  | b :: rest => by
    have hrest := blockable_stringLoop fc bc size point rest
    by_cases hb : isAscii b = true
    · have h := blockable_fits (size.toNat / 2) size.toNat ((blockable_stringChar fc bc size point b).andThen
        (Blockable.after (u := advanceCursor (size.toNat / 2) 1) (fun _ => ⟨rfl, rfl, fun _ => rfl⟩) hrest))
      refine h.congr fun s => ?_
      rw [stringLoop.eq_def]
      simp only [if_pos hb]
    · by_cases hcr : b = 0x0D#8
      · have h := Blockable.after (u := carriageReturn size.toNat) (fun _ => ⟨rfl, rfl, fun _ => rfl⟩) hrest
        refine h.congr fun s => ?_
        rw [stringLoop.eq_def]
        simp only [if_neg hb, if_pos hcr]
      · by_cases hh : b.toNat ≥ 0x80
        · match rest with
          | [] =>
            refine blockable_ok.congr fun s => ?_
            rw [stringLoop.eq_def]
            simp only [if_neg hb, if_neg hcr, if_pos hh]
          | b1 :: rest' =>
            have h := blockable_fits size.toNat size.toNat ((blockable_stringGlyph fc bc size point (be16 b b1)).andThen
              (Blockable.after (u := advanceCursor size.toNat 2) (fun _ => ⟨rfl, rfl, fun _ => rfl⟩)
                (blockable_stringLoop fc bc size point rest')))
            refine h.congr fun s => ?_
            show stringLoop fc bc size point (b :: b1 :: rest') s = _
            rw [stringLoop.eq_def]
            simp only [if_neg hb, if_neg hcr, if_pos hh]
        · have h := Blockable.after (u := skipByte) (fun _ => ⟨rfl, rfl, fun _ => rfl⟩) hrest
          refine h.congr fun s => ?_
          rw [stringLoop.eq_def]
          simp only [if_neg hb, if_neg hcr, if_neg hh]

theorem blockable_doString (x y : Int) (fc bc : Word16) (size : Byte) (point : Bool) (bytes : List Byte) :
    Blockable (doString x y fc bc size point bytes) :=
  Blockable.after (u := startCursor x y) (fun _ => ⟨rfl, rfl, fun _ => rfl⟩) (blockable_stringLoop fc bc size point bytes)

/-! ### Every operation behind the gate but TEARDOWN -/

/-- The operation from `s` and from `s` with the full Pack Buffer `p`: the same, pushing nothing, or a fault where
from `s` it pushes. -/
def Blocks (p : PackBuffer) (i : Instr) (s : State) : Prop :=
  (∃ t, exec i s = .next t ∧ t.pack = s.pack ∧ t.cwTrace = s.cwTrace ∧ exec i (withPack p s) = .next (withPack p t)) ∨
  (exec i (withPack p s) = .fault .batchOverfull ∧ ∃ t, exec i s = .next t ∧ s.cwTrace.length < t.cwTrace.length)

section
variable {i : Instr} {s : State} {p : PackBuffer}

theorem blocks_of_blockable {f : State → Res} (hc : s.pack.cnt < batch) (hp : batch ≤ p.cnt) (hf : Blockable f)
    (hs : exec i s = finish (f s)) (hsp : exec i (withPack p s) = finish (f (withPack p s))) : Blocks p i s := by
  obtain ⟨t, ht, hpack, hcw, htp⟩ | ⟨⟨u, hu⟩, hends⟩ := hf.blocked s p hc hp
  · exact .inl ⟨respond .ok t, by rw [hs, ht, finish_ok], hpack, hcw, by rw [hsp, htp]; rfl⟩
  · refine .inr ⟨by rw [hsp, hu, finish_overfull], ?_⟩
    rw [hs]
    cases hr : f s with
    | ok t => rw [hr] at hends; exact ⟨_, rfl, hends.2⟩
    | abort t => rw [hr] at hends; exact ⟨_, rfl, hends.2⟩
    | overfull t => rw [hr] at hends; exact hends.elim

theorem blocks_of_gated {f : State → Res} (hr : s.ready = true) (hc : s.pack.cnt < batch) (hp : batch ≤ p.cnt)
    (hf : Blockable f) (hx : ∀ s, exec i s = gated s fun s => finish (f s)) : Blocks p i s :=
  blocks_of_blockable hc hp hf ((hx s).trans (gated_ready hr _)) ((hx _).trans (gated_ready (s := withPack p s) hr _))

/-- An operation turned away before it begins. -/
theorem blocks_of_reject {st : Status} (hs : exec i s = .next (respond st s))
    (hsp : exec i (withPack p s) = .next (respond st (withPack p s))) : Blocks p i s :=
  .inl ⟨_, hs, rfl, rfl, hsp⟩

/-- An operation whose effect is another's. -/
theorem Blocks.congr {i' : Instr} (h : Blocks p i s) (hs : exec i' s = exec i s)
    (hsp : exec i' (withPack p s) = exec i (withPack p s)) : Blocks p i' s := by
  rwa [Blocks, hs, hsp]

theorem blocks_rawPush (c : Carrier) (hx : ∀ s, exec i s = rawPush c s) (hr : s.ready = true) (hc : s.pack.cnt < batch)
    (hp : batch ≤ p.cnt) : Blocks p i s :=
  blocks_of_blockable (f := fun s => (push c (noteRaw (codewordOf c) s)).andThen fun s =>
      .ok { s with asm := asmAfterRaw (codewordOf c) s.asm }) hc hp
    ((blockable_noted fun s => ⟨noteRaw_pack _ s, noteRaw_cwTrace _ s⟩).andThen
      (Blockable.update fun _ => ⟨rfl, rfl, fun _ => rfl⟩))
    (by rw [hx, rawPush, gated_ready hr]) (by rw [hx, rawPush, gated_ready (s := withPack p s) hr])

theorem blockable_hostData8 (b : Byte) : Blockable (hostData8 b) :=
  blockable_noted fun s => ⟨noteData_pack s, noteData_cwTrace s⟩

theorem blockable_armNoted : Blockable fun s => doArm (noteArm s) := by
  have hpush (b : Byte) : Blockable fun s => framerReg b (noteArm s) :=
    blockable_noted fun s => ⟨noteArm_pack s, noteArm_cwTrace s⟩
  have hdev (s : State) : (noteArm s).dev.ramcmd = s.dev.ramcmd := by rw [noteArm_dev]
  have h := (Blockable.reading (fun s => s.dev.ramcmd) hpush fun _ _ => rfl).andThen
    (Blockable.update (u := fun s => { s with asm := .ramStreaming }) fun _ => ⟨rfl, rfl, fun _ => rfl⟩)
  refine h.congr fun s => ?_
  rw [doArm, hdev]

theorem blocks_char (x y fc bc : Word16) {ch size mode : Byte} (hr : s.ready = true) (hc : s.pack.cnt < batch)
    (hp : batch ≤ p.cnt) (hl : legal (.char x y fc bc ch size mode) s = true) :
    Blocks p (.char x y fc bc ch size mode) s := by
  simp only [legal, Instr.wellFormed, Bool.and_eq_true] at hl
  obtain ⟨⟨hch, hsize⟩, hm⟩ := hl
  obtain ⟨sz, hsz⟩ := asciiSize_of_ok hsize
  have hx := exec_char hr x y fc bc hch hsz (bitOperand_of_ok hm)
  have hxp := exec_char (s := withPack p s) hr x y fc bc hch hsz (bitOperand_of_ok hm)
  rw [show (withPack p s).dev = s.dev from rfl] at hxp
  by_cases hf : fits (zext x) (zext y) (asciiPx sz / 2) (asciiPx sz) s.dev = true
  · rw [if_pos hf] at hx hxp
    exact blocks_of_blockable hc hp (blockable_doChar _ _ fc bc ch sz _) hx hxp
  · rw [if_neg hf] at hx hxp
    exact blocks_of_reject hx hxp

theorem blocks_glyph (x y fc bc code : Word16) {size mode : Byte} (hr : s.ready = true) (hc : s.pack.cnt < batch)
    (hp : batch ≤ p.cnt) (hl : legal (.glyph x y fc bc code size mode) s = true) :
    Blocks p (.glyph x y fc bc code size mode) s := by
  simp only [legal, Instr.wellFormed, Bool.and_eq_true] at hl
  obtain ⟨sz, hsz⟩ := wideSize_of_ok hl.1
  have hx := exec_glyph hr x y fc bc code hsz (bitOperand_of_ok hl.2)
  have hxp := exec_glyph (s := withPack p s) hr x y fc bc code hsz (bitOperand_of_ok hl.2)
  rw [show (withPack p s).dev = s.dev from rfl] at hxp
  by_cases hf : fits (zext x) (zext y) (widePx sz) (widePx sz) s.dev = true
  · rw [if_pos hf] at hx hxp
    exact blocks_of_blockable hc hp (blockable_doGlyph _ _ fc bc code sz _) hx hxp
  · rw [if_neg hf] at hx hxp
    exact blocks_of_reject hx hxp

theorem blocks_string (x y fc bc : Word16) {size mode : Byte} {bytes : List Byte} (hr : s.ready = true)
    (hc : s.pack.cnt < batch) (hp : batch ≤ p.cnt) (hsz : textSizeOk size = true) (hm : bitOk mode = true)
    (hl : bytes.length ≤ 65535) : Blocks p (.string x y fc bc size mode bytes) s :=
  blocks_of_blockable hc hp (blockable_doString _ _ fc bc size _ bytes)
    (exec_string hr x y fc bc hsz (bitOperand_of_ok hm) hl)
    (exec_string (s := withPack p s) hr x y fc bc hsz (bitOperand_of_ok hm) hl)

/-- Behind the READY gate, the operands legal. -/
theorem blocks_legal (hu : ungated i = false) (ht : isTeardown i = false) (hr : s.ready = true) (hc : s.pack.cnt < batch)
    (hp : batch ≤ p.cnt) (hl : legal i s = true) : Blocks p i s := by
  have hrp : (withPack p s).ready = true := hr
  cases i with
  | push c => exact blocks_rawPush c (fun _ => rfl) hr hc hp
  | teardown => exact Bool.noConfusion ht
  | wrreg b =>
    exact blocks_of_gated hr hc hp
      ((blockable_push _).andThen
        (Blockable.update (u := fun s => { s with asm := .idle }) fun _ => ⟨rfl, rfl, fun _ => rfl⟩))
      fun _ => rfl
  | wrdat8 b => exact blocks_of_gated hr hc hp (blockable_hostData8 b) fun _ => rfl
  | wrdat16 w =>
    exact blocks_of_gated hr hc hp ((blockable_hostData8 (hiByte w)).andThen (blockable_hostData8 (loByte w))) fun _ => rfl
  | setwin x0 y0 x1 y1 =>
    exact blocks_of_blockable hc hp (blockable_doSetWindow _ _ _ _) (exec_setwin hr _ _ _ _) (exec_setwin hrp _ _ _ _)
  | armram => exact blocks_of_gated hr hc hp blockable_armNoted fun _ => rfl
  | setcur x y =>
    exact blocks_of_blockable hc hp (blockable_openWindow _ _ _ _) (exec_setcur hr _ _) (exec_setcur hrp _ _)
  | point x y c =>
    exact blocks_of_blockable hc hp (blockable_plot _ _ _) (exec_point hr _ _ _) (exec_point hrp _ _ _)
  | fill x0 y0 x1 y1 c =>
    exact blocks_of_blockable hc hp (blockable_doFill _ _ _ _ _) (exec_fill hr hl c) (exec_fill hrp hl c)
  | clear c =>
    simp only [legal, Bool.and_eq_true, bne_iff_ne] at hl
    exact Blocks.congr (blocks_of_blockable hc hp (blockable_doFill _ _ _ _ _)
        (exec_fill hr ByDefinition.ordered_screen c) (exec_fill hrp ByDefinition.ordered_screen c))
      (ByDefinition.execClear_eq_execFill hl.1 hl.2 c)
      (ByDefinition.execClear_eq_execFill (s := withPack p s) hl.1 hl.2 c)
  | line x1 y1 x2 y2 =>
    exact blocks_of_blockable hc hp (blockable_doLine _ _ _ _) (exec_line hr _ _ _ _) (exec_line hrp _ _ _ _)
  | rect x1 y1 x2 y2 =>
    exact blocks_of_blockable hc hp (blockable_doRect _ _ _ _) (exec_rect hr _ _ _ _) (exec_rect hrp _ _ _ _)
  | frect x1 y1 x2 y2 =>
    exact Blocks.congr (blocks_of_blockable hc hp (blockable_doFill _ _ _ _ _) (exec_fill hr hl s.fg)
        (exec_fill hrp hl s.fg))
      (ByDefinition.execFrect_eq_execFill x1 y1 x2 y2 s) (ByDefinition.execFrect_eq_execFill x1 y1 x2 y2 _)
  | circle xc yc r filled =>
    exact blocks_of_blockable hc hp (blockable_doCircle _ _ _ _) (exec_circle hr _ _ _ (bitOperand_of_ok hl))
      (exec_circle hrp _ _ _ (bitOperand_of_ok hl))
  | char x y fc bc ch size mode => exact blocks_char x y fc bc hr hc hp hl
  | glyph x y fc bc code size mode => exact blocks_glyph x y fc bc code hr hc hp hl
  | string x y fc bc size mode bytes =>
    simp only [legal, Instr.wellFormed, Bool.and_eq_true, decide_eq_true_eq] at hl
    exact blocks_string x y fc bc hr hc hp hl.1.1 hl.1.2 hl.2
  | number x y fc bc num len size mode =>
    simp only [legal, Instr.wellFormed, Bool.and_eq_true, decide_eq_true_eq] at hl
    obtain ⟨⟨⟨h1, h10⟩, hsz⟩, hm⟩ := hl
    have hlen : (numberString num.toNat len.toNat).length ≤ 65535 := by
      rw [ByDefinition.numberString_length]
      omega
    exact Blocks.congr (blocks_string x y fc bc hr hc hp hsz hm hlen)
      (ByDefinition.execNumber_eq_execString x y fc bc num size mode s h1 h10)
      (ByDefinition.execNumber_eq_execString x y fc bc num size mode _ h1 h10)
  | init o => exact Bool.noConfusion hu
  | setcolors fg bg => exact Bool.noConfusion hu
  | cwCmd b => exact blocks_rawPush _ (fun _ => rfl) hr hc hp
  | cwDat b => exact blocks_rawPush _ (fun _ => rfl) hr hc hp
  | carrierCmd b x => exact blocks_rawPush _ (fun _ => rfl) hr hc hp
  | carrierDat b x => exact blocks_rawPush _ (fun _ => rfl) hr hc hp

end

end Sys2Proof.Proofs.FullBatch
end

section
/-! How an operation behind the READY gate ends (spec/60_exceptions.md R247, R249, R250): turned away at the gate or by its
operands, its stream of draws whole, or its stream cut short. TEARDOWN has its own ends. -/

namespace Sys2Proof.Proofs.Endings

open Sys2Proof Sys2Proof.Machine Sys2Proof.Config Sys2Proof.Safety Sys2Proof.Proofs.FailedBatch
open Sys2Proof.Proofs.OperationStream Sys2Proof.Proofs.DrawingStreams Sys2Proof.Proofs.FullBatch

/-- The state an operation behind the gate, TEARDOWN apart, ends in. An operation that meets the batch full ends only
where it draws nothing. -/
inductive Ended (i : Instr) (s : State) : State → Prop
  | closed (hr : s.ready = false) : Ended i s (respond .eOpen s)
  | illegal (hr : s.ready = true) (hl : legal i s = false) : Ended i s (respond .eArg s)
  | done (k : Engines) (y : List Nat) (z : Sink) (hr : s.ready = true) (hl : legal i s = true)
      (hc : s.pack.cnt < batch ∨ drawsOf i s = []) (hw : WordsOk s (codewordsOf s.dev (drawsOf i s)))
      (hk : OwnEngine i s k)
      (hduty : keepsWindowDuty i s = true → y = (streamed s (drawsOf i s)).strays ∧ z = (streamed s (drawsOf i s)).sink) :
      Ended i s (respond .ok (doneState s (drawsOf i s) k y z))
  | cut (j : Nat) (k : Engines) (hr : s.ready = true) (hl : legal i s = true) (hc : s.pack.cnt < batch)
      (hj : FirstFailure s (codewordsOf s.dev (drawsOf i s)) j) (hk : OwnEngine i s k) :
      Ended i s (respond .eXfer (cutState s (drawsOf i s) j k))

theorem codewordsOf_eq_nil {d : DeviceState} {ds : List Draw} : codewordsOf d ds = [] ↔ ds = [] := by
  constructor
  · intro h
    cases ds with
    | nil => rfl
    | cons x ds =>
      rw [codewordsOf_cons, List.append_eq_nil_iff] at h
      exact absurd (drawCodewords_pos d x) (by rw [h.1]; exact Nat.lt_irrefl 0)
  · rintro rfl
    rfl

/-- The draws of an operation do not depend on the Pack Buffer, TEARDOWN's padding apart. -/
theorem drawsOf_withPack {i : Instr} (ht : isTeardown i = false) (p : PackBuffer) (s : State) :
    drawsOf i (withPack p s) = drawsOf i s := by
  cases i with
  | teardown => exact Bool.noConfusion ht
  | _ => rfl

/-- An operation that breaks the window duty pushes a codeword. -/
theorem keepsWindowDuty_of_drawsOf_nil {i : Instr} {s : State} (h : drawsOf i s = []) : keepsWindowDuty i s = true := by
  cases i with
  | push c => cases h
  | armram => cases h
  | wrdat8 b => cases h
  | wrdat16 w => cases h
  | cwDat p => cases h
  | carrierDat p x => cases h
  | _ => rfl

/-- From a batch not full. -/
theorem ended_below {i : Instr} {s : State} (hu : ungated i = false) (ht : isTeardown i = false) (hc : s.pack.cnt < batch)
    (hr : s.ready = true) (hl : legal i s = true) : ∃ t, exec i s = .next t ∧ Ended i s t := by
  obtain ⟨hok, hcut⟩ := runs_exec hu ht hr hc hl
  obtain hw | ⟨j, hj⟩ := wordsOk_or_firstFailure s (codewordsOf s.dev (drawsOf i s))
  · obtain ⟨k, y, z, hk, hduty, hx⟩ := hok hw
    exact ⟨_, hx, .done k y z hr hl (.inl hc) hw hk hduty⟩
  · obtain ⟨k, hk, hx⟩ := hcut j hj
    exact ⟨_, hx, .cut j k hr hl hc hj hk⟩

/-- An end that pushed nothing drew nothing, and left every register but the engine's. -/
theorem ended_still {i : Instr} {s t : State} (hr : s.ready = true) (hl : legal i s = true) (h : Ended i s t)
    (hcw : t.cwTrace = s.cwTrace) :
    drawsOf i s = [] ∧ ∃ k, OwnEngine i s k ∧ t = respond .ok (withEngines s k) := by
  cases h with
  | closed hr' => rw [hr] at hr'; cases hr'
  | illegal _ hl' => rw [hl] at hl'; cases hl'
  | done k y z _ _ _ _ hk hduty =>
    have hds : drawsOf i s = [] := by
      have h : s.cwTrace ++ codewordsOf s.dev (drawsOf i s) = s.cwTrace := hcw
      exact codewordsOf_eq_nil.1 (List.append_right_eq_self.1 h)
    obtain ⟨rfl, rfl⟩ := hduty (keepsWindowDuty_of_drawsOf_nil hds)
    refine ⟨hds, k, hk, ?_⟩
    rw [hds, doneState, streamed_nil]
    rfl
  | cut j k _ _ hc hj _ =>
    have h : s.cwTrace ++ cutWords s (codewordsOf s.dev (drawsOf i s)) j = s.cwTrace := hcw
    obtain ⟨-, hpos⟩ := cutWords_length hc hj
    rw [List.append_right_eq_self.1 h] at hpos
    exact absurd hpos (Nat.lt_irrefl 0)

theorem ownEngine_of_withPack {i : Instr} {s : State} {k : Engines} {p : PackBuffer} (h : OwnEngine i (withPack p s) k) :
    OwnEngine i s k :=
  ⟨h.fg, h.line, h.circle, h.text⟩

/-- Met full, the batch lets an operation end only where it pushes nothing. -/
theorem ended_full {i : Instr} {s t : State} (hu : ungated i = false) (ht : isTeardown i = false) (hc : batch ≤ s.pack.cnt)
    (hr : s.ready = true) (hl : legal i s = true) (hx : exec i s = .next t) : Ended i s t := by
  have hself : withPack s.pack (withPack PackBuffer.reset s) = s := rfl
  have hlegal : legal i (withPack PackBuffer.reset s) = true := hl
  have hbelow : (withPack PackBuffer.reset s).pack.cnt < batch := Nat.zero_lt_succ _
  obtain ⟨u, hxu, -, hcw, hxp⟩ | ⟨hfault, -⟩ := blocks_legal (s := withPack PackBuffer.reset s) (p := s.pack)
    hu ht hr hbelow hc hlegal
  · obtain ⟨v, hxv, hv⟩ := ended_below (s := withPack PackBuffer.reset s) hu ht hbelow hr hlegal
    obtain rfl := Host.Outcome.next.inj (hxu.symm.trans hxv)
    obtain ⟨hds, k, hk, rfl⟩ := ended_still (s := withPack PackBuffer.reset s) hr hlegal hv hcw
    rw [hself, hx] at hxp
    obtain rfl := Host.Outcome.next.inj hxp
    rw [drawsOf_withPack ht] at hds
    have hdone := Ended.done k s.strays s.sink hr hl (.inr hds) (by rw [hds]; exact fun _ h => absurd h (Nat.not_lt_zero _))
      (ownEngine_of_withPack hk) fun _ => by rw [hds, streamed_nil]; exact ⟨rfl, rfl⟩
    rw [hds, doneState, streamed_nil] at hdone
    exact hdone
  · rw [hself, hx] at hfault
    cases hfault

/-- Every end. -/
theorem ended {i : Instr} {s t : State} (hu : ungated i = false) (ht : isTeardown i = false) (hx : exec i s = .next t) :
    Ended i s t := by
  cases hr : s.ready with
  | false =>
    obtain rfl := Host.Outcome.next.inj ((OpenFailure.exec_notReady hu hr).symm.trans hx)
    exact .closed hr
  | true =>
    cases hl : legal i s with
    | false =>
      obtain rfl := Host.Outcome.next.inj ((OperandDomains.illegalOperandsReturnEArg i s (.inr hr) hl).symm.trans hx)
      exact .illegal hr hl
    | true =>
      obtain hc | hc := Nat.lt_or_ge s.pack.cnt batch
      · obtain ⟨u, hxu, h⟩ := ended_below hu ht hc hr hl
        obtain rfl := Host.Outcome.next.inj (hxu.symm.trans hx)
        exact h
      · exact ended_full hu ht hc hr hl hx

end Sys2Proof.Proofs.Endings
end

section
/-! INIT (spec/45_system.md R230, R231, R242): its four ends. -/

namespace Sys2Proof.Proofs.Initialization

open Sys2Proof Sys2Proof.Machine Sys2Proof.Config Sys2Proof.Proofs.FailedBatch Sys2Proof.Proofs.OpenFailure
open Sys2Proof.Proofs.OperationStream Sys2Proof.Proofs.Frames Sys2Proof.Proofs.OperandDomains

/-! ### The initialization sequence -/

/-- The codewords of an initialization sequence. -/
def initWords (l : List (CmdKind × Byte)) : List Codeword :=
  l.map fun it => match it.1 with | .reg => cmdCodeword it.2 | .data => datCodeword it.2

theorem isPushes_initItems (l : List (CmdKind × Byte)) {s : State} (hc : s.pack.cnt < batch) :
    IsPushes (forEach l initItem) s (initWords l) := by
  induction l generalizing s with
  | nil =>
    exact ⟨fun _ => by rw [show initWords [] = [] from rfl, sendAll_nil]; rfl, fun _ hj => absurd hj.1 (Nat.not_lt_zero _)⟩
  | cons it l ih => exact (isPushes_initItem it hc).andThen hc (ih (sendAll_cnt_lt _ hc))

/-- The state in which the sequence of INIT begins: READY cleared, the transport opened, the device state loaded. -/
def loaded (o : Orient) (s : State) : State := initLoad o (countOpen { s with ready := false })

theorem loaded_cnt_lt (o : Orient) (s : State) : (loaded o s).pack.cnt < batch := Nat.zero_lt_succ _

/-- INIT, every transfer of its sequence succeeding. -/
def initialized (o : Orient) (s : State) : State :=
  { gpioSet .backlight .on (sendAll (loaded o s) (initWords (initSeq s.board o))) with ready := true }

/-- INIT whose `j`-th transfer is the first to fail. -/
def initCut (o : Orient) (s : State) (j : Nat) : State :=
  { sendAll (loaded o s) (cutWords (loaded o s) (initWords (initSeq s.board o)) j) with asm := .idle }

section
variable {o : Orient} {s : State} (hopen : ¬nextOpen s < 0)
include hopen

theorem initState_eq_initEnd :
    initState o s = initEnd ((forEach (initSeq s.board o) initItem (loaded o s)).andThen fun s =>
      .ok { gpioSet .backlight .on s with ready := true }) :=
  initState_opened hopen o

theorem initState_ok (hw : WordsOk (loaded o s) (initWords (initSeq s.board o))) :
    initState o s = respond .ok (initialized o s) := by
  rw [initState_eq_initEnd hopen, (isPushes_initItems _ (loaded_cnt_lt o s)).ok hw]
  rfl

theorem initState_cut {j : Nat} (hj : FirstFailure (loaded o s) (initWords (initSeq s.board o)) j) :
    initState o s = respond .eXfer (initCut o s j) := by
  rw [initState_eq_initEnd hopen, (isPushes_initItems _ (loaded_cnt_lt o s)).cut j hj]
  rfl

end

/-- The state INIT ends in. -/
inductive InitEnded (b : Byte) (s : State) : State → Prop
  | illegal (ho : orientOperand b = none) : InitEnded b s (respond .eArg s)
  | notOpened (o : Orient) (ho : orientOperand b = some o) (hopen : nextOpen s < 0) :
      InitEnded b s (respond .eOpen (countOpen { s with ready := false }))
  | done (o : Orient) (ho : orientOperand b = some o) (hopen : ¬nextOpen s < 0)
      (hw : WordsOk (loaded o s) (initWords (initSeq s.board o))) : InitEnded b s (respond .ok (initialized o s))
  | cut (o : Orient) (j : Nat) (ho : orientOperand b = some o) (hopen : ¬nextOpen s < 0)
      (hj : FirstFailure (loaded o s) (initWords (initSeq s.board o)) j) : InitEnded b s (respond .eXfer (initCut o s j))

theorem initEnded {b : Byte} {s t : State} (h : exec (.init b) s = .next t) : InitEnded b s t := by
  cases ho : orientOperand b with
  | none =>
    obtain rfl := Host.Outcome.next.inj ((exec_init_of_none ho s).symm.trans h)
    exact .illegal ho
  | some o =>
    obtain rfl := Host.Outcome.next.inj ((exec_init_of_some ho s).symm.trans h)
    by_cases hopen : nextOpen s < 0
    · rw [initState_notOpened hopen]
      exact .notOpened o ho hopen
    · obtain hw | ⟨j, hj⟩ := wordsOk_or_firstFailure (loaded o s) (initWords (initSeq s.board o))
      · rw [initState_ok hopen hw]
        exact .done o ho hopen hw
      · rw [initState_cut hopen hj]
        exact .cut o j ho hopen hj

/-! ### The sequence as raw draws -/

/-- The draws of an initialization sequence. -/
def initDraws (l : List (CmdKind × Byte)) : List Draw := (initWords l).map .raw

theorem initDraws_plain (l : List (CmdKind × Byte)) : ∀ x ∈ initDraws l, Plain x := by
  intro x hx
  obtain ⟨cw, -, rfl⟩ := List.mem_map.1 hx
  exact plain_raw cw

theorem codewordsOf_initDraws (d : DeviceState) (l : List (CmdKind × Byte)) : codewordsOf d (initDraws l) = initWords l := by
  rw [codewordsOf, initDraws, List.flatMap_map]
  exact List.flatMap_singleton' _

/-- Pushed while ASM is Idle, raw codewords leave it Idle (R158). -/
theorem foldl_drawAsm_raw (ws : List Codeword) : (ws.map Draw.raw).foldl drawAsm .idle = .idle := by
  induction ws with
  | nil => rfl
  | cons cw ws ih =>
    have hstay : drawAsm .idle (.raw cw) = .idle := ite_self _
    rw [List.map_cons, List.foldl_cons, hstay, ih]

theorem initDraws_eq (l : List (CmdKind × Byte)) :
    (l.map fun it => Draw.raw (BitVec.ofNat 9 ((if it.1 = .reg then 0 else 0x100) + it.2.toNat))) = initDraws l := by
  rw [initDraws, initWords, List.map_map]
  refine List.map_congr_left fun it _ => ?_
  obtain ⟨kind, b⟩ := it
  cases kind with
  | reg => rw [Function.comp_apply, if_pos rfl, Nat.zero_add, cmdCodeword_eq_ofNat]
  | data => rw [Function.comp_apply, if_neg CmdKind.noConfusion, datCodeword_eq_ofNat]

theorem initialized_eq (o : Orient) (s : State) :
    initialized o s = { streamed (loaded o s) (initDraws (initSeq s.board o)) with
      ready := true, gpioTrace := (loaded o s).gpioTrace ++ [(.backlight, .on)] } := by
  rw [initialized, streamed_plain (initDraws_plain _), codewordsOf_initDraws, show (loaded o s).asm = .idle from rfl,
    initDraws, foldl_drawAsm_raw, sendAll, sentFrom_frame]
  rfl

theorem initCut_eq (o : Orient) (s : State) (j : Nat) :
    initCut o s j = cutShort (loaded o s) (initDraws (initSeq s.board o)) j := by
  rw [initCut, cutShort_plain (initDraws_plain _), codewordsOf_initDraws]

/-- The registers INIT has written when its sequence begins (R230, R231). -/
theorem loaded_eq (o : Orient) (s : State) :
    loaded o s = { s with
      ready := false
      openCalls := s.openCalls + 1
      gpioTrace := s.gpioTrace ++ [(.cs, .selected), (.reset, .asserted), (.reset, .released)]
      sink := sinkReset s.sink
      pack := emptyPack s.pack
      strays := []
      asm := .idle
      dev := deviceOf s.board o } := by
  have hgpio : s.gpioTrace ++ [(.cs, .selected), (.reset, .asserted), (.reset, .released)] =
      ((s.gpioTrace ++ [(.cs, .selected)]) ++ [(.reset, .asserted)]) ++ [(.reset, .released)] := by
    rw [List.append_assoc, List.append_assoc]
    rfl
  rw [hgpio]
  rfl

/-- Settles O37. -/
theorem initOperation : Obligations.InitOperation := by
  unfold Obligations.InitOperation
  intro b s
  refine ⟨rfl, fun hb => exec_init_of_none (orientOperand_of_not_ok ?_) s, fun o ho => ?_⟩
  · exact decide_eq_false (not_le.2 hb)
  · intro cfg seq ds opened u
    have hexec := exec_init_of_some (orientOperand_eq_some_iff.2 ho) s
    have hseq : seq = initSeq s.board o := by cases o <;> rfl
    have hds : ds = initDraws (initSeq s.board o) := by rw [← hseq]; exact initDraws_eq seq
    have hu : u = loaded o s := by rw [loaded_eq]; cases o <;> rfl
    rw [hds, codewordsOf_initDraws, hu]
    refine ⟨fun hlt => ?_, fun hge hw => ?_, fun j hge hj => ?_⟩
    · rw [hexec, initState_notOpened hlt]
      rfl
    · rw [hexec, initState_ok (not_lt.2 hge) hw, initialized_eq]
    · rw [hexec, initState_cut (not_lt.2 hge) hj, initCut_eq]

end Sys2Proof.Proofs.Initialization
end

section
/-! What every end of an operation keeps (spec/10_state.md R24, R25, R35, R46; spec/60_exceptions.md R243, R244;
spec/20_memory.md section 6): the statements that hold whatever the operation, read off its ends. -/

namespace Sys2Proof.Proofs.EveryEnd

open Sys2Proof Sys2Proof.Machine Sys2Proof.Config Sys2Proof.Safety Sys2Proof.Proofs.FailedBatch
open Sys2Proof.Proofs.RawOperations Sys2Proof.Proofs.OperationStream Sys2Proof.Proofs.Endings
open Sys2Proof.Proofs.Initialization Sys2Proof.Proofs.ByDefinition
open Sys2Proof.Proofs.ReadyGate (last_status)
open Sys2Proof.Proofs.PackBits (Holds)

/-! ### The ends of TEARDOWN -/

/-- The state TEARDOWN ends in (R125). -/
inductive TeardownEnded (s : State) : State → Prop
  | closed (hr : s.ready = false) : TeardownEnded s (respond .eOpen s)
  | dropped (hr : s.ready = true) (hp : s.policy.teardown = .drop) :
      TeardownEnded s (respond .ok { dropPack s with asm := .idle, ready := false })
  | padded (hr : s.ready = true) (hp : s.policy.teardown = .pad) (hc : s.pack.cnt < batch)
      (hw : WordsOk s (teardownPads s)) :
      TeardownEnded s (respond .ok { sendAll s (teardownPads s) with asm := .idle, ready := false })
  | padFails (hr : s.ready = true) (hp : s.policy.teardown = .pad) (hc : s.pack.cnt < batch)
      (hj : FirstFailure s (teardownPads s) 0) :
      TeardownEnded s (respond .eXfer { sendAll s (teardownPads s) with asm := .idle, ready := false })

theorem teardownPads_length (s : State) (hc : s.pack.cnt < batch) : s.pack.cnt + (teardownPads s).length ≤ batch := by
  rw [teardownPads, List.length_replicate]
  split <;> omega

theorem teardown_full {s : State} (hr : s.ready = true) (hp : s.policy.teardown = .pad) (hc : batch ≤ s.pack.cnt) :
    exec .teardown s = .fault .batchOverfull := by
  have h0 : s.pack.cnt ≠ 0 := by
    have hb : batch = 1024 := rfl
    omega
  have hpad : padBatch batch s = .overfull s := by
    show padBatch (1023 + 1) s = _
    rw [padBatch, if_neg h0, BatchBound.push_overfull _ hc, andThen_overfull]
  rw [execTeardown_ready hr, teardownPack, hp]
  dsimp only
  rw [hpad]
  rfl

theorem teardownEnded {s t : State} (h : exec .teardown s = .next t) : TeardownEnded s t := by
  cases hr : s.ready with
  | false =>
    obtain rfl := Host.Outcome.next.inj ((OpenFailure.exec_notReady rfl hr).symm.trans h)
    exact .closed hr
  | true =>
    cases hp : s.policy.teardown with
    | drop =>
      obtain rfl := Host.Outcome.next.inj ((execTeardown_drop hr hp).symm.trans h)
      exact .dropped hr hp
    | pad =>
      obtain hc | hc := Nat.lt_or_ge s.pack.cnt batch
      · by_cases hw : WordsOk s (teardownPads s)
        · obtain rfl := Host.Outcome.next.inj ((execTeardown_pad_ok hr hp hc hw).symm.trans h)
          exact .padded hr hp hc hw
        · have hlen := teardownPads_length s hc
          have hone : (batchesOf s.pack (teardownPads s)).length ≤ 1 := by
            rw [batchesOf_length _ _ hc]
            simp only [show batch = 1024 from rfl] at *
            omega
          obtain rfl := Host.Outcome.next.inj ((execTeardown_pad_fails hr hp hc hw).symm.trans h)
          exact .padFails hr hp hc (firstFailure_zero_of_not_wordsOk hone hw)
      · rw [teardown_full hr hp hc] at h
        cases h

/-! ### What is pushed is packed and handed over -/

/-- From `s` to `t` the codewords `ws` were pushed, the batches they fill handed over, the rest left pending. -/
structure Sends (s t : State) (ws : List Codeword) : Prop where
  cwTrace : t.cwTrace = s.cwTrace ++ ws
  pack : t.pack = packAll s.pack ws
  xferCalls : t.xferCalls = s.xferCalls + (batchesOf s.pack ws).length
  xferTrace : t.xferTrace = (sentFrom s (batchesOf s.pack ws)).xferTrace
  xferBuf : t.xferBuf = (sentFrom s (batchesOf s.pack ws)).xferBuf

theorem sends_nil (s : State) (st : Status) : Sends s (respond st s) [] := ⟨(List.append_nil _).symm, rfl, rfl, rfl, rfl⟩

theorem sends_sendAll (s : State) (ws : List Codeword) : Sends s (sendAll s ws) ws :=
  ⟨rfl, rfl, sendAll_xferCalls s ws, rfl, rfl⟩

/-- The codewords an operation pushes begin those of its draws. -/
theorem sends_of_ended {i : Instr} {s t : State} (h : Ended i s t) :
    ∃ ws, ws <+: codewordsOf s.dev (drawsOf i s) ∧ Sends s t ws := by
  cases h with
  | closed hr => exact ⟨[], List.nil_prefix, sends_nil s _⟩
  | illegal hr hl => exact ⟨[], List.nil_prefix, sends_nil s _⟩
  | done k y z =>
    have h := sends_sendAll s (codewordsOf s.dev (drawsOf i s))
    exact ⟨_, List.prefix_rfl, h.cwTrace, h.pack, h.xferCalls, h.xferTrace, h.xferBuf⟩
  | cut j k =>
    have h := sends_sendAll s (cutWords s (codewordsOf s.dev (drawsOf i s)) j)
    exact ⟨_, List.take_prefix _ _, h.cwTrace, h.pack, h.xferCalls, h.xferTrace, h.xferBuf⟩

theorem sentFrom_xferTrace_words (s : State) (bs : List (List Word16)) :
    (sentFrom s bs).xferTrace.map Prod.fst = s.xferTrace.map Prod.fst ++ bs := by
  induction bs generalizing s with
  | nil => exact (List.append_nil _).symm
  | cons b bs ih =>
    show (sentFrom (transferred b _ s) bs).xferTrace.map Prod.fst = _
    rw [ih]
    show (s.xferTrace ++ [(b, _)]).map Prod.fst ++ bs = _
    rw [List.map_append, List.append_assoc]
    rfl

theorem ungated_cases (i : Instr) : (∃ b, i = .init b) ∨ (∃ f b, i = .setcolors f b) ∨ i = .teardown ∨
    (ungated i = false ∧ isTeardown i = false) := by
  cases i with
  | init b => exact .inl ⟨b, rfl⟩
  | setcolors f b => exact .inr (.inl ⟨f, b, rfl⟩)
  | teardown => exact .inr (.inr (.inl rfl))
  | _ => exact .inr (.inr (.inr ⟨rfl, rfl⟩))

/-- SETCOLORS sends nothing (R232). -/
theorem setcolors_end {f b : Word16} {s t : State} (h : exec (.setcolors f b) s = .next t) :
    t = respond .ok { s with fg := f, bg := b } :=
  (Host.Outcome.next.inj ((Setcolors.exec_setcolors f b s).symm.trans h)).symm

/-- Settles O47. -/
theorem transfersArePackingOfTrace : Obligations.TransfersArePackingOfTrace := by
  unfold Obligations.TransfersArePackingOfTrace
  intro i s t hi ht _ hx
  have hsends : ∃ ws, Sends s t ws := by
    obtain ⟨b, rfl⟩ | ⟨f, b, rfl⟩ | rfl | ⟨hu, hne⟩ := ungated_cases i
    · exact Bool.noConfusion hi
    · rw [setcolors_end hx]
      exact ⟨[], (List.append_nil _).symm, rfl, rfl, rfl, rfl⟩
    · exact Bool.noConfusion ht
    · obtain ⟨ws, -, h⟩ := sends_of_ended (ended hu hne hx)
      exact ⟨ws, h⟩
  obtain ⟨ws, h⟩ := hsends
  exact ⟨ws, h.cwTrace, h.pack, by rw [h.xferTrace, sentFrom_xferTrace_words], h.xferCalls⟩

/-! ### The invariants of the Pack Buffer -/

/-- One codeword: packed after the pending ones, or the last of a batch that leaves the Pack Buffer empty. -/
theorem packInv_sendAll_one {s : State} (h : PackInv s) (cw : Codeword) : PackInv (sendAll s [cw]) := by
  obtain ⟨hlt, hle, hholds⟩ := packInv_iff.1 h
  have hpack : (sendAll s [cw]).pack = packNext s.pack cw := rfl
  by_cases hfull : (packCodeword cw s.pack).cnt = batch
  · rw [packNext, if_pos hfull] at hpack
    exact packInv_of_empty (by rw [hpack]; rfl) (by rw [hpack]; rfl) (by rw [hpack]; rfl) (by rw [hpack]; rfl)
  · rw [packNext, if_neg hfull] at hpack
    have hcnt : (packCodeword cw s.pack).cnt = s.pack.cnt + 1 := packCodeword_cnt cw s.pack
    have hpending : pendingCodewords (sendAll s [cw]) = pendingCodewords s ++ [cw] := by
      rw [pendingCodewords, pendingCodewords, hpack, hcnt, sendAll_cwTrace, List.length_append, List.length_singleton,
        Nat.add_sub_add_right, List.drop_append_of_le_length (Nat.sub_le _ _)]
    refine packInv_iff.2 ⟨?_, ?_, ?_⟩
    · rw [hpack]
      omega
    · rw [hpack, hcnt, sendAll_cwTrace, List.length_append, List.length_singleton]
      omega
    · rw [hpack, hpending]
      exact hholds.concat (by rw [← hholds.cnt]; exact hlt) cw

theorem packInv_sendAll {s : State} (h : PackInv s) (ws : List Codeword) : PackInv (sendAll s ws) := by
  induction ws generalizing s with
  | nil => rwa [sendAll_nil]
  | cons cw ws ih =>
    rw [← List.singleton_append, ← sendAll_append]
    exact ih (packInv_sendAll_one h cw)

/-- The invariants are about the Pack Buffer and CWTRACE alone. -/
theorem packInv_congr {s t : State} (hp : t.pack = s.pack) (hcw : t.cwTrace = s.cwTrace) (h : PackInv s) : PackInv t := by
  unfold PackInv pendingCodewords at *
  rwa [hp, hcw]

theorem packInv_dropped {s : State} {p : PackBuffer} (h : s.pack = emptyPack p) : PackInv s :=
  packInv_of_empty (by rw [h]; rfl) (by rw [h]; rfl) (by rw [h]; rfl) (by rw [h]; rfl)

theorem packInv_loaded (o : Orient) (s : State) : PackInv (loaded o s) := packInv_dropped rfl

theorem packInv_exec (i : Instr) (s t : State) (h : PackInv s) (hx : exec i s = .next t) : PackInv t := by
  obtain ⟨b, rfl⟩ | ⟨f, b, rfl⟩ | rfl | ⟨hu, hne⟩ := ungated_cases i
  · cases initEnded hx with
    | illegal ho => exact h
    | notOpened o ho hopen => exact h
    | done o ho hopen hw => exact packInv_congr rfl rfl (packInv_sendAll (packInv_loaded o s) _)
    | cut o j ho hopen hj => exact packInv_congr rfl rfl (packInv_sendAll (packInv_loaded o s) _)
  · rw [setcolors_end hx]
    exact h
  · cases teardownEnded hx with
    | closed hr => exact h
    | dropped hr hp => exact packInv_dropped (p := s.pack) rfl
    | padded hr hp hc hw => exact packInv_congr rfl rfl (packInv_sendAll h _)
    | padFails hr hp hc hj => exact packInv_congr rfl rfl (packInv_sendAll h _)
  · obtain ⟨ws, -, hsends⟩ := sends_of_ended (ended hu hne hx)
    exact packInv_congr hsends.pack hsends.cwTrace (packInv_sendAll h ws)

/-- Settles O45. -/
theorem packInvariantKept : Obligations.PackInvariantKept := by
  unfold Obligations.PackInvariantKept
  exact fun s t h hx => step_keeps (P := PackInv) (fun _ hs => hs) (fun _ _ hs => hs) packInv_exec h hx

/-! ### After an abort -/

/-- What the first failing transfer leaves of a state that sent codewords up to it (R244). -/
theorem aborted {s t : State} {ws : List Codeword} {j : Nat} (hc : s.pack.cnt < batch) (hj : FirstFailure s ws j)
    (ht : Sends s t (cutWords s ws j)) (hy : t.strays = (sendAll s (cutWords s ws j)).strays)
    (hz : t.sink = (sendAll s (cutWords s ws j)).sink) :
    (t.pack.cnt = 0 ∧ t.pack.outcnt = 0 ∧ t.pack.acc = 0#32 ∧ t.pack.nbits = 0) ∧
    (∃ words st, t.xferTrace.getLast? = some (words, st) ∧ st < 0) ∧
    t.strays = [] ∧ t.sink.gram = [] ∧ t.sink.misread = true := by
  obtain ⟨q, hq⟩ := packAll_cutWords hc hj
  obtain ⟨words, st, hlast, hst⟩ := sendAll_cutWords_xferTrace hc hj
  obtain ⟨hgram, hmis⟩ := sendAll_cutWords_sink hc hj
  rw [ht.pack, hq, hy, hz, ht.xferTrace]
  exact ⟨⟨rfl, rfl, rfl, rfl⟩, ⟨words, st, hlast, hst⟩, sendAll_cutWords_strays hc hj, hgram, hmis⟩

/-- Settles O41. -/
theorem abortLeavesAnEmptyPackBuffer : Obligations.AbortLeavesAnEmptyPackBuffer := by
  unfold Obligations.AbortLeavesAnEmptyPackBuffer
  intro i s t hx hresp
  obtain ⟨b, rfl⟩ | ⟨f, b, rfl⟩ | rfl | ⟨hu, hne⟩ := ungated_cases i
  · cases initEnded hx with
    | illegal ho => cases last_status hresp
    | notOpened o ho hopen => cases last_status hresp
    | done o ho hopen hw => cases last_status hresp
    | cut o j ho hopen hj =>
      have hsends := sends_sendAll (loaded o s) (cutWords (loaded o s) (initWords (initSeq s.board o)) j)
      obtain ⟨hpack, hlast, hstrays, hgram, hmis⟩ := aborted (t := respond .eXfer (initCut o s j)) (loaded_cnt_lt o s) hj
        ⟨hsends.cwTrace, hsends.pack, hsends.xferCalls, hsends.xferTrace, hsends.xferBuf⟩ rfl rfl
      exact ⟨hpack, rfl, hlast, sendAll_fg _ _, sendAll_bg _ _, fun h => Bool.noConfusion h, fun _ => sendAll_ready _ _,
        fun h => Bool.noConfusion h, hstrays, hgram, hmis⟩
  · rw [setcolors_end hx] at hresp
    cases last_status hresp
  · cases teardownEnded hx with
    | closed hr => cases last_status hresp
    | dropped hr hp => cases last_status hresp
    | padded hr hp hc hw => cases last_status hresp
    | padFails hr hp hc hj =>
      have hsends := sends_sendAll s (teardownPads s)
      have hcut : cutWords s (teardownPads s) 0 = teardownPads s := cutWords_zero_eq (teardownPads_length s hc)
      have habort := aborted (t := respond .eXfer { sendAll s (teardownPads s) with asm := .idle, ready := false }) hc hj
      rw [hcut] at habort
      obtain ⟨hpack, hlast, hstrays, hgram, hmis⟩ := habort
        ⟨hsends.cwTrace, hsends.pack, hsends.xferCalls, hsends.xferTrace, hsends.xferBuf⟩ rfl rfl
      exact ⟨hpack, rfl, hlast, sendAll_fg _ _, sendAll_bg _ _, fun _ h => Bool.noConfusion h, fun _ => rfl,
        fun _ => ⟨sendAll_dev _ _, sendAll_gpioTrace _ _⟩, hstrays, hgram, hmis⟩
  · cases ended hu hne hx with
    | closed hr => cases last_status hresp
    | illegal hr hl => cases last_status hresp
    | done k y z => cases last_status hresp
    | cut j k hr hl hc hj hk =>
      have hsends := sends_sendAll s (cutWords s (codewordsOf s.dev (drawsOf i s)) j)
      obtain ⟨hpack, hlast, hstrays, hgram, hmis⟩ := aborted (t := respond .eXfer (cutState s (drawsOf i s) j k)) hc hj
        ⟨hsends.cwTrace, hsends.pack, hsends.xferCalls, hsends.xferTrace, hsends.xferBuf⟩ rfl rfl
      have hinit : isInit i = false := by
        cases i with
        | init b => exact Bool.noConfusion hu
        | _ => rfl
      refine ⟨hpack, rfl, hlast, hk.fg, sendAll_bg _ _, fun _ _ => sendAll_ready _ _, fun h => ?_,
        fun _ => ⟨sendAll_dev _ _, sendAll_gpioTrace _ _⟩, hstrays, hgram, hmis⟩
      rw [hinit, hne] at h
      exact absurd h (by simp)

end Sys2Proof.Proofs.EveryEnd
end

section
/-! Who writes what (spec/10_state.md sections 1 to 5, R24, R25, R46; spec/42_addressing.md R158; spec/45_system.md):
each register against the ends of every operation. -/

namespace Sys2Proof.Proofs.Writers

open Sys2Proof Sys2Proof.Machine Sys2Proof.Config Sys2Proof.Safety Sys2Proof.Proofs.FailedBatch
open Sys2Proof.Proofs.RawOperations Sys2Proof.Proofs.OperationStream Sys2Proof.Proofs.Endings
open Sys2Proof.Proofs.Initialization Sys2Proof.Proofs.ByDefinition Sys2Proof.Proofs.EveryEnd

/-! ### Registers no operation writes -/

/-- The requests and the parameters are as before, and one status was answered. -/
structure Answered (s t : State) : Prop where
  requests : t.requests = s.requests
  board : t.board = s.board
  policy : t.policy = s.policy
  status : ∃ st, t.respTrace = s.respTrace ++ [st]

theorem answered_respond {s u : State} (st : Status) (hreq : u.requests = s.requests) (hboard : u.board = s.board)
    (hpolicy : u.policy = s.policy) (hresp : u.respTrace = s.respTrace) : Answered s (respond st u) :=
  ⟨hreq, hboard, hpolicy, st, by rw [respond_respTrace, hresp]⟩

theorem answered_self (st : Status) (s : State) : Answered s (respond st s) := answered_respond st rfl rfl rfl rfl

theorem answered_exec {i : Instr} {s t : State} (hx : exec i s = .next t) : Answered s t := by
  obtain ⟨b, rfl⟩ | ⟨f, b, rfl⟩ | rfl | ⟨hu, hne⟩ := ungated_cases i
  · cases initEnded hx with
    | illegal ho => exact answered_self _ s
    | notOpened o ho hopen => exact answered_respond _ rfl rfl rfl rfl
    | done o ho hopen hw =>
      exact answered_respond _ (sendAll_requests _ _) (sendAll_board _ _) (sendAll_policy _ _) (sendAll_respTrace _ _)
    | cut o j ho hopen hj =>
      exact answered_respond _ (sendAll_requests _ _) (sendAll_board _ _) (sendAll_policy _ _) (sendAll_respTrace _ _)
  · rw [setcolors_end hx]
    exact answered_respond _ rfl rfl rfl rfl
  · cases teardownEnded hx with
    | closed hr => exact answered_self _ s
    | dropped hr hp => exact answered_respond _ rfl rfl rfl rfl
    | padded hr hp hc hw =>
      exact answered_respond _ (sendAll_requests _ _) (sendAll_board _ _) (sendAll_policy _ _) (sendAll_respTrace _ _)
    | padFails hr hp hc hj =>
      exact answered_respond _ (sendAll_requests _ _) (sendAll_board _ _) (sendAll_policy _ _) (sendAll_respTrace _ _)
  · cases ended hu hne hx with
    | closed hr => exact answered_self _ s
    | illegal hr hl => exact answered_self _ s
    | done k y z =>
      exact answered_respond _ (sendAll_requests _ _) (sendAll_board _ _) (sendAll_policy _ _) (sendAll_respTrace _ _)
    | cut j k =>
      exact answered_respond _ (sendAll_requests _ _) (sendAll_board _ _) (sendAll_policy _ _) (sendAll_respTrace _ _)

/-- Settles O8. -/
theorem stepTakesOneRequest : Obligations.StepTakesOneRequest := by
  unfold Obligations.StepTakesOneRequest
  intro s t h
  obtain ⟨hnil, rfl⟩ | ⟨-, ⟨i, hi⟩ | rfl⟩ := step_cases h
  · exact ⟨by rw [hnil]; rfl, rfl, rfl, fun hne => absurd hnil hne⟩
  · obtain ⟨hreq, hboard, hpolicy, hst⟩ := answered_exec hi
    exact ⟨hreq, hboard, hpolicy, fun _ => hst⟩
  · obtain ⟨hreq, hboard, hpolicy, hst⟩ := answered_self .eArg (takeRequest s)
    exact ⟨hreq, hboard, hpolicy, fun _ => hst⟩

/-! ### Draws that write no window and leave ASM -/

/-- An operation that opens no window sends raw codewords or arms (R27). -/
theorem drawsOf_plain {i : Instr} (hi : opensWindow i = false) (s : State) : ∀ x ∈ drawsOf i s, Plain x := by
  have hraw (cw : Codeword) : ∀ x ∈ [Draw.raw cw], Plain x := fun x hx => List.mem_singleton.1 hx ▸ plain_raw cw
  cases i with
  | push c => exact hraw _
  | teardown =>
    intro x hx
    simp only [drawsOf] at hx
    split at hx
    · cases hx
    · exact (List.mem_replicate.1 hx).2 ▸ plain_raw _
  | wrreg b => exact hraw _
  | wrdat8 b => exact hraw _
  | wrdat16 w =>
    intro x hx
    obtain rfl | hx := List.mem_cons.1 hx
    · exact plain_raw _
    · exact hraw _ x hx
  | armram => exact fun x hx => List.mem_singleton.1 hx ▸ plain_arm
  | init o =>
    intro x hx
    simp only [drawsOf] at hx
    split at hx
    · obtain ⟨it, -, rfl⟩ := List.mem_map.1 hx
      split <;> exact plain_raw _
    · cases hx
  | setcolors f b => exact fun x hx => nomatch hx
  | cwCmd p => exact hraw _
  | cwDat p => exact hraw _
  | carrierCmd p x => exact hraw _
  | carrierDat p x => exact hraw _
  | _ => exact Bool.noConfusion hi

/-- Data codewords leave ASM (R158). -/
theorem drawsOf_asm {i : Instr} (hi : sendsDataOnly i = true) (s : State) : (drawsOf i s).foldl drawAsm s.asm = s.asm := by
  have hdata (cw : Codeword) (h : isData cw = true) (a : AddrState) : drawAsm a (.raw cw) = a := if_pos h
  cases i with
  | push c => exact hdata _ hi _
  | wrdat8 b => exact hdata _ (isData_datCodeword b) _
  | wrdat16 w =>
    show drawAsm (drawAsm s.asm (.raw (datCodeword (hiByte w)))) (.raw (datCodeword (loByte w))) = s.asm
    rw [hdata _ (isData_datCodeword _), hdata _ (isData_datCodeword _)]
  | cwDat p => exact hdata _ (isData_datCodeword p) _
  | carrierDat p x => exact hdata _ (isData_datCodeword p) _
  | _ => exact Bool.noConfusion hi

/-! ### The whole table -/

/-- What the operations behind the gate, TEARDOWN apart, may write. -/
structure GatedWrites (i : Instr) (s t : State) : Prop where
  device : t.dev = s.dev ∧ t.gpioTrace = s.gpioTrace ∧ t.openCalls = s.openCalls
  colors : t.fg = s.fg ∧ t.bg = s.bg
  ready : t.ready = s.ready
  line : engineOf i ≠ .line → t.line = s.line
  circle : engineOf i ≠ .circle → t.circle = s.circle
  text : engineOf i ≠ .text → t.text = s.text
  win : opensWindow i = false → t.win = s.win
  asm : sendsDataOnly i = true → t.asm = s.asm ∨ t.respTrace = s.respTrace ++ [.eXfer] ∧ t.asm = .idle
  still : t.cwTrace = s.cwTrace →
    t.asm = s.asm ∧ t.win = s.win ∧ t.pack = s.pack ∧ t.xferBuf = s.xferBuf ∧ t.xferCalls = s.xferCalls ∧
      t.xferTrace = s.xferTrace ∧ t.strays = s.strays ∧ t.sink = s.sink

theorem gatedWrites_self (i : Instr) (st : Status) (s : State) : GatedWrites i s (respond st s) where
  device := ⟨rfl, rfl, rfl⟩
  colors := ⟨rfl, rfl⟩
  ready := rfl
  line _ := rfl
  circle _ := rfl
  text _ := rfl
  win _ := rfl
  asm _ := .inl rfl
  still _ := ⟨rfl, rfl, rfl, rfl, rfl, rfl, rfl, rfl⟩

theorem gatedWrites_of_ended {i : Instr} {s t : State} (h : Ended i s t) : GatedWrites i s t := by
  have hstill (hr : s.ready = true) (hl : legal i s = true) (hcw : t.cwTrace = s.cwTrace) :
      t.asm = s.asm ∧ t.win = s.win ∧ t.pack = s.pack ∧ t.xferBuf = s.xferBuf ∧ t.xferCalls = s.xferCalls ∧
        t.xferTrace = s.xferTrace ∧ t.strays = s.strays ∧ t.sink = s.sink := by
    obtain ⟨-, k, -, rfl⟩ := ended_still hr hl h hcw
    exact ⟨rfl, rfl, rfl, rfl, rfl, rfl, rfl, rfl⟩
  cases h with
  | closed hr => exact gatedWrites_self i _ s
  | illegal hr hl => exact gatedWrites_self i _ s
  | done k y z hr hl hc hw hk hduty =>
    exact {
      device := ⟨sendAll_dev _ _, sendAll_gpioTrace _ _, sendAll_openCalls _ _⟩
      colors := ⟨hk.fg, sendAll_bg _ _⟩
      ready := sendAll_ready _ _
      line := hk.line
      circle := hk.circle
      text := hk.text
      win := fun hi => foldl_drawWin_plain (drawsOf_plain hi s) s.win
      asm := fun hi => .inl (drawsOf_asm hi s)
      still := hstill hr hl }
  | cut j k hr hl hc hj hk =>
    exact {
      device := ⟨sendAll_dev _ _, sendAll_gpioTrace _ _, sendAll_openCalls _ _⟩
      colors := ⟨hk.fg, sendAll_bg _ _⟩
      ready := sendAll_ready _ _
      line := hk.line
      circle := hk.circle
      text := hk.text
      win := fun hi => winCut_plain (drawsOf_plain hi s) _ _ _
      asm := fun _ => .inr ⟨congrArg (· ++ [Status.eXfer]) (sendAll_respTrace _ _), rfl⟩
      still := hstill hr hl }

/-- What INIT and TEARDOWN leave: the colours, the engines and WIN. -/
structure SystemWrites (s t : State) : Prop where
  colors : t.fg = s.fg ∧ t.bg = s.bg
  engines : t.line = s.line ∧ t.circle = s.circle ∧ t.text = s.text
  win : t.win = s.win

theorem systemWrites_sendAll {s u : State} (h : SystemWrites s u) (ws : List Codeword) : SystemWrites s (sendAll u ws) :=
  ⟨⟨(sendAll_fg _ _).trans h.colors.1, (sendAll_bg _ _).trans h.colors.2⟩,
    ⟨(sendAll_line _ _).trans h.engines.1, (sendAll_circle _ _).trans h.engines.2.1, (sendAll_text _ _).trans h.engines.2.2⟩,
    (sendAll_win _ _).trans h.win⟩

theorem systemWrites_self (s : State) : SystemWrites s s := ⟨⟨rfl, rfl⟩, ⟨rfl, rfl, rfl⟩, rfl⟩

theorem systemWrites_loaded (o : Orient) (s : State) : SystemWrites s (loaded o s) := ⟨⟨rfl, rfl⟩, ⟨rfl, rfl, rfl⟩, rfl⟩

theorem systemWrites_init {b : Byte} {s t : State} (hx : exec (.init b) s = .next t) : SystemWrites s t := by
  cases initEnded hx with
  | illegal ho => exact ⟨⟨rfl, rfl⟩, ⟨rfl, rfl, rfl⟩, rfl⟩
  | notOpened o ho hopen => exact ⟨⟨rfl, rfl⟩, ⟨rfl, rfl, rfl⟩, rfl⟩
  | done o ho hopen hw =>
    obtain ⟨hcolors, hengines, hwin⟩ := systemWrites_sendAll (systemWrites_loaded o s) (initWords (initSeq s.board o))
    exact ⟨hcolors, hengines, hwin⟩
  | cut o j ho hopen hj =>
    obtain ⟨hcolors, hengines, hwin⟩ := systemWrites_sendAll (systemWrites_loaded o s)
      (cutWords (loaded o s) (initWords (initSeq s.board o)) j)
    exact ⟨hcolors, hengines, hwin⟩

theorem teardown_writes {s t : State} (hx : exec .teardown s = .next t) :
    SystemWrites s t ∧ t.dev = s.dev ∧ t.gpioTrace = s.gpioTrace ∧ t.openCalls = s.openCalls := by
  have hsent : SystemWrites s (sendAll s (teardownPads s)) := systemWrites_sendAll (systemWrites_self s) _
  cases teardownEnded hx with
  | closed hr => exact ⟨⟨⟨rfl, rfl⟩, ⟨rfl, rfl, rfl⟩, rfl⟩, rfl, rfl, rfl⟩
  | dropped hr hp => exact ⟨⟨⟨rfl, rfl⟩, ⟨rfl, rfl, rfl⟩, rfl⟩, rfl, rfl, rfl⟩
  | padded hr hp hc hw =>
    exact ⟨⟨hsent.colors, hsent.engines, hsent.win⟩, sendAll_dev _ _, sendAll_gpioTrace _ _, sendAll_openCalls _ _⟩
  | padFails hr hp hc hj =>
    exact ⟨⟨hsent.colors, hsent.engines, hsent.win⟩, sendAll_dev _ _, sendAll_gpioTrace _ _, sendAll_openCalls _ _⟩

/-- Settles O51. -/
theorem registersHaveTheirWriters : Obligations.RegistersHaveTheirWriters := by
  unfold Obligations.RegistersHaveTheirWriters
  intro i s t hx
  obtain ⟨hreq, hboard, hpolicy, -⟩ := answered_exec hx
  obtain ⟨b, rfl⟩ | ⟨f, b, rfl⟩ | rfl | ⟨hu, hne⟩ := ungated_cases i
  · obtain ⟨hcolors, ⟨hline, hcircle, htext⟩, hwin⟩ := systemWrites_init hx
    exact ⟨fun h => Bool.noConfusion h, fun _ => hcolors, fun h => Bool.noConfusion h, fun _ => hline, fun _ => hcircle,
      fun _ => htext, fun _ => hwin, fun h => Bool.noConfusion h, fun h => Bool.noConfusion h, hreq, hboard, hpolicy⟩
  · rw [setcolors_end hx]
    exact ⟨fun _ => ⟨rfl, rfl, rfl⟩, fun h => Bool.noConfusion h, fun _ _ => rfl, fun _ => rfl, fun _ => rfl, fun _ => rfl,
      fun _ => rfl, fun h => Bool.noConfusion h, fun _ _ _ => ⟨rfl, rfl, rfl, rfl, rfl, rfl, rfl, rfl⟩, rfl, rfl, rfl⟩
  · obtain ⟨⟨hcolors, ⟨hline, hcircle, htext⟩, hwin⟩, hdevice⟩ := teardown_writes hx
    exact ⟨fun _ => hdevice, fun _ => hcolors, fun _ h => Bool.noConfusion h, fun _ => hline, fun _ => hcircle,
      fun _ => htext, fun _ => hwin, fun h => Bool.noConfusion h, fun _ h => Bool.noConfusion h, hreq, hboard, hpolicy⟩
  · obtain ⟨hdevice, hcolors, hready, hline, hcircle, htext, hwin, hasm, hstill⟩ :=
      gatedWrites_of_ended (ended hu hne hx)
    exact ⟨fun _ => hdevice, fun _ => hcolors, fun _ _ => hready, hline, hcircle, htext, hwin, hasm,
      fun _ _ => hstill, hreq, hboard, hpolicy⟩

end Sys2Proof.Proofs.Writers
end

section
/-! The ports stay in form (spec/20_memory.md R66, R69; spec/10_state.md R47; logs 23, 29): what a transfer keeps,
then what a list of codewords keeps, marked or not. -/

namespace Sys2Proof.Proofs.PortForm

open Sys2Proof Sys2Proof.Machine Sys2Proof.Config Sys2Proof.Safety Sys2Proof.Proofs.FailedBatch
open Sys2Proof.Proofs.RawOperations Sys2Proof.Proofs.OperationStream Sys2Proof.Proofs.Endings
open Sys2Proof.Proofs.Initialization Sys2Proof.Proofs.ByDefinition Sys2Proof.Proofs.EveryEnd

/-- The ports in form, whatever is marked. -/
structure InForm (s : State) : Prop where
  buffer : s.xferBuf.length = xferBytes
  transfers : ∀ e, e ∈ s.xferTrace → e.1.length = outWords
  calls : s.xferTrace.length = s.xferCalls
  gram : gramWf s.sink.gram = true

theorem portInv_iff {s : State} : PortInv s ↔ InForm s ∧ ∀ i, i ∈ s.strays → i < s.pack.cnt :=
  ⟨fun ⟨hbuf, htr, hcalls, hgram, hmarks⟩ => ⟨⟨hbuf, htr, hcalls, hgram⟩, hmarks⟩,
    fun ⟨⟨hbuf, htr, hcalls, hgram⟩, hmarks⟩ => ⟨hbuf, htr, hcalls, hgram, hmarks⟩⟩

theorem portInv_respond (st : Status) {s : State} (h : PortInv s) : PortInv (respond st s) := h

/-! ### Transfers -/

theorem inForm_transferred {s : State} {b : List Word16} (h : InForm s) (hb : b.length = outWords) (st : Int) :
    InForm (transferred b st s) where
  buffer := by
    show (transferBytes s.policy.byteOrder b).length = xferBytes
    rw [TransferBuffer.transferBytes_length, hb]
    rfl
  transfers e he := by
    obtain he | he := List.mem_append.1 he
    · exact h.transfers e he
    · rw [List.mem_singleton.1 he]
      exact hb
  calls := by
    show (s.xferTrace ++ [_]).length = s.xferCalls + 1
    rw [List.length_append, h.calls]
    rfl
  gram := gramWf_sinkAfter s b st h.gram

theorem inForm_sentFrom {s : State} {bs : List (List Word16)} (h : InForm s) (hb : ∀ b ∈ bs, b.length = outWords) :
    InForm (sentFrom s bs) := by
  induction bs generalizing s with
  | nil => exact h
  | cons b bs ih =>
    exact ih (inForm_transferred h (hb b List.mem_cons_self) _) fun c hc => hb c (List.mem_cons_of_mem b hc)

/-- Every batch is the 576 words of OUT (R123). -/
theorem batchesOf_words (p : PackBuffer) (ws : List Codeword) : ∀ b ∈ batchesOf p ws, b.length = outWords := by
  induction ws generalizing p with
  | nil => exact fun b hb => absurd hb List.not_mem_nil
  | cons cw ws ih =>
    intro b hb
    rw [batchesOf_cons] at hb
    obtain hb | hb := List.mem_append.1 hb
    · split at hb
      · rw [List.mem_singleton.1 hb]
        exact Vector.length_toList
      · cases hb
    · exact ih _ b hb

theorem inForm_sendAll {s : State} (h : InForm s) (ws : List Codeword) : InForm (sendAll s ws) := by
  obtain ⟨hbuf, htr, hcalls, hgram⟩ := inForm_sentFrom h (batchesOf_words s.pack ws)
  exact ⟨hbuf, htr, hcalls, hgram⟩

/-! ### Codewords, marked or not -/

/-- A mark stands for a codeword pending or about to be pushed; pushed with its batch, it is gone. -/
theorem portInv_sendAll {s : State} {ws : List Codeword} (hc : s.pack.cnt < batch) (h : InForm s)
    (hmarks : ∀ i, i ∈ s.strays → i < s.pack.cnt + ws.length) : PortInv (sendAll s ws) := by
  refine portInv_iff.2 ⟨inForm_sendAll h ws, fun i hi => ?_⟩
  rw [sendAll_strays] at hi
  split at hi
  · next hnone =>
    have hfew : (s.pack.cnt + ws.length) / batch = 0 := by rw [← batchesOf_length _ _ hc, hnone]; rfl
    have hlt : s.pack.cnt + ws.length < batch := Nat.lt_of_div_eq_zero (by decide) hfew
    rw [sendAll_pack, packAll_cnt _ _ hc, Nat.mod_eq_of_lt hlt]
    exact hmarks i hi
  · cases hi

/-- Unmarked codewords, also from a full batch where there are none. -/
theorem portInv_sent {s : State} {ws : List Codeword} (hc : s.pack.cnt < batch ∨ ws = []) (h : PortInv s) :
    PortInv (sendAll s ws) := by
  obtain hc | rfl := hc
  · obtain ⟨hform, hmarks⟩ := portInv_iff.1 h
    exact portInv_sendAll hc hform fun i hi => Nat.lt_add_right _ (hmarks i hi)
  · rwa [sendAll_nil]

/-- The next codeword marked. -/
theorem portInv_sendAll_marked {s : State} (hc : s.pack.cnt < batch) (h : PortInv s) (cw : Codeword) {y : List Nat}
    (hy : y = s.strays ∨ y = s.strays ++ [s.pack.cnt]) : PortInv (sendAll (marked s y s.sink) [cw]) := by
  obtain ⟨hform, hmarks⟩ := portInv_iff.1 h
  refine portInv_sendAll hc ⟨hform.buffer, hform.transfers, hform.calls, hform.gram⟩ fun i hi => ?_
  have hi : i ∈ y := hi
  show i < s.pack.cnt + 1
  obtain rfl | rfl := hy
  · exact (hmarks i hi).trans (Nat.lt_succ_self _)
  · obtain hi | hi := List.mem_append.1 hi
    · exact (hmarks i hi).trans (Nat.lt_succ_self _)
    · rw [List.mem_singleton.1 hi]
      exact Nat.lt_succ_self _

theorem noteData_strays (s : State) : (noteData s).strays = s.strays ∨ (noteData s).strays = s.strays ++ [s.pack.cnt] := by
  unfold noteData
  split
  · exact .inl rfl
  · exact .inr rfl

theorem noteArm_strays (s : State) : (noteArm s).strays = s.strays ∨ (noteArm s).strays = s.strays ++ [s.pack.cnt] := by
  unfold noteArm
  split
  · exact .inr rfl
  · exact .inl rfl

theorem noteRaw_strays (cw : Codeword) (s : State) :
    (noteRaw cw s).strays = s.strays ∨ (noteRaw cw s).strays = s.strays ++ [s.pack.cnt] := by
  unfold noteRaw
  split
  · exact noteData_strays s
  · exact .inl rfl

theorem portInv_noteData {s : State} (hc : s.pack.cnt < batch) (h : PortInv s) (cw : Codeword) :
    PortInv (sendAll (noteData s) [cw]) := by
  rw [noteData_eq_marked]
  exact portInv_sendAll_marked hc h cw (noteData_strays s)

theorem portInv_twoBytesSent (w : Word16) {s : State} (hc : s.pack.cnt < batch) (h : PortInv s) :
    PortInv (twoBytesSent w s) := by
  have hfirst := portInv_noteData hc h (datCodeword (hiByte w))
  exact portInv_noteData (noteData_cnt_lt _ hc) hfirst (datCodeword (loByte w))

/-! ### The operations that break the window duty -/

theorem portInv_rawPush {c : Carrier} {s t : State} (hr : s.ready = true) (hc : s.pack.cnt < batch) (h : PortInv s)
    (hw : WordsOk s [codewordOf c]) (hx : rawPush c s = .next t) : PortInv t := by
  have hsent := portInv_sendAll_marked hc h (codewordOf c) (noteRaw_strays (codewordOf c) s)
  rw [← noteRaw_eq_marked] at hsent
  obtain rfl := Host.Outcome.next.inj ((rawPush_ok hr hc hw).symm.trans hx)
  exact hsent

/-- An operation that breaks the window duty, its transfers succeeding: each codeword it pushes is marked before it is
pushed. -/
theorem portInv_violator {i : Instr} {s t : State} (hr : s.ready = true) (hc : s.pack.cnt < batch) (h : PortInv s)
    (hk : keepsWindowDuty i s = false) (hw : WordsOk s (codewordsOf s.dev (drawsOf i s))) (hx : exec i s = .next t) :
    PortInv t := by
  have hraw (p : Byte) (x : BitVec 7) : codewordOf (carrierOf (datCodeword p) x) = datCodeword p := codewordOf_carrierOf _ _
  cases i with
  | push c => exact portInv_rawPush hr hc h hw hx
  | wrdat8 b =>
    obtain rfl := Host.Outcome.next.inj ((execWrdat8_ok hr hc hw).symm.trans hx)
    exact portInv_noteData hc h _
  | wrdat16 w =>
    obtain rfl := Host.Outcome.next.inj ((execWrdat16_ok hr hc hw).symm.trans hx)
    exact portInv_respond .ok (portInv_twoBytesSent w hc h)
  | armram =>
    have hsent := portInv_sendAll_marked hc h (cmdCodeword s.dev.ramcmd) (noteArm_strays s)
    rw [← noteArm_eq_marked] at hsent
    obtain rfl := Host.Outcome.next.inj ((execArmram_ok hr hc hw).symm.trans hx)
    exact hsent
  | cwDat p => exact portInv_rawPush hr hc h (by rw [hraw]; exact hw) hx
  | carrierDat p x => exact portInv_rawPush hr hc h (by rw [hraw]; exact hw) hx
  | _ => exact Bool.noConfusion hk

/-! ### Every operation -/

theorem portInv_gated {i : Instr} {s t : State} (hu : ungated i = false) (ht : isTeardown i = false) (h : PortInv s)
    (hx : exec i s = .next t) : PortInv t := by
  cases ended hu ht hx with
  | closed hr => exact h
  | illegal hr hl => exact h
  | done k y z hr hl hc hw hk hduty =>
    cases hd : keepsWindowDuty i s with
    | true =>
      obtain ⟨rfl, rfl⟩ := hduty hd
      have hsent : PortInv (sendAll s (codewordsOf s.dev (drawsOf i s))) :=
        portInv_sent (hc.imp_right codewordsOf_eq_nil.2) h
      exact hsent
    | false =>
      obtain hc | hnil := hc
      · exact portInv_violator hr hc h hd hw hx
      · rw [keepsWindowDuty_of_drawsOf_nil hnil] at hd
        cases hd
  | cut j k hr hl hc hj hk =>
    have hsent : PortInv (sendAll s (cutWords s (codewordsOf s.dev (drawsOf i s)) j)) := portInv_sent (.inl hc) h
    exact hsent

theorem portInv_loaded {s : State} (o : Orient) (h : PortInv s) : PortInv (loaded o s) := by
  obtain ⟨⟨hbuf, htr, hcalls, hgram⟩, -⟩ := portInv_iff.1 h
  exact portInv_iff.2 ⟨⟨hbuf, htr, hcalls, hgram⟩, fun i hi => absurd hi List.not_mem_nil⟩

theorem portInv_exec (i : Instr) (s t : State) (h : PortInv s) (hx : exec i s = .next t) : PortInv t := by
  obtain ⟨b, rfl⟩ | ⟨f, b, rfl⟩ | rfl | ⟨hu, hne⟩ := ungated_cases i
  · have hsent (o : Orient) (ws : List Codeword) : PortInv (sendAll (loaded o s) ws) :=
      portInv_sent (.inl (loaded_cnt_lt o s)) (portInv_loaded o h)
    cases initEnded hx with
    | illegal ho => exact h
    | notOpened o ho hopen => exact h
    | done o ho hopen hw => exact hsent o _
    | cut o j ho hopen hj => exact hsent o _
  · rw [setcolors_end hx]
    exact h
  · have hsent (hc : s.pack.cnt < batch) : PortInv (sendAll s (teardownPads s)) := portInv_sent (.inl hc) h
    cases teardownEnded hx with
    | closed hr => exact h
    | dropped hr hp =>
      obtain ⟨⟨hbuf, htr, hcalls, hgram⟩, -⟩ := portInv_iff.1 h
      exact portInv_iff.2 ⟨⟨hbuf, htr, hcalls, hgram⟩, fun i hi => absurd hi List.not_mem_nil⟩
    | padded hr hp hc hw => exact hsent hc
    | padFails hr hp hc hj => exact hsent hc
  · exact portInv_gated hu hne h hx

/-- Settles O49. -/
theorem portInvariantKept : Obligations.PortInvariantKept := by
  unfold Obligations.PortInvariantKept
  exact fun s t h hx => step_keeps (P := PortInv) (fun _ hs => hs) (fun _ _ hs => hs) portInv_exec h hx

end Sys2Proof.Proofs.PortForm
end

section
/-! What the block does not read decides nothing (spec/10_state.md sections 1, 3, 4, 6, 9; spec/20_memory.md R62): two
states that differ in it alone end every operation alike. -/

namespace Sys2Proof.Proofs.UnreadState

open Sys2Proof Sys2Proof.Machine Sys2Proof.Config Sys2Proof.Safety Sys2Proof.Proofs.FailedBatch
open Sys2Proof.Proofs.RawOperations Sys2Proof.Proofs.OperationStream Sys2Proof.Proofs.DrawingStreams
open Sys2Proof.Proofs.FullBatch Sys2Proof.Proofs.Endings Sys2Proof.Proofs.Initialization Sys2Proof.Proofs.EveryEnd

/-! ### What the block reads -/

/-- The registers and ports the block reads in a later operation are the same. -/
structure SameCore (s t : State) : Prop where
  pack : t.pack = s.pack
  dev : t.dev = s.dev
  fg : t.fg = s.fg
  ready : t.ready = s.ready
  board : t.board = s.board
  policy : t.policy = s.policy
  requests : t.requests = s.requests
  xferCalls : t.xferCalls = s.xferCalls
  openCalls : t.openCalls = s.openCalls

theorem core_eq_iff {s t : State} : Safety.core s = Safety.core t ↔ SameCore s t := by
  constructor
  · intro h
    have hfield {α : Type} (f : State → α) : f (Safety.core t) = f (Safety.core s) := congrArg f h.symm
    exact ⟨hfield State.pack, hfield State.dev, hfield State.fg, hfield State.ready, hfield State.board,
      hfield State.policy, hfield State.requests, hfield State.xferCalls, hfield State.openCalls⟩
  · rintro ⟨hpack, hdev, hfg, hready, hboard, hpolicy, hreq, hcalls, hopen⟩
    unfold Safety.core
    rw [hpack, hdev, hfg, hready, hboard, hpolicy, hreq, hcalls, hopen]

/-- The transfers of the batches `bs` from call `n` on, with their statuses. -/
def sentPairs (b : Board) : Nat → List (List Word16) → List (List Word16 × Int)
  | _, [] => []
  | n, w :: rest => (w, xferStatus b n) :: sentPairs b (n + 1) rest

theorem sentFrom_xferTrace (s : State) (bs : List (List Word16)) :
    (sentFrom s bs).xferTrace = s.xferTrace ++ sentPairs s.board s.xferCalls bs := by
  induction bs generalizing s with
  | nil => exact (List.append_nil _).symm
  | cons b bs ih =>
    show (sentFrom (transferred b _ s) bs).xferTrace = _
    rw [ih]
    exact List.append_assoc _ _ _

theorem sendAll_xferTrace (s : State) (ws : List Codeword) :
    (sendAll s ws).xferTrace = s.xferTrace ++ sentPairs s.board s.xferCalls (batchesOf s.pack ws) :=
  sentFrom_xferTrace s (batchesOf s.pack ws)

theorem sameCore_sendAll {s t : State} (h : SameCore s t) (ws : List Codeword) :
    SameCore (sendAll s ws) (sendAll t ws) where
  pack := by rw [sendAll_pack, sendAll_pack, h.pack]
  dev := by rw [sendAll_dev, sendAll_dev, h.dev]
  fg := by rw [sendAll_fg, sendAll_fg, h.fg]
  ready := by rw [sendAll_ready, sendAll_ready, h.ready]
  board := by rw [sendAll_board, sendAll_board, h.board]
  policy := by rw [sendAll_policy, sendAll_policy, h.policy]
  requests := by rw [sendAll_requests, sendAll_requests, h.requests]
  xferCalls := by rw [sendAll_xferCalls, sendAll_xferCalls, h.xferCalls, h.pack]
  openCalls := by rw [sendAll_openCalls, sendAll_openCalls, h.openCalls]

theorem SameCore.wordsOk {s t : State} (h : SameCore s t) {ws : List Codeword} (hw : WordsOk s ws) : WordsOk t ws :=
  (wordsOk_congr h.pack h.board h.xferCalls ws).2 hw

theorem SameCore.firstFailure {s t : State} (h : SameCore s t) {ws : List Codeword} {j : Nat} (hj : FirstFailure s ws j) :
    FirstFailure t ws j :=
  (firstFailure_congr h.pack h.board h.xferCalls ws j).2 hj

theorem SameCore.cutWords {s t : State} (h : SameCore s t) (ws : List Codeword) (j : Nat) :
    cutWords t ws j = cutWords s ws j := by
  rw [Machine.cutWords, Machine.cutWords, h.pack]

/-- The draws of an operation depend on what the block reads alone. -/
theorem SameCore.drawsOf {s t : State} (h : SameCore s t) (i : Instr) : drawsOf i t = drawsOf i s := by
  cases i <;> simp only [Machine.drawsOf, h.dev, h.fg, h.board, h.policy, h.pack]

theorem SameCore.legal {s t : State} (h : SameCore s t) (i : Instr) : legal i t = legal i s := by
  cases i with
  | clear c => rw [Safety.legal, Safety.legal, h.dev]
  | _ => rfl

/-! ### Ending alike -/

/-- The two states end alike: what the block reads is the same again, and the block sent the world the same. -/
def EndAlike (s t s' t' : State) : Prop :=
  SameCore s' t' ∧ ∃ cws xs gs rs, Emitted s s' cws xs gs rs ∧ Emitted t t' cws xs gs rs

/-- What an operation that sends the codewords `ws` and drives no line leaves of what the block reads and sends. -/
structure Leaves (s s' : State) (ws : List Codeword) (st : Status) : Prop where
  kept : SameCore (sendAll s ws) s'
  cwTrace : s'.cwTrace = s.cwTrace ++ ws
  xferTrace : s'.xferTrace = (sendAll s ws).xferTrace
  gpioTrace : s'.gpioTrace = s.gpioTrace
  respTrace : s'.respTrace = s.respTrace ++ [st]

theorem sameCore_symm {s t : State} (h : SameCore s t) : SameCore t s :=
  core_eq_iff.1 (core_eq_iff.2 h).symm

theorem sameCore_trans {s t u : State} (h : SameCore s t) (k : SameCore t u) : SameCore s u :=
  core_eq_iff.1 ((core_eq_iff.2 h).trans (core_eq_iff.2 k))

theorem endAlike_of_leaves {s t s' t' : State} {ws : List Codeword} {st : Status} (h : SameCore s t)
    (hs : Leaves s s' ws st) (ht : Leaves t t' ws st) : EndAlike s t s' t' := by
  refine ⟨sameCore_trans (sameCore_symm hs.kept) (sameCore_trans (sameCore_sendAll h ws) ht.kept), ws,
    sentPairs s.board s.xferCalls (batchesOf s.pack ws), [], [st], ?_, ?_⟩
  · exact ⟨hs.cwTrace, hs.xferTrace.trans (sendAll_xferTrace s ws), by rw [hs.gpioTrace, List.append_nil], hs.respTrace⟩
  · refine ⟨ht.cwTrace, ?_, by rw [ht.gpioTrace, List.append_nil], ht.respTrace⟩
    rw [ht.xferTrace, sendAll_xferTrace, h.board, h.xferCalls, h.pack]

theorem leaves_self (st : Status) (s : State) : Leaves s (respond st s) [] st := by
  refine ⟨?_, (List.append_nil _).symm, ?_, rfl, rfl⟩
  · rw [sendAll_nil]
    exact ⟨rfl, rfl, rfl, rfl, rfl, rfl, rfl, rfl, rfl⟩
  · rw [sendAll_nil]
    rfl

theorem leaves_doneState {i : Instr} {s : State} {k : Engines} (hk : OwnEngine i s k) (ds : List Draw) (y : List Nat)
    (z : Sink) : Leaves s (respond .ok (doneState s ds k y z)) (codewordsOf s.dev ds) .ok := by
  refine ⟨⟨rfl, rfl, hk.fg.trans (sendAll_fg s _).symm, rfl, rfl, rfl, rfl, rfl, rfl⟩, rfl, rfl,
    sendAll_gpioTrace s _, congrArg (· ++ [Status.ok]) (sendAll_respTrace s _)⟩

theorem leaves_cutState {i : Instr} {s : State} {k : Engines} (hk : OwnEngine i s k) (ds : List Draw) (j : Nat) :
    Leaves s (respond .eXfer (cutState s ds j k)) (cutWords s (codewordsOf s.dev ds) j) .eXfer := by
  refine ⟨⟨rfl, rfl, hk.fg.trans (sendAll_fg s _).symm, rfl, rfl, rfl, rfl, rfl, rfl⟩, rfl, rfl,
    sendAll_gpioTrace s _, congrArg (· ++ [Status.eXfer]) (sendAll_respTrace s _)⟩

/-! ### Behind the gate -/

/-- An operation that draws nothing ends also where the batch is full. -/
theorem done_of_still {i : Instr} {s : State} (hu : ungated i = false) (ht : isTeardown i = false) (hr : s.ready = true)
    (hl : legal i s = true) (hds : drawsOf i s = []) (hc : batch ≤ s.pack.cnt) :
    ∃ k y z, OwnEngine i s k ∧ exec i s = .next (respond .ok (doneState s (drawsOf i s) k y z)) := by
  have hself : withPack s.pack (withPack PackBuffer.reset s) = s := rfl
  have hbelow : (withPack PackBuffer.reset s).pack.cnt < batch := Nat.zero_lt_succ _
  obtain ⟨u, hxu, -, hcw, hxp⟩ | ⟨-, u, hxu, hlong⟩ :=
    blocks_legal (s := withPack PackBuffer.reset s) (p := s.pack) hu ht hr hbelow hc hl
  · rw [hself] at hxp
    obtain ⟨-, k, hk, hout⟩ := ended_still hr hl (ended hu ht hxp) hcw
    refine ⟨k, s.strays, s.sink, hk, ?_⟩
    rw [hxp, hout, hds, doneState, streamed_nil]
    rfl
  · obtain ⟨ws, hpre, hsends⟩ := sends_of_ended (ended hu ht hxu)
    rw [drawsOf_withPack ht, hds] at hpre
    obtain rfl := List.prefix_nil.1 hpre
    rw [hsends.cwTrace, List.append_nil] at hlong
    exact absurd hlong (Nat.lt_irrefl _)

theorem endAlike_gated {i : Instr} {s t s' : State} (hu : ungated i = false) (ht : isTeardown i = false) (h : SameCore s t)
    (hx : exec i s = .next s') : ∃ t', exec i t = .next t' ∧ EndAlike s t s' t' := by
  have hready (b : Bool) (hr : s.ready = b) : t.ready = b := h.ready.trans hr
  have hlegal (b : Bool) (hl : legal i s = b) : legal i t = b := (h.legal i).trans hl
  have hwords : codewordsOf t.dev (drawsOf i t) = codewordsOf s.dev (drawsOf i s) := by rw [h.drawsOf, h.dev]
  cases ended hu ht hx with
  | closed hr =>
    exact ⟨_, OpenFailure.exec_notReady hu (hready _ hr), endAlike_of_leaves h (leaves_self _ s) (leaves_self _ t)⟩
  | illegal hr hl =>
    exact ⟨_, OperandDomains.illegalOperandsReturnEArg i t (.inr (hready _ hr)) (hlegal _ hl),
      endAlike_of_leaves h (leaves_self _ s) (leaves_self _ t)⟩
  | done k y z hr hl hc hw hk hduty =>
    have hdone : ∃ k y z, OwnEngine i t k ∧ exec i t = .next (respond .ok (doneState t (drawsOf i t) k y z)) := by
      obtain hct | hct := Nat.lt_or_ge t.pack.cnt batch
      · obtain ⟨k, y, z, hk, -, hx⟩ := (runs_exec hu ht (hready _ hr) hct (hlegal _ hl)).ok
          (by rw [hwords]; exact h.wordsOk hw)
        exact ⟨k, y, z, hk, hx⟩
      · have hnil : drawsOf i s = [] := hc.resolve_left (Nat.not_lt.2 (h.pack ▸ hct))
        exact done_of_still hu ht (hready _ hr) (hlegal _ hl) ((h.drawsOf i).trans hnil) hct
    obtain ⟨k', y', z', hk', hx'⟩ := hdone
    have hleaves := leaves_doneState hk' (drawsOf i t) y' z'
    rw [hwords] at hleaves
    exact ⟨_, hx', endAlike_of_leaves h (leaves_doneState hk _ y z) hleaves⟩
  | cut j k hr hl hc hj hk =>
    obtain ⟨k', hk', hx'⟩ := (runs_exec hu ht (hready _ hr) (h.pack ▸ hc) (hlegal _ hl)).cut j
      (by rw [hwords]; exact h.firstFailure hj)
    have hleaves := leaves_cutState hk' (drawsOf i t) j
    rw [hwords, h.cutWords] at hleaves
    exact ⟨_, hx', endAlike_of_leaves h (leaves_cutState hk _ j) hleaves⟩

/-! ### SETCOLORS, TEARDOWN, INIT -/

theorem endAlike_setcolors {f b : Word16} {s t s' : State} (h : SameCore s t) (hx : exec (.setcolors f b) s = .next s') :
    ∃ t', exec (.setcolors f b) t = .next t' ∧ EndAlike s t s' t' := by
  rw [setcolors_end hx]
  refine ⟨_, Setcolors.exec_setcolors f b t,
    ⟨h.pack, h.dev, rfl, h.ready, h.board, h.policy, h.requests, h.xferCalls, h.openCalls⟩, [], [], [], [.ok], ?_, ?_⟩
  · exact ⟨(List.append_nil _).symm, (List.append_nil _).symm, (List.append_nil _).symm, rfl⟩
  · exact ⟨(List.append_nil _).symm, (List.append_nil _).symm, (List.append_nil _).symm, rfl⟩

/-- What the block has sent the world when the codewords `ws` were sent from a state `u` with the traces of `s`. -/
theorem emitted_sendAll {s u s' : State} {ws : List Codeword} {gs : List (GpioLine × GpioLevel)} {st : Status}
    (hu : u.cwTrace = s.cwTrace ∧ u.xferTrace = s.xferTrace) (hcw : s'.cwTrace = (sendAll u ws).cwTrace)
    (hx : s'.xferTrace = (sendAll u ws).xferTrace) (hg : s'.gpioTrace = s.gpioTrace ++ gs)
    (hr : s'.respTrace = s.respTrace ++ [st]) :
    Emitted s s' ws (sentPairs u.board u.xferCalls (batchesOf u.pack ws)) gs [st] :=
  ⟨by rw [hcw, sendAll_cwTrace, hu.1], by rw [hx, sendAll_xferTrace, hu.2], hg, hr⟩

theorem teardownPads_sameCore {s t : State} (h : SameCore s t) : teardownPads t = teardownPads s := by
  rw [teardownPads, teardownPads, h.pack, h.policy]

theorem endAlike_padded {s t : State} (h : SameCore s t) (st : Status) :
    EndAlike s t (respond st { sendAll s (teardownPads s) with asm := .idle, ready := false })
      (respond st { sendAll t (teardownPads t) with asm := .idle, ready := false }) := by
  obtain ⟨hpack, hdev, hfg, -, hboard, hpolicy, hreq, hcalls, hopen⟩ := sameCore_sendAll h (teardownPads s)
  have hemit (u : State) : Emitted u (respond st { sendAll u (teardownPads s) with asm := .idle, ready := false })
      (teardownPads s) (sentPairs u.board u.xferCalls (batchesOf u.pack (teardownPads s))) [] [st] :=
    emitted_sendAll ⟨rfl, rfl⟩ rfl rfl (by rw [List.append_nil]; exact sendAll_gpioTrace u _)
      (congrArg (· ++ [st]) (sendAll_respTrace u _))
  have ht := hemit t
  rw [h.board, h.xferCalls, h.pack] at ht
  rw [teardownPads_sameCore h]
  exact ⟨⟨hpack, hdev, hfg, rfl, hboard, hpolicy, hreq, hcalls, hopen⟩, _, _, _, _, hemit s, ht⟩

theorem endAlike_teardown {s t s' : State} (h : SameCore s t) (hx : exec .teardown s = .next s') :
    ∃ t', exec .teardown t = .next t' ∧ EndAlike s t s' t' := by
  have hready (b : Bool) (hr : s.ready = b) : t.ready = b := h.ready.trans hr
  have hpolicy (p : TeardownPolicy) (hp : s.policy.teardown = p) : t.policy.teardown = p := h.policy ▸ hp
  cases teardownEnded hx with
  | closed hr =>
    exact ⟨_, OpenFailure.exec_notReady rfl (hready _ hr), endAlike_of_leaves h (leaves_self _ s) (leaves_self _ t)⟩
  | dropped hr hp =>
    refine ⟨_, execTeardown_drop (hready _ hr) (hpolicy _ hp),
      ⟨congrArg emptyPack h.pack, h.dev, h.fg, rfl, h.board, h.policy, h.requests, h.xferCalls, h.openCalls⟩,
      [], [], [], [.ok], ?_, ?_⟩
    · exact ⟨(List.append_nil _).symm, (List.append_nil _).symm, (List.append_nil _).symm, rfl⟩
    · exact ⟨(List.append_nil _).symm, (List.append_nil _).symm, (List.append_nil _).symm, rfl⟩
  | padded hr hp hc hw =>
    have hwt : WordsOk t (teardownPads t) := by rw [teardownPads_sameCore h]; exact h.wordsOk hw
    exact ⟨_, execTeardown_pad_ok (hready _ hr) (hpolicy _ hp) (h.pack ▸ hc) hwt, endAlike_padded h .ok⟩
  | padFails hr hp hc hj =>
    have hwt : ¬WordsOk t (teardownPads t) := by
      rw [teardownPads_sameCore h]
      exact fun hw => not_lt.2 (hw 0 (h.firstFailure hj).1) (h.firstFailure hj).2.1
    exact ⟨_, execTeardown_pad_fails (hready _ hr) (hpolicy _ hp) (h.pack ▸ hc) hwt, endAlike_padded h .eXfer⟩

theorem sameCore_loaded {s t : State} (h : SameCore s t) (o : Orient) : SameCore (loaded o s) (loaded o t) :=
  ⟨congrArg emptyPack h.pack, congrArg (deviceOf · o) h.board, h.fg, rfl, h.board, h.policy, h.requests, h.xferCalls,
    congrArg (· + 1) h.openCalls⟩

theorem endAlike_initialized {s t : State} (h : SameCore s t) (o : Orient) :
    EndAlike s t (respond .ok (initialized o s)) (respond .ok (initialized o t)) := by
  have hl := sameCore_loaded h o
  obtain ⟨hpack, hdev, hfg, -, hboard, hpolicy, hreq, hcalls, hopen⟩ := sameCore_sendAll hl (initWords (initSeq s.board o))
  have hemit (u : State) (hb : u.board = s.board) : Emitted u (respond .ok (initialized o u)) (initWords (initSeq s.board o))
      (sentPairs (loaded o u).board (loaded o u).xferCalls (batchesOf (loaded o u).pack (initWords (initSeq s.board o))))
      [(.cs, .selected), (.reset, .asserted), (.reset, .released), (.backlight, .on)] [.ok] := by
    rw [← hb]
    refine emitted_sendAll ⟨rfl, rfl⟩ rfl rfl ?_ (congrArg (· ++ [Status.ok]) (sendAll_respTrace _ _))
    show (sendAll (loaded o u) _).gpioTrace ++ [_] = _
    rw [sendAll_gpioTrace, loaded_eq, List.append_assoc]
    rfl
  have ht := hemit t h.board
  rw [hl.board, hl.xferCalls, hl.pack] at ht
  refine ⟨?_, _, _, _, _, hemit s rfl, ht⟩
  rw [initialized, initialized, h.board]
  exact ⟨hpack, hdev, hfg, rfl, hboard, hpolicy, hreq, hcalls, hopen⟩

theorem endAlike_initCut {s t : State} (h : SameCore s t) (o : Orient) (j : Nat) :
    EndAlike s t (respond .eXfer (initCut o s j)) (respond .eXfer (initCut o t j)) := by
  have hl := sameCore_loaded h o
  have hcutWords : cutWords (loaded o t) (initWords (initSeq t.board o)) j =
      cutWords (loaded o s) (initWords (initSeq s.board o)) j := by
    rw [hl.cutWords, h.board]
  obtain ⟨hpack, hdev, hfg, hready, hboard, hpolicy, hreq, hcalls, hopen⟩ :=
    sameCore_sendAll hl (cutWords (loaded o s) (initWords (initSeq s.board o)) j)
  have hemit (u : State) :
      Emitted u (respond .eXfer (initCut o u j)) (cutWords (loaded o u) (initWords (initSeq u.board o)) j)
      (sentPairs (loaded o u).board (loaded o u).xferCalls
        (batchesOf (loaded o u).pack (cutWords (loaded o u) (initWords (initSeq u.board o)) j)))
      [(.cs, .selected), (.reset, .asserted), (.reset, .released)] [.eXfer] := by
    refine emitted_sendAll ⟨rfl, rfl⟩ rfl rfl ?_ (congrArg (· ++ [Status.eXfer]) (sendAll_respTrace _ _))
    show (sendAll (loaded o u) _).gpioTrace = _
    rw [sendAll_gpioTrace, loaded_eq]
  have ht := hemit t
  rw [hl.board, hl.xferCalls, hl.pack, hcutWords] at ht
  refine ⟨?_, _, _, _, _, hemit s, ht⟩
  rw [initCut, initCut, hcutWords]
  exact ⟨hpack, hdev, hfg, hready, hboard, hpolicy, hreq, hcalls, hopen⟩

theorem endAlike_init {b : Byte} {s t s' : State} (h : SameCore s t) (hx : exec (.init b) s = .next s') :
    ∃ t', exec (.init b) t = .next t' ∧ EndAlike s t s' t' := by
  have hnext : nextOpen t = nextOpen s := by rw [nextOpen, nextOpen, h.board, h.openCalls]
  have hl (o : Orient) := sameCore_loaded h o
  cases initEnded hx with
  | illegal ho =>
    exact ⟨_, OpenFailure.exec_init_of_none ho t, endAlike_of_leaves h (leaves_self _ s) (leaves_self _ t)⟩
  | notOpened o ho hopen =>
    refine ⟨_, (OpenFailure.exec_init_of_some ho t).trans
        (congrArg Host.Outcome.next (OpenFailure.initState_notOpened (hnext ▸ hopen) o)),
      ⟨h.pack, h.dev, h.fg, rfl, h.board, h.policy, h.requests, h.xferCalls, congrArg (· + 1) h.openCalls⟩,
      [], [], [], [.eOpen], ?_, ?_⟩
    · exact ⟨(List.append_nil _).symm, (List.append_nil _).symm, (List.append_nil _).symm, rfl⟩
    · exact ⟨(List.append_nil _).symm, (List.append_nil _).symm, (List.append_nil _).symm, rfl⟩
  | done o ho hopen hw =>
    have hwt : WordsOk (loaded o t) (initWords (initSeq t.board o)) := by rw [h.board]; exact (hl o).wordsOk hw
    exact ⟨_, (OpenFailure.exec_init_of_some ho t).trans
      (congrArg Host.Outcome.next (initState_ok (hnext ▸ hopen) hwt)), endAlike_initialized h o⟩
  | cut o j ho hopen hj =>
    have hjt : FirstFailure (loaded o t) (initWords (initSeq t.board o)) j := by
      rw [h.board]
      exact (hl o).firstFailure hj
    exact ⟨_, (OpenFailure.exec_init_of_some ho t).trans
      (congrArg Host.Outcome.next (initState_cut (hnext ▸ hopen) hjt)), endAlike_initCut h o j⟩

/-- Settles O56. -/
theorem unreadStateDecidesNothing : Obligations.UnreadStateDecidesNothing := by
  unfold Obligations.UnreadStateDecidesNothing
  intro i s t s' hcore hx
  have h := core_eq_iff.1 hcore
  have halike : ∃ t', exec i t = .next t' ∧ EndAlike s t s' t' := by
    obtain ⟨b, rfl⟩ | ⟨f, b, rfl⟩ | rfl | ⟨hu, hne⟩ := ungated_cases i
    · exact endAlike_init h hx
    · exact endAlike_setcolors h hx
    · exact endAlike_teardown h hx
    · exact endAlike_gated hu hne h hx
  obtain ⟨t', hxt, hkept, hemit⟩ := halike
  exact ⟨t', hxt, core_eq_iff.2 hkept, hemit⟩

end Sys2Proof.Proofs.UnreadState
end

section
/-! What LINE plots (spec/43_raster.md R175): the closed form's points from end to end. -/

namespace Sys2Proof.Proofs.LinePoints

open Sys2Proof Sys2Proof.Machine Sys2Proof.Config Sys2Proof.Safety Sys2Proof.Proofs.OperationStream
open Sys2Proof.Proofs.Endings Sys2Proof.Proofs.Frames
open Sys2Proof.Proofs.ReadyGate (last_status)

/-! ### One axis -/

section
variable {m dist : Nat} (hm : m ≤ dist)
include hm

theorem axisSteps_one : axisSteps m dist 1 = 0 := by
  have h : (1 * m + dist - 1) / dist < 2 := by
    obtain rfl | hd := Nat.eq_zero_or_pos dist
    · rw [Nat.div_zero]
      exact Nat.two_pos
    · rw [Nat.div_lt_iff_lt_mul hd]
      omega
  rw [axisSteps]
  omega

/-- After `dist + 1` accumulations the axis has made all its steps. -/
theorem axisSteps_last : axisSteps m dist (dist + 1) = m := by
  obtain rfl | hd := Nat.eq_zero_or_pos dist
  · obtain rfl := Nat.le_zero.1 hm
    rfl
  · obtain rfl | hpos := Nat.eq_zero_or_pos m
    · rw [axisSteps, Nat.mul_zero, Nat.zero_add, Nat.div_eq_of_lt (Nat.sub_lt hd Nat.one_pos)]
    · have hsplit : (dist + 1) * m + dist - 1 = (m - 1) + dist * (m + 1) := by
        rw [Nat.add_mul, Nat.mul_add]
        omega
      rw [axisSteps, hsplit, Nat.add_mul_div_left _ _ hd, Nat.div_eq_of_lt (by omega), Nat.zero_add, Nat.add_sub_cancel]

/-- One accumulation makes at most one step, and never takes one back. -/
theorem axisSteps_succ (k : Nat) :
    axisSteps m dist (k + 1) = axisSteps m dist k ∨ axisSteps m dist (k + 1) = axisSteps m dist k + 1 := by
  obtain rfl | hd := Nat.eq_zero_or_pos dist
  · exact .inl (by rw [axisSteps, axisSteps, Nat.div_zero, Nat.div_zero])
  · have hnext : (k + 1) * m + dist - 1 = k * m + dist - 1 + m := by
      rw [Nat.add_mul, Nat.one_mul]
      omega
    have hlow : (k * m + dist - 1) / dist ≤ (k * m + dist - 1 + m) / dist := Nat.div_le_div_right (Nat.le_add_right _ _)
    have hhigh : (k * m + dist - 1 + m) / dist ≤ (k * m + dist - 1) / dist + 1 := by
      rw [← Nat.add_div_right _ hd]
      exact Nat.div_le_div_right (Nat.add_le_add_left hm _)
    rw [axisSteps, axisSteps, hnext]
    omega

end

/-- The major axis steps every time. -/
theorem axisSteps_major {dist : Nat} (hd : 0 < dist) (k : Nat) : axisSteps dist dist k = k - 1 := by
  have hsplit : k * dist + dist - 1 = (dist - 1) + dist * k := by
    rw [Nat.mul_comm]
    omega
  rw [axisSteps, hsplit, Nat.add_mul_div_left _ _ hd, Nat.div_eq_of_lt (Nat.sub_lt hd Nat.one_pos), Nat.zero_add]

/-! ### The points of a line -/

/-- Coordinate `t` of an axis from `a` to `b` over the distance `dist`. -/
def axisAt (a b : Int) (dist t : Nat) : Int := a + (b - a).sign * axisSteps (b - a).natAbs dist (t + 1)

theorem linePoints_eq (x1 y1 x2 y2 : Int) :
    linePoints x1 y1 x2 y2 =
      (List.range (max (x2 - x1).natAbs (y2 - y1).natAbs + 1)).map fun t =>
        (axisAt x1 x2 (max (x2 - x1).natAbs (y2 - y1).natAbs) t, axisAt y1 y2 (max (x2 - x1).natAbs (y2 - y1).natAbs) t) :=
  rfl

section
variable {a b : Int} {dist : Nat}

theorem axisAt_zero (h : (b - a).natAbs ≤ dist) : axisAt a b dist 0 = a := by
  rw [axisAt, axisSteps_one h, Int.natCast_zero, mul_zero, add_zero]

theorem axisAt_last (h : (b - a).natAbs ≤ dist) : axisAt a b dist dist = b := by
  rw [axisAt, axisSteps_last h, Int.sign_mul_natAbs, add_sub_cancel]

theorem axisAt_succ (h : (b - a).natAbs ≤ dist) (t : Nat) : (axisAt a b dist (t + 1) - axisAt a b dist t).natAbs ≤ 1 := by
  have hsign : (b - a).sign = -1 ∨ (b - a).sign = 0 ∨ (b - a).sign = 1 := Int.sign_trichotomy (b - a) |>.elim
    (fun h => .inr (.inr h)) fun h => h.elim (fun h => .inr (.inl h)) .inl
  obtain he | he := axisSteps_succ h (t + 1)
  · rw [axisAt, axisAt, he, sub_self]
    exact Nat.zero_le _
  · have hdiff : axisAt a b dist (t + 1) - axisAt a b dist t = (b - a).sign := by
      rw [axisAt, axisAt, he]
      push_cast
      ring
    rw [hdiff]
    omega

/-- On the major axis every point is one step further. -/
theorem axisAt_major (h : (b - a).natAbs = dist) (hd : 0 < dist) (t : Nat) : axisAt a b dist t = a + (b - a).sign * t := by
  rw [axisAt, h, axisSteps_major hd, Nat.add_sub_cancel]

theorem sign_natAbs_one (h : (b - a).natAbs = dist) (hd : 0 < dist) : (b - a).sign.natAbs = 1 :=
  Int.natAbs_sign_of_ne_zero (Int.natAbs_pos.1 (h ▸ hd))

theorem axisAt_major_succ (h : (b - a).natAbs = dist) (hd : 0 < dist) (t : Nat) :
    (axisAt a b dist (t + 1) - axisAt a b dist t).natAbs = 1 := by
  have hdiff : axisAt a b dist (t + 1) - axisAt a b dist t = (b - a).sign := by
    rw [axisAt_major h hd, axisAt_major h hd]
    push_cast
    ring
  rw [hdiff, sign_natAbs_one h hd]

theorem axisAt_major_inj (h : (b - a).natAbs = dist) (hd : 0 < dist) {t u : Nat}
    (he : axisAt a b dist t = axisAt a b dist u) : t = u := by
  rw [axisAt_major h hd, axisAt_major h hd, add_right_inj] at he
  have hne : (b - a).sign ≠ 0 := fun h0 => by
    have := sign_natAbs_one h hd
    rw [h0] at this
    cases this
  exact Int.natCast_inj.1 (mul_left_cancel₀ hne he)

end

section
variable (x1 y1 x2 y2 : Int)

theorem linePoints_head : (linePoints x1 y1 x2 y2).head? = some (x1, y1) := by
  rw [linePoints_eq, List.range_succ_eq_map, List.map_cons, List.head?_cons, axisAt_zero (Nat.le_max_left _ _),
    axisAt_zero (Nat.le_max_right _ _)]

theorem linePoints_last : (linePoints x1 y1 x2 y2).getLast? = some (x2, y2) := by
  rw [linePoints_eq, List.range_succ, List.map_append, List.map_singleton, List.getLast?_concat,
    axisAt_last (Nat.le_max_left _ _), axisAt_last (Nat.le_max_right _ _)]

/-- No point twice: on the major axis no two agree. -/
theorem linePoints_nodup : (linePoints x1 y1 x2 y2).Nodup := by
  rw [linePoints_eq]
  refine List.Nodup.map_on (fun t ht u hu he => ?_) List.nodup_range
  rw [List.mem_range] at ht hu
  obtain h0 | hd := Nat.eq_zero_or_pos (max (x2 - x1).natAbs (y2 - y1).natAbs)
  · omega
  · obtain ⟨hx, hy⟩ := Prod.mk.inj he
    obtain hle | hle := Nat.le_total (y2 - y1).natAbs (x2 - x1).natAbs
    · exact axisAt_major_inj (Nat.max_eq_left hle).symm hd hx
    · exact axisAt_major_inj (Nat.max_eq_right hle).symm hd hy

/-- Neighbour by neighbour, the major axis stepping every time. -/
theorem linePoints_next {k : Nat} {p q : Int × Int} (hp : (linePoints x1 y1 x2 y2)[k]? = some p)
    (hq : (linePoints x1 y1 x2 y2)[k + 1]? = some q) :
    ((y2 - y1).natAbs ≤ (x2 - x1).natAbs → (q.1 - p.1).natAbs = 1) ∧
      ((x2 - x1).natAbs ≤ (y2 - y1).natAbs → (q.2 - p.2).natAbs = 1) ∧
      (q.1 - p.1).natAbs ≤ 1 ∧ (q.2 - p.2).natAbs ≤ 1 := by
  have hlt : k + 1 < max (x2 - x1).natAbs (y2 - y1).natAbs + 1 := by
    rw [← linePoints_length x1 y1 x2 y2]
    exact (List.getElem?_eq_some_iff.1 hq).1
  have hd : 0 < max (x2 - x1).natAbs (y2 - y1).natAbs := by omega
  rw [linePoints_eq, List.getElem?_map, List.getElem?_range (by omega), Option.map_some, Option.some_inj] at hp
  rw [linePoints_eq, List.getElem?_map, List.getElem?_range hlt, Option.map_some, Option.some_inj] at hq
  subst hp hq
  exact ⟨fun hle => axisAt_major_succ (Nat.max_eq_left hle).symm hd k,
    fun hle => axisAt_major_succ (Nat.max_eq_right hle).symm hd k,
    axisAt_succ (Nat.le_max_left _ _) k, axisAt_succ (Nat.le_max_right _ _) k⟩

end

theorem filterMap_drawPoints (c : Word16) (ps : List (Int × Int)) :
    (drawPoints c ps).filterMap drawPlot = ps.map fun p => (p.1, p.2, c) := by
  rw [drawPoints, List.filterMap_map, ← List.filterMap_eq_map]
  rfl

/-- Settles O23. -/
theorem linePlotsOncePerStep : Obligations.LinePlotsOncePerStep := by
  unfold Obligations.LinePlotsOncePerStep
  intro x1 y1 x2 y2 s t hr hx hresp
  have hplots : t.plotTrace = s.plotTrace ++
      (linePoints (zext x1) (zext y1) (zext x2) (zext y2)).map fun p => (p.1, p.2, s.fg) := by
    cases ended rfl rfl hx with
    | closed hr' => cases last_status hresp
    | illegal hr' hl => cases last_status hresp
    | done k y z => exact congrArg (s.plotTrace ++ ·) (filterMap_drawPoints s.fg _)
    | cut j k => cases last_status hresp
  exact ⟨_, hplots, linePoints_length _ _ _ _, linePoints_nodup _ _ _ _, linePoints_head _ _ _ _, linePoints_last _ _ _ _,
    fun k p q => linePoints_next _ _ _ _⟩

end Sys2Proof.Proofs.LinePoints
end

section
/-! What CIRCLE plots (spec/43_raster.md R184): the loop ends by itself, and the points have the circle's eight
symmetries. -/

namespace Sys2Proof.Proofs.CirclePoints

open Sys2Proof Sys2Proof.Machine

/-! ### The loop's end -/

/-- Each iteration brings `cx` and `cy` closer by one at least, so `cy - cx + 1` iterations exhaust the loop. -/
theorem circleSteps_exhausted {n : Nat} {cx cy : Int} (h : cy - cx + 1 ≤ n) (d : Int) :
    circleSteps (n + 1) cx cy d = circleSteps n cx cy d := by
  induction n generalizing cx cy d with
  | zero => rw [circleSteps, circleSteps, if_neg (by omega)]
  | succ n ih =>
    rw [circleSteps]
    conv_rhs => rw [circleSteps]
    rw [ih (by omega), ih (by omega)]

theorem circleSteps_enough {n m : Nat} {cx cy : Int} (h : cy - cx + 1 ≤ n) (hm : n ≤ m) (d : Int) :
    circleSteps m cx cy d = circleSteps n cx cy d := by
  induction m, hm using Nat.le_induction with
  | base => rfl
  | succ m hm ih => rw [circleSteps_exhausted (by omega), ih]

/-! ### The symmetries -/

/-- The points closed under the reflections about the centre: in the vertical, the horizontal and the diagonal. -/
def Symmetric (xc yc : Int) (ps : List (Int × Int)) : Prop :=
  ∀ u v : Int, (xc + u, yc + v) ∈ ps → (xc - u, yc + v) ∈ ps ∧ (xc + u, yc - v) ∈ ps ∧ (xc + v, yc + u) ∈ ps

theorem mem_octants {xc yc a b u v : Int} :
    (xc + u, yc + v) ∈ octants xc yc a b ↔
      (u = a ∨ u = -a) ∧ (v = b ∨ v = -b) ∨ (u = b ∨ u = -b) ∧ (v = a ∨ v = -a) := by
  simp only [octants, List.mem_cons, List.not_mem_nil, or_false, Prod.mk.injEq, add_right_inj, sub_eq_add_neg]
  tauto

theorem symmetric_octants (xc yc a b : Int) : Symmetric xc yc (octants xc yc a b) := by
  intro u v h
  have hneg (w c : Int) : -w = c ∨ -w = -c ↔ w = c ∨ w = -c := by omega
  rw [sub_eq_add_neg, sub_eq_add_neg, mem_octants, mem_octants, mem_octants, hneg, hneg, hneg, hneg]
  rw [mem_octants] at h
  exact ⟨h, h, h.symm.imp And.symm And.symm⟩

theorem symmetric_flatMap {α : Type} {xc yc : Int} {f : α → List (Int × Int)} (l : List α)
    (h : ∀ a, Symmetric xc yc (f a)) : Symmetric xc yc (l.flatMap f) := by
  intro u v hmem
  obtain ⟨a, ha, hp⟩ := List.mem_flatMap.1 hmem
  obtain ⟨hx, hy, hd⟩ := h a u v hp
  exact ⟨List.mem_flatMap.2 ⟨a, ha, hx⟩, List.mem_flatMap.2 ⟨a, ha, hy⟩, List.mem_flatMap.2 ⟨a, ha, hd⟩⟩

theorem symmetric_circleSpan (xc yc : Int) (filled : Bool) (p : Int × Int) :
    Symmetric xc yc (circleSpan xc yc filled p) := by
  cases filled with
  | false => exact symmetric_octants _ _ _ _
  | true => exact symmetric_flatMap _ fun _ => symmetric_octants _ _ _ _

/-- Settles O26. -/
theorem circleEndsAndIsSymmetric : Obligations.CircleEndsAndIsSymmetric := by
  unfold Obligations.CircleEndsAndIsSymmetric
  exact ⟨fun r n hn => circleSteps_enough (by push_cast; omega) hn _,
    fun xc yc r filled u v h => symmetric_flatMap _ (symmetric_circleSpan xc yc filled) u v h⟩

end Sys2Proof.Proofs.CirclePoints
end

section
/-! The strings of the text operations (spec/44_text.md R210, R211): what NUMBER shows, and where a string of ASCII
leaves the cursor. -/

namespace Sys2Proof.Proofs.TextStrings

open Sys2Proof Sys2Proof.Machine Sys2Proof.Config Sys2Proof.Safety Sys2Proof.Proofs.OperationStream
open Sys2Proof.Proofs.Endings Sys2Proof.Proofs.ByDefinition Sys2Proof.Proofs.Completion
open Sys2Proof.Proofs.ReadyGate (last_status)

/-! ### NUMBER's string -/

/-- A digit of the cells shown is one of the number's last `len` digits. -/
theorem digitAt_eq {num len k : Nat} (hk : k < len) : digitAt num len k = num % 10 ^ len / 10 ^ (len - 1 - k) % 10 := by
  have hpow : 10 ^ len = 10 ^ (len - 1 - k) * 10 ^ (k + 1) := by
    rw [← Nat.pow_add]
    congr 1
    omega
  rw [digitAt, hpow, Nat.mod_mul_right_div_self, Nat.mod_mod_of_dvd _ (Dvd.intro_left (10 ^ k) (Nat.pow_succ ..).symm)]

/-- With only zeros before it, a digit is not 0 exactly where the number reaches its place. -/
theorem digit_ne_zero_iff {a n : Nat} (h : a < 10 ^ (n + 1)) : a / 10 ^ n % 10 ≠ 0 ↔ 10 ^ n ≤ a := by
  have hpos : 0 < 10 ^ n := Nat.pow_pos (by decide)
  have hlt : a / 10 ^ n < 10 := Nat.div_lt_of_lt_mul (by rwa [← Nat.pow_succ])
  rw [Nat.mod_eq_of_lt hlt, ← Nat.pos_iff_ne_zero, Nat.div_pos_iff]
  exact and_iff_right hpos

/-- What stands in cell `k`: a space before the first digit that is not 0 and before the units digit. -/
def cellShown (num len k : Nat) : Byte :=
  if k + 1 < len ∧ num % 10 ^ len < 10 ^ (len - 1 - k) then 0x20#8
  else BitVec.ofNat 8 (0x30 + num / 10 ^ (len - 1 - k) % 10)

/-- Whether a digit that is not 0 has been seen, cell by cell: whether the number reaches the place before. -/
theorem seen_next {num len n k : Nat} {seen : Bool} (hk : k + (n + 1) = len)
    (hseen : seen = decide (10 ^ (n + 1) ≤ num % 10 ^ len)) :
    (seen || digitAt num len k != 0) = decide (10 ^ n ≤ num % 10 ^ len) := by
  have hplace : len - 1 - k = n := by omega
  obtain hle | hlt := Nat.lt_or_ge (num % 10 ^ len) (10 ^ (n + 1)) |>.symm
  · have hreach : 10 ^ n ≤ num % 10 ^ len := (Nat.pow_le_pow_right (by decide) (Nat.le_succ n)).trans hle
    rw [hseen, decide_eq_true hle, decide_eq_true hreach, Bool.true_or]
  · rw [hseen, decide_eq_false (Nat.not_le.2 hlt), Bool.false_or, digitAt_eq (by omega), hplace]
    exact Bool.eq_iff_iff.2 (by rw [bne_iff_ne, decide_eq_true_eq]; exact digit_ne_zero_iff hlt)

theorem numberCells_getElem? {num len n k : Nat} {seen : Bool} (hk : k + n = len)
    (hseen : seen = decide (10 ^ n ≤ num % 10 ^ len)) {m : Nat} (hm : m < n) :
    (numberCells num len n k seen)[m]? = some (cellShown num len (k + m)) := by
  induction n generalizing k seen m with
  | zero => exact absurd hm (Nat.not_lt_zero m)
  | succ n ih =>
    have hplace : len - 1 - k = n := by omega
    have hnext := seen_next hk hseen
    rw [numberCells, hnext]
    cases m with
    | zero =>
      have hcell : k + 0 = k := rfl
      rw [List.getElem?_cons_zero, cellShown, hcell, hplace, digitAt, hplace]
      congr 1
      by_cases hspace : k + 1 < len ∧ num % 10 ^ len < 10 ^ n
      · rw [if_pos hspace, if_neg]
        rw [decide_eq_false (Nat.not_le.2 hspace.2), Bool.false_or, beq_iff_eq]
        omega
      · rw [if_neg hspace, if_pos]
        rw [Bool.or_eq_true, decide_eq_true_eq, beq_iff_eq]
        omega
    | succ m =>
      have hmore : (k + 1 == len) = false := beq_eq_false_iff_ne.2 (by omega)
      rw [List.getElem?_cons_succ, hmore, Bool.or_false, ih (by omega) rfl (by omega)]
      congr 2
      omega

/-- Settles O36. -/
theorem numberIsRightAlignedDecimal : Obligations.NumberIsRightAlignedDecimal := by
  unfold Obligations.NumberIsRightAlignedDecimal
  intro num len _ _
  refine ⟨numberString_length num len, fun k hk => ?_⟩
  have hnone : false = decide (10 ^ len ≤ num % 10 ^ len) :=
    (decide_eq_false (Nat.not_le.2 (Nat.mod_lt _ (Nat.pow_pos (by decide))))).symm
  have h := numberCells_getElem? (Nat.zero_add len) hnone hk
  rwa [Nat.zero_add] at h

/-! ### A string of printable ASCII -/

/-- A string that fits its line advances the cursor half the size per byte (R210). -/
theorem stringCursor_ascii {d : DeviceState} {size : Byte} {xs : Int} {bytes : List Byte} {tx ty : Int}
    (hb : ∀ b ∈ bytes, isAscii b = true)
    (hx : tx + (bytes.length * (size.toNat / 2) : Nat) ≤ zext d.width) (hy : ty + size.toNat ≤ zext d.height) :
    stringCursor d size xs bytes tx ty = (tx + (bytes.length * (size.toNat / 2) : Nat), ty) := by
  induction bytes generalizing tx with
  | nil =>
    rw [List.length_nil, Nat.zero_mul, Int.natCast_zero, add_zero]
    rfl
  | cons b bytes ih =>
    have hlen : ((b :: bytes).length * (size.toNat / 2) : Nat) = size.toNat / 2 + bytes.length * (size.toNat / 2) := by
      rw [List.length_cons, Nat.add_mul, Nat.one_mul, Nat.add_comm]
    rw [hlen] at hx ⊢
    have hfits : fits tx ty (size.toNat / 2) size.toNat d = true := by
      rw [fits, Bool.and_eq_true, decide_eq_true_eq, decide_eq_true_eq]
      omega
    unfold stringCursor
    rw [if_pos (hb b List.mem_cons_self), if_pos hfits,
      ih (fun c hc => hb c (List.mem_cons_of_mem b hc)) (by omega)]
    congr 1
    omega

/-- Where STRING leaves the cursor when it answers OK, the batch not full when it begins. -/
theorem string_cursor_below (x y fc bc : Word16) {size mode : Byte} {bytes : List Byte} {s t : State}
    (hr : s.ready = true) (hc : s.pack.cnt < batch) (hsize : size.toNat ∈ [12, 16, 24, 32]) (hmode : mode.toNat ≤ 1)
    (hl : bytes.length ≤ 65535) (hx : exec (.string x y fc bc size mode bytes) s = .next t)
    (hresp : t.respTrace = s.respTrace ++ [.ok]) :
    (t.text.tx, t.text.ty) = stringCursor s.dev size (zext x) bytes (zext x) (zext y) := by
  have hbit : decide (mode = 1#8) = decide (mode.toNat = 1) :=
    decide_eq_decide.2 ⟨fun h => by rw [h]; rfl, fun h => BitVec.eq_of_toNat_eq h⟩
  have hwords : WordsOk s (codewordsOf s.dev
      (drawString s.board s.dev fc bc size (mode.toNat = 1) (zext x) bytes (zext x) (zext y))) := by
    cases ended rfl rfl hx with
    | closed hr' => cases last_status hresp
    | illegal hr' hl' => cases last_status hresp
    | done k y z _ _ _ hw => rwa [drawsOf, hbit] at hw
    | cut j k => cases last_status hresp
  obtain ⟨e, he, hxe⟩ := exec_string_ok x y fc bc hr hc hsize hmode hl hwords
  obtain rfl := Host.Outcome.next.inj (hxe.symm.trans hx)
  exact he

/-- The same where the batch is full: STRING then ends only by drawing nothing, as with any other Pack Buffer. -/
theorem string_cursor (x y fc bc : Word16) {size mode : Byte} {bytes : List Byte} {s t : State}
    (hr : s.ready = true) (hsize : size.toNat ∈ [12, 16, 24, 32]) (hmode : mode.toNat ≤ 1)
    (hl : bytes.length ≤ 65535) (hx : exec (.string x y fc bc size mode bytes) s = .next t)
    (hresp : t.respTrace = s.respTrace ++ [.ok]) :
    (t.text.tx, t.text.ty) = stringCursor s.dev size (zext x) bytes (zext x) (zext y) := by
  obtain hc | hc := Nat.lt_or_ge s.pack.cnt batch
  · exact string_cursor_below x y fc bc hr hc hsize hmode hl hx hresp
  · have hbit : bitOk mode = true := decide_eq_true hmode
    obtain ⟨u, hxu, -, -, hxp⟩ | ⟨hfault, -⟩ := FullBatch.blocks_string (s := FullBatch.withPack PackBuffer.reset s)
      (p := s.pack) x y fc bc hr (Nat.zero_lt_succ _) hc (textSizeOk_of_mem hsize) hbit hl
    · obtain rfl := Host.Outcome.next.inj (hxp.symm.trans hx)
      exact string_cursor_below (s := FullBatch.withPack PackBuffer.reset s) (t := u) x y fc bc hr (Nat.zero_lt_succ _)
        hsize hmode
        hl hxu hresp
    · rw [show FullBatch.withPack s.pack (FullBatch.withPack PackBuffer.reset s) = s from rfl, hx] at hfault
      cases hfault

/-- Settles O32. -/
theorem asciiStringAdvance : Obligations.AsciiStringAdvance := by
  unfold Obligations.AsciiStringAdvance
  intro x y fc bc size mode bytes s t hr hsize hmode hl hb hwidth hheight hx hresp
  have hcur := string_cursor x y fc bc hr hsize hmode hl hx hresp
  have hfit : zext x + (bytes.length * (size.toNat / 2) : Nat) ≤ zext s.dev.width := by
    rw [zext, zext]
    omega
  have hrow : zext y + size.toNat ≤ zext s.dev.height := by
    rw [zext, zext]
    omega
  rw [stringCursor_ascii (fun b h => isAscii_of_range (hb b h).1 (hb b h).2) hfit hrow] at hcur
  exact Prod.mk.inj hcur

end Sys2Proof.Proofs.TextStrings
end

section
/-! Where the glyph reads lie in the ROM tables (spec/44_text.md R201, R205): inside tables of the stated sizes, at
the stated places. -/

namespace Sys2Proof.Proofs.GlyphTables

open Sys2Proof Sys2Proof.Machine Sys2Proof.Config Sys2Proof.Proofs.BatchLayout

/-! ### Reads -/

theorem memRead_getElem? {space : List Byte} {addr n j : Nat} {v : Byte} (hj : j < n) (hv : space[addr + j]? = some v) :
    (memRead space addr n)[j]? = some v := by
  rw [memRead, List.getElem?_map, List.getElem?_range hj, Option.map_some, hv, Option.getD_some]

/-- Rows of `w` entries one after another: entry `t` of row `p`. -/
theorem rows_getElem? {α : Type} {f : Nat → List α} {w h p t : Nat} (hw : ∀ r, (f r).length = w) (hp : p < h) (ht : t < w) :
    ((List.range h).flatMap f)[p * w + t]? = (f p)[t]? := by
  induction h with
  | zero => exact absurd hp (Nat.not_lt_zero p)
  | succ h ih =>
    have hlen : ((List.range h).flatMap f).length = h * w := by
      simp [List.length_flatMap, hw]
    rw [List.range_succ, List.flatMap_append, List.flatMap_singleton]
    obtain hlt | rfl := Nat.lt_succ_iff_lt_or_eq.1 hp
    · have hrow : p * w + w ≤ h * w := by
        rw [← Nat.succ_mul]
        exact Nat.mul_le_mul_right w hlt
      rw [List.getElem?_append_left (by omega), ih hlt]
    · rw [List.getElem?_append_right (by omega), hlen, Nat.add_sub_cancel_left]

/-! ### The sizes of the tables -/

theorem asciiFont_length {b : Board} (hb : b.wf = true) (sz : AsciiSize) : (asciiFont b sz).length = 95 * asciiPx sz := by
  simp only [Board.wf, Bool.and_eq_true, beq_iff_eq] at hb
  obtain ⟨⟨⟨⟨h12, h16⟩, -⟩, -⟩, -⟩ := hb
  cases sz with
  | s12 => exact h12
  | s16 => exact h16

theorem dbBitmap_length {b : Board} (hb : b.wf = true) (sz : WideSize) :
    (dbBitmap b sz).length = wideBytes sz * (dbIndex b sz).length := by
  simp only [Board.wf, Bool.and_eq_true, beq_iff_eq] at hb
  obtain ⟨⟨⟨-, h16⟩, h24⟩, h32⟩ := hb
  cases sz with
  | s16 => exact h16
  | s24 => exact h24
  | s32 => exact h32

/-! ### Both paths -/

theorem asciiRow_read {b : Board} (hb : b.wf = true) (sz : AsciiSize) {ch : Byte} {p : Nat} (hlo : 0x20 ≤ ch.toNat)
    (hhi : ch.toNat ≤ 0x7E) (hp : p < asciiPx sz) :
    ∃ row, (asciiFont b sz)[(ch.toNat - 0x20) * asciiPx sz + p]? = some row ∧ (asciiRows b sz ch)[p]? = some row := by
  have hin : (ch.toNat - 0x20) * asciiPx sz + p < (asciiFont b sz).length := by
    rw [asciiFont_length hb]
    calc (ch.toNat - 0x20) * asciiPx sz + p < (ch.toNat - 0x20) * asciiPx sz + asciiPx sz := Nat.add_lt_add_left hp _
      _ = (ch.toNat - 0x20 + 1) * asciiPx sz := (Nat.succ_mul _ _).symm
      _ ≤ 95 * asciiPx sz := Nat.mul_le_mul_right _ (by omega)
  exact ⟨_, List.getElem?_eq_getElem hin, memRead_getElem? hp (List.getElem?_eq_getElem hin)⟩

/-- Byte `m` of the bitmap of index entry `k`. -/
theorem wideByte_read {b : Board} (hb : b.wf = true) (sz : WideSize) {k m : Nat} (hk : k < (dbIndex b sz).length)
    (hm : m < wideBytes sz) :
    ∃ byte, (dbBitmap b sz)[k * wideBytes sz + m]? = some byte ∧ (wideBitmap b sz k)[m]? = some byte := by
  have hin : k * wideBytes sz + m < (dbBitmap b sz).length := by
    rw [dbBitmap_length hb, Nat.mul_comm (wideBytes sz)]
    calc k * wideBytes sz + m < k * wideBytes sz + wideBytes sz := Nat.add_lt_add_left hm _
      _ = (k + 1) * wideBytes sz := (Nat.succ_mul _ _).symm
      _ ≤ (dbIndex b sz).length * wideBytes sz := Nat.mul_le_mul_right _ hk
  exact ⟨_, List.getElem?_eq_getElem hin, memRead_getElem? hm (List.getElem?_eq_getElem hin)⟩

/-- Pixel `(p, q)` of a bitmap is bit `q mod 8` of byte `⌊q / 8⌋` of row `p`, and that byte lies in the bitmap. -/
theorem widePixel_place (sz : WideSize) {p q : Nat} (hp : p < widePx sz) (hq : q < widePx sz) :
    p * widePx sz + q = 8 * (p * (widePx sz / 8) + q / 8) + q % 8 ∧ p * (widePx sz / 8) + q / 8 < wideBytes sz := by
  cases sz with
  | s16 => simp only [widePx, wideBytes] at *; omega
  | s24 => simp only [widePx, wideBytes] at *; omega
  | s32 => simp only [widePx, wideBytes] at *; omega

/-- Settles O35. -/
theorem glyphTablesAreReadAsLaidOut : Obligations.GlyphTablesAreReadAsLaidOut := by
  unfold Obligations.GlyphTablesAreReadAsLaidOut
  intro b hb
  constructor
  · intro sz ch p t hlo hhi hp ht
    obtain ⟨row, hrow, hread⟩ := asciiRow_read hb sz hlo hhi hp
    refine ⟨row, hrow, ?_⟩
    rw [asciiBits, rows_getElem? (fun r => by rw [List.length_map, List.length_range]) hp ht, List.getElem?_map,
      List.getElem?_range ht, Option.map_some, rowBit, List.getD_eq_getElem?_getD, hread, Option.getD_some]
  · intro sz k p q hk hp hq
    obtain ⟨hplace, hm⟩ := widePixel_place sz hp hq
    obtain ⟨byte, hbyte, hread⟩ := wideByte_read hb sz hk hm
    refine ⟨byte, by rw [Nat.add_assoc]; exact hbyte, ?_⟩
    have hbit : q % 8 < 8 := Nat.mod_lt q (by decide)
    rw [bitmapBits, hplace, flatMap_bitsOf_getElem? hread hbit, BitVec.getMsbD_eq_getLsbD, decide_eq_true hbit,
      Bool.true_and]

end Sys2Proof.Proofs.GlyphTables
end

section
/-! No text operation draws off the panel (spec/44_text.md R200, R208; spec/70_reset_and_hazards.md R281): the bound
check before each cell. -/

namespace Sys2Proof.Proofs.TextOnPanel

open Sys2Proof Sys2Proof.Machine Sys2Proof.Config Sys2Proof.Safety Sys2Proof.Proofs.OperationStream
open Sys2Proof.Proofs.OperandDomains Sys2Proof.Proofs.Endings Sys2Proof.Proofs.EveryEnd

/-! ### One cell -/

/-- A cell of `w` by `h` pixels at `(x, y)` lies on the panel. -/
structure CellOnPanel (d : DeviceState) (x y : Int) (w h : Nat) : Prop where
  left : 0 ≤ x
  top : 0 ≤ y
  right : x + w ≤ zext d.width
  bottom : y + h ≤ zext d.height

section
variable {d : DeviceState} {x y : Int} {w h : Nat} (hcell : CellOnPanel d x y w h)
include hcell

theorem onPanel_of_cell {col row : Nat} (hc : col < w) (hr : row < h) : OnPanel d (x + col) (y + row) := by
  obtain ⟨hl, ht, hright, hb⟩ := hcell
  refine ⟨?_, ?_, ?_, ?_⟩ <;> omega

theorem drawOpen_onPanel (hw : 0 < w) (hh : 0 < h) :
    ∀ dr ∈ drawOpen x y (x + w - 1) (y + h - 1), DrawOnPanel d dr := by
  intro dr hdr
  obtain rfl | hdr := List.mem_cons.1 hdr
  · obtain ⟨hl, ht, hright, hb⟩ := hcell
    refine ⟨⟨?_, ?_, ?_, ?_⟩, ⟨?_, ?_, ?_, ?_⟩, ?_, ?_⟩ <;> omega
  · rw [List.mem_singleton.1 hdr]
    trivial

/-- The panel holds a cell, so the restored window, the whole panel, lies on it. -/
theorem drawRestore_onPanel (hw : 0 < w) (hh : 0 < h) : ∀ dr ∈ drawRestore d, DrawOnPanel d dr := by
  intro dr hdr
  obtain rfl | hdr := List.mem_cons.1 hdr
  · obtain ⟨hl, ht, hright, hb⟩ := hcell
    refine ⟨⟨?_, ?_, ?_, ?_⟩, ⟨?_, ?_, ?_, ?_⟩, ?_, ?_⟩ <;> omega
  · rw [List.mem_singleton.1 hdr]
    trivial

theorem drawBlock_onPanel (hw : 0 < w) (hh : 0 < h) (fc bc : Word16) (bits : List Bool) :
    ∀ dr ∈ drawBlock d x y w h fc bc bits, DrawOnPanel d dr := by
  intro dr hdr
  rw [drawBlock, List.mem_append, List.mem_append] at hdr
  obtain (hopen | hpixel) | hrestore := hdr
  · exact drawOpen_onPanel hcell hw hh dr hopen
  · obtain ⟨b, -, rfl⟩ := List.mem_map.1 hpixel
    trivial
  · exact drawRestore_onPanel hcell hw hh dr hrestore

theorem drawSetBits_onPanel (hw : 0 < w) (fc : Word16) {bits : List Bool} (hlen : bits.length = h * w) :
    ∀ dr ∈ drawSetBits x y w fc bits, DrawOnPanel d dr := by
  intro dr hdr
  obtain ⟨⟨bit, n⟩, hmem, hsome⟩ := List.mem_filterMap.1 hdr
  have hn : n < h * w := by
    rw [← hlen]
    simpa using List.snd_lt_of_mem_zipIdx hmem
  dsimp only at hsome
  split at hsome
  · obtain rfl := Option.some.inj hsome
    exact onPanel_of_cell hcell (Nat.mod_lt n hw) (Nat.div_lt_of_lt_mul (by rwa [Nat.mul_comm]))
  · cases hsome

theorem drawGlyphBits_onPanel (hw : 0 < w) (hh : 0 < h) (fc bc : Word16) (point : Bool) {bits : List Bool}
    (hlen : bits.length = h * w) : ∀ dr ∈ drawGlyphBits d x y w h fc bc point bits, DrawOnPanel d dr := by
  cases point with
  | false => exact drawBlock_onPanel hcell hw hh fc bc bits
  | true => exact drawSetBits_onPanel hcell hw fc hlen

end

theorem cellOnPanel_of_fits {d : DeviceState} {x y : Int} {w h : Nat} (hx : 0 ≤ x) (hy : 0 ≤ y)
    (hf : fits x y w h d = true) : CellOnPanel d x y w h := by
  rw [fits, Bool.and_eq_true, decide_eq_true_eq, decide_eq_true_eq] at hf
  exact ⟨hx, hy, hf.1, hf.2⟩

/-! ### One character -/

theorem asciiBits_length (b : Board) (sz : AsciiSize) (ch : Byte) :
    (asciiBits b sz ch).length = asciiPx sz * (asciiPx sz / 2) := by
  simp [asciiBits, List.length_flatMap]

theorem bitmapBits_length (bm : List Byte) : (bitmapBits bm).length = bm.length * 8 := by
  induction bm with
  | nil => rfl
  | cons b bm ih =>
    have hb : (bitsOf b).length = 8 := by simp [bitsOf]
    rw [bitmapBits] at ih
    rw [bitmapBits, List.flatMap_cons, List.length_append, ih, hb, List.length_cons]
    omega

theorem wideBits_length (b : Board) (sz : WideSize) (k : Nat) :
    (bitmapBits (wideBitmap b sz k)).length = widePx sz * widePx sz := by
  have hbytes : (wideBitmap b sz k).length = wideBytes sz := by simp [wideBitmap, memRead]
  rw [bitmapBits_length, hbytes]
  cases sz <;> rfl

theorem drawChar_onPanel {b : Board} {d : DeviceState} {x y : Int} {sz : AsciiSize}
    (hcell : CellOnPanel d x y (asciiPx sz / 2) (asciiPx sz)) (fc bc : Word16) (ch : Byte) (point : Bool) :
    ∀ dr ∈ drawChar b d x y fc bc ch sz point, DrawOnPanel d dr :=
  drawGlyphBits_onPanel hcell (by cases sz <;> decide) (by cases sz <;> decide) fc bc point (asciiBits_length b sz ch)

theorem drawGlyph_onPanel {b : Board} {d : DeviceState} {x y : Int} {sz : WideSize}
    (hcell : CellOnPanel d x y (widePx sz) (widePx sz)) (fc bc code : Word16) (point : Bool) :
    ∀ dr ∈ drawGlyph b d x y fc bc code sz point, DrawOnPanel d dr := by
  unfold drawGlyph
  cases scanIndex code (dbIndex b sz) with
  | none => exact fun _ h => absurd h List.not_mem_nil
  | some k =>
    exact drawGlyphBits_onPanel hcell (by cases sz <;> decide) (by cases sz <;> decide) fc bc point (wideBits_length b sz k)

/-- An ASCII character of a string, its cell on the panel (R208). -/
theorem stringChar_onPanel {b : Board} {d : DeviceState} {x y : Int} {size : Byte}
    (hcell : CellOnPanel d x y (size.toNat / 2) size.toNat) (fc bc : Word16) (ch : Byte) (point : Bool) :
    ∀ dr ∈ (match asciiSize size with
      | some sz => drawChar b d x y fc bc ch sz point
      | none => []), DrawOnPanel d dr := by
  cases hsz : asciiSize size with
  | none => exact fun _ h => absurd h List.not_mem_nil
  | some sz =>
    rw [asciiSize_eq_some_iff.1 hsz] at hcell
    exact drawChar_onPanel hcell fc bc ch point

theorem stringGlyph_onPanel {b : Board} {d : DeviceState} {x y : Int} {size : Byte}
    (hcell : CellOnPanel d x y size.toNat size.toNat) (fc bc code : Word16) (point : Bool) :
    ∀ dr ∈ (match wideSize size with
      | some sz => drawGlyph b d x y fc bc code sz point
      | none => []), DrawOnPanel d dr := by
  cases hsz : wideSize size with
  | none => exact fun _ h => absurd h List.not_mem_nil
  | some sz =>
    rw [wideSize_eq_some_iff.1 hsz] at hcell
    exact drawGlyph_onPanel hcell fc bc code point

/-! ### Strings -/

/-- Along the loop's branches (R209): every cell has passed its bound check, and the cursor stays at or right of 0 and
at or below 0. -/
theorem drawString_onPanel (b : Board) (d : DeviceState) (fc bc : Word16) (size : Byte) (point : Bool) {xs : Int}
    (hxs : 0 ≤ xs) : ∀ (bytes : List Byte) (tx ty : Int), 0 ≤ tx → 0 ≤ ty →
      ∀ dr ∈ drawString b d fc bc size point xs bytes tx ty, DrawOnPanel d dr
  | [], _, _, _, _ => fun _ h => absurd h List.not_mem_nil
  | c :: rest, tx, ty, hx, hy => by
    have hrest := drawString_onPanel b d fc bc size point hxs rest
    unfold drawString
    split
    · split
      · next hf =>
        refine List.forall_mem_append.2 ⟨stringChar_onPanel (cellOnPanel_of_fits hx hy hf) fc bc c point, ?_⟩
        exact hrest _ _ (by omega) hy
      · exact fun _ h => absurd h List.not_mem_nil
    · split
      · exact hrest _ _ hxs (by omega)
      · split
        · match rest with
          | [] => exact fun _ h => absurd h List.not_mem_nil
          | c1 :: rest' =>
            dsimp only
            split
            · next hf =>
              refine List.forall_mem_append.2
                ⟨stringGlyph_onPanel (cellOnPanel_of_fits hx hy hf) fc bc (be16 c c1) point, ?_⟩
              exact drawString_onPanel b d fc bc size point hxs rest' _ _ (by omega) hy
            · exact fun _ h => absurd h List.not_mem_nil
        · exact hrest _ _ hx hy

/-- The draws of a text operation lie on the panel (R281). -/
theorem drawsOf_text_onPanel {i : Instr} (hi : engineOf i = .text) (s : State) :
    ∀ dr ∈ drawsOf i s, DrawOnPanel s.dev dr := by
  have hpos (w : Word16) : (0 : Int) ≤ zext w := Int.natCast_nonneg _
  cases i with
  | char x y fc bc ch size mode =>
    simp only [drawsOf]
    split
    · split
      · next hf => exact drawChar_onPanel (cellOnPanel_of_fits (hpos x) (hpos y) hf) fc bc ch _
      · exact fun _ h => absurd h List.not_mem_nil
    · exact fun _ h => absurd h List.not_mem_nil
  | glyph x y fc bc code size mode =>
    simp only [drawsOf]
    split
    · split
      · next hf => exact drawGlyph_onPanel (cellOnPanel_of_fits (hpos x) (hpos y) hf) fc bc code _
      · exact fun _ h => absurd h List.not_mem_nil
    · exact fun _ h => absurd h List.not_mem_nil
  | string x y fc bc size mode bytes => exact drawString_onPanel _ _ fc bc size _ (hpos x) bytes _ _ (hpos x) (hpos y)
  | number x y fc bc num len size mode => exact drawString_onPanel _ _ fc bc size _ (hpos x) _ _ _ (hpos x) (hpos y)
  | _ => cases hi

/-! ### The points plotted -/

/-- The draws begun are the first of the stream. -/
theorem begun_isPrefix (d : DeviceState) (ds : List Draw) (n : Nat) : begun d ds n <+: ds := by
  induction ds generalizing n with
  | nil => exact List.prefix_rfl
  | cons x ds ih =>
    unfold begun
    split
    · exact List.nil_prefix
    · exact List.prefix_cons_inj x |>.2 (ih _)

theorem plots_of_ended {i : Instr} {s t : State} (h : Ended i s t) :
    ∃ ps, t.plotTrace = s.plotTrace ++ ps ∧ ps <+: (drawsOf i s).filterMap drawPlot := by
  cases h with
  | closed hr => exact ⟨[], (List.append_nil _).symm, List.nil_prefix⟩
  | illegal hr hl => exact ⟨[], (List.append_nil _).symm, List.nil_prefix⟩
  | done k y z => exact ⟨_, rfl, List.prefix_rfl⟩
  | cut j k => exact ⟨_, rfl, (begun_isPrefix _ _ _).filterMap _⟩

theorem onPanel_of_plot {d : DeviceState} {dr : Draw} {p : Int × Int × Word16} (h : DrawOnPanel d dr)
    (hp : drawPlot dr = some p) : OnPanel d p.1 p.2.1 := by
  cases dr with
  | plot x y c =>
    obtain rfl := Option.some.inj hp
    exact h
  | _ => cases hp

/-- Settles O33. -/
theorem textStaysOnThePanel : Obligations.TextStaysOnThePanel := by
  unfold Obligations.TextStaysOnThePanel
  intro i s t hi _ hx
  have hpanel := drawsOf_text_onPanel hi s
  have hends : Ended i s t := by
    obtain ⟨b, rfl⟩ | ⟨f, b, rfl⟩ | rfl | ⟨hu, hne⟩ := ungated_cases i
    · cases hi
    · cases hi
    · cases hi
    · exact ended hu hne hx
  obtain ⟨ws, hpre, hsends⟩ := sends_of_ended hends
  obtain ⟨ps, hps, hpspre⟩ := plots_of_ended hends
  refine ⟨hpanel, ⟨ws, hsends.cwTrace, hpre⟩, ps, hps, hpspre, fun p hp => ?_⟩
  obtain ⟨dr, hdr, hplot⟩ := List.mem_filterMap.1 (hpspre.subset hp)
  exact onPanel_of_plot (hpanel dr hdr) hplot

end Sys2Proof.Proofs.TextOnPanel
end

section
/-! What nothing may be claimed about holds no value in GRAM (spec/70_reset_and_hazards.md R273, R277, R280; logs 19,
29): which codewords an operation marks, and what the reference sink makes of a batch with a mark and of a failed one.
-/

namespace Sys2Proof.Proofs.UndefinedPixels

open Sys2Proof Sys2Proof.Machine Sys2Proof.Config Sys2Proof.Safety Sys2Proof.Proofs.FailedBatch
open Sys2Proof.Proofs.RawOperations Sys2Proof.Proofs.OperationStream
open Sys2Proof.Proofs.Endings Sys2Proof.Proofs.Initialization Sys2Proof.Proofs.EveryEnd Sys2Proof.Proofs.PackBits

/-! ### Operations that keep the window duty -/

theorem sendAll_strays_cases (s : State) (ws : List Codeword) :
    (sendAll s ws).strays = s.strays ∨ (sendAll s ws).strays = [] := by
  rw [sendAll_strays]
  split
  · exact .inl rfl
  · exact .inr rfl

theorem strays_of_duty {i : Instr} {s t : State} (hd : keepsWindowDuty i s = true) (hx : exec i s = .next t) :
    t.strays = s.strays ∨ t.strays = [] := by
  obtain ⟨b, rfl⟩ | ⟨f, b, rfl⟩ | rfl | ⟨hu, hne⟩ := ungated_cases i
  · have hsent (o : Orient) (ws : List Codeword) : (sendAll (loaded o s) ws).strays = [] :=
      (sendAll_strays_cases (loaded o s) ws).elim id id
    cases initEnded hx with
    | illegal ho => exact .inl rfl
    | notOpened o ho hopen => exact .inl rfl
    | done o ho hopen hw => exact .inr (hsent o _)
    | cut o j ho hopen hj => exact .inr (hsent o _)
  · rw [setcolors_end hx]
    exact .inl rfl
  · cases teardownEnded hx with
    | closed hr => exact .inl rfl
    | dropped hr hp => exact .inr rfl
    | padded hr hp hc hw => exact sendAll_strays_cases s _
    | padFails hr hp hc hj => exact sendAll_strays_cases s _
  · cases ended hu hne hx with
    | closed hr => exact .inl rfl
    | illegal hr hl => exact .inl rfl
    | done k y z hr hl hc hw hk hduty =>
      obtain ⟨rfl, rfl⟩ := hduty hd
      exact sendAll_strays_cases s _
    | cut j k hr hl hc hj hk => exact sendAll_strays_cases s _

/-! ### Operations that break it -/

/-- The codewords `ws` pushed, all marked, none of them ending a batch. -/
structure PushedMarked (s t : State) (ws : List Codeword) : Prop where
  cwTrace : t.cwTrace = s.cwTrace ++ ws
  pack : t.pack = packAll s.pack ws
  strays : t.strays = s.strays ++ (List.range ws.length).map fun j => s.pack.cnt + j

theorem pushedMarked_one {s : State} (hc : s.pack.cnt + 1 < batch) (cw : Codeword) :
    PushedMarked s (sendAll (markStray s) [cw]) [cw] where
  cwTrace := rfl
  pack := rfl
  strays := by
    have hnone : batchesOf (markStray s).pack [cw] = [] := batchesOf_eq_nil hc
    rw [sendAll_strays, if_pos hnone]
    rfl

theorem PushedMarked.append {s t u : State} {ws vs : List Codeword} (h : PushedMarked s t ws) (h' : PushedMarked t u vs)
    (hcnt : t.pack.cnt = s.pack.cnt + ws.length) : PushedMarked s u (ws ++ vs) where
  cwTrace := by rw [h'.cwTrace, h.cwTrace, List.append_assoc]
  pack := by rw [h'.pack, h.pack, packAll_append]
  strays := by
    rw [h'.strays, h.strays, hcnt, List.append_assoc, List.length_append, List.range_add, List.map_append, List.map_map]
    simp only [Function.comp_def, Nat.add_assoc]

theorem PushedMarked.respond {s t : State} {ws : List Codeword} (h : PushedMarked s t ws) (st : Status) :
    PushedMarked s (respond st t) ws :=
  ⟨h.cwTrace, h.pack, h.strays⟩

theorem noteData_eq_markStray {s : State} (h : s.asm ≠ .ramStreaming) : noteData s = markStray s := if_neg h

theorem pushedMarked_twoBytesSent (w : Word16) {s : State} (hc : s.pack.cnt + 2 < batch) (h : s.asm ≠ .ramStreaming) :
    PushedMarked s (twoBytesSent w s) (frameData16 w) := by
  have hcnt : (sendAll (markStray s) [datCodeword (hiByte w)]).pack.cnt = s.pack.cnt + 1 := by
    show (packAll s.pack [datCodeword (hiByte w)]).cnt = _
    rw [packAll_cnt _ _ (by omega), List.length_singleton, Nat.mod_eq_of_lt (by omega)]
  have hfirst := pushedMarked_one (s := s) (by omega) (datCodeword (hiByte w))
  have hsecond := pushedMarked_one (s := sendAll (markStray s) [datCodeword (hiByte w)]) (by omega) (datCodeword (loByte w))
  rw [twoBytesSent, noteData_eq_markStray h, noteData_eq_markStray (by rwa [sendAll_asm])]
  exact hfirst.append hsecond hcnt

theorem pushedMarked_rawPush {c : Carrier} {p : Byte} (hcw : codewordOf c = datCodeword p) {s t : State}
    (hr : s.ready = true) (hc : s.pack.cnt + 1 < batch) (h : s.asm ≠ .ramStreaming)
    (hw : WordsOk s [datCodeword p]) (hx : rawPush c s = .next t) : PushedMarked s t [datCodeword p] := by
  obtain rfl := Host.Outcome.next.inj ((rawPush_data hcw hr (by omega) hw).symm.trans hx)
  rw [noteData_eq_markStray h]
  exact (pushedMarked_one hc (datCodeword p)).respond .ok

/-- Too few codewords to end a batch, so no transfer fails. -/
theorem wordsOk_of_few {s : State} {ws : List Codeword} (h : s.pack.cnt + ws.length < batch) : WordsOk s ws := by
  rw [WordsOk, batchesOf_eq_nil h]
  exact fun _ hj => absurd hj (Nat.not_lt_zero _)

/-- A data codeword is its payload with the data bit. -/
theorem datCodeword_payload {cw : Codeword} (h : isData cw = true) : datCodeword (payload cw) = cw := by
  revert cw
  decide

theorem asm_of_not_duty {i : Instr} {s : State} (h : keepsWindowDuty i s = false) (hi : i ≠ .armram) :
    sendsDataOnly i = true ∧ s.asm ≠ .ramStreaming := by
  have h' : (!sendsDataOnly i || s.asm == .ramStreaming) = false := by
    cases i with
    | armram => exact absurd rfl hi
    | _ => exact h
  rwa [Bool.or_eq_false_iff, Bool.not_eq_false', beq_eq_false_iff_ne] at h'

/-- An operation that breaks the window duty pushes its codewords all the same, each marked (R273). -/
theorem pushedMarked_violator {i : Instr} {s t : State} (hr : s.ready = true) (hc : s.pack.cnt + 2 < batch)
    (hk : keepsWindowDuty i s = false) (hx : exec i s = .next t) :
    PushedMarked s t (codewordsOf s.dev (drawsOf i s)) := by
  have hone (cw : Codeword) : WordsOk s [cw] := wordsOk_of_few (by rw [List.length_singleton]; omega)
  have hraw (p : Byte) (x : BitVec 7) : codewordOf (carrierOf (datCodeword p) x) = datCodeword p := codewordOf_carrierOf _ _
  cases i with
  | push c =>
    obtain ⟨hdata, hasm⟩ := asm_of_not_duty hk nofun
    have hcw := (datCodeword_payload hdata).symm
    have h := pushedMarked_rawPush hcw hr (by omega) hasm (hone _) hx
    rw [← hcw] at h
    exact h
  | wrdat8 b =>
    obtain ⟨-, hasm⟩ := asm_of_not_duty hk nofun
    obtain rfl := Host.Outcome.next.inj ((execWrdat8_ok hr (by omega) (hone _)).symm.trans hx)
    rw [noteData_eq_markStray hasm]
    exact (pushedMarked_one (s := s) (by omega) (datCodeword b)).respond .ok
  | wrdat16 w =>
    obtain ⟨-, hasm⟩ := asm_of_not_duty hk nofun
    obtain rfl := Host.Outcome.next.inj ((execWrdat16_ok hr (by omega) (wordsOk_of_few hc)).symm.trans hx)
    exact (pushedMarked_twoBytesSent w hc hasm).respond .ok
  | armram =>
    have hasm : s.asm = .idle := by simpa [keepsWindowDuty] using hk
    have hmark : noteArm s = markStray s := if_pos hasm
    obtain rfl := Host.Outcome.next.inj ((execArmram_ok hr (by omega) (hone _)).symm.trans hx)
    rw [hmark]
    obtain ⟨hcws, hpack, hstrays⟩ := pushedMarked_one (s := s) (by omega) (cmdCodeword s.dev.ramcmd)
    exact ⟨hcws, hpack, hstrays⟩
  | cwDat p => exact pushedMarked_rawPush (hraw p 0#7) hr (by omega) (asm_of_not_duty hk nofun).2 (hone _) hx
  | carrierDat p x => exact pushedMarked_rawPush (hraw p x) hr (by omega) (asm_of_not_duty hk nofun).2 (hone _) hx
  | _ => exact Bool.noConfusion hk

/-! ### The sink -/

theorem sinkFeed_misread (o : SinkOrder) (d : DeviceState) (k : Sink) (cw : Codeword) :
    (sinkFeed o d k cw).misread = k.misread := by
  unfold sinkFeed
  split
  · unfold sinkData
    split
    · unfold sinkParam
      dsimp only
      split <;> [split <;> rfl; rfl]
    · unfold sinkParam
      dsimp only
      split <;> [split <;> rfl; rfl]
    · unfold sinkRamByte
      split <;> rfl
    · rfl
  · unfold sinkCommand
    dsimp only
    split_ifs <;> rfl

theorem sinkTake_misread (n : Nat) (o : SinkOrder) (d : DeviceState) (strays : List Nat) (k : Sink) (e : Codeword × Nat) :
    (sinkTake n o d strays k e).misread = k.misread := by
  unfold sinkTake
  split
  · rfl
  · unfold sinkRead
    split
    · exact sinkFeed_misread o d k e.1
    · exact sinkFeed_misread o d k e.1

theorem foldl_sinkTake_misread (n : Nat) (o : SinkOrder) (d : DeviceState) (strays : List Nat) (es : List (Codeword × Nat))
    (k : Sink) : (es.foldl (sinkTake n o d strays) k).misread = k.misread := by
  induction es generalizing k with
  | nil => rfl
  | cons e es ih => rw [List.foldl_cons, ih, sinkTake_misread]

/-- A marked codeword makes everything before it in its batch irrelevant. -/
theorem sinkBatch_of_stray {n i : Nat} (o : SinkOrder) (d : DeviceState) {strays : List Nat} {words : List Word16} (k : Sink)
    (hi : i ∈ strays) (hlt : i < (unpackBatch words).length) :
    sinkBatch n o d strays words k =
      ((unpackBatch words).zipIdx.drop (i + 1)).foldl (sinkTake n o d strays)
        { k with toSinkContext := strayContext n i, gram := [] } := by
  have hlen : i < (unpackBatch words).zipIdx.length := by rwa [List.length_zipIdx]
  have hget : (unpackBatch words).zipIdx[i] = ((unpackBatch words)[i], i) := by simp
  rw [sinkBatch]
  conv_lhs => rw [← List.take_append_drop i (unpackBatch words).zipIdx]
  rw [List.foldl_append, List.drop_eq_getElem_cons hlen, List.foldl_cons, hget, sinkTake_stray o d _ _ hi,
    foldl_sinkTake_misread]

/-- Settles O60. -/
theorem undefinedPixelsHoldNoValue : Obligations.UndefinedPixelsHoldNoValue := by
  unfold Obligations.UndefinedPixelsHoldNoValue
  refine ⟨fun i s t hd hx => strays_of_duty hd hx, fun i s t hr hc hk hx => ?_, fun words st s i hst hm hi hlt => ?_,
    fun words st s h => ?_⟩
  · obtain ⟨hcws, hpack, hstrays⟩ := pushedMarked_violator hr hc hk hx
    refine ⟨hcws, List.length_pos_iff.2 fun hnil => ?_, hpack, hstrays⟩
    rw [keepsWindowDuty_of_drawsOf_nil (codewordsOf_eq_nil.1 hnil)] at hk
    cases hk
  · rw [transferred_sink, sinkAfter_batch s words hst hm]
    exact sinkBatch_of_stray _ _ _ hi hlt
  · rw [transferred_sink]
    by_cases hst : st < 0
    · rw [sinkAfter_failed s words hst, decide_eq_true hst]
      rfl
    · rw [sinkAfter_misread s words (by omega) (h.resolve_left hst), decide_eq_false hst]
      rfl

end Sys2Proof.Proofs.UndefinedPixels
end

section
/-! What the reference sink shows of a window on the panel (spec/20_memory.md section 7, R81): opened and armed, the
pixels streamed into it fill it in the order of SINK_ORDER, and opening a window writes no pixel. -/

namespace Sys2Proof.Proofs.SinkPixels

open Sys2Proof Sys2Proof.Machine Sys2Proof.Config Sys2Proof.Safety Sys2Proof.Proofs.SecondWindow

/-! ### The order of the pixels of a window -/

/-- Pixel `n` of a window of width `w` and height `h` at `(x, y)` (R81). -/
def windowPixel (o : SinkOrder) (x y w h n : Nat) : Nat :=
  match o with
  | .rowMajor => gramAddr (x + n % w) (y + n / w % h)
  | .columnMajor => gramAddr (x + n / h % w) (y + n % h)

/-- The place of column `i`, row `j` in that order. -/
def pixelIndex (o : SinkOrder) (w h i j : Nat) : Nat :=
  match o with
  | .rowMajor => j * w + i
  | .columnMajor => i * h + j

theorem gramAddr_inj {x y u v : Nat} (hx : x < 65536) (hu : u < 65536) (h : gramAddr x y = gramAddr u v) :
    x = u ∧ y = v := by
  unfold gramAddr at h
  omega

theorem mul_add_lt {i j m n : Nat} (hi : i < m) (hj : j < n) : i * n + j < m * n := by
  calc i * n + j < i * n + n := Nat.add_lt_add_left hj _
    _ = (i + 1) * n := (Nat.succ_mul i n).symm
    _ ≤ m * n := Nat.mul_le_mul_right n hi

theorem mod_of_mul_add {i w : Nat} (hi : i < w) (j : Nat) : (j * w + i) % w = i := by
  rw [Nat.mul_add_mod', Nat.mod_eq_of_lt hi]

theorem div_of_mul_add {i w : Nat} (hi : i < w) (j : Nat) : (j * w + i) / w = j := by
  rw [Nat.add_comm, Nat.add_mul_div_right i j (by omega), Nat.div_eq_of_lt hi, Nat.zero_add]

section
variable {o : SinkOrder} {w h i j : Nat} (hi : i < w) (hj : j < h)
include hi hj

theorem pixelIndex_lt : pixelIndex o w h i j < w * h := by
  cases o with
  | rowMajor => exact (mul_add_lt hj hi).trans_eq (Nat.mul_comm h w)
  | columnMajor => exact mul_add_lt hi hj

theorem windowPixel_pixelIndex (x y : Nat) :
    windowPixel o x y w h (pixelIndex o w h i j) = gramAddr (x + i) (y + j) := by
  cases o with
  | rowMajor =>
    show gramAddr (x + (j * w + i) % w) (y + (j * w + i) / w % h) = _
    rw [mod_of_mul_add hi, div_of_mul_add hi, Nat.mod_eq_of_lt hj]
  | columnMajor =>
    show gramAddr (x + (i * h + j) / h % w) (y + (i * h + j) % h) = _
    rw [mod_of_mul_add hj, div_of_mul_add hj, Nat.mod_eq_of_lt hi]

end

/-- Every place of the order is that of one column and row. -/
theorem exists_pixelIndex (o : SinkOrder) {w h n : Nat} (hn : n < w * h) :
    ∃ i j, i < w ∧ j < h ∧ n = pixelIndex o w h i j := by
  have hw : 0 < w := Nat.pos_of_ne_zero fun h0 => by rw [h0, Nat.zero_mul] at hn; omega
  have hh : 0 < h := Nat.pos_of_ne_zero fun h0 => by rw [h0, Nat.mul_zero] at hn; omega
  cases o with
  | rowMajor =>
    exact ⟨n % w, n / w, Nat.mod_lt n hw, Nat.div_lt_of_lt_mul hn, (Nat.div_add_mod' n w).symm⟩
  | columnMajor =>
    exact ⟨n / h, n % h, Nat.div_lt_of_lt_mul (by rwa [Nat.mul_comm]), Nat.mod_lt n hh, (Nat.div_add_mod' n h).symm⟩

/-- No pixel of the window comes twice. -/
theorem windowPixel_inj {o : SinkOrder} {x y w h m n : Nat} (hx : x + w ≤ 65536) (hm : m < w * h) (hn : n < w * h)
    (he : windowPixel o x y w h m = windowPixel o x y w h n) : m = n := by
  obtain ⟨i, j, hi, hj, rfl⟩ := exists_pixelIndex o hm
  obtain ⟨i', j', hi', hj', rfl⟩ := exists_pixelIndex o hn
  rw [windowPixel_pixelIndex hi hj, windowPixel_pixelIndex hi' hj'] at he
  obtain ⟨hcol, hrow⟩ := gramAddr_inj (by omega) (by omega) he
  rw [Nat.add_left_cancel hcol, Nat.add_left_cancel hrow]

/-! ### The sink streaming into a window -/

/-- The window of the sink, not reversed and on the panel, in numbers: its corner, its width and its height. -/
structure Opened (d : DeviceState) (k : Sink) (x y w h : Nat) : Prop where
  addr : ∀ o n, sinkAddr o d k n = windowPixel o x y w h n
  onPanel : sinkOnPanel d k = true
  area : sinkArea d k = w * h

/-- RAM mode before pixel `n`, no half pixel pending. -/
structure Streaming (k : Sink) (n : Nat) : Prop where
  mode : k.mode = .ram
  hb : k.hb = none
  count : k.k = n

theorem sinkRead_of_hb_none (o : SinkOrder) (d : DeviceState) {k : Sink} (h : k.hb = none) (cw : Codeword) :
    sinkRead o d k cw = sinkFeed o d k cw := by
  refine sinkRead_of_defined ?_
  unfold sinkDefined
  rw [h]
  cases k.mode <;> rfl

section
variable (o : SinkOrder) (d : DeviceState) {k : Sink}

/-- The sink's window is that of its four range registers, so what keeps these keeps it. -/
theorem Opened.congr {d : DeviceState} {k k' : Sink} {x y w h : Nat} (hk : Opened d k x y w h)
    (hwin : sinkWindow d k' = sinkWindow d k) : Opened d k' x y w h where
  addr o n := by rw [← hk.addr o n, sinkAddr, sinkAddr, hwin]
  onPanel := by rw [← hk.onPanel, sinkOnPanel, sinkOnPanel, hwin]
  area := by rw [← hk.area, sinkArea, sinkArea, hwin]

theorem opened_of_window {d : DeviceState} {k : Sink} {x0 y0 x1 y1 : Word16} (hwin : sinkWindow d k = (x0, x1, y0, y1))
    (hx : x0.toNat ≤ x1.toNat) (hxw : x1.toNat < d.width.toNat) (hy : y0.toNat ≤ y1.toNat)
    (hyh : y1.toNat < d.height.toNat) :
    Opened d k x0.toNat y0.toNat (x1.toNat - x0.toNat + 1) (y1.toNat - y0.toNat + 1) where
  addr o n := by
    unfold sinkAddr
    rw [hwin]
    dsimp only
    rw [if_neg (by omega)]
    rfl
  onPanel := by
    unfold sinkOnPanel
    rw [hwin]
    simp only [hx, hxw, hy, hyh, decide_true, Bool.and_self]
  area := by
    unfold sinkArea
    rw [hwin]

/-- A data byte of a pixel the window has room for (U5, U6). -/
theorem sinkDefined_pixel {d : DeviceState} {k : Sink} {x y w h : Nat} (hk : Opened d k x y w h) (hn : k.k < w * h)
    (b : Byte) : sinkDefined d k (datCodeword b) = true := by
  unfold sinkDefined
  split
  · rw [isData_datCodeword, hk.onPanel, hk.area, decide_eq_true hn]
    rfl
  · rfl

/-- Two bytes of pixel data: one pixel of the window written. -/
theorem sinkRead_pixel {x y w h n : Nat} (hk : Opened d k x y w h) (hs : Streaming k n) (hn : n < w * h) (c : Word16) :
    Opened d ((frameData16 c).foldl (sinkRead o d) k) x y w h ∧
      Streaming ((frameData16 c).foldl (sinkRead o d) k) (n + 1) ∧
      ((frameData16 c).foldl (sinkRead o d) k).gram = gramWrite k.gram (windowPixel o x y w h n) c := by
  obtain ⟨hmode, hhb, hcount⟩ := hs
  have hfirst : sinkRead o d k (datCodeword (hiByte c)) = { k with hb := some (hiByte c) } := by
    rw [sinkRead_of_hb_none o d hhb]
    simp [sinkFeed, sinkData, sinkRamByte, hmode, hhb]
  have hhalf : Opened d { k with hb := some (hiByte c) } x y w h := hk.congr rfl
  have hsecond : sinkRead o d { k with hb := some (hiByte c) } (datCodeword (loByte c)) =
      { k with hb := none, gram := gramWrite k.gram (windowPixel o x y w h n) c, k := n + 1 } := by
    rw [sinkRead_of_defined (sinkDefined_pixel hhalf (hcount ▸ hn) _), ← hhalf.addr o n, ← hcount]
    simp [sinkFeed, sinkData, sinkRamByte, hmode]
  rw [frameData16, List.foldl_cons, List.foldl_cons, List.foldl_nil, hfirst, hsecond]
  exact ⟨hk.congr rfl, ⟨hmode, rfl, rfl⟩, rfl⟩

/-- The pixels `cs` streamed from place `n` on, from `k` to `k'`: each stands where its place is, and nothing else
changes. -/
structure Streamed (o : SinkOrder) (x y w h n : Nat) (cs : List Word16) (k k' : Sink) : Prop where
  streaming : Streaming k' (n + cs.length)
  wf : gramWf k'.gram = true
  shown : ∀ i c, cs[i]? = some c → gramRead k'.gram (windowPixel o x y w h (n + i)) = some c
  other : ∀ a, (∀ i < cs.length, windowPixel o x y w h (n + i) ≠ a) → gramRead k'.gram a = gramRead k.gram a

theorem sinkRead_pixels {x y w h : Nat} (hx : x + w ≤ 65536) (cs : List Word16) {n : Nat} (hk : Opened d k x y w h)
    (hs : Streaming k n) (hg : gramWf k.gram = true) (hn : n + cs.length ≤ w * h) :
    Streamed o x y w h n cs k ((cs.flatMap frameData16).foldl (sinkRead o d) k) := by
  induction cs generalizing k n with
  | nil => exact ⟨hs, hg, fun i c h => absurd h (by simp), fun a _ => rfl⟩
  | cons c cs ih =>
    rw [List.length_cons] at hn
    obtain ⟨hk', hs', hgram⟩ := sinkRead_pixel o d hk hs (by omega) c
    have hg' : gramWf ((frameData16 c).foldl (sinkRead o d) k).gram = true := by rw [hgram]; exact gramWf_write _ _ hg
    obtain ⟨hsn, hgn, hshown, hother⟩ := ih hk' hs' hg' (by omega)
    have hlater {m : Nat} (hm : n < m) (hlt : m < w * h) : windowPixel o x y w h m ≠ windowPixel o x y w h n :=
      fun he => by
        have := windowPixel_inj hx hlt (hm.trans hlt) he
        omega
    rw [List.flatMap_cons, List.foldl_append]
    refine ⟨?_, hgn, fun i c' hi => ?_, fun a ha => ?_⟩
    · rwa [List.length_cons, Nat.add_comm cs.length, ← Nat.add_assoc]
    · cases i with
      | zero =>
        obtain rfl : c = c' := by simpa using hi
        rw [Nat.add_zero, hother _ fun j hj => hlater (by omega) (by omega), hgram, gramRead_write_same]
      | succ i =>
        rw [Nat.add_comm i, ← Nat.add_assoc]
        exact hshown i c' (by simpa using hi)
    · have hfirst : a ≠ windowPixel o x y w h n := fun he => ha 0 (Nat.zero_lt_succ _) he.symm
      rw [hother a fun j hj => ?_, hgram, gramRead_write_other c hg hfirst]
      rw [Nat.add_assoc, Nat.add_comm 1]
      exact ha (j + 1) (Nat.succ_lt_succ hj)

/-! ### Opening a window -/

theorem sinkRead_colFrame (h : k.hb = none) (b e : Word16) :
    (frameRange d.colcmd b e).foldl (sinkRead o d) k =
      { k with
        mode := .colparams, params := [hiByte b, loByte b, hiByte e, loByte e], hb := none, cs := b, ce := e } := by
  simp [frameRange, frameData16, sinkRead, sinkDefined, h, sinkFeed, sinkCommand, sinkData, sinkParam]

theorem sinkRead_rowFrame (hne : d.colcmd ≠ d.rowcmd) (h : k.hb = none) (b e : Word16) :
    (frameRange d.rowcmd b e).foldl (sinkRead o d) k =
      { k with
        mode := .rowparams, params := [hiByte b, loByte b, hiByte e, loByte e], hb := none, rs := b, re := e } := by
  simp [frameRange, frameData16, sinkRead, sinkDefined, h, sinkFeed, sinkCommand, sinkData, sinkParam, hne.symm]

/-- A window frame and the arm: RAM mode before the first pixel of the window, and no pixel written. -/
theorem sinkRead_open (hne : d.colcmd ≠ d.rowcmd) (hcol : d.ramcmd ≠ d.colcmd) (hrow : d.ramcmd ≠ d.rowcmd)
    (h : k.hb = none) (x0 y0 x1 y1 : Word16) :
    sinkWindow d ((frameWindow d x0 y0 x1 y1 ++ [cmdCodeword d.ramcmd]).foldl (sinkRead o d) k) = (x0, x1, y0, y1) ∧
      Streaming ((frameWindow d x0 y0 x1 y1 ++ [cmdCodeword d.ramcmd]).foldl (sinkRead o d) k) 0 ∧
      ((frameWindow d x0 y0 x1 y1 ++ [cmdCodeword d.ramcmd]).foldl (sinkRead o d) k).gram = k.gram := by
  have harm {k : Sink} (hk : k.hb = none) : sinkRead o d k (cmdCodeword d.ramcmd) =
      { k with hb := none, params := [], mode := .ram, k := 0 } := by
    simp [sinkRead_of_hb_none o d hk, sinkFeed, sinkCommand, hcol, hrow]
  rw [List.foldl_append, List.foldl_cons, List.foldl_nil]
  unfold frameWindow sinkWindow
  cases d.orient with
  | portrait =>
    dsimp only
    rw [List.foldl_append, sinkRead_colFrame o d h, sinkRead_rowFrame o d hne rfl, harm rfl]
    exact ⟨rfl, ⟨rfl, rfl, rfl⟩, rfl⟩
  | landscape =>
    dsimp only
    rw [List.foldl_append, sinkRead_rowFrame o d hne h, sinkRead_colFrame o d rfl, harm rfl]
    exact ⟨rfl, ⟨rfl, rfl, rfl⟩, rfl⟩

theorem codewordsOf_drawOpen (x0 y0 x1 y1 : Int) :
    codewordsOf d (drawOpen x0 y0 x1 y1) =
      frameWindow d (trunc16 x0) (trunc16 y0) (trunc16 x1) (trunc16 y1) ++ [cmdCodeword d.ramcmd] := by
  simp [codewordsOf, drawOpen, drawCodewords]

end

/-! ### A point -/

theorem onPanel_zext {d : DeviceState} {x y : Word16} (h : OnPanel d (zext x) (zext y)) :
    x.toNat < d.width.toNat ∧ y.toNat < d.height.toNat := by
  obtain ⟨-, hx, -, hy⟩ := h
  exact ⟨Int.ofNat_lt.1 hx, Int.ofNat_lt.1 hy⟩

theorem windowPixel_one (o : SinkOrder) (x y : Nat) : windowPixel o x y 1 1 0 = gramAddr x y := by
  have h := windowPixel_pixelIndex (o := o) Nat.one_pos Nat.one_pos x y
  rwa [show pixelIndex o 1 1 0 0 = 0 by cases o <;> rfl] at h

/-- Settles O57: a window of one pixel. -/
theorem sinkShowsPoint : Obligations.SinkShowsPoint := by
  unfold Obligations.SinkShowsPoint
  intro o d k x y c hne hcol hrow hg hb hpanel a
  obtain ⟨hx, hy⟩ := onPanel_zext hpanel
  obtain ⟨hwin, hs, hgram⟩ := sinkRead_open o d hne hcol hrow hb x y x y
  have hk := opened_of_window hwin le_rfl hx le_rfl hy
  rw [Nat.sub_self, Nat.sub_self, Nat.zero_add] at hk
  obtain ⟨-, -, hpixel⟩ := sinkRead_pixel o d hk hs Nat.one_pos c
  have hcws : drawCodewords d (.plot (zext x) (zext y) c) =
      frameWindow d x y x y ++ [cmdCodeword d.ramcmd] ++ frameData16 c := by
    rw [drawCodewords, trunc16_zext, trunc16_zext]
  rw [hcws, List.foldl_append, hpixel, windowPixel_one, hgram]
  split
  · next ha => rw [ha, gramRead_write_same]
  · next ha => exact gramRead_write_other c hg ha

/-! ### A window filled with its pixels -/

theorem trunc16_natCast_toNat {n : Nat} (h : n < 65536) : (trunc16 (n : Int)).toNat = n := by
  rw [trunc16, BitVec.ofInt_natCast, BitVec.toNat_ofNat, Nat.mod_eq_of_lt h]

theorem codewordsOf_pixels (d : DeviceState) (cs : List Word16) :
    codewordsOf d (cs.map .pixel) = cs.flatMap frameData16 :=
  List.flatMap_map _ _ _

section
variable (o : SinkOrder) {d : DeviceState} {k : Sink} (hne : d.colcmd ≠ d.rowcmd) (hcol : d.ramcmd ≠ d.colcmd)
  (hrow : d.ramcmd ≠ d.rowcmd) (hb : k.hb = none)
include hne hcol hrow hb

/-- The restore of the full window writes no pixel. -/
theorem sinkRead_restore : ((codewordsOf d (drawRestore d)).foldl (sinkRead o d) k).gram = k.gram := by
  rw [drawRestore, codewordsOf_drawOpen]
  exact (sinkRead_open o d hne hcol hrow hb _ _ _ _).2.2

variable {x y w h : Nat} (hw : 0 < w) (hh : 0 < h) (hxw : x + w ≤ d.width.toNat) (hyh : y + h ≤ d.height.toNat)
include hw hh hxw hyh

theorem opened_drawOpen :
    Opened d ((codewordsOf d (drawOpen x y (x + w - 1) (y + h - 1))).foldl (sinkRead o d) k) x y w h ∧
      Streaming ((codewordsOf d (drawOpen x y (x + w - 1) (y + h - 1))).foldl (sinkRead o d) k) 0 ∧
      ((codewordsOf d (drawOpen x y (x + w - 1) (y + h - 1))).foldl (sinkRead o d) k).gram = k.gram := by
  have hwidth : d.width.toNat < 65536 := d.width.isLt
  have hheight : d.height.toNat < 65536 := d.height.isLt
  have hright : (x : Int) + w - 1 = ((x + w - 1 : Nat) : Int) := by omega
  have hbottom : (y : Int) + h - 1 = ((y + h - 1 : Nat) : Int) := by omega
  have hx0 : (trunc16 (x : Int)).toNat = x := trunc16_natCast_toNat (by omega)
  have hy0 : (trunc16 (y : Int)).toNat = y := trunc16_natCast_toNat (by omega)
  have hx1 : (trunc16 ((x + w - 1 : Nat) : Int)).toNat = x + w - 1 := trunc16_natCast_toNat (by omega)
  have hy1 : (trunc16 ((y + h - 1 : Nat) : Int)).toNat = y + h - 1 := trunc16_natCast_toNat (by omega)
  rw [codewordsOf_drawOpen, hright, hbottom]
  obtain ⟨hwin, hs, hgram⟩ := sinkRead_open o d hne hcol hrow hb (trunc16 x) (trunc16 y) (trunc16 (x + w - 1 : Nat))
    (trunc16 (y + h - 1 : Nat))
  have hk := opened_of_window hwin (by omega) (by omega) (by omega) (by omega)
  rw [hx0, hy0, hx1, hy1, show x + w - 1 - x + 1 = w by omega, show y + h - 1 - y + 1 = h by omega] at hk
  exact ⟨hk, hs, hgram⟩

/-- A window opened, filled with as many pixels as it holds, and left: its pixels in the order of the sink, nothing
outside. -/
theorem gramRead_window (hg : gramWf k.gram = true) {cs : List Word16} (hlen : cs.length = w * h) {u v : Nat}
    (hu : u < 65536) :
    gramRead ((codewordsOf d (drawOpen x y (x + w - 1) (y + h - 1) ++ cs.map .pixel ++ drawRestore d)).foldl
        (sinkRead o d) k).gram (gramAddr u v) =
      if x ≤ u ∧ u < x + w ∧ y ≤ v ∧ v < y + h then cs[pixelIndex o w h (u - x) (v - y)]?
      else gramRead k.gram (gramAddr u v) := by
  have hwidth : d.width.toNat < 65536 := d.width.isLt
  obtain ⟨hk, hs, hgram⟩ := opened_drawOpen o hne hcol hrow hb hw hh hxw hyh
  obtain ⟨hsn, -, hshown, hother⟩ := sinkRead_pixels o d (by omega) cs hk hs (by rw [hgram]; exact hg) (by omega)
  rw [codewordsOf_append, codewordsOf_append, codewordsOf_pixels, List.foldl_append, List.foldl_append,
    sinkRead_restore o hne hcol hrow hsn.hb]
  split
  · next hin =>
    have hcolumn : u - x < w := by omega
    have hline : v - y < h := by omega
    have hlt : pixelIndex o w h (u - x) (v - y) < cs.length := hlen ▸ pixelIndex_lt hcolumn hline
    have hread := hshown _ _ (List.getElem?_eq_getElem hlt)
    rw [Nat.zero_add, windowPixel_pixelIndex hcolumn hline, Nat.add_sub_of_le (by omega),
      Nat.add_sub_of_le (by omega)] at hread
    rw [hread, List.getElem?_eq_getElem hlt]
  · next hout =>
    rw [hother _ fun i hi he => ?_, hgram]
    obtain ⟨a, b, ha, hb, rfl⟩ := exists_pixelIndex o (hlen ▸ hi)
    rw [Nat.zero_add, windowPixel_pixelIndex ha hb] at he
    obtain ⟨rfl, rfl⟩ := gramAddr_inj (by omega) hu he
    omega

end

/-! ### Fills and glyphs -/

/-- Settles O58: every pixel of the window is the colour, whatever the order. -/
theorem sinkShowsFill : Obligations.SinkShowsFill := by
  unfold Obligations.SinkShowsFill
  intro o d k x0 y0 x1 y1 c hne hcol hrow hg hb hpanel x y hx hy
  obtain ⟨-, hp1, hlex, hley⟩ := hpanel
  obtain ⟨hxw, hyh⟩ := onPanel_zext hp1
  have hlex : x0.toNat ≤ x1.toNat := Int.ofNat_le.1 hlex
  have hley : y0.toNat ≤ y1.toNat := Int.ofNat_le.1 hley
  have hright : zext x1 = (x0.toNat : Int) + (x1.toNat - x0.toNat + 1 : Nat) - 1 := by rw [zext]; omega
  have hbottom : zext y1 = (y0.toNat : Int) + (y1.toNat - y0.toNat + 1 : Nat) - 1 := by rw [zext]; omega
  have hcolumns : 0 < x1.toNat - x0.toNat + 1 := Nat.succ_pos _
  have hlines : 0 < y1.toNat - y0.toNat + 1 := Nat.succ_pos _
  have hread := gramRead_window (x := x0.toNat) (y := y0.toNat) o hne hcol hrow hb hcolumns hlines (by omega) (by omega) hg
    (cs := List.replicate (fillCount x0 y0 x1 y1) c) List.length_replicate (v := y) hx
  rw [List.map_replicate, ← hright, ← hbottom] at hread
  refine Eq.trans hread ?_
  by_cases hin : x0.toNat ≤ x ∧ x ≤ x1.toNat ∧ y0.toNat ≤ y ∧ y ≤ y1.toNat
  · have hlt : pixelIndex o _ _ (x - x0.toNat) (y - y0.toNat) < fillCount x0 y0 x1 y1 :=
      pixelIndex_lt (w := x1.toNat - x0.toNat + 1) (h := y1.toNat - y0.toNat + 1) (by omega) (by omega)
    rw [if_pos hin, if_pos (by omega), List.getElem?_replicate, if_pos hlt]
  · rw [if_neg hin, if_neg (by omega)]

/-- Settles O59: the bits of the cell, row by row. -/
theorem sinkShowsBlockGlyph : Obligations.SinkShowsBlockGlyph := by
  unfold Obligations.SinkShowsBlockGlyph
  intro d k x y w h fc bc bits hne hcol hrow hg hb hpanel hlen u v hu hv
  obtain ⟨-, ⟨-, hxw, -, hyh⟩, hlex, hley⟩ := hpanel
  rw [zext] at hxw hyh
  have hread := gramRead_window (x := x) (y := y) (w := w) (h := h) .rowMajor hne hcol hrow hb (by omega) (by omega)
    (by omega) (by omega) hg (cs := bits.map fun b => if b then fc else bc) (by rw [List.length_map, hlen]) (v := v) hu
  rw [List.map_map] at hread
  refine Eq.trans hread ?_
  by_cases hin : x ≤ u ∧ u < x + w ∧ y ≤ v ∧ v < y + h
  · have hlt : (v - y) * w + (u - x) < bits.length :=
      hlen ▸ pixelIndex_lt (o := .rowMajor) (show u - x < w by omega) (show v - y < h by omega)
    rw [if_pos hin, if_pos hin, pixelIndex, List.getElem?_map, List.getElem?_eq_getElem hlt, List.getD_eq_getElem _ _ hlt]
    rfl
  · rw [if_neg hin, if_neg hin]

end Sys2Proof.Proofs.SinkPixels
end

section
/-! The line engine and the circle engine stay within 32 bits (spec/10_state.md R40), also where a failing transfer ends the
operation between two iterations. -/

namespace Sys2Proof.Proofs.EngineRange

open Sys2Proof Sys2Proof.Machine Sys2Proof.Config Sys2Proof.Safety Sys2Proof.Proofs.BatchBound

/-! ### Both ends of a micro-operation -/

theorem ends_mono {P Q : State → Prop} {r : Res} (h : r.Ends P) (hPQ : ∀ t, P t → Q t) : r.Ends Q := by
  cases r with
  | ok t => exact hPQ t h
  | abort t => exact hPQ t h
  | overfull t => exact h

theorem ends_andThen {P Q : State → Prop} {r : Res} {g : State → Res} (h : r.Ends P) (hPQ : ∀ t, P t → Q t)
    (hg : ∀ t, P t → (g t).Ends Q) : (r.andThen g).Ends Q := by
  cases r with
  | ok t => exact hg t h
  | abort t => exact hPQ t h
  | overfull t => exact h

theorem ends_onExit {P Q : State → Prop} {r : Res} {u : State → State} (h : r.Ends P) (hu : ∀ t, P t → Q (u t)) :
    (r.onExit u).Ends Q := by
  cases r with
  | ok t => exact hu t h
  | abort t => exact hu t h
  | overfull t => exact h

/-- A loop each pass of which keeps a property. -/
theorem ends_forEach {α : Type} {P : State → Prop} {f : α → State → Res} (l : List α)
    (h : ∀ a ∈ l, ∀ s, P s → (f a s).Ends P) {s : State} (hs : P s) : (forEach l f s).Ends P := by
  induction l generalizing s with
  | nil => exact hs
  | cons a l ih =>
    exact ends_andThen (h a List.mem_cons_self s hs) (fun _ ht => ht)
      fun t ht => ih (fun b hb => h b (List.mem_cons_of_mem a hb)) ht

theorem ends_forRange {P : State → Prop} {f : Nat → State → Res} (n : Nat) (h : ∀ k < n, ∀ s, P s → (f k s).Ends P)
    {s : State} (hs : P s) : (forRange n f s).Ends P :=
  ends_forEach _ (fun k hk => h k (List.mem_range.1 hk)) hs

/-- The state an operation that ends in a next state ends in. -/
theorem of_finish {P : State → Prop} {r : Res} {t : State} (h : r.Ends P) (hok : ∀ u, P u → P (respond .ok u))
    (habort : ∀ u, P u → P (takeAbort u)) (ht : finish r = .next t) : P t := by
  cases r with
  | ok u => exact Host.Outcome.next.inj ht ▸ hok u h
  | abort u => exact Host.Outcome.next.inj ht ▸ habort u h
  | overfull u => exact h.elim

/-- The engines are those of `s`, and the batch is not full. -/
structure Kept (s t : State) : Prop where
  below : BelowBatch t
  line : t.line = s.line
  circle : t.circle = s.circle
  text : t.text = s.text

/-- Draws do not touch the engines. -/
theorem kept_of_isStream {f : State → Res} {s : State} {ds : List Draw} (hc : BelowBatch s) (h : IsStream f s ds) :
    (f s).Ends (Kept s) := by
  obtain ⟨-, hok⟩ | ⟨j, a, -, hcut⟩ := h.cases
  · rw [hok]
    exact ⟨streamed_cnt_lt ds hc, streamed_line s ds, streamed_circle s ds, streamed_text s ds⟩
  · rw [hcut]
    exact ⟨sendAll_cnt_lt _ hc, cutShort_line s ds j, cutShort_circle s ds j, cutShort_text s ds j⟩

/-! ### The line engine -/

/-- The registers of the line engine within 32 bits. -/
def LineFits (e : LineEngine) : Prop :=
  FitsInt e.dx ∧ FitsInt e.dy ∧ FitsInt e.incx ∧ FitsInt e.incy ∧ FitsInt e.dist ∧ FitsInt e.xerr ∧ FitsInt e.yerr ∧
    FitsInt e.lx ∧ FitsInt e.ly ∧ FitsInt e.t

/-- A coordinate of an operand. -/
def Coordinate (v : Int) : Prop := 0 ≤ v ∧ v < 65536

theorem coordinate_zext (w : Word16) : Coordinate (zext w) := ⟨Int.natCast_nonneg _, Int.ofNat_lt.2 w.isLt⟩

/-- An axis makes at most one step an accumulation. -/
theorem axis_steps_le {m dist k steps err : Nat} (h : Axis m dist k steps err) (hm : m ≤ dist) : steps ≤ k := by
  obtain rfl | hd := Nat.eq_zero_or_pos dist
  · rw [h.still (Nat.le_zero.1 hm)]
    exact Nat.zero_le k
  · have hle : dist * steps ≤ dist * k := by
      calc dist * steps ≤ k * m := h.sum ▸ Nat.le_add_left _ _
        _ ≤ k * dist := Nat.mul_le_mul_left k hm
        _ = dist * k := Nat.mul_comm _ _
    exact Nat.le_of_mul_le_mul_left hle hd

theorem fitsInt_moved {x d : Int} {n : Nat} (hx : Coordinate x) (hn : n ≤ 65536) : FitsInt (x + d.sign * n) := by
  obtain ⟨h0, h1⟩ := hx
  unfold FitsInt
  rcases lt_trichotomy d 0 with h | rfl | h
  · rw [Int.sign_eq_neg_one_of_neg h]
    omega
  · rw [Int.sign_zero]
    omega
  · rw [Int.sign_eq_one_of_pos h]
    omega

theorem fitsInt_sign (d : Int) : FitsInt d.sign := by
  have h := fitsInt_moved (x := 0) (d := d) (n := 1) ⟨le_rfl, by decide⟩ (by decide)
  rwa [Int.zero_add, Nat.cast_one, Int.mul_one] at h

theorem fitsInt_nat {n : Nat} (h : n ≤ 65536) : FitsInt (n : Int) := by
  unfold FitsInt
  omega

/-- The line engine between operand coordinates, within as many iterations as there can be. -/
theorem lineFits_of_lineAt {x1 y1 x2 y2 : Int} (hx1 : Coordinate x1) (hy1 : Coordinate y1) (hx2 : Coordinate x2)
    (hy2 : Coordinate y2) {k : Nat} {e : LineEngine} (h : LineAt x1 y1 x2 y2 k e) (hk : k ≤ 65536) (ht : FitsInt e.t) :
    LineFits e := by
  obtain ⟨hdx, hdy, hdist, hincx, hincy, ⟨px, ex, hax, hex, hlx⟩, py, ey, hay, hey, hly⟩ := h
  have hbx : (x2 - x1).natAbs ≤ 65536 := by obtain ⟨_, _⟩ := hx1; obtain ⟨_, _⟩ := hx2; omega
  have hby : (y2 - y1).natAbs ≤ 65536 := by obtain ⟨_, _⟩ := hy1; obtain ⟨_, _⟩ := hy2; omega
  have hmax : max (x2 - x1).natAbs (y2 - y1).natAbs ≤ 65536 := Nat.max_le.2 ⟨hbx, hby⟩
  have hpx := axis_steps_le hax (Nat.le_max_left _ _)
  have hpy := axis_steps_le hay (Nat.le_max_right _ _)
  unfold LineFits
  rw [hdx, hdy, hdist, hincx, hincy, hex, hey, hlx, hly]
  exact ⟨fitsInt_nat hbx, fitsInt_nat hby, fitsInt_sign _, fitsInt_sign _, fitsInt_nat hmax,
    fitsInt_nat (hax.le.trans hmax), fitsInt_nat (hay.le.trans hmax), fitsInt_moved hx1 (hpx.trans hk),
    fitsInt_moved hy1 (hpy.trans hk), ht⟩

/-- The batch not full and the line engine within 32 bits. -/
def LineOk (s : State) : Prop := BelowBatch s ∧ LineFits s.line

section
variable {x1 y1 x2 y2 : Int} (hx1 : Coordinate x1) (hy1 : Coordinate y1) (hx2 : Coordinate x2) (hy2 : Coordinate y2)
include hx1 hy1 hx2 hy2

/-- The iterations `k` to `k + n - 1`, at most 65536 in all. -/
theorem lineLoop_ends (n : Nat) {k : Nat} {s : State} (hc : BelowBatch s) (h : LineAt x1 y1 x2 y2 k s.line)
    (hs : LineFits s.line) (hn : k + n ≤ 65536) : (forEach (List.range' k n) lineStep s).Ends LineOk := by
  induction n generalizing k s with
  | zero => exact ⟨hc, hs⟩
  | succ n ih =>
    have hnext : LineAt x1 y1 x2 y2 (k + 1) (lineAdvance k s.line) := lineAt_advance k h
    have hfits : LineFits (lineAdvance k s.line) :=
      lineFits_of_lineAt hx1 hy1 hx2 hy2 hnext (by omega) (fitsInt_nat (n := k) (by omega))
    have hplot : (lineStep k s).Ends (Kept { s with line := lineAdvance k s.line }) :=
      kept_of_isStream (s := { s with line := lineAdvance k s.line }) hc (isStream_plot _ _ _ hc)
    rw [List.range'_succ]
    refine ends_andThen hplot (fun t ht => ⟨ht.below, ?_⟩) fun t ht => ih ht.below ?_ ?_ (by omega)
    · rw [ht.line]
      exact hfits
    · rw [ht.line]
      exact hnext
    · rw [ht.line]
      exact hfits

theorem doLine_ends {s : State} (hc : BelowBatch s) : (doLine x1 y1 x2 y2 s).Ends LineOk := by
  have hstart := lineAt_setup x1 y1 x2 y2
  have hfits := lineFits_of_lineAt hx1 hy1 hx2 hy2 hstart (Nat.zero_le _) (fitsInt_nat (n := 0) (Nat.zero_le _))
  have hdist : (lineSetup x1 y1 x2 y2).dist.toNat + 1 ≤ 65536 := by
    have hd := hstart.2.2.1
    obtain ⟨_, _⟩ := hx1
    obtain ⟨_, _⟩ := hx2
    obtain ⟨_, _⟩ := hy1
    obtain ⟨_, _⟩ := hy2
    omega
  show (forEach (List.range _) lineStep { s with line := lineSetup x1 y1 x2 y2 }).Ends LineOk
  rw [List.range_eq_range']
  exact lineLoop_ends hx1 hy1 hx2 hy2 _ (s := { s with line := lineSetup x1 y1 x2 y2 }) hc hstart hfits (by omega)

theorem doRect_ends {s : State} (hc : BelowBatch s) : (doRect x1 y1 x2 y2 s).Ends LineOk := by
  have hnext {r : Res} {a b c d : Int} (ha : Coordinate a) (hb : Coordinate b) (hc : Coordinate c) (hd : Coordinate d)
      (h : r.Ends LineOk) : (r.andThen (doLine a b c d)).Ends LineOk :=
    ends_andThen h (fun _ ht => ht) fun _ ht => doLine_ends ha hb hc hd ht.1
  exact hnext hx2 hy1 hx2 hy2 (hnext hx1 hy2 hx2 hy2 (hnext hx1 hy1 hx1 hy2 (doLine_ends hx1 hy1 hx2 hy1 hc)))

end

/-! ### The circle engine -/

/-- The registers of the circle engine within 32 bits. -/
def CircleFits (e : CircleEngine) : Prop := FitsInt e.cx ∧ FitsInt e.cy ∧ FitsInt e.d ∧ FitsInt e.yi

/-- The circle engine of radius `r` after `i` iterations: how far the decision value can have gone. -/
structure CircleAt (r i : Nat) (e : CircleEngine) : Prop where
  cx : e.cx = i
  cy_le : e.cy ≤ r
  le_cy : -1 ≤ e.cy
  le_d : -4 * (r : Int) ≤ e.d + 3
  d_le : e.d ≤ 4 * (r : Int) + 10 * i + 6
  yi : FitsInt e.yi

theorem circleAt_setup (r : Nat) {e : CircleEngine} (h : FitsInt e.yi) : CircleAt r 0 (circleSetup r e) where
  cx := rfl
  cy_le := le_rfl
  le_cy := by show -1 ≤ (r : Int); omega
  le_d := by show -4 * (r : Int) ≤ 3 - 2 * r + 3; omega
  d_le := by show (3 - 2 * r : Int) ≤ 4 * (r : Int) + 10 * (0 : Nat) + 6; omega
  yi := h

theorem circleAt_advance {r i : Nat} {e : CircleEngine} (h : CircleAt r i e) (hle : e.cx ≤ e.cy) :
    CircleAt r (i + 1) (circleAdvance e) := by
  obtain ⟨hcx, hcy, hcy', hd, hd', hyi⟩ := h
  unfold circleAdvance
  split
  · exact ⟨by dsimp only; omega, hcy, hcy', by dsimp only; omega, by dsimp only; omega, hyi⟩
  · exact ⟨by dsimp only; omega, by dsimp only; omega, by dsimp only; omega, by dsimp only; omega, by dsimp only; omega, hyi⟩

theorem circleFits_of_circleAt {r i : Nat} {e : CircleEngine} (h : CircleAt r i e) (hr : r < 65536) (hi : i ≤ 65536) :
    CircleFits e := by
  obtain ⟨hcx, hcy, hcy', hd, hd', hyi⟩ := h
  refine ⟨?_, ?_, ?_, hyi⟩ <;> unfold FitsInt <;> omega

/-- The batch not full and the circle engine within 32 bits. -/
def CircleOk (s : State) : Prop := BelowBatch s ∧ CircleFits s.circle

/-- The plots of an iteration leave the recurrence alone; of the engine they write YI only, up to CY. -/
theorem circlePlots_ends (xc yc : Int) (filled : Bool) {r i : Nat} {s : State} (hr : r < 65536) (hc : BelowBatch s)
    (h : CircleAt r i s.circle) (hle : s.circle.cx ≤ s.circle.cy) :
    (circlePlots xc yc filled s).Ends fun t =>
      BelowBatch t ∧ CircleAt r i t.circle ∧ t.circle.cx = s.circle.cx ∧ t.circle.cy = s.circle.cy := by
  unfold circlePlots
  split
  · refine ends_forRange _ (fun j hj t ⟨htc, hat, hcx, hcy⟩ => ?_) ⟨hc, h, rfl, rfl⟩
    have hyi : FitsInt (t.circle.cx + j) := by
      obtain ⟨hx, hy, -⟩ := h
      unfold FitsInt
      omega
    refine ends_mono (kept_of_isStream (s := { t with circle := { t.circle with yi := t.circle.cx + j } }) htc
      (isStream_plot8 xc yc _ _ htc)) fun u hu => ?_
    rw [hu.circle]
    exact ⟨hu.below, ⟨hat.cx, hat.cy_le, hat.le_cy, hat.le_d, hat.d_le, hyi⟩, hcx, hcy⟩
  · refine ends_mono (kept_of_isStream hc (isStream_plot8 xc yc _ _ hc)) fun u hu => ?_
    rw [hu.circle]
    exact ⟨hu.below, h, rfl, rfl⟩

/-- The iterations from `i` on, at most `n` of them. -/
theorem circleLoop_ends (xc yc : Int) (filled : Bool) {r : Nat} (hr : r < 65536) (n : Nat) {i : Nat} {s : State}
    (hc : BelowBatch s) (h : CircleAt r i s.circle) (hn : i + n ≤ 65536) : (circleLoop xc yc filled n s).Ends CircleOk := by
  induction n generalizing i s with
  | zero => exact ⟨hc, circleFits_of_circleAt h hr hn⟩
  | succ n ih =>
    rw [circleLoop]
    split
    · next hle =>
      refine ends_andThen (circlePlots_ends xc yc filled hr hc h hle)
        (fun t ⟨htc, hat, _⟩ => ⟨htc, circleFits_of_circleAt hat hr (by omega)⟩) fun t ⟨htc, hat, hcx, hcy⟩ => ?_
      exact ih (s := { t with circle := circleAdvance t.circle }) htc (circleAt_advance hat (by rw [hcx, hcy]; exact hle))
        (by omega)
    · exact ⟨hc, circleFits_of_circleAt h hr (by omega)⟩

theorem doCircle_ends (xc yc : Int) (filled : Bool) {r : Nat} (hr : r < 65536) {s : State} (hc : BelowBatch s)
    (h : CircleFits s.circle) : (doCircle xc yc r filled s).Ends CircleOk :=
  circleLoop_ends xc yc filled hr (r + 1) (s := { s with circle := circleSetup r s.circle }) hc (circleAt_setup r h.2.2.2)
    (by omega)

end Sys2Proof.Proofs.EngineRange
end

section
/-! The text engine stays within 32 bits (spec/10_state.md R40), also where a failing transfer ends the operation
inside a glyph; and so the engines of every operation. -/

namespace Sys2Proof.Proofs.TextRange

open Sys2Proof Sys2Proof.Machine Sys2Proof.Config Sys2Proof.Safety Sys2Proof.Proofs.BatchBound
open Sys2Proof.Proofs.EngineRange Sys2Proof.Proofs.DrawingStreams Sys2Proof.Proofs.OperandDomains
open Sys2Proof.Proofs.FullBatch Sys2Proof.Proofs.EveryEnd

/-! ### Inside a glyph -/

/-- The counters of a glyph within 32 bits. -/
structure CellFits (e : TextEngine) : Prop where
  gp : FitsInt e.gp
  gt : FitsInt e.gt
  px : FitsInt e.px
  py : FitsInt e.py

/-- Inside a glyph drawn with the text engine at `e`: its cursor as there, the counters within 32 bits. -/
structure Blitting (e : TextEngine) (s : State) : Prop where
  below : BelowBatch s
  cursor : CursorSame s.text e
  cell : CellFits s.text

theorem blitting_of_kept {e : TextEngine} {s t : State} (hs : Blitting e s) (h : Kept s t) : Blitting e t where
  below := h.below
  cursor := by rw [h.text]; exact hs.cursor
  cell := by rw [h.text]; exact hs.cell

theorem blitting_ends {e : TextEngine} {f : State → Res} {s : State} {ds : List Draw} (hs : Blitting e s)
    (h : IsStream f s ds) : (f s).Ends (Blitting e) :=
  ends_mono (kept_of_isStream hs.below h) fun _ => blitting_of_kept hs

theorem asciiPx_le (sz : AsciiSize) : asciiPx sz ≤ 16 := by
  cases sz <;> decide

theorem asciiCells_ends {e : TextEngine} (sz : AsciiSize) {f : Nat → Nat → State → Res}
    (hf : ∀ gp gt s, Blitting e s → (f gp gt s).Ends (Blitting e)) {s : State} (hs : Blitting e s) :
    (asciiCells sz f s).Ends (Blitting e) := by
  have hpx := asciiPx_le sz
  refine ends_forRange _ (fun gp hgp t ht => ends_forRange _ (fun gt hgt u hu => hf gp gt _ ?_) ht) hs
  exact ⟨hu.below, hu.cursor, ⟨fitsInt_nat (by omega), fitsInt_nat (by omega), hu.cell.px, hu.cell.py⟩⟩

/-- A window opened, cells, the restore. -/
theorem block_ends {e : TextEngine} {cells : State → Res} (x0 y0 x1 y1 : Int) {s : State} (hs : Blitting e s)
    (h : ∀ t, Blitting e t → (cells t).Ends (Blitting e)) :
    (((openWindow x0 y0 x1 y1 s).andThen cells).andThen restoreFull).Ends (Blitting e) := by
  have hopen := blitting_ends hs (isStream_openWindow x0 y0 x1 y1 hs.below)
  exact ends_andThen (ends_andThen hopen (fun _ ht => ht) h) (fun _ ht => ht)
    fun t ht => blitting_ends ht (isStream_restoreFull ht.below)

theorem asciiBlit_ends {e : TextEngine} (x y : Int) (bc : Word16) (rows : List Byte) (sz : AsciiSize) (point : Bool)
    {s : State} (hs : Blitting e s) : (asciiBlit x y bc rows sz point s).Ends (Blitting e) := by
  unfold asciiBlit
  split
  · exact asciiCells_ends sz (fun gp gt t ht => blitting_ends ht (isStream_pointPixel _ _ _ ht.below)) hs
  · exact block_ends _ _ _ _ hs fun t ht =>
      asciiCells_ends sz (fun gp gt u hu => blitting_ends hu (isStream_blockPixel _ _ hu.below)) ht

theorem fitsInt_atPixel {x y : Int} {sz : WideSize} {n : Nat} {e : TextEngine} (hx : Coordinate x) (hy : Coordinate y)
    (h : AtPixel x y (widePx sz) n e) (hn : n ≤ 1024) : FitsInt e.px ∧ FitsInt e.py := by
  obtain ⟨hpx, hpy⟩ := h
  obtain ⟨hx0, hx1⟩ := hx
  obtain ⟨hy0, hy1⟩ := hy
  have hmod : n % widePx sz ≤ n := Nat.mod_le _ _
  have hdiv : n / widePx sz ≤ n := Nat.div_le_self _ _
  rw [hpx, hpy]
  generalize n % widePx sz = a at hmod
  generalize n / widePx sz = b at hdiv
  unfold FitsInt
  omega

/-- The row and column counters belong to the ASCII path (R201). -/
theorem advancePos_counters (x : Int) (sz : WideSize) (s : State) :
    (advancePos x sz s).text.gp = s.text.gp ∧ (advancePos x sz s).text.gt = s.text.gt := by
  unfold advancePos
  split <;> exact ⟨rfl, rfl⟩

/-- One pixel on in a double-byte glyph. -/
theorem blitting_advancePos {e : TextEngine} {x y : Int} (hx : Coordinate x) (hy : Coordinate y) {sz : WideSize} {n : Nat}
    {s : State} (hs : Blitting e s) (h : AtPixel x y (widePx sz) n s.text) (hn : n < 1024) :
    Blitting e (advancePos x sz s) ∧ AtPixel x y (widePx sz) (n + 1) (advancePos x sz s).text := by
  obtain ⟨k, ⟨htx, hty, hxs, hsi, -⟩, hat, hpos⟩ := advancePos_at x y sz n s h
  obtain ⟨hgp, hgt⟩ := advancePos_counters x sz s
  obtain ⟨hpx, hpy⟩ := fitsInt_atPixel hx hy hat hn
  rw [hpos] at hgp hgt ⊢
  obtain ⟨ctx, cty, cxs, csi⟩ := hs.cursor
  exact ⟨⟨hs.below, ⟨htx.trans ctx, hty.trans cty, hxs.trans cxs, hsi.trans csi⟩,
    ⟨hgp ▸ hs.cell.gp, hgt ▸ hs.cell.gt, hpx, hpy⟩⟩, hat⟩

/-- The point-mode loop of a double-byte glyph from pixel `n` on. -/
theorem wideLoop_ends {e : TextEngine} {x y : Int} (hx : Coordinate x) (hy : Coordinate y) (sz : WideSize) (bits : List Bool)
    {n : Nat} {s : State} (hs : Blitting e s) (h : AtPixel x y (widePx sz) n s.text) (hn : n + bits.length ≤ 1024) :
    (forEach bits (fun bit s => (pointPixel s.text.px s.text.py bit s).andThen fun s => .ok (advancePos x sz s)) s).Ends
      (Blitting e) := by
  induction bits generalizing n s with
  | nil => exact hs
  | cons b bits ih =>
    rw [List.length_cons] at hn
    have hplot := kept_of_isStream hs.below (isStream_pointPixel s.text.px s.text.py b hs.below)
    rw [forEach, andThen_assoc]
    refine ends_andThen hplot (fun t ht => blitting_of_kept hs ht) fun t ht => ?_
    obtain ⟨hblit, hat⟩ := blitting_advancePos hx hy (blitting_of_kept hs ht) (by rw [ht.text]; exact h) (by omega)
    rw [andThen_ok]
    exact ih hblit hat (by omega)

theorem wideBlit_ends {e : TextEngine} {x y : Int} (hx : Coordinate x) (hy : Coordinate y) (bc : Word16) {bm : List Byte}
    (hbm : (bitmapBits bm).length ≤ 1024) (sz : WideSize) (point : Bool) {s : State} (hs : Blitting e s) :
    (wideBlit x y bc bm sz point s).Ends (Blitting e) := by
  have hstart : AtPixel x y (widePx sz) 0 (startPos x y s).text := by
    refine ⟨?_, ?_⟩
    · show x = x + (0 % widePx sz : Nat)
      rw [Nat.zero_mod, Nat.cast_zero, Int.add_zero]
    · show y = y + (0 / widePx sz : Nat)
      rw [Nat.zero_div, Nat.cast_zero, Int.add_zero]
  obtain ⟨hpx, hpy⟩ := fitsInt_atPixel hx hy hstart (Nat.zero_le _)
  unfold wideBlit
  split
  · exact wideLoop_ends hx hy sz _ (s := startPos x y s) ⟨hs.below, hs.cursor, ⟨hs.cell.gp, hs.cell.gt, hpx, hpy⟩⟩ hstart
      (by omega)
  · exact block_ends _ _ _ _ hs fun t ht =>
      ends_forEach _ (fun bit _ u hu => blitting_ends hu (isStream_blockPixel bc bit hu.below)) ht

/-! ### A glyph between entry and exit (R212) -/

theorem doChar_ends {e : TextEngine} (x y : Int) (fc bc : Word16) (ch : Byte) (sz : AsciiSize) (point : Bool) {s : State}
    (hs : Blitting e s) : (doChar x y fc bc ch sz point s).Ends (Blitting e) :=
  ends_onExit (asciiBlit_ends x y bc _ sz point (s := enterText fc s)
      ⟨hs.below, hs.cursor, ⟨hs.cell.gp, hs.cell.gt, hs.cell.px, hs.cell.py⟩⟩)
    fun _ ht => ⟨ht.below, ht.cursor, ht.cell⟩

theorem wideBits_le (b : Board) (sz : WideSize) (k : Nat) : (bitmapBits (wideBitmap b sz k)).length ≤ 1024 := by
  rw [TextOnPanel.wideBits_length]
  cases sz <;> decide

theorem doGlyph_ends {e : TextEngine} {x y : Int} (hx : Coordinate x) (hy : Coordinate y) (fc bc code : Word16)
    (sz : WideSize) (point : Bool) {s : State} (hs : Blitting e s) :
    (doGlyph x y fc bc code sz point s).Ends (Blitting e) := by
  unfold doGlyph
  split
  · exact hs
  · exact ends_onExit (wideBlit_ends hx hy bc (wideBits_le _ _ _) sz point (s := enterText fc s)
      ⟨hs.below, hs.cursor, ⟨hs.cell.gp, hs.cell.gt, hs.cell.px, hs.cell.py⟩⟩) fun _ ht => ⟨ht.below, ht.cursor, ht.cell⟩

/-! ### A string -/

/-- The registers of the text engine within 32 bits. -/
def TextFits (e : TextEngine) : Prop :=
  FitsInt e.tx ∧ FitsInt e.ty ∧ FitsInt e.xs ∧ FitsInt e.si ∧ FitsInt e.gp ∧ FitsInt e.gt ∧ FitsInt e.px ∧ FitsInt e.py

/-- The batch not full and the text engine within 32 bits. -/
def TextOk (s : State) : Prop := BelowBatch s ∧ TextFits s.text

/-- A string with `m` bytes left to read: the cursor between the panel's coordinates, each byte read having moved it
down by no more than a size. -/
structure Reading (m : Nat) (e : TextEngine) : Prop where
  tx : Coordinate e.tx
  xs : Coordinate e.xs
  ty_nonneg : 0 ≤ e.ty
  ty_le : e.ty ≤ 65535 + 255 * e.si
  si_nonneg : 0 ≤ e.si
  si_le : e.si + m ≤ 65535
  cell : CellFits e

theorem textFits_of_reading {m : Nat} {e : TextEngine} (h : Reading m e) : TextFits e := by
  obtain ⟨⟨_, _⟩, ⟨_, _⟩, _, _, _, _, hgp, hgt, hpx, hpy⟩ := h
  refine ⟨?_, ?_, ?_, ?_, hgp, hgt, hpx, hpy⟩ <;> unfold FitsInt <;> omega

/-- A glyph leaves the cursor. -/
theorem reading_of_blitting {m : Nat} {e : TextEngine} {s : State} (h : Reading m e) (hs : Blitting e s) :
    Reading m s.text := by
  obtain ⟨htx, hty, hxs, hsi⟩ := hs.cursor
  obtain ⟨ctx, cxs, h0, hle, hsi0, hsile, -⟩ := h
  exact ⟨htx ▸ ctx, hxs ▸ cxs, hty ▸ h0, hty ▸ hsi ▸ hle, hsi ▸ hsi0, hsi ▸ hsile, hs.cell⟩

theorem coordinate_of_fits {x y : Int} {adv size : Nat} {d : DeviceState} (hx : 0 ≤ x) (hy : 0 ≤ y)
    (h : fits x y adv size d = true) : Coordinate (x + adv) ∧ Coordinate y := by
  rw [fits, Bool.and_eq_true, decide_eq_true_eq, decide_eq_true_eq] at h
  obtain ⟨hright, hbottom⟩ := h
  obtain ⟨-, hw⟩ := coordinate_zext d.width
  obtain ⟨-, hh⟩ := coordinate_zext d.height
  exact ⟨⟨by omega, by omega⟩, ⟨hy, by omega⟩⟩

theorem reading_advanceCursor {m n adv : Nat} {s : State} (h : Reading (m + n) s.text) (hx : Coordinate (s.text.tx + adv)) :
    Reading m (advanceCursor adv n s).text := by
  obtain ⟨-, cxs, h0, hle, hsi0, hsile, hcell⟩ := h
  have hsi : (advanceCursor adv n s).text.si = s.text.si + n := rfl
  have hty : (advanceCursor adv n s).text.ty = s.text.ty := rfl
  exact ⟨hx, cxs, h0, by omega, by omega, by omega, ⟨hcell.gp, hcell.gt, hcell.px, hcell.py⟩⟩

theorem reading_carriageReturn {m size : Nat} {s : State} (h : Reading (m + 1) s.text) (hsize : size ≤ 255) :
    Reading m (carriageReturn size s).text := by
  obtain ⟨-, cxs, h0, hle, hsi0, hsile, hcell⟩ := h
  have hsi : (carriageReturn size s).text.si = s.text.si + 1 := rfl
  have hty : (carriageReturn size s).text.ty = s.text.ty + size := rfl
  exact ⟨cxs, cxs, by omega, by omega, by omega, by omega, ⟨hcell.gp, hcell.gt, hcell.px, hcell.py⟩⟩

theorem reading_skipByte {m : Nat} {s : State} (h : Reading (m + 1) s.text) : Reading m (skipByte s).text := by
  obtain ⟨ctx, cxs, h0, hle, hsi0, hsile, hcell⟩ := h
  have hsi : (skipByte s).text.si = s.text.si + 1 := rfl
  have hty : (skipByte s).text.ty = s.text.ty := rfl
  exact ⟨ctx, cxs, h0, by omega, by omega, by omega, ⟨hcell.gp, hcell.gt, hcell.px, hcell.py⟩⟩

theorem blitting_self {m : Nat} {s : State} (hc : BelowBatch s) (h : Reading m s.text) : Blitting s.text s :=
  ⟨hc, ⟨rfl, rfl, rfl, rfl⟩, h.cell⟩

theorem stringChar_ends {m : Nat} (fc bc : Word16) (size : Byte) (point : Bool) (b : Byte) {s : State} (hc : BelowBatch s)
    (h : Reading m s.text) : (stringChar fc bc size point b s).Ends (Blitting s.text) := by
  unfold stringChar
  split
  · exact doChar_ends _ _ fc bc b _ point (blitting_self hc h)
  · exact blitting_self hc h

theorem stringGlyph_ends {m : Nat} (fc bc : Word16) (size : Byte) (point : Bool) (code : Word16) {s : State}
    (hc : BelowBatch s) (h : Reading m s.text) (hy : Coordinate s.text.ty) :
    (stringGlyph fc bc size point code s).Ends (Blitting s.text) := by
  unfold stringGlyph
  split
  · exact doGlyph_ends h.tx hy fc bc code _ point (blitting_self hc h)
  · exact blitting_self hc h

/-- A character drawn, the cursor moved by `adv` past its `n` bytes, and the `m` bytes after it. -/
theorem stringStep_ends {m n adv : Nat} {f rest : State → Res} {s : State} (h : Reading (m + n) s.text)
    (hx : Coordinate (s.text.tx + adv)) (hf : (f s).Ends (Blitting s.text))
    (hrest : ∀ t, BelowBatch t → Reading m t.text → (rest t).Ends TextOk) :
    ((f s).andThen fun s => rest (advanceCursor adv n s)).Ends TextOk := by
  refine ends_andThen hf (fun t ht => ⟨ht.below, textFits_of_reading (reading_of_blitting h ht)⟩) fun t ht => ?_
  exact hrest _ ht.below (reading_advanceCursor (reading_of_blitting h ht) (ht.cursor.1 ▸ hx))

/-- Along the loop's branches (R209): an ASCII character, a carriage return, a lead byte, any other byte. -/
theorem stringLoop_ends (fc bc : Word16) (size : Byte) (point : Bool) :
    (bytes : List Byte) → ∀ s, BelowBatch s → Reading bytes.length s.text →
      (stringLoop fc bc size point bytes s).Ends TextOk
  | [], s, hc, h => ⟨hc, textFits_of_reading h⟩
  | b :: rest, s, hc, h => by
    have hstay : TextOk s := ⟨hc, textFits_of_reading h⟩
    have hsize : size.toNat ≤ 255 := Nat.le_of_lt_succ size.isLt
    unfold stringLoop
    split
    · split
      · next hfits =>
        obtain ⟨hx, -⟩ := coordinate_of_fits h.tx.1 h.ty_nonneg hfits
        exact stringStep_ends h hx (stringChar_ends fc bc size point b hc h) (stringLoop_ends fc bc size point rest)
      · exact hstay
    · split
      · exact stringLoop_ends fc bc size point rest _ hc (reading_carriageReturn h hsize)
      · split
        · match rest, h with
          | [], _ => exact hstay
          | b1 :: rest', h =>
            dsimp only
            split
            · next hfits =>
              obtain ⟨hx, hy⟩ := coordinate_of_fits h.tx.1 h.ty_nonneg hfits
              exact stringStep_ends (n := 2) h hx (stringGlyph_ends fc bc size point (be16 b b1) hc h hy)
                (stringLoop_ends fc bc size point rest')
            · exact hstay
        · exact stringLoop_ends fc bc size point rest _ hc (reading_skipByte h)

theorem doString_ends {x y : Int} (hx : Coordinate x) (hy : Coordinate y) (fc bc : Word16) (size : Byte) (point : Bool)
    {bytes : List Byte} (hl : bytes.length ≤ 65535) {s : State} (hc : BelowBatch s) (h : CellFits s.text) :
    (doString x y fc bc size point bytes s).Ends TextOk := by
  have hstart : Reading bytes.length (startCursor x y s).text := by
    have hsi : (startCursor x y s).text.si = 0 := rfl
    have hty : (startCursor x y s).text.ty = y := rfl
    obtain ⟨hy0, hy1⟩ := hy
    exact ⟨hx, hx, hy0, by omega, by omega, by omega, ⟨h.gp, h.gt, h.px, h.py⟩⟩
  exact stringLoop_ends fc bc size point bytes _ hc hstart

/-! ### Every operation -/

theorem lineFits_exec {i : Instr} {s t : State} (hi : engineOf i = .line) (hr : s.ready = true) (hc : s.pack.cnt < batch)
    (hx : exec i s = .next t) : LineFits t.line := by
  have hfin {r : Res} (h : r.Ends LineOk) (ht : finish r = .next t) : LineFits t.line :=
    (of_finish h (fun _ hu => hu) (fun _ hu => hu) ht).2
  have hz := coordinate_zext
  cases i with
  | line x1 y1 x2 y2 =>
    rw [exec_line hr] at hx
    exact hfin (doLine_ends (hz x1) (hz y1) (hz x2) (hz y2) hc) hx
  | rect x1 y1 x2 y2 =>
    rw [exec_rect hr] at hx
    exact hfin (doRect_ends (hz x1) (hz y1) (hz x2) (hz y2) hc) hx
  | _ => cases hi

theorem circleFits_exec {i : Instr} {s t : State} (hi : engineOf i = .circle) (hr : s.ready = true)
    (hc : s.pack.cnt < batch) (hl : legal i s = true) (h : CircleFits s.circle) (hx : exec i s = .next t) :
    CircleFits t.circle := by
  cases i with
  | circle xc yc r filled =>
    rw [exec_circle hr _ _ _ (bitOperand_of_ok hl)] at hx
    exact (of_finish (doCircle_ends _ _ _ r.isLt hc h) (fun _ hu => hu) (fun _ hu => hu) hx).2
  | _ => cases hi

theorem cellFits_of_textFits {e : TextEngine} (h : TextFits e) : CellFits e := by
  obtain ⟨-, -, -, -, hgp, hgt, hpx, hpy⟩ := h
  exact ⟨hgp, hgt, hpx, hpy⟩

theorem textFits_of_blitting {e : TextEngine} {s : State} (he : TextFits e) (h : Blitting e s) : TextOk s := by
  obtain ⟨htx, hty, hxs, hsi, -⟩ := he
  obtain ⟨ctx, cty, cxs, csi⟩ := h.cursor
  exact ⟨h.below, ctx ▸ htx, cty ▸ hty, cxs ▸ hxs, csi ▸ hsi, h.cell.gp, h.cell.gt, h.cell.px, h.cell.py⟩

theorem textFits_string {x y fc bc : Word16} {size mode : Byte} {bytes : List Byte} {s t : State} (hr : s.ready = true)
    (hc : s.pack.cnt < batch) (hsz : textSizeOk size = true) (hm : bitOk mode = true) (hl : bytes.length ≤ 65535)
    (h : TextFits s.text) (hx : exec (.string x y fc bc size mode bytes) s = .next t) : TextFits t.text := by
  rw [exec_string hr x y fc bc hsz (bitOperand_of_ok hm) hl] at hx
  exact (of_finish (doString_ends (coordinate_zext x) (coordinate_zext y) fc bc size _ hl hc (cellFits_of_textFits h))
    (fun _ hu => hu) (fun _ hu => hu) hx).2

theorem textFits_exec {i : Instr} {s t : State} (hi : engineOf i = .text) (hr : s.ready = true) (hc : s.pack.cnt < batch)
    (hl : legal i s = true) (h : TextFits s.text) (hx : exec i s = .next t) : TextFits t.text := by
  have hself : Blitting s.text s := ⟨hc, ⟨rfl, rfl, rfl, rfl⟩, cellFits_of_textFits h⟩
  have hfin {r : Res} (hends : r.Ends (Blitting s.text)) (ht : finish r = .next t) : TextFits t.text :=
    (of_finish (ends_mono hends fun _ => textFits_of_blitting h) (fun _ hu => hu) (fun _ hu => hu) ht).2
  cases i with
  | char x y fc bc ch size mode =>
    simp only [legal, Instr.wellFormed, Bool.and_eq_true] at hl
    obtain ⟨⟨hch, hsz⟩, hm⟩ := hl
    obtain ⟨sz, hsz⟩ := asciiSize_of_ok hsz
    rw [exec_char hr x y fc bc hch hsz (bitOperand_of_ok hm)] at hx
    split at hx
    · exact hfin (doChar_ends _ _ fc bc ch sz _ hself) hx
    · exact hfin (r := .ok s) hself hx
  | glyph x y fc bc code size mode =>
    simp only [legal, Instr.wellFormed, Bool.and_eq_true] at hl
    obtain ⟨hsz, hm⟩ := hl
    obtain ⟨sz, hsz⟩ := wideSize_of_ok hsz
    rw [exec_glyph hr x y fc bc code hsz (bitOperand_of_ok hm)] at hx
    split at hx
    · exact hfin (doGlyph_ends (coordinate_zext x) (coordinate_zext y) fc bc code sz _ hself) hx
    · exact hfin (r := .ok s) hself hx
  | string x y fc bc size mode bytes =>
    simp only [legal, Instr.wellFormed, Bool.and_eq_true, decide_eq_true_eq] at hl
    obtain ⟨⟨hsz, hm⟩, hlen⟩ := hl
    exact textFits_string hr hc hsz hm hlen h hx
  | number x y fc bc num len size mode =>
    simp only [legal, Instr.wellFormed, Bool.and_eq_true, decide_eq_true_eq] at hl
    obtain ⟨⟨⟨h1, h10⟩, hsz⟩, hm⟩ := hl
    rw [ByDefinition.execNumber_eq_execString x y fc bc num size mode s h1 h10] at hx
    exact textFits_string hr hc hsz hm (by rw [ByDefinition.numberString_length]; omega) h hx
  | _ => cases hi

theorem engineInv_below {i : Instr} {s t : State} (hr : s.ready = true) (hc : s.pack.cnt < batch) (hl : legal i s = true)
    (h : EngineInv s) (hx : exec i s = .next t) : EngineInv t := by
  obtain ⟨-, -, -, hline, hcircle, htext, -⟩ := Writers.registersHaveTheirWriters i s t hx
  obtain ⟨hl0, hc0, ht0⟩ := h
  refine ⟨?_, ?_, ?_⟩
  · by_cases hi : engineOf i = .line
    · exact lineFits_exec hi hr hc hx
    · rw [hline hi]
      exact hl0
  · by_cases hi : engineOf i = .circle
    · exact circleFits_exec hi hr hc hl hc0 hx
    · rw [hcircle hi]
      exact hc0
  · by_cases hi : engineOf i = .text
    · exact textFits_exec hi hr hc hl ht0 hx
    · rw [htext hi]
      exact ht0

/-- Met full, the batch changes nothing but where the operation ends: its engines are those of the same operation from
an empty batch. -/
theorem engineInv_full {i : Instr} {s t : State} (hu : ungated i = false) (hne : isTeardown i = false) (hr : s.ready = true)
    (hc : batch ≤ s.pack.cnt) (hl : legal i s = true) (h : EngineInv s) (hx : exec i s = .next t) : EngineInv t := by
  have hbelow : (withPack PackBuffer.reset s).pack.cnt < batch := Nat.zero_lt_succ _
  have hself : withPack s.pack (withPack PackBuffer.reset s) = s := rfl
  obtain ⟨u, hxu, -, -, hxp⟩ | ⟨hfault, -⟩ := blocks_legal (s := withPack PackBuffer.reset s) (p := s.pack) hu hne hr hbelow
    hc (show legal i (withPack PackBuffer.reset s) = true from hl)
  · have hinv : EngineInv u := engineInv_below (s := withPack PackBuffer.reset s) hr hbelow hl h hxu
    rw [hself, hx] at hxp
    obtain rfl := Host.Outcome.next.inj hxp
    exact hinv
  · rw [hself, hx] at hfault
    cases hfault

theorem engineInv_exec (i : Instr) (s t : State) (h : EngineInv s) (hx : exec i s = .next t) : EngineInv t := by
  have hkept (he : t.line = s.line ∧ t.circle = s.circle ∧ t.text = s.text) : EngineInv t := by
    obtain ⟨hline, hcircle, htext⟩ := he
    unfold EngineInv
    rwa [hline, hcircle, htext]
  obtain ⟨b, rfl⟩ | ⟨f, b, rfl⟩ | rfl | ⟨hu, hne⟩ := ungated_cases i
  · exact hkept (Writers.systemWrites_init hx).engines
  · rw [setcolors_end hx]
    exact h
  · exact hkept (Writers.teardown_writes hx).1.engines
  · cases Endings.ended hu hne hx with
    | closed hr => exact h
    | illegal hr hl => exact h
    | done k y z hr hl hc hw hk hduty =>
      obtain hc | hc := Nat.lt_or_ge s.pack.cnt batch
      · exact engineInv_below hr hc hl h hx
      · exact engineInv_full hu hne hr hc hl h hx
    | cut j k hr hl hc hj hk => exact engineInv_below hr hc hl h hx

/-- Settles O52. -/
theorem engineRegistersStayInRange : Obligations.EngineRegistersStayInRange := by
  unfold Obligations.EngineRegistersStayInRange
  exact fun s t h hx => ByDefinition.step_keeps (P := EngineInv) (fun _ hs => hs) (fun _ _ hs => hs) engineInv_exec h hx

end Sys2Proof.Proofs.TextRange
end
